-- ==== Sys2Proof/Word.lean ====
section
/-! DEFINITION. The words, index types and saturating counters the Q464 is described with. -/

namespace Sys2Proof

/-- A byte of a record or of the link's eight data lines. -/
abbrev Byte := BitVec 8

/-- A 16-bit record field (R181, chapter 11). -/
abbrev Half := BitVec 16

/-- A 32-bit register word, record tag or counter. -/
abbrev Word := BitVec 32

/-- A 64-bit host memory address. -/
abbrev Address := BitVec 64

/-- A channel index 0..63 (R1). -/
abbrev ChannelId := Fin 64

/-- A port number 0..3. -/
abbrev PortId := Fin 4

/-- A link number 0..63 (R21). -/
abbrev LinkNumber := Fin 64

/-- A ring the Completion Unit owns: 0..3 are CQ0..CQ3, 4 is NQ (R142). -/
abbrev RingId := Fin 5

/-- A cell of the Relay Unit's pool, 0..31 (R127). -/
abbrev CellId := Fin 32

/-- The maximum of a saturating counter, FFFFFFFFh (R19, R83, R141). -/
abbrev counterMax : Word := 0xFFFFFFFF#32

/-- Adds to a 32-bit counter that stops at its maximum (the Counters convention of 00_scope.md). -/
def satAdd (c : Word) (n : Nat) : Word :=
  if c.toNat + n < 4294967295 then BitVec.ofNat 32 (c.toNat + n) else counterMax

/-- Caps a count at 65535 (total length of R119, lost count of R150). -/
def sat16 (n : Nat) : Nat := min n 65535

end Sys2Proof
end

