-- ==== Sys2Proof/Config.lean ====
section
/-! DEFINITION. The fixed sizes of the Q464: what the part number, not the host program, decides. -/

namespace Sys2Proof.Config

/-- Part code that IDENT returns (R172). -/
def partCode : BitVec 16 := 0x0464#16

/-- Revision that IDENT returns (R172). -/
def revision : BitVec 8 := 1#8

/-- Capacity of a port's inbound staging, in expanded bytes (R60). -/
def inboundStaging : Nat := 512

/-- Capacity of a port's outbound staging, in payload bytes (R60, R99). -/
def outboundStaging : Nat := 2048

/-- Bytes of one relay cell (R127). -/
def cellBytes : Nat := 1024

/-- Most bytes of one payload read, buffer write, cell move or cell copy (R99, R113, R131, R134). -/
def transferBytes : Nat := 256

/-- Most payload reads, or cell copies, in flight for a staged channel (R99, R134). -/
def readsInFlight : Nat := 4

/-- Most inbound writes and cell moves of one port in flight (R113, R131). -/
def writesInFlight : Nat := 4

/-- Room of an OUT channel's list of fetched records (R88). -/
def sendRecordsHeld : Nat := 4

/-- Room of an IN channel's list of fetched records (R109). -/
def supplyRecordsHeld : Nat := 8

/-- Room of the list of fetched commands (R156). -/
def commandsHeld : Nat := 4

/-- Most deferred commands (R160). -/
def deferredCommands : Nat := 16

/-- Longest run one REPEAT carries (R53). -/
def longestRun : Nat := 63

/-- Shortest run coded as a REPEAT (R53). -/
def shortestRun : Nat := 3

/-- Most outbound credits a Link Map half holds (R21, R24). -/
def creditLimit : Nat := 255

end Sys2Proof.Config
end

