-- ==== Sys2Proof/Syntax.lean ====
section
/-! DEFINITION. The commands and events that reach the Q464, one constructor of Instr per row of spec/opcode_table.json,
with the records and replies they carry. -/

namespace Sys2Proof

/-- A byte as the ten lines D0-D7, FLAG and PAR carry it (R40). -/
structure WireByte where
  flag : Bool
  par : Bool
  data : Byte
  deriving DecidableEq, Repr

/-- What a host memory read returns: its bytes, or a bus error with the failing address (R176). -/
inductive ReadReply where
  | data (bytes : List Byte)
  | busError (address : Address)
  deriving DecidableEq, Repr

/-- What a host memory write returns: accepted, or a bus error with the failing address (R176). -/
inductive WriteReply where
  | accepted
  | busError (address : Address)
  deriving DecidableEq, Repr

/-- A command record as read from the command ring: its header and its 24 parameter bytes
(chapter 11, Command record). The three reserved header bytes are not kept, since R180 ignores them. -/
structure CommandRecord where
  opcode : Byte
  mode : Byte
  tag : Half
  subject : Byte
  params : List Byte
  deriving DecidableEq, Repr

/-- The steps of the part, one constructor per row of spec/opcode_table.json. A host register write carries the
written fields; a host memory return carries the identity of the request and the reply; a command take carries the fields
of the command record it takes; a link event carries its port. -/
inductive Instr where
  /-- HARDWARE_RESET (R179). -/
  | hardwareReset
  /-- START: a CTRL write with START alone (R173). -/
  | start
  /-- HALT: a CTRL write with HALT (R179). -/
  | halt
  /-- INTMASK_WRITE (R155, R172). -/
  | intmaskWrite (value : Word)
  /-- REGISTER_WRITE: any write to the register window, by offset, width in bytes and value (R172). -/
  | registerWrite (offset : BitVec 6) (width : Nat) (value : Word)
  /-- NOTIFY_CHANNEL: a NOTIFY with target 0..63 (R6). -/
  | notifyChannel (channel : ChannelId) (index : BitVec 12) (arm : Bool)
  /-- NOTIFY_COMMAND_RING: a NOTIFY with target 64 (R156). -/
  | notifyCommandRing (index : BitVec 12) (arm : Bool)
  /-- NOTIFY_RING_CONSUMER: a NOTIFY with target 65..69; the ring is target − 65 (R151). -/
  | notifyRingConsumer (ring : RingId) (index : BitVec 12) (arm : Bool)
  /-- NOTIFY_BAD_TARGET: a NOTIFY with target 70..255 (R175). -/
  | notifyBadTarget (target : Byte) (index : BitVec 12) (arm : Bool)
  /-- ROOT_TABLE_READ_DONE (R173). -/
  | rootTableReadDone (request : Nat) (reply : ReadReply)
  /-- COMMAND_FETCH_DONE (R157). -/
  | commandFetchDone (request : Nat) (reply : ReadReply)
  /-- OPEN (R4). -/
  | openChannel (tag : Half) (channel kind : Byte) (base : Address) (size : Half) (port number ring cls options : Byte)
  /-- OPEN_RELAY (R5). -/
  | openRelay (tag : Half) (inbound outbound inPort inNumber outPort outNumber cls cells options : Byte)
  /-- CLOSE_GRACEFUL: CLOSE with mode GRACEFUL, or with a mode byte that is neither mode (R9, R180). -/
  | closeGraceful (tag : Half) (channel mode : Byte)
  /-- CLOSE_ABORT: CLOSE with mode ABORT (R9). -/
  | closeAbort (tag : Half) (channel : Byte)
  /-- SET_RING (R163). -/
  | setRing (tag : Half) (ring : Byte) (base : Address) (size : Half) (threshold : Byte) (time : Half)
  /-- PORT_SETUP with the nine settings (R62). -/
  | portSetup (tag : Half) (port role : Byte) (slice budget hold accept turnWait : Half) (recover retries : Byte)
      (drain : Half)
  /-- PORT_ENABLE (R63). -/
  | portEnable (tag : Half) (port : Byte)
  /-- PORT_DISABLE_GRACEFUL: PORT_DISABLE with mode GRACEFUL, or with a mode byte that is neither mode (R77, R180). -/
  | portDisableGraceful (tag : Half) (port mode : Byte)
  /-- PORT_DISABLE_ABRUPT: PORT_DISABLE with mode ABRUPT (R81). -/
  | portDisableAbrupt (tag : Half) (port : Byte)
  /-- READ_STATS (R164). -/
  | readStats (tag : Half) (subject mode kind : Byte) (destination : Address)
  /-- BARRIER (R169). -/
  | barrier (tag : Half) (subject : Byte)
  /-- NOP (R170). -/
  | nop (tag : Half) (subject : Byte)
  /-- UNKNOWN_OPCODE: a command with an opcode of 0Ah..FFh (R159, R180). -/
  | unknownOpcode (opcode : Byte) (tag : Half) (subject : Byte)
  /-- STATS_WRITE_DONE (R168). -/
  | statsWriteDone (request : Nat) (reply : WriteReply)
  /-- RECORD_FETCH_DONE (R7). -/
  | recordFetchDone (request : Nat) (reply : ReadReply)
  /-- PAYLOAD_READ_DONE (R99). -/
  | payloadReadDone (request : Nat) (reply : ReadReply)
  /-- BUFFER_WRITE_DONE (R113). -/
  | bufferWriteDone (request : Nat) (reply : WriteReply)
  /-- CELL_MOVE_DONE (R131). -/
  | cellMoveDone (move : Nat)
  /-- CELL_COPY_DONE (R134). -/
  | cellCopyDone (copy : Nat)
  /-- RECORD_WRITE_DONE (R148). -/
  | recordWriteDone (request : Nat) (reply : WriteReply)
  /-- COALESCING_TIMER_EXPIRY (R153). -/
  | coalescingTimerExpiry (ring : RingId)
  /-- BYTE_ACCEPTED: ACK rises (R58). -/
  | byteAccepted (port : PortId)
  /-- BYTE_RETURNED: ACK falls (R58). -/
  | byteReturned (port : PortId)
  /-- ACCEPT_LIMIT_EXPIRY (R58). -/
  | acceptLimitExpiry (port : PortId)
  /-- PEER_BYTE_OFFERED: STB rises with a byte on the lines (R59). -/
  | peerByteOffered (port : PortId) (byte : WireByte)
  /-- WITHHELD_ACCEPT (R59). -/
  | withheldAccept (port : PortId)
  /-- PEER_BYTE_RETURNED: STB falls (R59). -/
  | peerByteReturned (port : PortId)
  /-- ENGAGEMENT: ENGI high while ENGAGING (R64). -/
  | engagement (port : PortId)
  /-- ENGI_FALL (R73). -/
  | engiFall (port : PortId)
  /-- OWNI_RISE (R71). -/
  | owniRise (port : PortId)
  /-- OWNI_FALL (R67). -/
  | owniFall (port : PortId)
  /-- REQI_RISE (R69). -/
  | reqiRise (port : PortId)
  /-- SETTLE_TIMER_EXPIRY (R65). -/
  | settleTimerExpiry (port : PortId)
  /-- TAKE_TIMER_EXPIRY (R71). -/
  | takeTimerExpiry (port : PortId)
  /-- TURN_WAIT_EXPIRY (R67). -/
  | turnWaitExpiry (port : PortId)
  /-- HOLD_TIMER_EXPIRY (R69). -/
  | holdTimerExpiry (port : PortId)
  /-- RECOVER_EXPIRY (R75). -/
  | recoverExpiry (port : PortId)
  /-- DRAIN_LIMIT_EXPIRY (R79). -/
  | drainLimitExpiry (port : PortId)
  /-- REQI_FALL (R69). -/
  | reqiFall (port : PortId)
  /-- ENGI_RISE in a port state other than ENGAGING (R75). -/
  | engiRise (port : PortId)
  deriving DecidableEq, Repr

end Sys2Proof
end

