-- ==== Sys2Proof/Machine/State.lean ====
section
/-! DEFINITION. The state of the Q464 as plain data, block by block, and its value after hardware reset. -/

namespace Sys2Proof.Machine

/-! ## The channel table (chapter 1) -/

/-- The five channel states of section 1.2; `opened` is the manual's OPEN. -/
inductive ChannelState where
  | closed | opened | draining | aborting | faulted
  deriving DecidableEq, Repr

/-- The channel kinds of R1; `inn` is the manual's IN. -/
inductive Kind where
  | out | inn | relayIn | relayOut
  deriving DecidableEq, Repr

/-- The break policy of an outbound channel (R105, R106). -/
inductive BreakPolicy where
  | fail | restart
  deriving DecidableEq, Repr

/-- The overflow policy of an inbound channel (R114, R115, R116). -/
inductive OverflowPolicy where
  | drop | truncate | chain
  deriving DecidableEq, Repr

/-- The fault cause of a channel (R17); `clear` is the manual's NONE. -/
inductive FaultCause where
  | clear | ringRead | payloadRead | bufferWrite
  deriving DecidableEq, Repr

/-- The modes of CLOSE (R9). -/
inductive CloseMode where
  | graceful | abort
  deriving DecidableEq, Repr

/-- The phases of an outbound message state (R89). -/
inductive Phase where
  | idle | waiting | ready | started
  deriving DecidableEq, Repr

/-- The modes of an inbound message state (R110). -/
inductive InMode where
  | writing | truncating | dropping
  deriving DecidableEq, Repr

/-- A send record (R87) or a supply record (R108) as fetched: `size` is the send record's length or the supply record's
capacity, and `plain` the send record's PLAIN flag. -/
structure HostRecord where
  address : Address
  size : Nat
  plain : Bool
  tag : Word
  deriving DecidableEq, Repr

/-- The outbound message state of R89 and R134. The current record is the head of the list of fetched records whenever the
phase is not IDLE. `spoiled` marks that a payload read error has changed the status of the record's coming completion from
CANCELLED to FAULT (R101). -/
structure OutMessage where
  phase : Phase
  offset : Nat
  restarted : Bool
  reserved : Bool
  spoiled : Bool
  deriving DecidableEq, Repr

/-- The inbound message state of R110 and R130. `buffer` names the current buffer's entry among the buffers of the Device, which
counts the bytes carried by issued writes; `message` names the open message, so that staged bytes can be matched to it. -/
structure InMessage where
  buffer : Option Nat
  message : Nat
  fill : Nat
  total : Nat
  mode : InMode
  deriving DecidableEq, Repr

/-- The counters of R19. -/
structure ChannelCounters where
  messages : Word
  payloadBytes : Word
  wireBytes : Word
  restarts : Word
  oversize : Word
  truncated : Word
  abandoned : Word
  linkLost : Word
  deriving DecidableEq, Repr

/-- Where the revoke stands that the close or the fault of an inbound channel has asked for (R11, R13, R17, R137, R139): not accepted
yet; accepted by the peer; or not to be accepted any more, since the port was neither ACTIVE nor QUIESCING when it was asked for or has
left since (R15, R34, R138). -/
inductive RevokeState where
  | waiting | accepted | gone
  deriving DecidableEq, Repr

/-- A channel context (R1). `opening` is the identity of the present opening (R7), `fetchBusy` says that a fetch of this opening is in
flight (R88, R109), and `revoke` keeps for a closing inbound channel that its revoke is over, which a later revoke of its number by the
port's quiesce (R39) does not undo (entry 39). -/
structure Channel where
  state : ChannelState
  kind : Kind
  port : PortId
  number : LinkNumber
  ring : Fin 4
  cls : Fin 4
  compress : Bool
  breakPolicy : BreakPolicy
  overflow : OverflowPolicy
  base : Address
  size : Nat
  producer : Nat
  fetch : Nat
  retire : Nat
  held : List HostRecord
  out : OutMessage
  inm : InMessage
  partner : ChannelId
  cells : Nat
  cause : FaultCause
  pendingClose : Option (CloseMode × Half)
  counters : ChannelCounters
  opening : Nat
  fetchBusy : Bool
  revoke : RevokeState
  deriving DecidableEq, Repr

/-! ## The Link Map and the pending control list (chapter 2) -/

/-- The outbound half of a Link Map entry (R21). -/
structure OutHalf where
  owner : Option ChannelId
  credits : Nat
  openMark : Bool
  deriving DecidableEq, Repr

/-- The inbound half of a Link Map entry (R21). -/
structure InHalf where
  owner : Option ChannelId
  granted : Nat
  inFlight : Nat
  revokePending : Bool
  openMark : Bool
  discard : Bool
  deriving DecidableEq, Repr

/-- A Link Map entry (R21). -/
structure MapEntry where
  outbound : OutHalf
  inbound : InHalf
  deriving DecidableEq, Repr

/-- An entry of a pending control list (R37). -/
inductive ControlEntry where
  | grant (number : LinkNumber) (value : Nat)
  | revoke (number : LinkNumber)
  | abandon (number : LinkNumber)
  deriving DecidableEq, Repr

/-! ## Framing and transfers (chapters 3 and 4) -/

/-- A unit the encoder forms (R52, R53). -/
inductive CodedUnit where
  | plain (byte : Byte)
  | rep (count : Nat) (byte : Byte)
  deriving DecidableEq, Repr

/-- The unit under build of R42: the unit being offered for a channel's message on a number, with the mark that the REPEAT
byte of the unit has been accepted. -/
structure Build where
  channel : ChannelId
  number : LinkNumber
  coded : CodedUnit
  repeatAccepted : Bool
  deriving DecidableEq, Repr

/-- The byte the part offers and what it is offered for: a SELECT or the command byte of the head of the pending control list
(R37), or a SELECT, REPEAT, data or END COMPLETE byte of a channel's message (R94). A data byte carries the expanded bytes its
unit stands for, an END COMPLETE the message's expanded length. -/
inductive Offer where
  | entrySelect (number : LinkNumber)
  | entryByte (entry : ControlEntry)
  | msgSelect (channel : ChannelId) (number : LinkNumber)
  | msgRepeat (channel : ChannelId) (number : LinkNumber) (count : Nat)
  | msgData (channel : ChannelId) (number : LinkNumber) (byte : Byte) (expanded : Nat)
  | msgEnd (channel : ChannelId) (number : LinkNumber) (length : Nat)
  deriving DecidableEq, Repr

/-- The transfer of a byte the part sends: none, offered and not accepted, or accepted and not returned (R58). -/
inductive Transfer where
  | idle
  | offered (byte : Offer)
  | accepted (byte : Offer)
  deriving DecidableEq, Repr

/-- The transfer of a byte the peer sends: none, offered with acceptance withheld, or accepted and not returned (R59). -/
inductive Reception where
  | idle | withheld | accepted
  deriving DecidableEq, Repr

/-- Where a staged inbound byte goes: a host buffer, by its entry among the buffers of the Device, or a relay cell of the pair of
an inbound index. -/
inductive Destination where
  | buffer (buffer : Nat)
  | cell (pair : ChannelId) (cell : CellId)
  deriving DecidableEq, Repr

/-- A byte of inbound staging with its place in its destination (R60, R112). -/
structure StagedByte where
  dest : Destination
  offset : Nat
  byte : Byte
  deriving DecidableEq, Repr

/-- Bytes standing together at an offset: of a payload in outbound staging, or of a relay cell. -/
structure Segment where
  offset : Nat
  bytes : List Byte
  deriving DecidableEq, Repr

/-- A payload read in flight whose bytes outbound staging still expects (R99). -/
structure StagingRead where
  id : Nat
  offset : Nat
  deriving DecidableEq, Repr

/-- A copy of cell bytes into outbound staging in flight (R134). -/
structure CellCopy where
  id : Nat
  offset : Nat
  bytes : List Byte
  deriving DecidableEq, Repr

/-- Outbound staging (R98): the staged channel, the payload held, the first payload position not yet held or in flight, and the
reads or copies in flight. -/
structure OutStaging where
  channel : Option ChannelId
  segments : List Segment
  next : Nat
  reads : List StagingRead
  copies : List CellCopy
  deriving DecidableEq, Repr

/-! ## Ports (chapter 4) -/

/-- The six port states of section 4.3. -/
inductive PortState where
  | disabled | engaging | active | quiescing | broken | failed
  deriving DecidableEq, Repr

/-- The turn states of section 4.4; `off` is the manual's NONE. -/
inductive TurnState where
  | off | ours | offered | theirs | asked
  deriving DecidableEq, Repr

/-- The port roles (R62). -/
inductive Role where
  | lead | follow
  deriving DecidableEq, Repr

/-- The nine settings of R62; HOLD_LIMIT and ACCEPT_LIMIT in µs, TURN_WAIT, RECOVER and DRAIN_LIMIT in ms. -/
structure PortSettings where
  role : Role
  slice : Nat
  turnBudget : Nat
  holdLimit : Nat
  acceptLimit : Nat
  turnWait : Nat
  recover : Nat
  drainLimit : Nat
  retries : Nat
  deriving DecidableEq, Repr

/-- A timer: stopped, or running since it was started with a time in µs. Its expiry is an event of its own. -/
inductive Timer where
  | stopped
  | running (us : Nat)
  deriving DecidableEq, Repr

/-- The hold timer of R69 in the present turn. -/
inductive Hold where
  | off
  | running (us : Nat)
  | expired
  deriving DecidableEq, Repr

/-- The sub-codes of a PROTOCOL break (R49, R72). -/
inductive SubCode where
  | noSelect | badRepeat | repeatOrphan | badEnd | strayAbandon | creditViolation | creditOverflow | collision
  | unaskedRelease
  deriving DecidableEq, Repr

/-- The last break cause of R73; `clear` is the manual's NONE. -/
inductive BreakCause where
  | clear | peerLeft | abrupt | timeoutAccept | timeoutTake | turnStarved | parity
  | protocol (sub : SubCode)
  deriving DecidableEq, Repr

/-- The counters of R83. -/
structure PortCounters where
  engagements : Word
  breaks : Word
  turnsTaken : Word
  turnsReleased : Word
  wireSent : Word
  wireReceived : Word
  controlSent : Word
  controlReceived : Word
  withheld : Word
  discarded : Word
  deriving DecidableEq, Repr

/-- The levels of the lines the peer drives (R57): ENGI, OWNI, REQI, STB and the byte on D0-D7, FLAG and PAR. -/
structure PeerLines where
  engi : Bool
  owni : Bool
  reqi : Bool
  stb : Bool
  byte : WireByte
  deriving DecidableEq, Repr

/-- A port record (R61) with its Link Map, its pending control list, its framing state (R42), its staging (R60) and its
scheduler (R91). `headOffered` says that the head of the pending control list is being offered (R68), `passBegun` that a pass
of the list has sent an entry and the list is not yet empty (R70), and `selectSent` that the SELECT of the current pick has been
accepted and its unit not yet offered (R68). The pick carries the wire bytes accepted in its slice. -/
structure Port where
  state : PortState
  settings : PortSettings
  turn : TurnState
  turnBytes : Nat
  hold : Hold
  settled : Bool
  retryCount : Nat
  peerReleased : Bool
  lastBreak : BreakCause
  pendingDisable : Option Half
  acceptTimer : Timer
  takeTimer : Timer
  settleTimer : Timer
  turnWaitTimer : Timer
  recoverTimer : Timer
  drainTimer : Timer
  map : Vector MapEntry 64
  control : List ControlEntry
  headOffered : Bool
  passBegun : Bool
  selection : Option LinkNumber
  repeatPending : Option (Nat × LinkNumber)
  build : Option Build
  tx : Transfer
  rx : Reception
  classes : Vector (List ChannelId) 4
  pick : Option (ChannelId × Nat)
  selectSent : Bool
  inStaging : List StagedByte
  outStaging : OutStaging
  counters : PortCounters
  lines : PeerLines
  deriving DecidableEq, Repr

/-! ## The Relay Unit (chapter 7) -/

/-- An entry of a relay queue: a finished message's cell and length (R127). -/
structure RelayEntry where
  cell : CellId
  length : Nat
  deriving DecidableEq, Repr

/-- A pair record (R127). `cut` says that the outbound side of the draining pair has been cut (R138). -/
structure RelayPair where
  inbound : ChannelId
  outbound : ChannelId
  reserved : Nat
  spare : List CellId
  filling : Option CellId
  queue : List RelayEntry
  cut : Bool
  deriving DecidableEq, Repr

/-- The relay counters of R141. -/
structure RelayCounters where
  forwarded : Word
  droppedOversize : Word
  truncated : Word
  abandoned : Word
  linkLost : Word
  deriving DecidableEq, Repr

/-- A move of staged bytes into a cell in progress (R131). -/
structure CellMove where
  id : Nat
  port : PortId
  cell : CellId
  offset : Nat
  bytes : List Byte
  deriving DecidableEq, Repr

/-- The Relay Unit (R127): the cells' contents as far as moves into them have completed, the free list, the pair records under
their inbound indices, the relay counters, and the moves in progress. -/
structure RelayUnit where
  cells : Vector (List Segment) 32
  free : List CellId
  pairs : Vector (Option RelayPair) 64
  counters : Vector RelayCounters 64
  moves : List CellMove
  deriving DecidableEq, Repr

/-! ## The Completion Unit (chapter 8) -/

/-- Completion statuses (chapter 11, Completion record). -/
inductive Status where
  | sent | cancelled | linkLost | fault | delivered | truncated | oversize | abandoned | aborted
  deriving DecidableEq, Repr

/-- Command results (R159). -/
inductive Result where
  | ok | badIndex | badParam | badState | keyInUse | busy | noResource | superseded
  deriving DecidableEq, Repr

/-- Codes of HOST_ERROR notices (R177). -/
inductive HostError where
  | badNotify | ringRead | payloadRead | bufferWrite | statsWrite
  deriving DecidableEq, Repr

/-- Codes of PORT_EVENT notices (chapter 11, Notice record). -/
inductive PortEvent where
  | active
  | failed
  | broke (cause : BreakCause)
  deriving DecidableEq, Repr

/-- What a notice tells (R147 table of section 8.4). -/
inductive NoticeBody where
  | commandDone (subject : Byte) (result : Result) (tag : Half) (detail : Nat)
  | portEvent (port : PortId) (event : PortEvent)
  | channelFaulted (channel : ChannelId) (cause : FaultCause)
  | hostError (subject : Byte) (code : HostError) (detail : Word)
  deriving DecidableEq, Repr

/-- A posted completion (R102, R118). `buffer` names the buffer whose data writes the record waits for (R113), if any. -/
structure Completion where
  channel : ChannelId
  status : Status
  tag : Word
  length : Nat
  total : Nat
  continued : Bool
  restarted : Bool
  buffer : Option Nat
  deriving DecidableEq, Repr

/-- The contents of a posted record: a completion, or a notice with the lost count it took (R149). -/
inductive RecordBody where
  | completion (c : Completion)
  | notice (body : NoticeBody) (lost : Nat)
  deriving DecidableEq, Repr

/-- A posted record; `order` is its place in the order of all postings (R147). -/
structure Posted where
  order : Nat
  body : RecordBody
  deriving DecidableEq, Repr

/-- A requester of a ring's waiting list (R145). -/
inductive Requester where
  | outRecord (channel : ChannelId)
  | inHalf (port : PortId) (number : LinkNumber)
  | commandUnit
  deriving DecidableEq, Repr

/-- The interrupt states of section 8.6. -/
inductive InterruptState where
  | armed | raised
  deriving DecidableEq, Repr

/-- A ring record (R142) with its write queue and the record write in flight (R147), by the record's place in posting order. The
lap mark is `true` for 1. NQ's lost count stands in the Device. `gained` says that the ring has gained room at the present event, so that
its waiting list is walked at the event's end (R145); between events it is no. -/
structure Ring where
  isSet : Bool
  base : Address
  size : Nat
  producer : Nat
  consumer : Nat
  reserved : Nat
  lap : Bool
  threshold : Nat
  time : Nat
  interrupt : InterruptState
  timer : Timer
  waiting : List Requester
  queue : List Posted
  writing : Option Nat
  gained : Bool
  deriving DecidableEq, Repr

/-- A buffer that inbound bytes are written to, from the message start or chain step that takes it until its completion record is
written: the channel, its opening and the message it is filled for; the host address; the bytes placed for it; of these, the
bytes carried by issued writes; the issued writes not yet returned; the bytes of writes accepted without error; and whether its
completion is FAULT (R113, R118, R122). -/
structure Buffer where
  id : Nat
  channel : ChannelId
  opening : Nat
  message : Nat
  address : Address
  placed : Nat
  issued : Nat
  outstanding : Nat
  acceptedBytes : Nat
  failed : Bool
  deriving DecidableEq, Repr

/-! ## The Command Unit (chapter 9) -/

/-- The work of a deferred command (R160); a CLOSE of a pair names its inbound index, a READ_STATS its statistics write. -/
inductive DeferredWork where
  | close (mode : CloseMode) (channel : ChannelId)
  | portDisable (port : PortId)
  | readStats (request : Nat)
  | barrier
  deriving DecidableEq, Repr

/-- An entry of the deferred list (R160) with the subject byte its notice echoes (R159). -/
structure Deferred where
  work : DeferredWork
  tag : Half
  subject : Byte
  deriving DecidableEq, Repr

/-- The fields of R156. -/
structure CommandUnit where
  base : Address
  size : Nat
  producer : Nat
  fetch : Nat
  taken : Nat
  held : List CommandRecord
  fetchBusy : Bool
  deferred : List Deferred
  slotHeld : Bool
  deriving DecidableEq, Repr

/-! ## The Host Bus Port and Engine Control (chapter 10) -/

/-- The block and purpose a memory request was placed for (R176, R177). `discarded` is a payload read of a message
reported lost, whose result is discarded on return, error included (R106). -/
inductive Access where
  | rootTable
  | commandFetch
  | recordFetch (channel : ChannelId) (opening : Nat)
  | payloadRead (port : PortId) (channel : ChannelId) (opening : Nat)
  | bufferWrite (port : PortId) (buffer : Nat)
  | recordWrite (ring : RingId) (order : Nat)
  | statsWrite
  | discarded
  deriving DecidableEq, Repr

/-- A memory request placed and not yet returned (R176); `data` holds the bytes of a write. -/
structure Request where
  id : Nat
  access : Access
  address : Address
  length : Nat
  data : List Byte
  deriving DecidableEq, Repr

/-- The engine states of section 10.2. -/
inductive EngineState where
  | halted | starting | running | faulted
  deriving DecidableEq, Repr

/-- The engine fault causes (R177); `clear` is the manual's NONE. -/
inductive EngineFault where
  | clear | rootRead | rootBad | commandRead | completionWrite | noticeWrite
  deriving DecidableEq, Repr

/-- The six values Engine Control keeps of the root table (R174). -/
structure RootTable where
  commandBase : Address
  commandSize : Nat
  noticeBase : Address
  noticeSize : Nat
  threshold : Nat
  time : Nat
  deriving DecidableEq, Repr

/-- Every block behind the register window: the Host Bus Port's requests, the Command Unit, the Channel Table, the ports, the
Relay Unit and the Completion Unit. `serial` is the model's own source of fresh identities. -/
structure Device where
  serial : Nat
  requests : List Request
  cu : CommandUnit
  channels : Vector Channel 64
  ports : Vector Port 4
  relay : RelayUnit
  rings : Vector Ring 5
  lost : Nat
  buffers : List Buffer
  deriving DecidableEq, Repr

/-- The state of the part: the registers and the engine state (R172, section 10.2), the blocks behind them, and the queue of the
commands and events that have reached the part and wait to be taken, first in, first out. -/
structure State where
  engine : EngineState
  cause : EngineFault
  root : Address
  intmask : BitVec 6
  table : Option RootTable
  dev : Device
  pending : List Instr
  deriving DecidableEq, Repr

/-- Reasons for the machine to stop with a fault. There are none: the manual gives every step an effect in every state, and its
own engine fault and channel faults are states the machine goes on in (R17, R178). -/
inductive Fault where
  deriving DecidableEq, Repr

/-- Reasons for a step to be refused. -/
inductive Refusal where
  /-- Raised by exec alone, for a row of the table that has no meaning yet; safe. No arm raises it. -/
  | notModelled (mnemonic : String)
  deriving DecidableEq, Repr

/-! ## Values after hardware reset -/

/-- The cleared outbound message state (R89). -/
def OutMessage.cleared : OutMessage :=
  { phase := .idle, offset := 0, restarted := false, reserved := false, spoiled := false }

/-- The cleared inbound message state (R110). -/
def InMessage.cleared : InMessage :=
  { buffer := none, message := 0, fill := 0, total := 0, mode := .writing }

/-- Channel counters at 0 (R20). -/
def ChannelCounters.zero : ChannelCounters :=
  { messages := 0, payloadBytes := 0, wireBytes := 0, restarts := 0, oversize := 0, truncated := 0, abandoned := 0,
    linkLost := 0 }

/-- A context at the cleared values of R1. -/
def Channel.cleared : Channel :=
  { state := .closed, kind := .out, port := 0, number := 0, ring := 0, cls := 0, compress := false, breakPolicy := .fail,
    overflow := .drop, base := 0, size := 16, producer := 0, fetch := 0, retire := 0, held := [],
    out := OutMessage.cleared, inm := InMessage.cleared, partner := 0, cells := 0, cause := .clear, pendingClose := none,
    counters := ChannelCounters.zero, opening := 0, fetchBusy := false, revoke := .waiting }

/-- A Link Map entry at the reset values of R21. -/
def MapEntry.cleared : MapEntry :=
  { outbound := { owner := none, credits := 0, openMark := false },
    inbound := { owner := none, granted := 0, inFlight := 0, revokePending := false, openMark := false,
                 discard := false } }

/-- The default settings of R62. -/
def PortSettings.default : PortSettings :=
  { role := .lead, slice := 256, turnBudget := 1024, holdLimit := 200, acceptLimit := 2000, turnWait := 50, recover := 10,
    drainLimit := 500, retries := 3 }

/-- Empty outbound staging with no staged channel (R60, R98). -/
def OutStaging.empty : OutStaging :=
  { channel := none, segments := [], next := 0, reads := [], copies := [] }

/-- Port counters at 0 (R84). -/
def PortCounters.zero : PortCounters :=
  { engagements := 0, breaks := 0, turnsTaken := 0, turnsReleased := 0, wireSent := 0, wireReceived := 0, controlSent := 0,
    controlReceived := 0, withheld := 0, discarded := 0 }

/-- Lines that neither end drives read low (R57). -/
def PeerLines.low : PeerLines :=
  { engi := false, owni := false, reqi := false, stb := false, byte := { flag := false, par := false, data := 0 } }

/-- A port record at the reset values of R61, R42 and R91, with the levels its peer drives. -/
def Port.reset (lines : PeerLines) : Port :=
  { state := .disabled, settings := PortSettings.default, turn := .off, turnBytes := 0, hold := .off, settled := false,
    retryCount := 0, peerReleased := false, lastBreak := .clear, pendingDisable := none, acceptTimer := .stopped,
    takeTimer := .stopped, settleTimer := .stopped, turnWaitTimer := .stopped, recoverTimer := .stopped,
    drainTimer := .stopped, map := Vector.replicate 64 MapEntry.cleared, control := [], headOffered := false,
    passBegun := false, selection := none, repeatPending := none, build := none, tx := .idle, rx := .idle,
    classes := Vector.replicate 4 [], pick := none, selectSent := false, inStaging := [], outStaging := OutStaging.empty,
    counters := PortCounters.zero, lines := lines }

/-- Relay counters at 0 (R141). -/
def RelayCounters.zero : RelayCounters :=
  { forwarded := 0, droppedOversize := 0, truncated := 0, abandoned := 0, linkLost := 0 }

/-- The Relay Unit after reset (R127). -/
def RelayUnit.reset : RelayUnit :=
  { cells := Vector.replicate 32 [], free := List.finRange 32, pairs := Vector.replicate 64 none,
    counters := Vector.replicate 64 RelayCounters.zero, moves := [] }

/-- An unset ring (R142). -/
def Ring.unset : Ring :=
  { isSet := false, base := 0, size := 16, producer := 0, consumer := 0, reserved := 0, lap := true, threshold := 1,
    time := 0, interrupt := .armed, timer := .stopped, waiting := [], queue := [], writing := none, gained := false }

/-- The Command Unit after reset (R156). -/
def CommandUnit.reset : CommandUnit :=
  { base := 0, size := 16, producer := 0, fetch := 0, taken := 0, held := [], fetchBusy := false, deferred := [],
    slotHeld := false }

/-- The blocks after reset (R179), with the lines their peers drive and the next fresh identity. -/
def Device.reset (serial : Nat) (ports : Vector Port 4) : Device :=
  { serial := serial, requests := [], cu := CommandUnit.reset, channels := Vector.replicate 64 Channel.cleared,
    ports := ports.map fun p => Port.reset p.lines, relay := RelayUnit.reset, rings := Vector.replicate 5 Ring.unset,
    lost := 0, buffers := [] }

/-- The part right after hardware reset (R179), with every peer's lines low and nothing waiting. -/
def State.reset : State :=
  { engine := .halted, cause := .clear, root := 0, intmask := 0, table := none,
    dev := Device.reset 1 (Vector.replicate 4 (Port.reset PeerLines.low)), pending := [] }

end Sys2Proof.Machine
end

