-- ==== Sys2Proof/Machine/Ops.lean ====
section
/-! DEFINITION. The named operations over the blocks: access to the tables, ring arithmetic, fresh identities, and the Host Bus
Port's requests (R176). -/

namespace Sys2Proof.Machine

/-! ## Ring arithmetic (Conventions of 00_scope.md) -/

/-- The distance from position `a` to position `b` in ring order: b − a modulo the ring size. -/
def ringDistance (size a b : Nat) : Nat := (b + size - a) % size

/-- The position `n` entries after position `a`. -/
def ringAdvance (size a n : Nat) : Nat := (a + n) % size

/-- Whether `n` is a power of two between `lo` and `hi` (ring sizes of R4, R163, R174). -/
def powerOfTwoIn (lo hi n : Nat) : Bool :=
  decide (lo ≤ n) && decide (n ≤ hi) && decide (2 ^ Nat.log2 n = n)

/-- Whether an address is a multiple of `n`. -/
def aligned (n : Nat) (a : Address) : Bool := a.toNat % n == 0

/-- The link numbers in increasing order, the order of R23, R39 and R64. -/
def linkNumbers : List LinkNumber := List.finRange 64

/-- The ports in increasing order. -/
def allPorts : List PortId := List.finRange 4

/-- The rings in increasing order. -/
def allRings : List RingId := List.finRange 5

/-- The ring of a completion ring number. -/
def cqRing (k : Fin 4) : RingId := k.castSucc

/-- The notice ring. -/
def nqRing : RingId := 4

/-! ## Tables -/

/-- The context of a channel. -/
def Device.chan (d : Device) (c : ChannelId) : Channel := d.channels.get c

/-- Changes one context. -/
def Device.modChan (d : Device) (c : ChannelId) (f : Channel → Channel) : Device :=
  { d with channels := d.channels.set c (f (d.chan c)) }

/-- The record of a port. -/
def Device.port (d : Device) (p : PortId) : Port := d.ports.get p

/-- Changes one port record. -/
def Device.modPort (d : Device) (p : PortId) (f : Port → Port) : Device :=
  { d with ports := d.ports.set p (f (d.port p)) }

/-- The record of a ring. -/
def Device.ring (d : Device) (r : RingId) : Ring := d.rings.get r

/-- Changes one ring record. -/
def Device.modRing (d : Device) (r : RingId) (f : Ring → Ring) : Device :=
  { d with rings := d.rings.set r (f (d.ring r)) }

/-- Changes the Command Unit. -/
def Device.modCu (d : Device) (f : CommandUnit → CommandUnit) : Device := { d with cu := f d.cu }

/-- Changes the Relay Unit. -/
def Device.modRelay (d : Device) (f : RelayUnit → RelayUnit) : Device := { d with relay := f d.relay }

/-- The entry of a port's Link Map. -/
def Port.entry (p : Port) (n : LinkNumber) : MapEntry := p.map.get n

/-- Changes one Link Map entry. -/
def Port.modEntry (p : Port) (n : LinkNumber) (f : MapEntry → MapEntry) : Port :=
  { p with map := p.map.set n (f (p.entry n)) }

/-- The inbound half of an entry. -/
def Device.inHalf (d : Device) (p : PortId) (n : LinkNumber) : InHalf := ((d.port p).entry n).inbound

/-- The outbound half of an entry. -/
def Device.outHalf (d : Device) (p : PortId) (n : LinkNumber) : OutHalf := ((d.port p).entry n).outbound

/-- Changes an inbound half. -/
def Device.modIn (d : Device) (p : PortId) (n : LinkNumber) (f : InHalf → InHalf) : Device :=
  d.modPort p fun x => x.modEntry n fun e => { e with inbound := f e.inbound }

/-- Changes an outbound half. -/
def Device.modOut (d : Device) (p : PortId) (n : LinkNumber) (f : OutHalf → OutHalf) : Device :=
  d.modPort p fun x => x.modEntry n fun e => { e with outbound := f e.outbound }

/-- The pair record under an inbound index, if a pair is open there (R127). -/
def Device.pair (d : Device) (i : ChannelId) : Option RelayPair := d.relay.pairs.get i

/-- Writes the pair record under an inbound index. -/
def Device.setPair (d : Device) (i : ChannelId) (x : Option RelayPair) : Device :=
  d.modRelay fun r => { r with pairs := r.pairs.set i x }

/-- Changes the pair record under an inbound index, if there is one. -/
def Device.modPair (d : Device) (i : ChannelId) (f : RelayPair → RelayPair) : Device :=
  d.setPair i ((d.pair i).map f)

/-- Changes the relay counters under an inbound index (R141). -/
def Device.countRelay (d : Device) (i : ChannelId) (f : RelayCounters → RelayCounters) : Device :=
  d.modRelay fun r => { r with counters := r.counters.set i (f (r.counters.get i)) }

/-- Changes a channel's counters (R19). -/
def Device.countChan (d : Device) (c : ChannelId) (f : ChannelCounters → ChannelCounters) : Device :=
  d.modChan c fun x => { x with counters := f x.counters }

/-- Changes a port's counters (R83). -/
def Device.countPort (d : Device) (p : PortId) (f : PortCounters → PortCounters) : Device :=
  d.modPort p fun x => { x with counters := f x.counters }

/-- Changes a channel's outbound message state (R89). -/
def Device.modOutMsg (d : Device) (c : ChannelId) (f : OutMessage → OutMessage) : Device :=
  d.modChan c fun x => { x with out := f x.out }

/-- Changes a channel's inbound message state (R110). -/
def Device.modInMsg (d : Device) (c : ChannelId) (f : InMessage → InMessage) : Device :=
  d.modChan c fun x => { x with inm := f x.inm }

/-- The buffer of an identity. -/
def Device.buffer? (d : Device) (b : Nat) : Option Buffer := d.buffers.find? fun x => x.id == b

/-- Changes the buffer of an identity. -/
def Device.modBuffer (d : Device) (b : Nat) (f : Buffer → Buffer) : Device :=
  { d with buffers := d.buffers.map fun x => if x.id == b then f x else x }

/-- Whether a port is in one of the two engaged states. -/
def Port.up (p : Port) : Bool := p.state == .active || p.state == .quiescing

/-- Whether a channel's port is ACTIVE or QUIESCING (R15). -/
def Device.linkUp (d : Device) (c : ChannelId) : Bool := (d.port (d.chan c).port).up

/-- Whether a channel is of a relay kind. -/
def Channel.isRelay (x : Channel) : Bool := x.kind == .relayIn || x.kind == .relayOut

/-- Whether a channel sends (R3: its key is outbound). -/
def Channel.isOutbound (x : Channel) : Bool := x.kind == .out || x.kind == .relayOut

/-- The inbound index of the pair a relay half belongs to (R127). -/
def Device.pairIndex (d : Device) (c : ChannelId) : ChannelId :=
  if (d.chan c).kind == .relayOut then (d.chan c).partner else c

/-! ## Host memory requests (R176) -/

/-- Places a memory request with the Host Bus Port, under the next fresh identity. The manual does not say when the port issues a
request it holds: each counts as issued as it is placed, so that any of them may return next (DESIGN CHOICE, entry 40). -/
def Device.place (d : Device) (access : Access) (address : Address) (length : Nat) (data : List Byte) : Device :=
  { d with
    requests := d.requests ++ [{ id := d.serial, access := access, address := address, length := length, data := data }]
    serial := d.serial + 1 }

/-- The request of an identity, while it is placed and not returned. -/
def Device.request? (d : Device) (id : Nat) : Option Request := d.requests.find? fun r => r.id == id

/-- Takes a returned request out of the Host Bus Port. -/
def Device.returned (d : Device) (id : Nat) : Device :=
  { d with requests := d.requests.filter fun r => !(r.id == id) }

/-- The address `n` bytes after an address. -/
def addressAdd (a : Address) (n : Nat) : Address := a + BitVec.ofNat 64 n

/-! ## Bytes standing at offsets -/

/-- The byte at a position, if some segment holds it. -/
def byteAt (s : List Segment) (k : Nat) : Option Byte :=
  s.findSome? fun g => if g.offset ≤ k then g.bytes[k - g.offset]? else none

/-- The bytes standing without a gap from a position on, at most `n` of them. -/
def bytesFrom (s : List Segment) (k : Nat) : Nat → List Byte
  | 0 => []
  | n + 1 =>
    match byteAt s k with
    | some b => b :: bytesFrom s (k + 1) n
    | none => []

/-- Drops the segments that lie wholly below a position. -/
def dropBelow (s : List Segment) (k : Nat) : List Segment :=
  s.filter fun g => k < g.offset + g.bytes.length

/-- A timer started for a time given in ms (the Time convention of 00_scope.md). -/
def Timer.startMs (ms : Nat) : Timer := .running (ms * 1000)

/-- Whether a timer runs. -/
def Timer.isRunning : Timer → Bool
  | .stopped => false
  | .running _ => true

end Sys2Proof.Machine
end

