-- ==== Sys2Proof/Machine/Operands.lean ====
section
/-! DEFINITION. The operand forms: the byte layouts of every record the part reads and writes, and of the link's command byte
(chapter 11). -/

namespace Sys2Proof.Machine

/-! ## Little-endian fields -/

/-- The byte of a record at an offset. -/
def field8 (r : List Byte) (at_ : Nat) : Byte := r.getD at_ 0

/-- The two-byte little-endian field at an offset. -/
def field16 (r : List Byte) (at_ : Nat) : Half := field8 r (at_ + 1) ++ field8 r at_

/-- The four-byte little-endian field at an offset. -/
def field32 (r : List Byte) (at_ : Nat) : Word := field16 r (at_ + 2) ++ field16 r at_

/-- The eight-byte little-endian field at an offset. -/
def field64 (r : List Byte) (at_ : Nat) : Address := field32 r (at_ + 4) ++ field32 r at_

/-- A count as `n` little-endian bytes. -/
def leBytes : Nat → Nat → List Byte
  | 0, _ => []
  | n + 1, v => BitVec.ofNat 8 v :: leBytes n (v / 256)

/-- A counter as four little-endian bytes. -/
def counterBytes (c : Word) : List Byte := leBytes 4 c.toNat

/-- Cuts bytes into records of `n` bytes, at most `fuel` of them. -/
def chunks (n : Nat) : Nat → List Byte → List (List Byte)
  | 0, _ => []
  | fuel + 1, bytes => if bytes.isEmpty then [] else bytes.take n :: chunks n fuel (bytes.drop n)

/-! ## Records the part reads (section 11.1) -/

/-- Reads the root table (section 11.1). -/
def parseRootTable (r : List Byte) : RootTable :=
  { commandBase := field64 r 0x00
    commandSize := (field16 r 0x08).toNat
    noticeBase := field64 r 0x10
    noticeSize := (field16 r 0x18).toNat
    threshold := (field8 r 0x1A).toNat
    time := (field16 r 0x1C).toNat }

/-- The checks of R174; the order of the checks does not show, since every failure is ROOT_BAD. -/
def RootTable.good (t : RootTable) : Bool :=
  aligned 32 t.commandBase && powerOfTwoIn 16 1024 t.commandSize && aligned 16 t.noticeBase &&
    powerOfTwoIn 16 4096 t.noticeSize && decide (1 ≤ t.threshold) && decide (t.threshold ≤ 255)

/-- Reads a command record (section 11.1). -/
def parseCommand (r : List Byte) : CommandRecord :=
  { opcode := field8 r 0x00, mode := field8 r 0x01, tag := field16 r 0x02, subject := field8 r 0x04,
    params := (r.drop 8).take 24 }

/-- Reads the command records of one fetch (R157). -/
def parseCommands (bytes : List Byte) : List CommandRecord := (chunks 32 Config.commandsHeld bytes).map parseCommand

/-- Reads a send record (R87) or, with the same layout, a supply record (R108); PLAIN is bit 0 of the flags of a send record and
a reserved bit of a supply record, which R180 ignores. -/
def parseHostRecord (send : Bool) (r : List Byte) : HostRecord :=
  { address := field64 r 0x00, size := (field16 r 0x08).toNat, plain := send && (field8 r 0x0A).getLsbD 0,
    tag := field32 r 0x0C }

/-- Reads the records of one fetch (R88, R109). -/
def parseHostRecords (send : Bool) (bytes : List Byte) : List HostRecord :=
  (chunks 16 Config.supplyRecordsHeld bytes).map (parseHostRecord send)

/-- A parameter byte of a command record, by its offset from the start of the record. -/
def paramByte (r : CommandRecord) (at_ : Nat) : Byte := field8 r.params (at_ - 8)

/-- A two-byte parameter of a command record. -/
def paramHalf (r : CommandRecord) (at_ : Nat) : Half := field16 r.params (at_ - 8)

/-- An eight-byte parameter of a command record. -/
def paramAddress (r : CommandRecord) (at_ : Nat) : Address := field64 r.params (at_ - 8)

/-- COMPRESS of an options byte (section 11.1). -/
def optCompress (o : Byte) : Bool := o.getLsbD 0

/-- The break policy of an options byte. -/
def optBreak (o : Byte) : BreakPolicy := if o.getLsbD 1 then .restart else .fail

/-- The overflow policy of an options byte; 3 is out of range. -/
def optOverflow (o : Byte) : Option OverflowPolicy :=
  match (o.extractLsb 3 2).toNat with
  | 0 => some .drop
  | 1 => some .truncate
  | 2 => some .chain
  | _ => none

/-- A subject or parameter byte as a number below `n`, if it is in range. -/
def inRange (n : Nat) (b : Byte) : Option (Fin n) := if h : b.toNat < n then some ⟨b.toNat, h⟩ else none

/-! ## Records the part writes (section 11.2) -/

/-- Status values of a completion record. -/
def Status.value : Status → Nat
  | .sent => 1
  | .cancelled => 2
  | .linkLost => 3
  | .fault => 4
  | .delivered => 5
  | .truncated => 6
  | .oversize => 7
  | .abandoned => 8
  | .aborted => 9

/-- Result values of a COMMAND_DONE notice. -/
def Result.value : Result → Nat
  | .ok => 0
  | .badIndex => 1
  | .badParam => 2
  | .badState => 3
  | .keyInUse => 4
  | .busy => 5
  | .noResource => 6
  | .superseded => 7

/-- Sub-code values of a PROTOCOL break. -/
def SubCode.value : SubCode → Nat
  | .noSelect => 1
  | .badRepeat => 2
  | .repeatOrphan => 3
  | .badEnd => 4
  | .strayAbandon => 5
  | .creditViolation => 6
  | .creditOverflow => 7
  | .collision => 8
  | .unaskedRelease => 9

/-- Break cause values: 0 NONE, else the PORT_EVENT code. -/
def BreakCause.value : BreakCause → Nat
  | .clear => 0
  | .peerLeft => 3
  | .abrupt => 4
  | .timeoutAccept => 5
  | .timeoutTake => 6
  | .turnStarved => 7
  | .parity => 8
  | .protocol _ => 9

/-- The detail of a break: its PROTOCOL sub-code, or 0 (R74). -/
def BreakCause.detail : BreakCause → Nat
  | .protocol sub => sub.value
  | _ => 0

/-- Fault cause values of a channel. -/
def FaultCause.value : FaultCause → Nat
  | .clear => 0
  | .ringRead => 1
  | .payloadRead => 2
  | .bufferWrite => 3

/-- HOST_ERROR code values. -/
def HostError.value : HostError → Nat
  | .badNotify => 1
  | .ringRead => 2
  | .payloadRead => 3
  | .bufferWrite => 4
  | .statsWrite => 5

/-- The engine fault cause field of CTRL. -/
def EngineFault.value : EngineFault → Nat
  | .clear => 0
  | .rootRead => 1
  | .rootBad => 2
  | .commandRead => 3
  | .completionWrite => 4
  | .noticeWrite => 5

/-- The engine state field of CTRL. -/
def EngineState.value : EngineState → Nat
  | .halted => 0
  | .starting => 1
  | .running => 2
  | .faulted => 3

/-- The state field of a channel's statistics record. -/
def ChannelState.value : ChannelState → Nat
  | .closed => 0
  | .opened => 1
  | .draining => 2
  | .aborting => 3
  | .faulted => 4

/-- The kind field of a channel's statistics record. -/
def Kind.value : Kind → Nat
  | .out => 0
  | .inn => 1
  | .relayIn => 2
  | .relayOut => 3

/-- The port state field of a port's statistics record. -/
def PortState.value : PortState → Nat
  | .disabled => 0
  | .engaging => 1
  | .active => 2
  | .quiescing => 3
  | .broken => 4
  | .failed => 5

/-- The turn state field of a port's statistics record. -/
def TurnState.value : TurnState → Nat
  | .off => 0
  | .ours => 1
  | .offered => 2
  | .theirs => 3
  | .asked => 4

/-- The ROLE field of a port's statistics record and of PORT_SETUP. -/
def Role.value : Role → Nat
  | .lead => 0
  | .follow => 1

/-- A bit as a number. -/
def bit (b : Bool) : Nat := if b then 1 else 0

/-- A completion record (16 bytes) with a lap mark. -/
def Completion.bytes (c : Completion) (lap : Bool) : List Byte :=
  leBytes 1 (bit lap + 2 * bit c.continued + 4 * bit c.restarted) ++ leBytes 1 c.channel.val ++ leBytes 1 c.status.value ++
    leBytes 1 0 ++ leBytes 2 c.length ++ leBytes 2 c.total ++ leBytes 4 c.tag.toNat ++ leBytes 4 0

/-- The kind, subject, code, command tag and detail of a notice (section 11.2). -/
def NoticeBody.fields : NoticeBody → Nat × Nat × Nat × Nat × Nat
  | .commandDone subject result tag detail => (1, subject.toNat, result.value, tag.toNat, detail)
  | .portEvent p .active => (2, p.val, 1, 0, 0)
  | .portEvent p .failed => (2, p.val, 2, 0, 0)
  | .portEvent p (.broke cause) => (2, p.val, cause.value, 0, cause.detail)
  | .channelFaulted c cause => (3, c.val, 1, 0, cause.value)
  | .hostError subject code detail => (4, subject.toNat, code.value, 0, detail.toNat)

/-- A notice record (16 bytes) with a lap mark and its lost count. -/
def NoticeBody.bytes (b : NoticeBody) (lost : Nat) (lap : Bool) : List Byte :=
  let f := b.fields
  leBytes 1 (bit lap) ++ leBytes 1 f.1 ++ leBytes 2 lost ++ leBytes 1 f.2.1 ++ leBytes 1 f.2.2.1 ++ leBytes 2 f.2.2.2.1 ++
    leBytes 4 f.2.2.2.2 ++ leBytes 4 0

/-- The counters of a channel in their order on the record: 14h to 2Fh, the word at 20h being restarts for an outbound kind and
oversize for an inbound one (section 11.2). -/
def Channel.counterWords (x : Channel) : List Word :=
  [x.counters.messages, x.counters.payloadBytes, x.counters.wireBytes,
    if x.isOutbound then x.counters.restarts else x.counters.oversize,
    x.counters.truncated, x.counters.abandoned, x.counters.linkLost]

/-- The counters of a port in their order on the record (section 11.2). -/
def PortCounters.words (c : PortCounters) : List Word :=
  [c.engagements, c.breaks, c.turnsTaken, c.turnsReleased, c.wireSent, c.wireReceived, c.controlSent, c.controlReceived,
    c.withheld, c.discarded]

/-- The counters of a relay pair in their order on the record (section 11.2). -/
def RelayCounters.words (c : RelayCounters) : List Word :=
  [c.forwarded, c.droppedOversize, c.truncated, c.abandoned, c.linkLost]

/-- The SATURATED mark: some counter holds its maximum (R20, R84, R141, R165). -/
def saturated (ws : List Word) : Bool := ws.any fun w => w == counterMax

/-- A run of reserved bytes, written 0 (R181). -/
def reservedBytes (n : Nat) : List Byte := List.replicate n 0

/-- The first four bytes of a statistics record. -/
def statsHeader (kind index : Nat) (ws : List Word) : List Byte :=
  leBytes 1 kind ++ leBytes 1 index ++ leBytes 1 (bit (saturated ws)) ++ leBytes 1 0

/-- The statistics record of a channel (64 bytes, section 11.2). -/
def Channel.statsBytes (x : Channel) (c : ChannelId) : List Byte :=
  let ws := x.counterWords
  statsHeader 0 c.val ws ++ leBytes 1 x.state.value ++ leBytes 1 x.kind.value ++ leBytes 1 x.port.val ++
    leBytes 1 x.number.val ++ leBytes 1 x.cause.value ++ reservedBytes 3 ++ leBytes 2 x.producer ++ leBytes 2 x.fetch ++
    leBytes 2 x.retire ++ reservedBytes 2 ++ (ws.map counterBytes).flatten ++ reservedBytes 16

/-- The statistics record of a port (64 bytes, section 11.2, R84). -/
def Port.statsBytes (x : Port) (p : PortId) : List Byte :=
  let ws := x.counters.words
  statsHeader 1 p.val ws ++ leBytes 1 x.state.value ++ leBytes 1 x.turn.value ++ leBytes 1 x.settings.role.value ++
    leBytes 1 x.retryCount ++ leBytes 1 x.lastBreak.value ++ leBytes 1 x.lastBreak.detail ++ reservedBytes 6 ++
    (ws.map counterBytes).flatten ++ reservedBytes 8

/-- The statistics record of a relay pair (64 bytes, section 11.2, R141): `sending` says whether the head of the queue is
sending, and the cell and pool fields are 0 with no pair open. -/
def relayStatsBytes (c : ChannelId) (ws : List Word) (pair : Option RelayPair) (sending : Bool) (free : Nat) : List Byte :=
  let cells : List Nat :=
    match pair with
    | none => [0, 0, 0, 0, 0, 0]
    | some x =>
      [x.reserved, x.spare.length, bit x.filling.isSome, x.queue.length - bit sending, x.queue.length, free]
  statsHeader 2 c.val ws ++ (cells.map (leBytes 1)).flatten ++ reservedBytes 6 ++ (ws.map counterBytes).flatten ++
    reservedBytes 28

/-! ## The link command byte (section 11.3) -/

/-- A command byte's kind and value (R41). -/
inductive LinkCommand where
  | select (number : LinkNumber)
  | rep (count : Nat)
  | finish (value : Nat)
  | grant (value : Nat)
  deriving DecidableEq, Repr

/-- Reads a command byte: D7-D6 the kind, D5-D0 the value (R182). -/
def linkCommand (b : Byte) : LinkCommand :=
  let v := (b.extractLsb 5 0).toFin
  match (b.extractLsb 7 6).toNat with
  | 0 => .select v
  | 1 => .rep v.val
  | 2 => .finish v.val
  | _ => .grant v.val

/-- The data lines of a command byte. -/
def LinkCommand.byte : LinkCommand → Byte
  | .select n => BitVec.ofNat 8 n.val
  | .rep r => BitVec.ofNat 8 (64 + r)
  | .finish v => BitVec.ofNat 8 (128 + v)
  | .grant v => BitVec.ofNat 8 (192 + v)

/-- The number of lines high among the eight data lines. -/
def linesHigh (b : Byte) : Nat := ((List.range 8).map fun i => bit (b.getLsbD i)).sum

/-- Whether the ten lines of a byte hold an odd number of lines high (R40). -/
def parityGood (w : WireByte) : Bool := (linesHigh w.data + bit w.flag + bit w.par) % 2 == 1

/-- A byte with PAR set for odd parity (R40). -/
def wireByte (flag : Bool) (data : Byte) : WireByte :=
  { flag := flag, par := (linesHigh data + bit flag) % 2 == 0, data := data }

/-- The command byte of a pending control entry (R37). -/
def ControlEntry.command : ControlEntry → LinkCommand
  | .grant _ k => .grant k
  | .revoke _ => .grant 0
  | .abandon _ => .finish 1

/-- The link number of a pending control entry. -/
def ControlEntry.number : ControlEntry → LinkNumber
  | .grant n _ => n
  | .revoke n => n
  | .abandon n => n

/-- The ten lines of the byte the part offers (R40, R182). -/
def Offer.wire : Offer → WireByte
  | .entrySelect n => wireByte true (LinkCommand.select n).byte
  | .entryByte e => wireByte true e.command.byte
  | .msgSelect _ n => wireByte true (LinkCommand.select n).byte
  | .msgRepeat _ _ r => wireByte true (LinkCommand.rep r).byte
  | .msgData _ _ b _ => wireByte false b
  | .msgEnd _ _ _ => wireByte true (LinkCommand.finish 0).byte

end Sys2Proof.Machine
end

