-- ==== Sys2Proof/Decode.lean ====
section
/-! DEFINITION. Decoding: spec/opcode_table.json gives no row any bits, so no word spells a command of the table; a command
record spells a command by its opcode and mode byte (chapter 11, Command record). -/

namespace Sys2Proof

open Machine (paramByte paramHalf paramAddress)

/-- The command that a word spells by the table's bits: none, since the table gives no row bits. -/
def decodeTableWord (_nbits _w : Nat) : Option Instr := none

/-- The command a command record spells (chapter 11). CLOSE and PORT_DISABLE with a mode byte outside the table are read with
their GRACEFUL rows, which refuse them with BAD_PARAM (R180). Every opcode of 0Ah..FFh is unknown. -/
def CommandRecord.command (r : CommandRecord) : Instr :=
  match r.opcode.toNat with
  | 0x00 => .nop r.tag r.subject
  | 0x01 =>
    .openChannel r.tag r.subject r.mode (paramAddress r 0x08) (paramHalf r 0x10) (paramByte r 0x12) (paramByte r 0x13) (paramByte r 0x14)
      (paramByte r 0x15) (paramByte r 0x16)
  | 0x02 =>
    .openRelay r.tag r.subject (paramByte r 0x08) (paramByte r 0x09) (paramByte r 0x0A) (paramByte r 0x0B) (paramByte r 0x0C) (paramByte r 0x0D)
      (paramByte r 0x0E) (paramByte r 0x0F)
  | 0x03 => if r.mode = 1 then .closeAbort r.tag r.subject else .closeGraceful r.tag r.subject r.mode
  | 0x04 => .setRing r.tag r.subject (paramAddress r 0x08) (paramHalf r 0x10) (paramByte r 0x12) (paramHalf r 0x14)
  | 0x05 =>
    .portSetup r.tag r.subject (paramByte r 0x08) (paramHalf r 0x0A) (paramHalf r 0x0C) (paramHalf r 0x0E) (paramHalf r 0x10) (paramHalf r 0x12)
      (paramByte r 0x14) (paramByte r 0x15) (paramHalf r 0x16)
  | 0x06 => .portEnable r.tag r.subject
  | 0x07 =>
    if r.mode = 1 then .portDisableAbrupt r.tag r.subject else .portDisableGraceful r.tag r.subject r.mode
  | 0x08 => .readStats r.tag r.subject r.mode (paramByte r 0x08) (paramAddress r 0x10)
  | 0x09 => .barrier r.tag r.subject
  | _ => .unknownOpcode r.opcode r.tag r.subject

end Sys2Proof
end

