-- ==== Sys2Proof/Machine/Flags.lean ====
section
/-! DEFINITION. Everything the part shows or decides as a flag of its state: register reads, interrupt causes and IRQ, the lines a
port drives, the rings' room, a channel's eligibility and a port's work. -/

namespace Sys2Proof.Machine

/-! ## Registers and interrupts (R155, R172) -/

/-- Whether a cause of INTCAUSE is set: bits 0..4 the rings in RAISED, bit 5 the engine fault cause (R155). -/
def causeSet (s : State) (k : Fin 6) : Bool :=
  if h : k.val < 5 then (s.dev.ring ⟨k.val, h⟩).interrupt == .raised else !(s.cause == .clear)

/-- The causes and their enables, in the bit order of INTCAUSE and INTMASK. -/
def allCauses : List (Fin 6) := List.finRange 6

/-- The IRQ output: high when some cause is set and unmasked (R155). -/
def irq (s : State) : Bool := allCauses.any fun k => causeSet s k && s.intmask.getLsbD k.val

/-- What INTCAUSE reads. -/
def readIntcause (s : State) : Word :=
  BitVec.ofNat 32 ((allCauses.map fun k => bit (causeSet s k) * 2 ^ k.val).sum)

/-- What IDENT reads. -/
def readIdent : Word := 0#8 ++ Config.revision ++ Config.partCode

/-- What CTRL reads: the engine state and the engine fault cause. -/
def readCtrl (s : State) : Word := BitVec.ofNat 32 (s.engine.value + 256 * s.cause.value)

/-- What a read of the register window returns, by offset and width in bytes (R172, R182). Reading changes nothing. -/
def readRegister (s : State) (offset : BitVec 6) (width : Nat) : Word :=
  if width = 4 then
    match offset.toNat with
    | 0x00 => readIdent
    | 0x04 => readCtrl s
    | 0x08 => s.root.extractLsb 31 0
    | 0x0C => s.root.extractLsb 63 32
    | 0x14 => readIntcause s
    | 0x18 => s.intmask.setWidth 32
    | _ => 0
  else 0

/-! ## Lines the part drives (R57, R85) -/

/-- ENGO: high in ENGAGING, ACTIVE and QUIESCING, and low on every port while the engine is not RUNNING (R176). -/
def engo (s : State) (p : PortId) : Bool :=
  s.engine == .running && ((s.dev.port p).state == .engaging || (s.dev.port p).up)

/-- OWNO: high in OURS. -/
def owno (s : State) (p : PortId) : Bool := s.engine == .running && (s.dev.port p).turn == .ours

/-- REQO: high in ASKED. -/
def reqo (s : State) (p : PortId) : Bool := s.engine == .running && (s.dev.port p).turn == .asked

/-- Whether the part drives D0-D7, FLAG, PAR and STB. -/
def drivesData (s : State) (p : PortId) : Bool := owno s p

/-- STB as the part drives it: high from the offer of a byte to its acceptance. -/
def stbOut (s : State) (p : PortId) : Bool :=
  drivesData s p && match (s.dev.port p).tx with | .offered _ => true | _ => false

/-- The byte the part presents while it offers one. -/
def byteOut (s : State) (p : PortId) : Option WireByte :=
  match (s.dev.port p).tx with
  | .offered o => if drivesData s p then some o.wire else none
  | _ => none

/-- Whether the part drives ACK. -/
def drivesAck (s : State) (p : PortId) : Bool :=
  s.engine == .running && ((s.dev.port p).turn == .theirs || (s.dev.port p).turn == .asked)

/-- ACK as the part drives it: high from the acceptance of a peer's byte to its return. -/
def ackOut (s : State) (p : PortId) : Bool := drivesAck s p && (s.dev.port p).rx == .accepted

/-! ## Rings (R142, R144) -/

/-- The unconsumed entries P − C of a ring. -/
def Ring.unconsumed (r : Ring) : Nat := ringDistance r.size r.consumer r.producer

/-- The reservations the test of R144 still allows: none on an unset ring (R143). -/
def Ring.room (r : Ring) : Nat := if r.isSet then (r.size - 1) - (r.unconsumed + r.reserved) else 0

/-! ## Buffers held and available credits (R28, R129) -/

/-- The buffers an inbound channel holds: its fetched records, or the spare and filling cells of its pair. -/
def Device.buffersHeld (d : Device) (c : ChannelId) : Nat :=
  match (d.chan c).kind with
  | .inn => (d.chan c).held.length
  | .relayIn =>
    match d.pair c with
    | some x => x.spare.length + bit x.filling.isSome
    | none => 0
  | _ => 0

/-- The credits the generator may still queue for an owned half (R28). -/
def Device.available (d : Device) (p : PortId) (n : LinkNumber) (c : ChannelId) : Nat :=
  d.buffersHeld c - (d.inHalf p n).granted - (d.inHalf p n).inFlight - bit (d.inHalf p n).openMark

/-- Whether the head of the pending control list is a GRANT for a number and is being offered (R68). -/
def Port.grantOffered (x : Port) (n : LinkNumber) : Bool :=
  x.headOffered && match x.control with
    | .grant m _ :: _ => m == n
    | _ => false

/-- The owner for which the generator acts on a half now, by the conditions of R28. -/
def Device.generatorOwner (d : Device) (p : PortId) (n : LinkNumber) : Option ChannelId :=
  match (d.inHalf p n).owner with
  | none => none
  | some c =>
    if (d.port p).state == .active && (d.chan c).state == .opened && !(d.chan c).isOutbound &&
        !(d.inHalf p n).revokePending && !(d.port p).grantOffered n
    then some c else none

/-! ## Messages and eligibility (R92, R134) -/

/-- The relay queue that a RELAY_OUT half forwards. -/
def Device.relayQueue (d : Device) (c : ChannelId) : List RelayEntry :=
  match d.pair (d.pairIndex c) with
  | some x => x.queue
  | none => []

/-- The expanded length of a channel's current outbound message (R56, R134). -/
def Device.messageLength (d : Device) (c : ChannelId) : Nat :=
  if (d.chan c).kind == .relayOut then ((d.relayQueue c).head?.map RelayEntry.length).getD 0
  else ((d.chan c).held.head?.map HostRecord.size).getD 0

/-- Whether a channel's current outbound message is coded in plain form (R52). -/
def Device.plainForm (d : Device) (c : ChannelId) : Bool :=
  !(d.chan c).compress || ((d.chan c).kind == .out && ((d.chan c).held.head?.map HostRecord.plain).getD false)

/-- Whether a channel may start or resume a message now (R92, R134): its message is open and it is OPEN or DRAINING, or its next
message is ready, a credit is held, the port is ACTIVE, and the channel is OPEN, or draining with a restarted record or as a pair. -/
def Device.eligible (d : Device) (c : ChannelId) : Bool :=
  let x := d.chan c
  let live := x.state == .opened || x.state == .draining
  let mayStart := x.state == .opened || (x.state == .draining && (x.kind == .relayOut || x.out.restarted))
  (x.out.phase == .started && live) ||
    (x.out.phase == .ready && mayStart && decide (1 ≤ (d.outHalf x.port x.number).credits) &&
      (d.port x.port).state == .active)

/-- The channels of a port's class lists, class 0 first, each class from head to tail (R93). -/
def Port.classOrder (x : Port) : List ChannelId := x.classes.get 0 ++ x.classes.get 1 ++ x.classes.get 2 ++ x.classes.get 3

/-- The channel a pick would choose now (R93, R98). -/
def Device.candidate (d : Device) (p : PortId) : Option ChannelId := (d.port p).classOrder.find? d.eligible

/-- Whether the part has work on a port (R66). -/
def Device.hasWork (d : Device) (p : PortId) : Bool := !(d.port p).control.isEmpty || (d.candidate p).isSome

/-- Whether no byte is between offered and returned on a port, in either direction (R73, R78). -/
def Port.linesQuiet (x : Port) : Bool := x.tx == .idle && x.rx == .idle

/-- Whether a half of a Link Map has a mark set (R78). -/
def MapEntry.marked (e : MapEntry) : Bool := e.outbound.openMark || e.inbound.openMark || e.inbound.discard

/-- Whether a quiesce is done (R78). -/
def Port.quiesceDone (x : Port) : Bool :=
  x.state == .quiescing && x.control.isEmpty && x.linesQuiet &&
    linkNumbers.all fun n => !(x.entry n).marked && !(x.entry n).inbound.revokePending

/-! ## Closing (R10 to R14, R137, R139) -/

/-- Whether a pair has nothing left to wait for: no revoke outstanding upstream and no abandon or message downstream; draining, also
no message open upstream and nothing queued (R137, R139). -/
def Device.pairDone (d : Device) (x : RelayPair) : Bool :=
  let i := d.chan x.inbound
  let o := d.chan x.outbound
  let revoked := !(i.revoke == .waiting)
  let sent := !(d.outHalf o.port o.number).openMark
  match i.state with
  | .draining => revoked && sent && !(d.inHalf i.port i.number).openMark && x.queue.isEmpty
  | .aborting => revoked && sent
  | _ => false

/-- Whether a closing channel has nothing left to wait for (R10 to R14). -/
def Device.closeDone (d : Device) (c : ChannelId) : Bool :=
  let x := d.chan c
  match x.kind, x.state with
  | .out, .draining => !(x.out.phase == .started) && !(x.out.phase == .ready && x.out.restarted)
  | .out, .aborting => !(d.outHalf x.port x.number).openMark
  | .inn, .draining => !(x.revoke == .waiting) && !(d.inHalf x.port x.number).openMark
  | .inn, .aborting => !(x.revoke == .waiting)
  | _, .closed => false
  | .relayIn, _ =>
    match d.pair c with
    | some r => d.pairDone r
    | none => false
  | .relayOut, _ =>
    match d.pair x.partner with
    | some r => d.pairDone r
    | none => false
  | _, _ => false

end Sys2Proof.Machine
end

