-- ==== Sys2Proof/Machine/Rings.lean ====
section
/-! DEFINITION. The Completion Unit: reservations, the waiting list, posting and writing records, notices, and each ring's
interrupt state (chapter 8). -/

namespace Sys2Proof.Machine

/-! ## Reservations (R144, R145, R146) -/

/-- Gives `k` slots of a ring to a requester that the test of R144 has allowed. -/
def Device.reserve (d : Device) (r : RingId) (k : Nat) : Device :=
  d.modRing r fun x => { x with reserved := x.reserved + k }

/-- Takes back `k` slots given and not used (R146): the ring gains room, and its waiting list is walked at the end of the event
(R145). -/
def Device.release (d : Device) (r : RingId) (k : Nat) : Device :=
  d.modRing r fun x => { x with reserved := x.reserved - k, gained := x.gained || decide (0 < k) }

/-- Places a refused request at the tail of a ring's waiting list, which holds at most one entry for each requester (R145). -/
def Device.waitFor (d : Device) (r : RingId) (q : Requester) : Device :=
  d.modRing r fun x => if x.waiting.contains q then x else { x with waiting := x.waiting ++ [q] }

/-- Takes a requester out of a ring's waiting list (R145). -/
def Device.unwait (d : Device) (r : RingId) (q : Requester) : Device :=
  d.modRing r fun x => { x with waiting := x.waiting.filter fun y => !(y == q) }

/-- Takes the inbound halves of a port out of every waiting list, as its port leaves ACTIVE (R145). -/
def Device.unwaitPort (d : Device) (p : PortId) : Device :=
  { d with
    rings := d.rings.map fun x =>
      { x with waiting := x.waiting.filter fun y => match y with | .inHalf q _ => !(q == p) | _ => true } }

/-! ## Posting (R147, R149, R150) -/

/-- Posts a record on a ring, in the order of all postings. The slot it takes is already counted in V (R146). -/
def Device.post (d : Device) (r : RingId) (body : RecordBody) : Device :=
  { (d.modRing r fun x => { x with queue := x.queue ++ [{ order := d.serial, body := body }] }) with
    serial := d.serial + 1 }

/-- Posts a completion on its channel's completion ring. -/
def Device.postCompletion (d : Device) (c : Completion) : Device :=
  d.post (cqRing (d.chan c.channel).ring) (.completion c)

/-- Posts a notice whose slot is already reserved: it carries the lost count, which returns to 0 (R149). -/
def Device.postNotice (d : Device) (body : NoticeBody) : Device :=
  { d.post nqRing (.notice body d.lost) with lost := 0 }

/-- Posts an asynchronous notice if NQ has room, or counts it as lost (R150). -/
def Device.asyncNotice (d : Device) (body : NoticeBody) : Device :=
  if (d.ring nqRing).room = 0 then { d with lost := sat16 (d.lost + 1) }
  else (d.reserve nqRing 1).postNotice body

/-- Posts HOST_ERROR(BAD_NOTIFY) for a rejected NOTIFY write (R6, R151, R156, R175). -/
def Device.badNotify (d : Device) (target : Nat) (index : BitVec 12) : Device :=
  d.asyncNotice (.hostError (BitVec.ofNat 8 target) .badNotify (index.setWidth 32))

/-! ## Writing records (R147, R148) -/

/-- Whether the data writes of a buffer are done (R113); a record with no buffer waits for none. -/
def Device.bufferDone (d : Device) (b : Option Nat) : Bool :=
  match b.bind d.buffer? with
  | some x => x.placed == x.issued && x.outstanding == 0
  | none => true

/-- The records posted on any ring and not yet written. -/
def Device.posted (d : Device) : List Posted := (allRings.map fun r => (d.ring r).queue).flatten

/-- Whether a posted record may be written now (R147). -/
def Device.ready (d : Device) (q : Posted) : Bool :=
  match q.body with
  | .completion c =>
    d.bufferDone c.buffer && d.posted.all fun y =>
      match y.body with
      | .completion e => !(e.channel == c.channel) || decide (q.order ≤ y.order)
      | .notice _ _ => true
  | .notice _ _ => d.posted.all fun y => decide (q.order ≤ y.order)

/-- A completion as it is written: FAULT, with the bytes of the writes accepted without error, if its buffer has failed (R122). -/
def Device.finalCompletion (d : Device) (c : Completion) : Completion :=
  match c.buffer.bind d.buffer? with
  | some x => if x.failed then { c with status := .fault, length := x.acceptedBytes } else c
  | none => c

/-- The bytes of a posted record under a lap mark (R148). -/
def Device.recordBytes (d : Device) (q : Posted) (lap : Bool) : List Byte :=
  match q.body with
  | .completion c => (d.finalCompletion c).bytes lap
  | .notice body lost => body.bytes lost lap

/-- Issues the write of the ready record posted earliest, if the ring has no record write in flight (R147). -/
def Device.issueRecord (d : Device) (r : RingId) : Device :=
  let x := d.ring r
  match x.writing, x.queue.find? d.ready with
  | none, some q =>
    (d.place (.recordWrite r q.order) (addressAdd x.base (16 * x.producer)) 16 (d.recordBytes q x.lap)).modRing r
      fun y => { y with writing := some q.order }
  | _, _ => d

/-- Issues every ring's next ready record. -/
def Device.issueRecords (d : Device) : Device := allRings.foldl Device.issueRecord d

/-! ## Interrupts (R152, R153, R154) -/

/-- Weighs the interrupt state of a ring after a write accepted on it (R152). -/
def Ring.weighWrite (x : Ring) : Ring :=
  match x.interrupt with
  | .raised => x
  | .armed =>
    if x.threshold ≤ x.unconsumed ∨ x.time = 0 then { x with interrupt := .raised, timer := .stopped }
    else if x.timer.isRunning then x
    else { x with timer := .running x.time }

/-- Returns a ring to ARMED and weighs it with the new C (R154). -/
def Ring.rearm (x : Ring) : Ring :=
  let y := { x with interrupt := .armed }
  if y.threshold ≤ y.unconsumed ∨ (y.time = 0 ∧ 1 ≤ y.unconsumed) then
    { y with interrupt := .raised, timer := .stopped }
  else if 1 ≤ y.unconsumed ∧ !y.timer.isRunning then { y with timer := .running y.time }
  else y

/-- The expiry of a ring's coalescing timer (R153). -/
def Ring.coalescingExpiry (x : Ring) : Ring :=
  if x.timer.isRunning then
    let y := { x with timer := .stopped }
    if y.interrupt == .armed && decide (1 ≤ y.unconsumed) then { y with interrupt := .raised } else y
  else x

/-- A ring given a base and size (R143). -/
def Ring.setTo (base : Address) (size threshold time : Nat) : Ring :=
  { Ring.unset with isSet := true, base := base, size := size, threshold := threshold, time := time }

/-- What the acceptance of a record write does to its ring (R148). -/
def Ring.recordWritten (x : Ring) (order : Nat) : Ring :=
  let p := ringAdvance x.size x.producer 1
  { x with
    producer := p
    lap := if p = 0 then !x.lap else x.lap
    reserved := x.reserved - 1
    queue := x.queue.filter fun q => !(q.order == order)
    writing := none }.weighWrite

end Sys2Proof.Machine
end

