-- ==== Sys2Proof/Machine/LinkMap.lean ====
section
/-! DEFINITION. The Link Map's operations: the grant generator, grants, revokes and abandons on the pending control list, and
the clearing of the map (chapter 2). -/

namespace Sys2Proof.Machine

/-! ## The grant generator (R28, R29, R30) -/

/-- Changes the entries of a pending control list that are not being offered (R68). -/
def Port.modUnoffered (x : Port) (f : List ControlEntry → List ControlEntry) : Port :=
  if x.headOffered then { x with control := x.control.take 1 ++ f (x.control.drop 1) }
  else { x with control := f x.control }

/-- Adds `k` to the GRANT entry of a number, or appends a new one (R30). -/
def addGrant (n : LinkNumber) (k : Nat) (l : List ControlEntry) : List ControlEntry :=
  let isGrant : ControlEntry → Bool := fun e => match e with | .grant m _ => m == n | _ => false
  if l.any isGrant then
    l.map fun e => match e with | .grant m v => if m = n then .grant m (v + k) else .grant m v | e => e
  else l ++ [.grant n k]

/-- Queues a GRANT of `k` for a number (R30). -/
def Device.queueGrant (d : Device) (p : PortId) (n : LinkNumber) (k : Nat) : Device :=
  (d.modIn p n fun h => { h with inFlight := h.inFlight + k }).modPort p fun x => x.modUnoffered (addGrant n k)

/-- One run of the generator for a half: reserves and queues what it can, and tells whether slots are still wanted (R28, R29). -/
def Device.generate (d : Device) (p : PortId) (n : LinkNumber) : Device × Bool :=
  match d.generatorOwner p n with
  | none => (d, false)
  | some c =>
    let a := d.available p n c
    if a = 0 then (d, false)
    else if (d.chan c).kind == .relayIn then (d.queueGrant p n a, false)
    else
      let r := cqRing (d.chan c).ring
      let k := min a (d.ring r).room
      (if k = 0 then d else (d.reserve r k).queueGrant p n k, decide (k < a))

/-- Runs the generator for a half: a request not given in full joins the waiting list, and one given in full, or no longer wanted,
leaves it. A half whose GRANT is being offered keeps its place there (R28, R29, R145). -/
def Device.runGenerator (d : Device) (p : PortId) (n : LinkNumber) : Device :=
  match (d.inHalf p n).owner, d.generate p n with
  | some c, (e, true) => e.waitFor (cqRing (d.chan c).ring) (.inHalf p n)
  | some c, (e, false) => if (d.port p).grantOffered n then e else e.unwait (cqRing (d.chan c).ring) (.inHalf p n)
  | none, (e, _) => e

/-- Runs the generator for every half of a port, in increasing link number (R64). -/
def Device.runGenerators (d : Device) (p : PortId) : Device := linkNumbers.foldl (fun e n => e.runGenerator p n) d

/-! ## Reservations behind credits -/

/-- Returns the reservations behind `k` credits of a half to its owner's completion ring; a RELAY_IN half holds none (R23, R29). -/
def Device.releaseCredits (d : Device) (owner : Option ChannelId) (k : Nat) : Device :=
  match owner with
  | some c => if (d.chan c).kind == .inn then d.release (cqRing (d.chan c).ring) k else d
  | none => d

/-! ## Revokes and abandons (R34, R36) -/

/-- The credits of the GRANT entries of a number in a list. -/
def grantValue (n : LinkNumber) (l : List ControlEntry) : Nat :=
  (l.map fun e => match e with | .grant m v => if m = n then v else 0 | _ => 0).sum

/-- The entries of a pending control list that are not being offered. -/
def Port.unoffered (x : Port) : List ControlEntry := if x.headOffered then x.control.drop 1 else x.control

/-- Requests a revoke of a number (R34): on an engaged port it withdraws an unsent GRANT and queues a REVOKE entry unless one is
pending; on any other port it changes nothing. In both cases the half's wait for slots is given up (R145). -/
def Device.requestRevoke (d : Device) (p : PortId) (n : LinkNumber) : Device :=
  let h := d.inHalf p n
  let d0 := match h.owner with
    | some c => d.unwait (cqRing (d.chan c).ring) (.inHalf p n)
    | none => d
  if (d.port p).up then
    let k := grantValue n (d.port p).unoffered
    let d1 := (d0.modPort p fun x =>
        x.modUnoffered (List.filter fun e => match e with | .grant m _ => !(m == n) | _ => true)).modIn p n
      fun x => { x with inFlight := x.inFlight - k }
    let d2 := d1.releaseCredits h.owner k
    if h.revokePending then d2
    else (d2.modIn p n fun x => { x with revokePending := true }).modPort p
      fun x => { x with control := x.control ++ [.revoke n] }
  else d0

/-- Requests an abandon of the open message on a number (R36). -/
def Device.requestAbandon (d : Device) (p : PortId) (n : LinkNumber) : Device :=
  if (d.outHalf p n).openMark && !(d.port p).control.contains (.abandon n) then
    d.modPort p fun x => { x with control := x.control ++ [.abandon n] }
  else d

/-- Takes an unsent ABANDON entry out of a list, as its message has ended (R36). -/
def Device.dropAbandon (d : Device) (p : PortId) (n : LinkNumber) : Device :=
  d.modPort p fun x => x.modUnoffered (List.filter fun e => !(e == .abandon n))

/-! ## Ownership (R22) -/

/-- Makes a channel the owner of the half its key names (R4, R5). -/
def Device.bind (d : Device) (c : ChannelId) : Device :=
  let x := d.chan c
  if x.isOutbound then d.modOut x.port x.number fun h => { h with owner := some c }
  else d.modIn x.port x.number fun h => { h with owner := some c }

/-- Ends a channel's ownership of its half, leaving every count and mark (R22). -/
def Device.unbind (d : Device) (c : ChannelId) : Device :=
  let x := d.chan c
  if x.isOutbound then
    d.modOut x.port x.number fun h => if h.owner = some c then { h with owner := none } else h
  else d.modIn x.port x.number fun h => if h.owner = some c then { h with owner := none } else h

/-! ## The scheduler's lists (R91) -/

/-- Appends a channel at the tail of its class list (R4, R5). -/
def Device.enlist (d : Device) (c : ChannelId) : Device :=
  let x := d.chan c
  d.modPort x.port fun y => { y with classes := y.classes.set x.cls (y.classes.get x.cls ++ [c]) }

/-- Takes a channel out of a port's class lists; a current pick of it becomes none (R91, R95). -/
def Port.delist (x : Port) (c : ChannelId) : Port :=
  let y := { x with classes := x.classes.map fun l => l.filter fun e => !(e == c) }
  match x.pick with
  | some (e, _) => if e = c then { y with pick := none, selectSent := false } else y
  | none => y

/-- Takes a channel out of its port's class lists. -/
def Device.delist (d : Device) (c : ChannelId) : Device := d.modPort (d.chan c).port fun x => x.delist c

/-! ## Clearing (R23) -/

/-- An entry cleared: every count 0 and every mark no, with the owners kept (R23). -/
def MapEntry.clear (e : MapEntry) : MapEntry :=
  { outbound := { e.outbound with credits := 0, openMark := false },
    inbound := { e.inbound with granted := 0, inFlight := 0, revokePending := false, openMark := false, discard := false } }

/-- A Link Map cleared, with its pending control list emptied (R23, R38). -/
def Port.clearMap (x : Port) : Port :=
  { x with map := x.map.map MapEntry.clear, control := [], headOffered := false, passBegun := false }

/-- Returns the reservations behind every granted credit and every credit in flight of a map (R23, R146). -/
def Device.returnCredits (d : Device) (p : PortId) : Device :=
  linkNumbers.foldl
    (fun e n => e.releaseCredits (e.inHalf p n).owner ((e.inHalf p n).granted + (e.inHalf p n).inFlight)) d

end Sys2Proof.Machine
end

