-- ==== Sys2Proof/Machine/CommandUnit.lean ====
section
/-! DEFINITION. The Command Unit: fetching commands, the slot for the head command, results, the deferred list and barriers
(chapter 9). -/

namespace Sys2Proof.Machine

/-- Posts the COMMAND_DONE of a command with the reservation it holds (R159). -/
def Device.commandDone (d : Device) (subject : Byte) (tag : Half) (result : Result) (detail : Nat) : Device :=
  d.postNotice (.commandDone subject result tag detail)

/-- Fetches command records while R157's conditions hold. -/
def Device.fetchCommands (d : Device) : Device :=
  let x := d.cu
  let count := min (Config.commandsHeld - x.held.length) (min (ringDistance x.size x.fetch x.producer) (x.size - x.fetch))
  if x.fetchBusy || decide (count = 0) then d
  else
    (d.place .commandFetch (addressAdd x.base (32 * x.fetch)) (32 * count) []).modCu fun y => { y with fetchBusy := true }

/-- Asks NQ for the head command's slot whenever there is a head and no slot is held (R158). -/
def Device.requestSlot (d : Device) : Device :=
  if d.cu.held.isEmpty || d.cu.slotHeld || (d.ring nqRing).waiting.contains .commandUnit then d
  else if (d.ring nqRing).room = 0 then d.waitFor nqRing .commandUnit
  else (d.reserve nqRing 1).modCu fun x => { x with slotHeld := true }

/-- Whether the head command is this one and may be taken (R158). -/
def Device.mayTake (d : Device) (i : Instr) : Bool :=
  d.cu.slotHeld && decide (d.cu.deferred.length < Config.deferredCommands) &&
    match d.cu.held with
    | r :: _ => r.command == i
    | [] => false

/-- What the take of the head command changes in the Command Unit (R158). -/
def Device.takeHead (d : Device) : Device :=
  d.modCu fun x => { x with held := x.held.tail, taken := ringAdvance x.size x.taken 1, slotHeld := false }

/-- Adds an entry at the tail of the deferred list (R160). -/
def Device.defer (d : Device) (work : DeferredWork) (tag : Half) (subject : Byte) : Device :=
  d.modCu fun x => { x with deferred := x.deferred ++ [{ work := work, tag := tag, subject := subject }] }

/-- Completes every BARRIER that has no entry ahead of it, in list order (R169). -/
def Device.weighBarriers (d : Device) : Device :=
  let isBarrier : Deferred → Bool := fun e => e.work == .barrier
  let freed := d.cu.deferred.takeWhile isBarrier
  freed.foldl (fun e b => e.commandDone b.subject b.tag .ok 0)
    (d.modCu fun x => { x with deferred := x.deferred.dropWhile isBarrier })

/-- Completes the first deferred command whose work is selected: its entry leaves the list, its notice is posted, and the
barriers are weighed again (R161, R169). -/
def Device.completeDeferred (d : Device) (sel : DeferredWork → Bool) (result : Result) (detail : Nat) : Device :=
  match d.cu.deferred.find? fun e => sel e.work with
  | none => d
  | some e =>
    ((d.modCu fun x => { x with deferred := x.deferred.erase e }).commandDone e.subject e.tag result detail).weighBarriers

/-- The work of a CLOSE, of either mode, on a channel or on the pair of an inbound index. -/
def isClose (c : ChannelId) : DeferredWork → Bool
  | .close _ e => e == c
  | _ => false

/-- The work of a PORT_DISABLE on a port. -/
def isDisable (p : PortId) : DeferredWork → Bool
  | .portDisable q => q == p
  | _ => false

/-- The work of a READ_STATS by its statistics write. -/
def isStats (id : Nat) : DeferredWork → Bool
  | .readStats r => r == id
  | _ => false

end Sys2Proof.Machine
end

