-- ==== Sys2Proof/Machine/Sending.lean ====
section
/-! DEFINITION. The send path of a channel: fetching records, the reservation of the current record, completion and setting back
(chapter 5). -/

namespace Sys2Proof.Machine

/-- The room of a channel's list of fetched records (R88, R109). -/
def Channel.heldLimit (x : Channel) : Nat := if x.kind == .inn then Config.supplyRecordsHeld else Config.sendRecordsHeld

/-- The records a fetch placed now would cover (R88, R109). -/
def Channel.fetchCount (x : Channel) : Nat :=
  min (x.heldLimit - ringDistance x.size x.retire x.fetch) (min (ringDistance x.size x.fetch x.producer) (x.size - x.fetch))

/-- Places a record fetch while the conditions of R88 or R109 hold. -/
def Device.fetchRecords (d : Device) (c : ChannelId) : Device :=
  let x := d.chan c
  if x.state == .opened && !x.isRelay && !x.fetchBusy && decide (1 ≤ x.fetchCount) then
    (d.place (.recordFetch c x.opening) (addressAdd x.base (16 * x.fetch)) (16 * x.fetchCount) []).modChan c
      fun y => { y with fetchBusy := true }
  else d

/-- Makes the head record of an idle OPEN channel current and asks for its reservation (R89, R90). While a walk of the ring's waiting
list stands stopped at an offered GRANT, a request the test of R144 allows is given its slots ahead of the entries that wait: DESIGN
CHOICE, entry 10. -/
def Device.startNext (d : Device) (c : ChannelId) : Device :=
  let x := d.chan c
  if x.state == .opened && x.kind == .out && x.out.phase == .idle && !x.held.isEmpty then
    let r := cqRing x.ring
    if (d.ring r).room = 0 then (d.waitFor r (.outRecord c)).modOutMsg c fun o => { o with phase := .waiting }
    else (d.reserve r 1).modOutMsg c fun o => { o with phase := .ready, reserved := true }
  else d

/-- Gives up a request still waiting as the channel leaves OPEN (R90). -/
def Device.withdrawRequest (d : Device) (c : ChannelId) : Device :=
  if (d.chan c).out.phase == .waiting then
    (d.unwait (cqRing (d.chan c).ring) (.outRecord c)).modOutMsg c fun o => { o with phase := .idle }
  else d

/-- Empties a port's outbound staging if a channel is the staged one (R98, R102). -/
def Device.unstage (d : Device) (c : ChannelId) : Device :=
  d.modPort (d.chan c).port fun x =>
    if x.outStaging.channel = some c then { x with outStaging := OutStaging.empty } else x

/-- What a completion of a send record adds to the channel's counters (R19); SENT is counted at the END (R27). -/
def ChannelCounters.sendCompleted (k : ChannelCounters) : Status → ChannelCounters
  | .cancelled => { k with abandoned := satAdd k.abandoned 1 }
  | .linkLost => { k with linkLost := satAdd k.linkLost 1 }
  | _ => k

/-- Completes the current record: posts its completion, retires it, and makes the next record current (R8, R89, R101 to R106). -/
def Device.completeSend (d : Device) (c : ChannelId) (status : Status) (length : Nat) : Device :=
  let x := d.chan c
  match x.held with
  | [] => d
  | h :: rest =>
    let posted := d.postCompletion
      { channel := c, status := status, tag := h.tag, length := length, total := 0, continued := false,
        restarted := x.out.restarted, buffer := none }
    let retired := (posted.unstage c).modChan c fun y =>
      { y with
        held := rest
        retire := ringAdvance y.size y.retire 1
        out := OutMessage.cleared
        counters := y.counters.sendCompleted status }
    (retired.startNext c).fetchRecords c

/-- Sets a lost message back to its first byte under RESTART (R105). -/
def Device.setBack (d : Device) (c : ChannelId) : Device :=
  (d.modOutMsg c fun o => { o with phase := .ready, offset := 0, restarted := true }).countChan c
    fun k => { k with restarts := satAdd k.restarts 1 }

/-- The status of a record whose message an abortive close has ended: CANCELLED, or FAULT after a payload read error (R101). -/
def Channel.cancelStatus (x : Channel) : Status := if x.out.spoiled then .fault else .cancelled

/-- Whether a channel's current record has been set back and waits to be started again (R92, R103, R104). -/
def Channel.restartedReady (x : Channel) : Bool := x.kind == .out && x.out.phase == .ready && x.out.restarted

end Sys2Proof.Machine
end

