-- ==== Sys2Proof/Machine/Staging.lean ====
section
/-! DEFINITION. Inbound staging drained: the writes to host buffers and the moves into relay cells that a port issues (R113, R131). -/

namespace Sys2Proof.Machine

/-- The staged bytes of one destination that stand together from an offset on, at most `n` of them, with bytes of other destinations
staged between them passed over; and the bytes that stay staged (R113, R131). -/
def gather (t : Destination) : Nat → Nat → List StagedByte → List Byte × List StagedByte
  | 0, _, l => ([], l)
  | _, _, [] => ([], [])
  | n + 1, k, b :: rest =>
    if b.dest = t then
      if b.offset = k then
        let (run, left) := gather t n (k + 1) rest
        (b.byte :: run, left)
      else ([], b :: rest)
    else
      let (run, left) := gather t (n + 1) k rest
      (run, b :: left)

/-- The inbound writes and cell moves of a port in flight (R113, R131). -/
def Device.inboundInFlight (d : Device) (p : PortId) : Nat :=
  (d.requests.countP fun r => match r.access with | .bufferWrite q _ => q == p | _ => false) +
    d.relay.moves.countP fun m => m.port == p

/-- Issues one write or move of the oldest staged bytes, if fewer than four are in flight (R113, R131). -/
def Device.issueOne (d : Device) (p : PortId) : Device :=
  if Config.writesInFlight ≤ d.inboundInFlight p then d
  else
    match (d.port p).inStaging with
    | [] => d
    | b :: rest =>
      let (run, left) := gather b.dest Config.transferBytes b.offset (b :: rest)
      let e := d.modPort p fun x => { x with inStaging := left }
      match b.dest with
      | .buffer k =>
        match e.buffer? k with
        | none => e
        | some z =>
          (e.place (.bufferWrite p k) (addressAdd z.address b.offset) run.length run).modBuffer k
            fun y => { y with issued := y.issued + run.length, outstanding := y.outstanding + 1 }
      | .cell _ k =>
        { (e.modRelay fun r =>
            { r with moves := r.moves ++ [{ id := e.serial, port := p, cell := k, offset := b.offset, bytes := run }] }) with
          serial := e.serial + 1 }

/-- Issues writes and moves while R113 allows: at most four can be placed at one event. -/
def Device.issueInbound (d : Device) (p : PortId) : Device := (((d.issueOne p).issueOne p).issueOne p).issueOne p

end Sys2Proof.Machine
end

