-- ==== Sys2Proof/Machine/Relay.lean ====
section
/-! DEFINITION. The Relay Unit: the cells of a pair from spare through filling, queued and sending back to spare (chapter 7). -/

namespace Sys2Proof.Machine

/-- Runs the generator for the inbound half of a pair (R28, R129). -/
def Device.runPairGenerator (d : Device) (i : ChannelId) : Device :=
  d.runGenerator (d.chan i).port (d.chan i).number

/-- A cell returns to the tail of its pair's spare list, and the generator runs (R129). -/
def Device.returnCell (d : Device) (i : ChannelId) (k : CellId) : Device :=
  (d.modPair i fun x => { x with spare := x.spare ++ [k] }).runPairGenerator i

/-- Gives an outbound half that has no message open the phase its queue asks for (R134). -/
def Device.refreshPhase (d : Device) (i : ChannelId) : Device :=
  match d.pair i with
  | none => d
  | some x =>
    d.modOutMsg x.outbound fun o =>
      if o.phase == .started then o else { o with phase := if x.queue.isEmpty then .idle else .ready }

/-- The head entry of a pair's queue leaves it: the outbound message state is cleared, outbound staging of it is emptied, and its
cell returns to spare (R134, R135, R136, R139). Where the message is given up, its moves and staged bytes are cancelled by the caller
(DESIGN CHOICE, entry 41). -/
def Device.popQueue (d : Device) (i : ChannelId) : Device :=
  match d.pair i with
  | none => d
  | some x =>
    match x.queue with
    | [] => d
    | e :: rest =>
      let d1 := (((d.unstage x.outbound).modPair i fun y => { y with queue := rest }).modOutMsg x.outbound
        fun _ => OutMessage.cleared).refreshPhase i
      d1.returnCell i e.cell

/-- Drops the staged bytes meant for a cell and cancels the moves in progress into it (R131, R133, R139). -/
def Device.cancelCell (d : Device) (i : ChannelId) (k : CellId) : Device :=
  (d.modPort (d.chan i).port fun x =>
      { x with inStaging := x.inStaging.filter fun b => !(b.dest == .cell i k) }).modRelay
    fun r => { r with moves := r.moves.filter fun m => !(m.cell == k) }

/-- The cell of a finished message that is given up returns to spare. Its bytes still staged and its moves in progress are cancelled, as
those of a filling cell given up are, and the room so made is used at once (R113, R129; DESIGN CHOICE, entry 41). -/
def Device.giveUpCell (d : Device) (i : ChannelId) (k : CellId) : Device :=
  ((d.cancelCell i k).returnCell i k).issueInbound (d.chan i).port

/-- The head entry of a pair's queue leaves it undelivered: as `popQueue`, with its cell given up (R136, R139). -/
def Device.giveUpHead (d : Device) (i : ChannelId) : Device :=
  match (d.pair i).bind fun x => x.queue.head? with
  | none => d
  | some e => ((d.cancelCell i e.cell).popQueue i).issueInbound (d.chan i).port

/-- Whether the head of a pair's queue is sending (R129). -/
def Device.sending (d : Device) (x : RelayPair) : Bool := (d.chan x.outbound).out.phase == .started

/-- A peer start on a RELAY_IN half makes the head spare cell the filling cell (R130). -/
def Device.startCell (d : Device) (i : ChannelId) : Device :=
  match d.pair i with
  | none => d
  | some x =>
    match x.spare with
    | [] => d.modInMsg i fun _ => InMessage.cleared
    | k :: rest =>
      ((d.modPair i fun y => { y with spare := rest, filling := some k }).modRelay
        fun r => { r with cells := r.cells.set k [] }).modInMsg i fun _ => InMessage.cleared

/-- Places bytes at their offset in a cell, over what stands there (R131). -/
def RelayUnit.place (u : RelayUnit) (k : CellId) (g : Segment) : RelayUnit :=
  { u with cells := u.cells.set k (g :: u.cells.get k) }

/-- The filling cell, if any, is given up: its bytes are disregarded and it returns to spare (R131, R133, R139). -/
def Device.giveUpFilling (d : Device) (i : ChannelId) : Device :=
  match (d.pair i).bind RelayPair.filling with
  | none => d
  | some k => ((d.cancelCell i k).modPair i fun x => { x with filling := none }).returnCell i k

/-- A finished message joins the relay queue, or, with the outbound side cut, its cell returns to spare as link-lost (R132,
R138). -/
def Device.queueFilling (d : Device) (i : ChannelId) (length : Nat) : Device :=
  match d.pair i with
  | none => d
  | some x =>
    match x.filling with
    | none => d
    | some k =>
      if x.cut then
        ((d.modPair i fun y => { y with filling := none }).countRelay i
          fun n => { n with linkLost := satAdd n.linkLost 1 }).giveUpCell i k
      else
        (d.modPair i fun y =>
          { y with filling := none, queue := y.queue ++ [{ cell := k, length := length }] }).refreshPhase i

/-- The END COMPLETE of a message on a RELAY_IN half acts by its mode (R132). -/
def Device.relayEndComplete (d : Device) (i : ChannelId) : Device :=
  let m := (d.chan i).inm
  let d1 := d.modInMsg i fun _ => InMessage.cleared
  match m.mode with
  | .writing => d1.queueFilling i m.fill
  | .truncating =>
    (d1.countRelay i fun n => { n with truncated := satAdd n.truncated 1 }).queueFilling i Config.cellBytes
  | .dropping => d1.countRelay i fun n => { n with droppedOversize := satAdd n.droppedOversize 1 }

/-- The END ABANDON of a message on a RELAY_IN half (R133). -/
def Device.relayEndAbandon (d : Device) (i : ChannelId) : Device :=
  ((d.modInMsg i fun _ => InMessage.cleared).giveUpFilling i).countRelay i
    fun n => { n with abandoned := satAdd n.abandoned 1 }

/-- The loss of the open message of a RELAY_IN half (R133). -/
def Device.relayInboundLost (d : Device) (i : ChannelId) : Device :=
  ((d.modInMsg i fun _ => InMessage.cleared).giveUpFilling i).countRelay i
    fun n => { n with linkLost := satAdd n.linkLost 1 }

/-- The loss of the open message of a RELAY_OUT half, by the pair's state and the half's break policy (R136). -/
def Device.relayOutboundLost (d : Device) (c : ChannelId) : Device :=
  let x := d.chan c
  let i := x.partner
  match x.state, x.breakPolicy with
  | .opened, .restart => d.setBack c
  | .aborting, _ => (d.countRelay i fun n => { n with abandoned := satAdd n.abandoned 1 }).giveUpHead i
  | _, _ => (d.countRelay i fun n => { n with linkLost := satAdd n.linkLost 1 }).giveUpHead i

/-- Every entry of a queue that is given up returns its cell to spare, with its moves and staged bytes cancelled (R138, R139; the
cancelling is DESIGN CHOICE, entry 41, and so is their order, that of the queue, entry 42). -/
def Device.returnEntries (d : Device) (i : ChannelId) (l : List RelayEntry) : Device :=
  l.foldl (fun e x => e.giveUpCell i x.cell) d

/-- The outbound side of a draining pair is cut: every entry leaves the queue as link-lost (R138). -/
def Device.cutPair (d : Device) (i : ChannelId) : Device :=
  match d.pair i with
  | none => d
  | some x =>
    let d1 := ((d.unstage x.outbound).modPair i fun y => { y with queue := [], cut := true }).modOutMsg x.outbound
      fun _ => OutMessage.cleared
    (d1.countRelay i fun n => { n with linkLost := satAdd n.linkLost x.queue.length }).returnEntries i x.queue

/-- The entries that are not sending leave the queue of an aborted pair (R139). -/
def Device.abandonQueue (d : Device) (i : ChannelId) : Device :=
  match d.pair i with
  | none => d
  | some x =>
    let kept := if d.sending x then x.queue.take 1 else []
    let gone := if d.sending x then x.queue.drop 1 else x.queue
    let d1 := (d.modPair i fun y => { y with queue := kept }).modOutMsg x.outbound
      fun o => if o.phase == .started then o else OutMessage.cleared
    (d1.countRelay i fun n => { n with abandoned := satAdd n.abandoned gone.length }).returnEntries i gone

end Sys2Proof.Machine
end

