-- ==== Sys2Proof/Machine/Receiving.lean ====
section
/-! DEFINITION. The receive path: taking a buffer, placing expanded bytes, overflow, and posting a buffer's completion (chapter 6,
R131). -/

namespace Sys2Proof.Machine

/-- The maximum at which a total expanded length holds (R110). -/
def totalMax : Nat := 4294967295

/-- The capacity of a channel's current buffer: the head supply record's, or a cell's (R111, R130). -/
def Channel.capacity (x : Channel) : Nat :=
  if x.kind == .relayIn then Config.cellBytes else (x.held.head?.map HostRecord.size).getD 0

/-! ## Taking a buffer (R111) -/

/-- Takes the head supply record's buffer as the current buffer of a message (R111, R116). -/
def Device.takeBuffer (d : Device) (c : ChannelId) (message : Nat) : Device :=
  match (d.chan c).held with
  | [] => d.modInMsg c fun m => { m with buffer := none, message := message, fill := 0 }
  | h :: _ =>
    let b : Buffer :=
      { id := d.serial, channel := c, opening := (d.chan c).opening, message := message, address := h.address, placed := 0,
        issued := 0, outstanding := 0, acceptedBytes := 0, failed := false }
    ({ d with buffers := d.buffers ++ [b], serial := d.serial + 1 }).modInMsg c
      fun m => { m with buffer := some b.id, message := message, fill := 0 }

/-- A peer start tells an IN owner: it takes a buffer, with the message state cleared (R111). -/
def Device.startBuffer (d : Device) (c : ChannelId) : Device :=
  (d.modInMsg c fun _ => InMessage.cleared).takeBuffer c d.serial

/-! ## Posting a buffer's completion (R118) -/

/-- Posts the current buffer's completion: the record is retired and its reservation becomes the completion (R8, R118). -/
def Device.postInbound (d : Device) (c : ChannelId) (status : Status) (length : Nat) (continued : Bool) : Device :=
  let x := d.chan c
  match x.held with
  | [] => d
  | h :: rest =>
    ((d.postCompletion
        { channel := c, status := status, tag := h.tag, length := length, total := sat16 x.inm.total,
          continued := continued, restarted := false, buffer := x.inm.buffer }).modChan c
      fun y => { y with held := rest, retire := ringAdvance y.size y.retire 1 }).fetchRecords c

/-- What the end of an inbound message adds to an IN channel's counters by its status (R19). -/
def ChannelCounters.receiveCompleted (k : ChannelCounters) : Status → ChannelCounters
  | .truncated => { k with truncated := satAdd k.truncated 1 }
  | .oversize => { k with oversize := satAdd k.oversize 1 }
  | .abandoned => { k with abandoned := satAdd k.abandoned 1 }
  | .linkLost => { k with linkLost := satAdd k.linkLost 1 }
  | _ => k

/-- Ends an IN channel's open message with a status and length, and clears its message state (R119 to R123). -/
def Device.endInbound (d : Device) (c : ChannelId) (status : Status) (length : Nat) : Device :=
  ((d.postInbound c status length false).modInMsg c fun _ => InMessage.cleared).countChan c
    fun k => k.receiveCompleted status

/-- The bytes of the current buffer carried by issued writes (R121, R123). -/
def Device.issuedBytes (d : Device) (c : ChannelId) : Nat :=
  (((d.chan c).inm.buffer.bind d.buffer?).map Buffer.issued).getD 0

/-- The length a message ending now reports: fill in WRITING, capacity past an overflow (R119, R120). -/
def Channel.endLength (x : Channel) : Nat := if x.inm.mode == .writing then x.inm.fill else x.capacity

/-- The status an END COMPLETE gives, by the mode (R119). -/
def InMode.status : InMode → Status
  | .writing => .delivered
  | .truncating => .truncated
  | .dropping => .oversize

/-! ## Dropping staged bytes (R13, R17, R114) -/

/-- Drops a port's staged bytes that go to one of the selected buffers: what was placed for such a buffer and not issued is no
longer waited for. -/
def Device.dropStaged (d : Device) (p : PortId) (sel : Buffer → Bool) : Device :=
  let ids := (d.buffers.filter sel).map Buffer.id
  let e := d.modPort p fun x =>
    { x with inStaging := x.inStaging.filter fun b => match b.dest with | .buffer k => !ids.contains k | _ => true }
  { e with buffers := e.buffers.map fun b => if sel b then { b with placed := b.issued } else b }

/-- Drops the staged bytes of a channel's open message (R13, R17). -/
def Device.dropMessage (d : Device) (c : ChannelId) : Device :=
  d.dropStaged (d.chan c).port fun b => b.channel == c && b.message == (d.chan c).inm.message

/-! ## Placing expanded bytes (R112, R114 to R117, R131) -/

/-- Counts a byte in the total expanded length (R112). -/
def Device.countTotal (d : Device) (c : ChannelId) : Device :=
  d.modInMsg c fun m => { m with total := min (m.total + 1) totalMax }

/-- Sets the mode of an inbound message state. -/
def Device.setMode (d : Device) (c : ChannelId) (mode : InMode) : Device := d.modInMsg c fun m => { m with mode := mode }

/-- Places a byte for the current buffer or filling cell in inbound staging, at offset fill (R112). -/
def Device.stageByte (d : Device) (c : ChannelId) (b : Byte) : Device :=
  let x := d.chan c
  let dest : Option Destination :=
    if x.kind == .relayIn then ((d.pair c).bind RelayPair.filling).map (Destination.cell c)
    else x.inm.buffer.map Destination.buffer
  match dest with
  | none => d.countTotal c
  | some t =>
    let e := d.modPort x.port fun y =>
      { y with inStaging := y.inStaging ++ [{ dest := t, offset := x.inm.fill, byte := b }] }
    let e := match t with
      | .buffer k => e.modBuffer k fun z => { z with placed := z.placed + 1 }
      | .cell _ _ => e
    (e.modInMsg c fun m => { m with fill := m.fill + 1 }).countTotal c

/-- The records held that no credit and no open message stands behind (R116). -/
def Device.unpromised (d : Device) (c : ChannelId) : Nat :=
  let x := d.chan c
  let h := d.inHalf x.port x.number
  x.held.length - h.granted - h.inFlight - 1

/-- The first overflow of an IN message under its policy, met by one byte (R114, R115, R116). -/
def Device.overflowBuffer (d : Device) (c : ChannelId) (b : Byte) : Device :=
  let x := d.chan c
  let r := cqRing x.ring
  match x.overflow with
  | .drop =>
    ((d.setMode c .dropping).dropStaged x.port fun z => x.inm.buffer == some z.id).countTotal c
  | .truncate => (d.setMode c .truncating).countTotal c
  | .chain =>
    if 1 ≤ d.unpromised c ∧ 1 ≤ (d.ring r).room then
      (((d.reserve r 1).postInbound c .delivered x.capacity true).takeBuffer c x.inm.message).stageByte c b
    else (d.setMode c .truncating).countTotal c

/-- The first overflow of a RELAY_IN message under its policy (R131). -/
def Device.overflowCell (d : Device) (c : ChannelId) : Device :=
  match (d.chan c).overflow with
  | .drop => ((d.setMode c .dropping).giveUpFilling c).countTotal c
  | _ => (d.setMode c .truncating).countTotal c

/-- Places one expanded byte of a channel's open message (R112, R131). -/
def Device.placeByte (d : Device) (c : ChannelId) (b : Byte) : Device :=
  let x := d.chan c
  if x.inm.mode == .writing then
    if x.inm.fill < x.capacity then d.stageByte c b
    else if x.kind == .relayIn then d.overflowCell c
    else d.overflowBuffer c b
  else d.countTotal c

/-- Places a run of equal expanded bytes, one after another (R117). -/
def Device.placeRun (c : ChannelId) (b : Byte) : Nat → Device → Device
  | 0, d => d
  | n + 1, d => Device.placeRun c b n (d.placeByte c b)

/-! ## The room a byte asks for (R45, R46, R112, R117) -/

/-- The bytes of a run that chain steps would still place, given the capacities of the records behind the current one. -/
def chainPlaces : List Nat → Nat → Nat → Nat
  | [], _, _ => 0
  | _, 0, _ => 0
  | k :: rest, steps + 1, r => if r ≤ k then r else k + chainPlaces rest steps (r - k)

/-- The bytes of a run of `r` that will be placed in staging for a channel's open message (R117). -/
def Device.placedOf (d : Device) (c : ChannelId) (r : Nat) : Nat :=
  let x := d.chan c
  let left := x.capacity - x.inm.fill
  if x.inm.mode == .writing then
    if r ≤ left then r
    else if x.kind == .inn && x.overflow == .chain then
      left + chainPlaces (x.held.tail.map HostRecord.size) (min (d.unpromised c) (d.ring (cqRing x.ring)).room) (r - left)
    else left
  else 0

/-- The room an offered byte needs in inbound staging before it may be accepted (R45, R46). -/
def Device.roomNeeded (d : Device) (p : PortId) (w : WireByte) : Nat :=
  if w.flag then 0
  else
    let target : Option (Nat × LinkNumber) :=
      match (d.port p).repeatPending with
      | some x => some x
      | none => (d.port p).selection.map fun n => (1, n)
    match target with
    | none => 0
    | some (r, n) =>
      let h := d.inHalf p n
      match h.owner with
      | none => 0
      | some c =>
        if h.openMark then d.placedOf c r
        else if h.discard || decide (h.granted = 0) then 0
        else if (d.chan c).state == .opened || (d.chan c).state == .draining then r
        else 0

/-- The room inbound staging has left (R60). -/
def Port.stagingRoom (x : Port) : Nat := Config.inboundStaging - x.inStaging.length

/-! ## Ends told to an IN owner (R119, R120) -/

/-- An END COMPLETE tells an IN owner (R119). -/
def Device.inEndComplete (d : Device) (c : ChannelId) : Device :=
  d.endInbound c (d.chan c).inm.mode.status (d.chan c).endLength

/-- An END ABANDON tells an IN owner (R120). -/
def Device.inEndAbandon (d : Device) (c : ChannelId) : Device := d.endInbound c .abandoned (d.chan c).endLength

/-- The open buffer of an IN channel completes with the bytes carried by issued writes, its staged bytes dropped (R13, R121,
R123). -/
def Device.cutInbound (d : Device) (c : ChannelId) (status : Status) : Device :=
  (d.dropMessage c).endInbound c status (d.issuedBytes c)

/-- The open buffer of an IN channel completes FAULT, its staged bytes dropped; the length is decided when its writes are done
(R17, R122). -/
def Device.faultInbound (d : Device) (c : ChannelId) : Device :=
  let e := d.dropMessage c
  let e := match (d.chan c).inm.buffer with
    | some b => e.modBuffer b fun z => { z with failed := true }
    | none => e
  e.endInbound c .fault (d.issuedBytes c)

end Sys2Proof.Machine
end

