-- ==== Sys2Proof/Machine/Closing.lean ====
section
/-! DEFINITION. Closing a channel or a pair, and channel faults (sections 1.4, 1.5 and 7.5). -/

namespace Sys2Proof.Machine

/-! ## Reaching CLOSED (R16, R140) -/

/-- Clears a context that reaches CLOSED: its reservation, its half, its class list place and its waiting request are given up, and
every field takes its cleared value but the counters, which are kept, and the kind they were counted under (R16, R20; entry 14). -/
def Device.clearContext (d : Device) (c : ChannelId) : Device :=
  let x := d.chan c
  let e := if x.out.reserved then d.release (cqRing x.ring) 1 else d
  ((((e.unwait (cqRing x.ring) (.outRecord c)).unbind c).delist c).modChan c
    fun y => { Channel.cleared with kind := y.kind, counters := y.counters })

/-- A channel that is no relay half reaches CLOSED: the notice of its pending CLOSE, then the clearing (R16). -/
def Device.finishChannel (d : Device) (c : ChannelId) : Device :=
  (d.completeDeferred (isClose c) .ok (d.chan c).retire).clearContext c

/-- A pair reaches CLOSED: one notice with detail 0, both contexts cleared, and its spare cells appended to the free list
(R16, R140). -/
def Device.finishPair (d : Device) (x : RelayPair) : Device :=
  let e := ((d.completeDeferred (isClose x.inbound) .ok 0).clearContext x.inbound).clearContext x.outbound
  (e.modRelay fun r => { r with free := r.free ++ x.spare }).setPair x.inbound none

/-- A closing channel or pair with nothing left to wait for reaches CLOSED (R9 to R16, R137 to R140). -/
def Device.tryClose (d : Device) (c : ChannelId) : Device :=
  if d.closeDone c then
    if (d.chan c).isRelay then
      match d.pair (d.pairIndex c) with
      | some x => d.finishPair x
      | none => d
    else d.finishChannel c
  else d

/-! ## Taking a CLOSE (R9 to R15, R137 to R139) -/

/-- A taken CLOSE moves the channel's state and records its mode and tag (R9). -/
def Device.startClose (d : Device) (c : ChannelId) (state : ChannelState) (mode : CloseMode) (tag : Half) : Device :=
  d.modChan c fun x => { x with state := state, pendingClose := some (mode, tag) }

/-- The graceful close of an OUT channel (R10, R15). -/
def Device.gracefulOut (d : Device) (c : ChannelId) : Device :=
  let e := d.withdrawRequest c
  if !e.linkUp c && (e.chan c).restartedReady then e.completeSend c .linkLost 0 else e

/-- An inbound channel asks for the revoke of its close or fault; on a port that is neither ACTIVE nor QUIESCING it is over at once
(R11, R13, R15, R17, R34). -/
def Device.askRevoke (d : Device) (c : ChannelId) : Device :=
  (d.requestRevoke (d.chan c).port (d.chan c).number).modChan c
    fun x => { x with revoke := if d.linkUp c then .waiting else .gone }

/-- The graceful close of a pair (R137, R138). -/
def Device.gracefulPair (d : Device) (x : RelayPair) : Device :=
  let e := d.askRevoke x.inbound
  if e.linkUp x.outbound then e else e.cutPair x.inbound

/-- What an abortive close of an OUT channel does at its take, before any notice (R12, R103). -/
def Device.abortOut (d : Device) (c : ChannelId) : Device :=
  let e := (d.withdrawRequest c).delist c
  if (e.chan c).restartedReady then e.completeSend c (e.chan c).cancelStatus 0 else e

/-- The link action of an abortive close of an outbound half with a message open (R12, R14, R36). -/
def Device.abandonOpen (d : Device) (c : ChannelId) : Device := d.requestAbandon (d.chan c).port (d.chan c).number

/-- What an abortive close of an IN channel does to an open message (R13, R123). -/
def Device.abortIn (d : Device) (c : ChannelId) : Device :=
  let x := d.chan c
  if (d.inHalf x.port x.number).openMark then
    (d.cutInbound c .aborted).modIn x.port x.number fun h => { h with openMark := false, discard := true }
  else d

/-- What an abortive close of a pair gives up at once, the filling cell ahead of the queue's (DESIGN CHOICE, entry 42); the moves so
cancelled make room for the port's next writes (R113, R131, R139). -/
def Device.abortPair (d : Device) (x : RelayPair) : Device :=
  let i := d.chan x.inbound
  let e :=
    if (d.inHalf i.port i.number).openMark then
      ((d.modIn i.port i.number fun h => { h with openMark := false, discard := true }).relayEndAbandon x.inbound).issueInbound
        i.port
    else d
  (e.delist x.outbound).abandonQueue x.inbound

/-- A CLOSE GRACEFUL taken on an OPEN channel or pair (R9 to R11, R15, R137). -/
def Device.takeGraceful (d : Device) (c : ChannelId) (tag : Half) (subject : Byte) : Device :=
  let i := d.pairIndex c
  let d1 := d.defer (.close .graceful i) tag subject
  match (d.chan c).kind with
  | .out => ((d1.startClose c .draining .graceful tag).gracefulOut c).tryClose c
  | .inn => ((d1.startClose c .draining .graceful tag).askRevoke c).tryClose c
  | _ =>
    match d.pair i with
    | none => d1
    | some x =>
      (((d1.startClose x.inbound .draining .graceful tag).startClose x.outbound .draining .graceful tag).gracefulPair x).tryClose
        i

/-- The revoke of an abortive close of an inbound half, by the state it leaves. From OPEN it is asked for. The one of a drain is kept,
queued, offered or accepted, and asked for again only if the port's going down had dropped it, as a pair's may have been (R14, R139). The
one of a fault is kept as it stands: one dropped with its port is over and not asked for again (R18, R38; entry 39). -/
def Device.revokeForAbort (d : Device) (c : ChannelId) (left : ChannelState) : Device :=
  match left with
  | .opened => d.askRevoke c
  | .draining => if (d.chan c).revoke = .gone then d.askRevoke c else d
  | _ => d

/-- A CLOSE ABORT taken on an OPEN, DRAINING or FAULTED channel or pair (R9, R12 to R15, R18, R139). A DRAINING one is escalated:
after the completions of the take, the graceful CLOSE completes SUPERSEDED (R14, R125, R162). -/
def Device.takeAbort (d : Device) (c : ChannelId) (tag : Half) (subject : Byte) : Device :=
  let i := d.pairIndex c
  let from_ := (d.chan c).state
  let supersede : Device → Device := fun e =>
    (if from_ = .draining then e.completeDeferred (isClose i) .superseded 0 else e).defer (.close .abort i) tag subject
  match (d.chan c).kind with
  | .out => ((supersede ((d.startClose c .aborting .abort tag).abortOut c)).abandonOpen c).tryClose c
  | .inn => ((supersede ((d.startClose c .aborting .abort tag).abortIn c)).revokeForAbort c from_).tryClose c
  | _ =>
    match d.pair i with
    | none => supersede d
    | some x =>
      let e := ((d.startClose x.inbound .aborting .abort tag).startClose x.outbound .aborting .abort tag).abortPair x
      (((supersede e).revokeForAbort x.inbound from_).abandonOpen x.outbound).tryClose i

/-- A CLOSE decided by the channel's state and the mode (R9). -/
def Device.decideClose (d : Device) (c : ChannelId) (mode : CloseMode) (tag : Half) (subject : Byte) : Device :=
  match (d.chan c).state, mode with
  | .closed, _ => d.commandDone subject tag .badState 0
  | .opened, .graceful => d.takeGraceful c tag subject
  | .opened, .abort => d.takeAbort c tag subject
  | .draining, .graceful => d.commandDone subject tag .busy 0
  | .draining, .abort => d.takeAbort c tag subject
  | .aborting, _ => d.commandDone subject tag .busy 0
  | .faulted, .graceful => d.commandDone subject tag .badState 0
  | .faulted, .abort => d.takeAbort c tag subject

/-! ## Channel faults (R17, R18, R101, R122) -/

/-- The HOST_ERROR code of a channel's fault cause (R177). -/
def FaultCause.hostError : FaultCause → HostError
  | .payloadRead => .payloadRead
  | .bufferWrite => .bufferWrite
  | _ => .ringRead

/-- Posts CHANNEL_EVENT(FAULTED) and, for a failed bus access, the HOST_ERROR after it (R17, R177). -/
def Device.faultNotices (d : Device) (c : ChannelId) (cause : FaultCause) (failing : Option Address) : Device :=
  let e := d.asyncNotice (.channelFaulted c cause)
  match failing with
  | some a => e.asyncNotice (.hostError (BitVec.ofNat 8 c.val) cause.hostError (a.setWidth 32))
  | none => e

/-- What a fault does to an OUT channel's message: a started one completes FAULT and is abandoned on the link; one not started
completes FAULT on a payload read error only (R17, R101). With no record STARTED or READY, where such an error comes from a read left over
from an earlier record, the channel is FAULTED, a request still waiting is withdrawn, and no record completes: DESIGN CHOICE, entry 44. -/
def Device.faultOut (d : Device) (c : ChannelId) (cause : FaultCause) : Device :=
  let e := (d.withdrawRequest c).delist c
  let x := e.chan c
  if x.out.phase == .started then (e.completeSend c .fault x.out.offset).requestAbandon x.port x.number
  else if x.out.phase == .ready && cause == .payloadRead then e.completeSend c .fault x.out.offset
  else e

/-- What a fault does to an IN channel's message: the current buffer completes FAULT and the half is marked discard-to-END; a
revoke is queued in every case (R17). -/
def Device.faultIn (d : Device) (c : ChannelId) : Device :=
  let x := d.chan c
  let e :=
    if (d.inHalf x.port x.number).openMark then
      (d.faultInbound c).modIn x.port x.number fun h => { h with openMark := false, discard := true }
    else d
  e.askRevoke c

/-- A channel that is OPEN or DRAINING takes a fault (R17). The manual does not order the COMMAND_DONE(BAD_STATE) of a DRAINING
channel's CLOSE among the notices of the fault: it is posted after CHANNEL_EVENT and HOST_ERROR (DESIGN CHOICE, entry 38). -/
def Device.channelFault (d : Device) (c : ChannelId) (cause : FaultCause) (failing : Option Address) : Device :=
  let draining := (d.chan c).state == .draining
  let d1 := d.modChan c fun x => { x with state := .faulted, cause := cause }
  let d2 := if (d.chan c).kind == .inn then d1.faultIn c else d1.faultOut c cause
  let d3 := d2.faultNotices c cause failing
  if draining then
    (d3.completeDeferred (isClose c) .badState 0).modChan c fun x => { x with pendingClose := none }
  else d3

/-- A bus error has changed a completion of an ABORTING channel to FAULT: its notices are posted, and the cause is recorded if it is the
first (R13, R17, R18, R101, R122, R177; entry 19). -/
def Device.abortingFault (d : Device) (c : ChannelId) (cause : FaultCause) (failing : Address) : Device :=
  (d.modChan c fun x => { x with cause := if x.cause = .clear then cause else x.cause }).faultNotices c cause (some failing)

end Sys2Proof.Machine
end

