-- ==== Sys2Proof/Machine/PortDown.lean ====
section
/-! DEFINITION. A port leaving ACTIVE or QUIESCING: the losses reported, the map cleared, the closes that complete, breaks and
quiesces; and a port engaging, retrying or failing (chapter 4). -/

namespace Sys2Proof.Machine

/-! ## Losses (R23, R104 to R106, R121, R133, R136) -/

/-- The owner of an inbound half is told that its open message is lost (R121, R133). -/
def Device.inboundLost (d : Device) (c : ChannelId) : Device :=
  if (d.chan c).kind == .relayIn then d.relayInboundLost c else d.cutInbound c .linkLost

/-- The payload reads in flight of a channel are discarded on return, errors included, since the loss of their message has been
reported before (R106). -/
def Device.discardReads (d : Device) (c : ChannelId) : Device :=
  { d with
    requests := d.requests.map fun r =>
      match r.access with
      | .payloadRead _ e o => if e = c ∧ o = (d.chan c).opening then { r with access := .discarded } else r
      | _ => r }

/-- The owner of an outbound half is told that its open message is lost (R104, R105, R106, R136). -/
def Device.outboundLost (d : Device) (c : ChannelId) : Device :=
  let x := d.chan c
  let e := d.discardReads c
  if x.kind == .relayOut then d.relayOutboundLost c
  else if x.out.phase == .started then
    match x.state, x.breakPolicy with
    | .opened, .restart => e.setBack c
    | .opened, .fail => e.completeSend c .linkLost x.out.offset
    | .draining, _ => e.completeSend c .linkLost x.out.offset
    | .aborting, _ => e.completeSend c x.cancelStatus x.out.offset
    | _, _ => d
  else d

/-- Reports the losses of one entry: its inbound half before its outbound half (R23). -/
def Device.reportLoss (p : PortId) (d : Device) (n : LinkNumber) : Device :=
  let h := d.inHalf p n
  let d1 := match h.openMark, h.owner with
    | true, some c => d.inboundLost c
    | _, _ => d
  let g := d1.outHalf p n
  match g.openMark, g.owner with
  | true, some c => d1.outboundLost c
  | _, _ => d1

/-! ## Closes that complete with the link gone (R15, R104, R138) -/

/-- The owner of a half whose port is gone: a draining outbound half gives up what it cannot send, and a closing channel with
nothing left to wait for reaches CLOSED (R15, R104, R138). -/
def Device.closeOwner (d : Device) (c : ChannelId) : Device :=
  let x := d.chan c
  let e :=
    if x.state == .draining && x.restartedReady then d.completeSend c .linkLost 0
    else if x.state == .draining && x.kind == .relayOut then d.cutPair x.partner
    else d
  e.tryClose c

/-- The revoke of a closing or FAULTED inbound channel whose port is gone is over, unless it has been accepted (R15, R38, R138, R139). -/
def Channel.loseRevoke (x : Channel) : Channel :=
  if x.revoke = .waiting ∧ (x.state = .draining ∨ x.state = .aborting ∨ x.state = .faulted) then { x with revoke := .gone } else x

/-- The closes of one entry's owners, its inbound half before its outbound half. -/
def Device.closeAfterLoss (p : PortId) (d : Device) (n : LinkNumber) : Device :=
  let d1 := match (d.inHalf p n).owner with
    | some c => (d.modChan c Channel.loseRevoke).closeOwner c
    | none => d
  match (d1.outHalf p n).owner with
  | some c => d1.closeOwner c
  | none => d1

/-! ## Taking a port down (R74, R78, R79, R81) -/

/-- A port record as its lines are dropped and its turn, timers, framing state and pick are cleared (R42, R74, R95). -/
def Port.dropLink (x : Port) (final : PortState) : Port :=
  { x with
    state := final, turn := .off, hold := .off, settled := false, pendingDisable := none, acceptTimer := .stopped,
    takeTimer := .stopped, settleTimer := .stopped, turnWaitTimer := .stopped, recoverTimer := .stopped,
    drainTimer := .stopped, selection := none, repeatPending := none, build := none, tx := .idle, rx := .idle,
    pick := none, selectSent := false }

/-- A staged byte of a message that stands in a relay queue is placed in its cell; any other staged byte is dropped. -/
def Device.keepQueued (d : Device) (b : StagedByte) : Device :=
  match b.dest with
  | .cell i k =>
    if (d.pair i).any fun x => x.queue.any fun e => e.cell == k then
      d.modRelay fun u => u.place k { offset := b.offset, bytes := [b.byte] }
    else d
  | .buffer _ => d

/-- Empties both staging buffers of a port. Inbound bytes not carried by an issued write are gone, but for those of messages that have
joined a relay queue, which a loss on the inbound link does not touch: they go to their cells at once (R60, R133; entry 15). Payload reads
in flight are no longer expected; an error on one is still taken by R101, unless the loss of its message is reported (R99, R106). -/
def Device.emptyStaging (d : Device) (p : PortId) : Device :=
  let ids := (d.port p).inStaging.filterMap fun b => match b.dest with | .buffer k => some k | _ => none
  let e := ((d.port p).inStaging.foldl Device.keepQueued d).modPort p
    fun x => { x with inStaging := [], outStaging := OutStaging.empty }
  { e with buffers := e.buffers.map fun b => if ids.contains b.id then { b with placed := b.issued } else b }

/-- Steps 1, 3, 4 and 5 of R74: the link is dropped, staging and the map are cleared with the losses reported, the reservations
return, and the closes waiting on the link complete. -/
def Device.tearDown (d : Device) (p : PortId) (final : PortState) : Device :=
  let d1 := (d.modPort p fun x => x.dropLink final).emptyStaging p
  let d2 := linkNumbers.foldl (Device.reportLoss p) d1
  let d3 := ((d2.returnCredits p).modPort p Port.clearMap).unwaitPort p
  linkNumbers.foldl (Device.closeAfterLoss p) d3

/-- Completes the PORT_DISABLE GRACEFUL pending on a port (R78, R79, R80, R81). -/
def Device.completeDisable (d : Device) (p : PortId) (result : Result) (detail : Nat) : Device :=
  d.completeDeferred (isDisable p) result detail

/-- A break of an ACTIVE or QUIESCING port (R74, R75, R80). A port in any other state is not broken. -/
def Device.breakPort (d : Device) (p : PortId) (cause : BreakCause) : Device :=
  let x := d.port p
  let noted := ((d.modPort p fun y => { y with lastBreak := cause }).countPort p
    fun k => { k with breaks := satAdd k.breaks 1 }).asyncNotice (.portEvent p (.broke cause))
  match x.state with
  | .active =>
    (noted.tearDown p .broken).modPort p
      fun y => { y with recoverTimer := .startMs y.settings.recover, peerReleased := !y.lines.engi }
  | .quiescing => (noted.tearDown p .disabled).completeDisable p .ok 2
  | _ => d

/-- A quiesce whose conditions all hold ends: the port becomes DISABLED and its PORT_DISABLE completes (R78). -/
def Device.checkQuiesce (d : Device) (p : PortId) : Device :=
  if (d.port p).quiesceDone then (d.tearDown p .disabled).completeDisable p .ok 0 else d

/-! ## Turns entered (R64, R67, R69, R71) -/

/-- Starts the hold timer at the first sight of REQI in a turn; with a HOLD_LIMIT of 0 it expires as it starts (R69). -/
def Port.sightRequest (x : Port) : Port :=
  if x.lines.reqi && x.hold == .off then
    { x with hold := if x.settings.holdLimit = 0 then .expired else .running x.settings.holdLimit }
  else x

/-- The engagement settles (R65). -/
def Port.settle (x : Port) : Port := { x with settled := true, retryCount := 0 }

/-- The part takes the turn from ASKED (R67). -/
def Port.takeTurn (x : Port) : Port :=
  { x with
    turn := .ours, turnWaitTimer := .stopped, selection := none, turnBytes := 0, hold := .off
    counters := { x.counters with turnsTaken := satAdd x.counters.turnsTaken 1 } }.sightRequest

end Sys2Proof.Machine
end

