-- ==== Sys2Proof/Machine/Decoder.lean ====
section
/-! DEFINITION. The decoder: accepting a peer's byte and judging it (chapter 3, R32, R33, R59). -/

namespace Sys2Proof.Machine

/-- A decoder error breaks the port with cause PROTOCOL (R49). -/
def Device.protocolError (d : Device) (p : PortId) (sub : SubCode) : Device := d.breakPort p (.protocol sub)

/-- Whether a peer's message is open on a number: its open mark or its discard mark is set (R21). -/
def InHalf.busy (h : InHalf) : Bool := h.openMark || h.discard

/-- Adds one to an owner's wire bytes (R19). -/
def Device.countWire (d : Device) (owner : Option ChannelId) : Device :=
  match owner with
  | some c => d.countChan c fun k => { k with wireBytes := satAdd k.wireBytes 1 }
  | none => d

/-- Adds one to a port's discarded bytes (R83, R124). -/
def Device.countDiscarded (d : Device) (p : PortId) : Device :=
  d.countPort p fun k => { k with discarded := satAdd k.discarded 1 }

/-- Adds one to a port's control bytes received (R83). -/
def Device.countControl (d : Device) (p : PortId) : Device :=
  d.countPort p fun k => { k with controlReceived := satAdd k.controlReceived 1 }

/-- A message start by the peer on a half with neither mark set, decided by R32: none is CREDIT_VIOLATION. -/
def Device.peerStart (d : Device) (p : PortId) (n : LinkNumber) : Option Device :=
  let h := d.inHalf p n
  if h.granted = 0 then none
  else
    match h.owner with
    | some c =>
      if (d.chan c).state == .opened || (d.chan c).state == .draining then
        let e := d.modIn p n fun x => { x with granted := x.granted - 1, openMark := true }
        some (if (d.chan c).kind == .relayIn then e.startCell c else e.startBuffer c)
      else
        some ((d.modIn p n fun x => { x with granted := x.granted - 1, discard := true }).releaseCredits h.owner 1)
    | none => some (d.modIn p n fun x => { x with granted := x.granted - 1, discard := true })

/-- Makes the start that a data, REPEAT or END byte makes when no message is open on the number (check 9 of R44). -/
def Device.startIfNone (d : Device) (p : PortId) (n : LinkNumber) : Option Device :=
  if (d.inHalf p n).busy then some d else d.peerStart p n

/-- The expanded bytes of an accepted unit on a number: placed for the owner under the open mark, with one wire byte counted, or
dropped under the discard mark (R45, R46). -/
def Device.takeExpanded (d : Device) (p : PortId) (n : LinkNumber) (b : Byte) (count : Nat) : Device :=
  let h := d.inHalf p n
  if h.openMark then
    match h.owner with
    | some c => Device.placeRun c b count (d.countWire h.owner)
    | none => d
  else d.countDiscarded p

/-- A data byte with no REPEAT pending (R45). -/
def Device.decodeData (d : Device) (p : PortId) (n : LinkNumber) (b : Byte) : Device :=
  match d.startIfNone p n with
  | none => d.protocolError p .creditViolation
  | some e => e.takeExpanded p n b 1

/-- A REPEAT byte with a legal count (R46). -/
def Device.decodeRepeat (d : Device) (p : PortId) (n : LinkNumber) (r : Nat) : Device :=
  match d.startIfNone p n with
  | none => d.protocolError p .creditViolation
  | some e =>
    let h := e.inHalf p n
    (if h.openMark then e.countWire h.owner else e.countDiscarded p).modPort p
      fun x => { x with repeatPending := some (r, n) }

/-- The owner of an open message is told of its END COMPLETE: its counters, then its completion or its cell (R19, R119, R132). -/
def Device.ownerComplete (d : Device) (c : ChannelId) : Device :=
  let e := d.countChan c fun k =>
    { k with messages := satAdd k.messages 1, payloadBytes := satAdd k.payloadBytes (d.chan c).inm.total }
  if (d.chan c).kind == .relayIn then e.relayEndComplete c else e.inEndComplete c

/-- The owner of an open message is told of its END ABANDON (R120, R133). -/
def Device.ownerAbandon (d : Device) (c : ChannelId) : Device :=
  if (d.chan c).kind == .relayIn then d.relayEndAbandon c else d.inEndAbandon c

/-- An END on a number with a message open ends it (R33, R47). -/
def Device.endPeerMessage (d : Device) (p : PortId) (n : LinkNumber) (complete : Bool) : Device :=
  let h := d.inHalf p n
  let e := d.modIn p n fun x => { x with openMark := false, discard := false }
  if h.openMark then
    match h.owner with
    | some c =>
      let f := e.countWire h.owner
      (((if complete then f.ownerComplete c else f.ownerAbandon c).runGenerator p n).tryClose c)
    | none => e
  else e.countDiscarded p

/-- An END byte with a legal value (R44 check 7, R47). -/
def Device.decodeEnd (d : Device) (p : PortId) (n : LinkNumber) (complete : Bool) : Device :=
  if !complete && !(d.inHalf p n).busy then d.protocolError p .strayAbandon
  else
    match d.startIfNone p n with
    | none => d.protocolError p .creditViolation
    | some e => e.endPeerMessage p n complete

/-- A GRANT byte acts on the outbound half: a value of 1 or more is added to the credits, 0 zeroes them (R24, R25, R48). -/
def Device.decodeGrant (d : Device) (p : PortId) (n : LinkNumber) (v : Nat) : Device :=
  if v ≠ 0 ∧ Config.creditLimit < (d.outHalf p n).credits + v then d.protocolError p .creditOverflow
  else
    (d.modOut p n fun h => { h with credits := if v = 0 then 0 else h.credits + v }).countControl p

/-- A command byte under a turn selection, by the checks of R44 from the fifth on. -/
def Device.decodeSelected (d : Device) (p : PortId) (n : LinkNumber) : LinkCommand → Device
  | .select _ => d
  | .rep r => if r < 2 then d.protocolError p .badRepeat else d.decodeRepeat p n r
  | .finish v => if 2 ≤ v then d.protocolError p .badEnd else d.decodeEnd p n (v == 0)
  | .grant v => d.decodeGrant p n v

/-- Judges an accepted byte by the checks of R44, in their order. -/
def Device.decode (d : Device) (p : PortId) (w : WireByte) : Device :=
  let x := d.port p
  match x.repeatPending with
  | some (r, n) =>
    if w.flag then d.protocolError p .repeatOrphan
    else (d.modPort p fun y => { y with repeatPending := none }).takeExpanded p n w.data r
  | none =>
    if w.flag then
      match linkCommand w.data, x.selection with
      | .select n, _ => (d.modPort p fun y => { y with selection := some n }).countControl p
      | _, none => d.protocolError p .noSelect
      | k, some n => d.decodeSelected p n k
    else
      match x.selection with
      | none => d.protocolError p .noSelect
      | some n => d.decodeData p n w.data

/-- The part accepts the byte on a port's lines: ACK rises, the byte is counted and judged, and staged bytes are written out
(R59, R113). -/
def Device.acceptPeerByte (d : Device) (p : PortId) : Device :=
  let e := (d.modPort p fun x => { x with rx := .accepted }).countPort p
    fun k => { k with wireReceived := satAdd k.wireReceived 1 }
  (e.decode p (d.port p).lines.byte).issueInbound p

/-- Whether the part reads the peer's byte lines on a port (R57, R59). -/
def Port.reads (x : Port) : Bool := x.turn == .theirs || x.turn == .asked

/-- A byte stands offered by the peer: parity is checked, and the byte is accepted, or withheld for lack of staging room (R59). -/
def Device.peerByteStands (d : Device) (p : PortId) : Device :=
  let x := d.port p
  if !x.reads || !x.lines.stb || !(x.rx == .idle) then d
  else if !parityGood x.lines.byte then d.breakPort p .parity
  else if x.stagingRoom < d.roomNeeded p x.lines.byte then
    (d.modPort p fun y => { y with rx := .withheld }).countPort p fun k => { k with withheld := satAdd k.withheld 1 }
  else d.acceptPeerByte p

/-! ## Turns and engagement that a peer's byte may follow (R59, R64, R71, R75) -/

/-- The part enters THEIRS: the selection is cleared, and a byte whose strobe is still high counts as offered now (R42, R59). -/
def Device.enterTheirs (d : Device) (p : PortId) : Device :=
  (d.modPort p fun x => { x with turn := .theirs, selection := none }).peerByteStands p

/-- The port becomes ACTIVE (R64). -/
def Device.engage (d : Device) (p : PortId) : Device :=
  let d1 := (d.modPort p fun x => { (x.dropLink .active) with turnBytes := 0 }.clearMap).emptyStaging p
  let d2 := ((d1.countPort p fun k => { k with engagements := satAdd k.engagements 1 }).asyncNotice
    (.portEvent p .active)).runGenerators p
  let x := d2.port p
  match x.settings.role with
  | .lead =>
    let d3 := d2.modPort p fun y => { y with turn := .ours, settleTimer := .running y.settings.acceptLimit }.sightRequest
    if x.lines.owni then d3.breakPort p (.protocol .collision) else d3
  | .follow =>
    if x.lines.owni then (d2.modPort p Port.settle).enterTheirs p
    else (d2.modPort p fun y => { y with takeTimer := .running y.settings.acceptLimit }).enterTheirs p

/-- A port enters ENGAGING, and engages at once if ENGI is high (R63, R64, R75). -/
def Device.enterEngaging (d : Device) (p : PortId) (f : Port → Port) : Device :=
  let e := d.modPort p fun x => { (f x) with state := .engaging, settled := false }
  if (e.port p).lines.engi then e.engage p else e

/-- The decision of a BROKEN port once RECOVER has expired and the peer has released: another try, or FAILED (R75). -/
def Device.decideRetry (d : Device) (p : PortId) : Device :=
  let x := d.port p
  if x.state == .broken && !x.recoverTimer.isRunning && x.peerReleased then
    if x.retryCount < x.settings.retries then
      d.enterEngaging p fun y => { y with retryCount := y.retryCount + 1 }
    else (d.modPort p fun y => { y with state := .failed }).asyncNotice (.portEvent p .failed)
  else d

end Sys2Proof.Machine
end

