-- ==== Sys2Proof/Machine/Transmit.lean ====
section
/-! DEFINITION. The part's side of a turn: the encoder, the scheduler, the offers, the release, outbound staging and its reads, and
what the acceptance of each kind of byte does (sections 3.6, 4.4, 5.3 and 5.4). -/

namespace Sys2Proof.Machine

/-! ## The encoder (R52, R53) -/

/-- The length of the run of a byte at the head of a list. -/
def runLength (b : Byte) : List Byte → Nat
  | [] => 0
  | x :: rest => if x = b then runLength b rest + 1 else 0

/-- The unit of compressed form at an offset, from the bytes standing there, with `left` bytes of the message left: the run is known
once another byte ends it, 63 bytes stand, or every remaining byte stands (R53). -/
def compressedUnit (bytes : List Byte) (left : Nat) : Option CodedUnit :=
  match bytes with
  | [] => none
  | b :: _ =>
    let r := runLength b bytes
    if r < bytes.length ∨ r = Config.longestRun ∨ r = left then
      some (if Config.shortestRun ≤ r then .rep r b else .plain b)
    else none

/-- The payload bytes that stand in outbound staging for a channel without a gap from its expanded offset, at most 63 (R99). -/
def Device.stagedBytes (d : Device) (p : PortId) (c : ChannelId) : List Byte :=
  let x := (d.port p).outStaging
  if x.channel = some c then bytesFrom x.segments (d.chan c).out.offset Config.longestRun else []

/-- The next unit of a channel's message, if the encoder knows it (R52, R53). -/
def Device.nextUnit (d : Device) (p : PortId) (c : ChannelId) : Option CodedUnit :=
  let bytes := d.stagedBytes p c
  if d.plainForm c then bytes.head?.map CodedUnit.plain
  else compressedUnit bytes (d.messageLength c - (d.chan c).out.offset)

/-- The wire byte that a unit is offered with first. -/
def CodedUnit.offer (u : CodedUnit) (c : ChannelId) (n : LinkNumber) : Offer :=
  match u with
  | .plain b => .msgData c n b 1
  | .rep r _ => .msgRepeat c n r

/-- What a channel offers next: its END COMPLETE once its offset has reached its length, else its next unit, if known (R94,
R100). -/
def Device.nextOffer (d : Device) (p : PortId) (c : ChannelId) : Option (Offer × Option CodedUnit) :=
  let n := (d.chan c).number
  if (d.chan c).out.offset = d.messageLength c then some (.msgEnd c n (d.messageLength c), none)
  else (d.nextUnit p c).map fun u => (u.offer c n, some u)

/-! ## Offers (R58, R68, R94, R97) -/

/-- The part offers a byte: STB rises and ACCEPT_LIMIT starts (R58). -/
def Device.offer (d : Device) (p : PortId) (o : Offer) : Device :=
  d.modPort p fun x => { x with tx := .offered o, acceptTimer := .running x.settings.acceptLimit }

/-- The start that the offer of a READY channel's first unit makes: a credit is used and the open mark set (R26, R97). -/
def Device.startMessage (d : Device) (p : PortId) (c : ChannelId) : Device :=
  let x := d.chan c
  if x.out.phase == .ready then
    (d.modOut p x.number fun h => { h with credits := h.credits - 1, openMark := true }).modOutMsg c
      fun o => { o with phase := .started }
  else d

/-- Offers the next unit of the picked channel's message under its selection, or its END COMPLETE (R94). -/
def Device.offerUnit (d : Device) (p : PortId) (c : ChannelId) : Device :=
  match d.nextOffer p c with
  | none => d
  | some (o, u) =>
    let build := u.map fun v => { channel := c, number := (d.chan c).number, coded := v, repeatAccepted := false }
    ((d.startMessage p c).modPort p fun x => { x with selectSent := false, build := build }).offer p o

/-- Sends the picked channel's message: nothing while its next unit is not known, a SELECT if one is due, or the unit (R68, R94,
R100). -/
def Device.sendMessage (d : Device) (p : PortId) (c : ChannelId) : Device :=
  let n := (d.chan c).number
  if (d.nextOffer p c).isNone then d
  else if (d.port p).selection = some n then d.offerUnit p c
  else d.offer p (.msgSelect c n)

/-- Offers the head of the pending control list, by its SELECT if one is due (R37, R68). -/
def Device.offerHead (d : Device) (p : PortId) : Device :=
  match (d.port p).control with
  | [] => d
  | e :: _ =>
    let x := d.modPort p fun y => { y with headOffered := true }
    if (d.port p).selection = some e.number then x.offer p (.entryByte e) else x.offer p (.entrySelect e.number)

/-! ## Release (R70, R95) -/

/-- Whether the part releases the turn at a boundary (R70). -/
def Device.releaseDue (d : Device) (p : PortId) : Bool :=
  let x := d.port p
  let inPass := x.passBegun && !x.control.isEmpty
  x.lines.reqi &&
    (x.hold == .expired || (!inPass && (!(d.hasWork p) || decide (x.settings.turnBudget ≤ x.turnBytes))))

/-- Moves a channel to the tail of the class list that holds it (R91, R94). -/
def Port.moveToTail (x : Port) (c : ChannelId) : Port :=
  { x with
    classes := x.classes.map fun l => if l.contains c then (l.filter fun e => !(e == c)) ++ [c] else l }

/-- A slice ends by its END or its count (R94). -/
def Port.endSlice (x : Port) (c : ChannelId) : Port :=
  { (x.moveToTail c) with pick := none, selectSent := false }

/-- A slice is cut by the release: a pick with no byte accepted keeps its place (R95). -/
def Port.cutSlice (x : Port) : Port :=
  match x.pick with
  | some (c, k) => if k = 0 then { x with pick := none, selectSent := false } else x.endSlice c
  | none => x

/-- The part releases the turn (R70). -/
def Port.releaseTurn (x : Port) : Port :=
  { x.cutSlice with
    turn := .offered, selection := none, hold := .off, passBegun := false, takeTimer := .running x.settings.acceptLimit
    counters := { x.counters with turnsReleased := satAdd x.counters.turnsReleased 1 } }

/-! ## The order of work in a turn (R68, R93) -/

/-- Whether the part's byte stream stands at a boundary: no byte is offered and not accepted, and no REPEAT unit waits for its data byte
(R54, R68). -/
def Port.atBoundary (x : Port) : Bool :=
  (match x.tx with | .offered _ => false | _ => true) && !(x.build.any Build.repeatAccepted)

/-- Picks the candidate at a boundary, when the turn is the part's, the list is empty and there is no pick: a byte still offered for a
channel withdrawn from its slice belongs to no later slice (R54, R68, R93, R95). -/
def Device.pickChannel (d : Device) (p : PortId) : Device :=
  let x := d.port p
  if x.turn == .ours && x.control.isEmpty && x.pick.isNone && x.atBoundary then
    match d.candidate p with
    | some c => d.modPort p fun y => { y with pick := some (c, 0), selectSent := false }
    | none => d
  else d

/-- The next thing the part does with no transfer under way in OURS: the rest of a REPEAT unit, the byte an accepted SELECT was for,
a release that is due, the pending control list, or the picked channel's message (R54, R68, R70, R93). -/
def Device.proceed (d : Device) (p : PortId) : Device :=
  let x := d.port p
  match x.build, x.headOffered, x.control, x.pick with
  | some { channel := c, number := n, coded := .rep r b, repeatAccepted := true }, _, _, _ => d.offer p (.msgData c n b r)
  | _, true, e :: _, _ => d.offer p (.entryByte e)
  | _, _, control, pick =>
    match x.selectSent, pick with
    | true, some (c, _) => d.offerUnit p c
    | _, _ =>
      if d.releaseDue p then d.modPort p Port.releaseTurn
      else
        match pick, control with
        | some (c, _), _ => d.sendMessage p c
        | none, _ :: _ => d.offerHead p
        | none, [] => d

/-- The part transmits: it proceeds when it holds the turn and no transfer is under way (R58). -/
def Device.transmit (d : Device) (p : PortId) : Device :=
  if (d.port p).turn == .ours && (d.port p).tx == .idle then d.proceed p else d

/-- In THEIRS with work, the part asks for the turn, unless it is a FOLLOW whose engagement has not settled (R64, R66). -/
def Device.askForTurn (d : Device) (p : PortId) : Device :=
  let x := d.port p
  if x.turn == .theirs && (x.settled || x.settings.role == .lead) && d.hasWork p then
    d.modPort p fun y => { y with turn := .asked, turnWaitTimer := .startMs y.settings.turnWait }
  else d

/-! ## Outbound staging (R98, R99, R134) -/

/-- The staged channel: the pick, or the candidate (R98). -/
def Device.stagedChannel (d : Device) (p : PortId) : Option ChannelId :=
  match (d.port p).pick with
  | some (c, _) => some c
  | none => d.candidate p

/-- Empties outbound staging as its channel changes (R98). -/
def Device.restage (d : Device) (p : PortId) : Device :=
  let t := d.stagedChannel p
  if (d.port p).outStaging.channel = t then d
  else
    d.modPort p fun x =>
      { x with
        outStaging := { OutStaging.empty with channel := t, next := (t.map fun c => (d.chan c).out.offset).getD 0 } }

/-- The bytes the next payload read covers, 0 when none may be placed (R99). -/
def Device.readCount (d : Device) (p : PortId) (c : ChannelId) : Nat :=
  let x := (d.port p).outStaging
  let o := (d.chan c).out
  if (d.chan c).kind == .out && (o.phase == .ready || o.phase == .started) && decide (x.reads.length < Config.readsInFlight) then
    min Config.transferBytes (min (d.messageLength c - x.next) (o.offset + Config.outboundStaging - x.next))
  else 0

/-- Places one payload read for the staged channel, if R99 allows. -/
def Device.issueRead (d : Device) (p : PortId) : Device :=
  let s := (d.port p).outStaging
  match s.channel with
  | none => d
  | some c =>
    let k := d.readCount p c
    if k = 0 then d
    else
      match (d.chan c).held with
      | [] => d
      | h :: _ =>
        (d.place (.payloadRead p c (d.chan c).opening) (addressAdd h.address s.next) k []).modPort p
          fun x =>
            { x with
              outStaging := { s with next := s.next + k, reads := s.reads ++ [{ id := d.serial, offset := s.next }] } }

/-- The bytes the next copy from the head cell covers: those whose moves have completed, without a gap, while fewer than four copies are
in flight (R134). Only the copies that the present staging expects count toward the four: DESIGN CHOICE, entry 43. -/
def Device.copyBytes (d : Device) (p : PortId) (c : ChannelId) : List Byte :=
  let x := (d.port p).outStaging
  let o := (d.chan c).out
  match d.relayQueue c with
  | [] => []
  | e :: _ =>
    if (d.chan c).kind == .relayOut && (o.phase == .ready || o.phase == .started) &&
        decide (x.copies.length < Config.readsInFlight)
    then bytesFrom (d.relay.cells.get e.cell) x.next (min Config.transferBytes (e.length - x.next))
    else []

/-- Starts one copy of the head cell's bytes for the staged channel, if R134 allows. -/
def Device.issueCopy (d : Device) (p : PortId) : Device :=
  let s := (d.port p).outStaging
  match s.channel with
  | none => d
  | some c =>
    let bytes := d.copyBytes p c
    if bytes.isEmpty then d
    else
      { (d.modPort p fun x =>
          { x with
            outStaging :=
              { s with
                next := s.next + bytes.length
                copies := s.copies ++ [{ id := d.serial, offset := s.next, bytes := bytes }] } }) with
        serial := d.serial + 1 }

/-- Places one read or starts one copy. -/
def Device.issueOutbound (d : Device) (p : PortId) : Device := (d.issueRead p).issueCopy p

/-- A pass of the pending control list ends with the list empty (R37). -/
def Port.endPass (x : Port) : Port := { x with passBegun := x.passBegun && !x.control.isEmpty }

/-- Everything a port does of itself at the end of an event, while it is engaged: it picks, transmits, asks for the turn, and keeps
outbound staging filled with up to four reads or copies. -/
def Device.service (d : Device) (p : PortId) : Device :=
  if (d.port p).up then
    let e := ((((d.modPort p Port.endPass).pickChannel p).transmit p).askForTurn p).restage p
    (((e.issueOutbound p).issueOutbound p).issueOutbound p).issueOutbound p
  else d

/-! ## What an acceptance does (R19, R27, R31, R35, R36, R83, R94, R102, R135) -/

/-- Whether an offered byte is a SELECT or a GRANT, which the port's control counter counts (R83). -/
def Offer.isControl : Offer → Bool
  | .entrySelect _ => true
  | .entryByte (.abandon _) => false
  | .entryByte _ => true
  | .msgSelect _ _ => true
  | _ => false

/-- The channel whose slice a byte belongs to, if any. -/
def Offer.sliceOf : Offer → Option ChannelId
  | .msgSelect c _ => some c
  | .msgRepeat c _ _ => some c
  | .msgData c _ _ _ => some c
  | .msgEnd c _ _ => some c
  | _ => none

/-- The counts of any accepted byte: the turn's, the port's and the slice's; the wait for its return starts (R58, R68, R83,
R94). -/
def Port.countAccepted (x : Port) (o : Offer) : Port :=
  { x with
    tx := .accepted o
    acceptTimer := .running x.settings.acceptLimit
    turnBytes := x.turnBytes + 1
    pick := x.pick.map fun k => if o.sliceOf = some k.1 then (k.1, k.2 + 1) else k
    counters :=
      { x.counters with
        wireSent := satAdd x.counters.wireSent 1
        controlSent := if o.isControl then satAdd x.counters.controlSent 1 else x.counters.controlSent } }

/-- Counts a data, REPEAT or END byte for the owner of its outbound half (R19). -/
def Device.countSent (d : Device) (p : PortId) (n : LinkNumber) : Device := d.countWire (d.outHalf p n).owner

/-- A SELECT accepted for a message: the selection is set, and the unit comes next if its channel is still the pick (R43, R68). -/
def Port.messageSelected (x : Port) (c : ChannelId) (n : LinkNumber) : Port :=
  { x with selection := some n, selectSent := x.pick.any fun k => k.1 == c }

/-- The end of a slice whose count has reached SLICE, at a boundary (R94). -/
def Port.checkSlice (x : Port) : Port :=
  match x.pick with
  | some (c, k) => if x.settings.slice ≤ k then x.endSlice c else x
  | none => x

/-- A unit's data byte is accepted: the offset moves past the unit's bytes, which leave staging (R89, R98). -/
def Device.unitAccepted (d : Device) (p : PortId) (c : ChannelId) (count : Nat) : Device :=
  let e := if (d.chan c).out.phase == .started then d.modOutMsg c fun o => { o with offset := o.offset + count } else d
  e.modPort p fun x =>
    let y := { x with build := none }
    if y.outStaging.channel = some c then
      { y with outStaging := { y.outStaging with segments := dropBelow y.outStaging.segments (e.chan c).out.offset } }
    else y

/-- The owner of a message learns that its END COMPLETE is accepted (R19, R102, R135). The record completes SENT also where a payload read
error has spoiled it in ABORTING before its offered END COMPLETE was accepted: DESIGN CHOICE, entry 19. -/
def Device.reportSent (d : Device) (c : ChannelId) (length : Nat) : Device :=
  let e := d.countChan c fun k =>
    { k with messages := satAdd k.messages 1, payloadBytes := satAdd k.payloadBytes length }
  if (d.chan c).out.phase == .started then
    if (d.chan c).kind == .relayOut then
      (e.countRelay (d.chan c).partner fun k => { k with forwarded := satAdd k.forwarded 1 }).popQueue (d.chan c).partner
    else e.completeSend c .sent length
  else e

/-- An END COMPLETE is accepted: the open mark is cleared, an unsent abandon is withdrawn, the slice ends and the owner is told
(R27, R36, R94). -/
def Device.endAccepted (d : Device) (p : PortId) (c : ChannelId) (n : LinkNumber) (length : Nat) : Device :=
  let e := ((d.countSent p n).modOut p n fun h => { h with openMark := false }).dropAbandon p n
  let e := e.modPort p fun x => if x.pick.any fun k => k.1 == c then x.endSlice c else x
  (e.reportSent c length).tryClose c

/-- The owner of an abandoned message learns that its END ABANDON is accepted (R12, R18, R101, R103, R139). -/
def Device.reportAbandoned (d : Device) (c : ChannelId) : Device :=
  let x := d.chan c
  if x.out.phase == .started then
    if x.kind == .relayOut then
      (d.countRelay x.partner fun k => { k with abandoned := satAdd k.abandoned 1 }).giveUpHead x.partner
    else d.completeSend c x.cancelStatus x.out.offset
  else d

/-- The head entry of the pending control list leaves it. The pass goes on if the list holds an entry at the end of this event, one
appended by the acceptance among them (R31, R37). -/
def Port.popControl (x : Port) : Port :=
  { x with control := x.control.tail, headOffered := false, passBegun := true }

/-- A revoke accepted by the peer is the one a closing or FAULTED inbound channel waits for (R11, R13, R18, R35). -/
def Channel.revokeAccepted (x : Channel) : Channel :=
  match x.state with
  | .draining => { x with revoke := .accepted }
  | .aborting => { x with revoke := .accepted }
  | .faulted => { x with revoke := .accepted }
  | _ => x

/-- The owner of an inbound half, if any, is told that a revoke has been accepted, and may reach CLOSED (R35). -/
def Device.ownerRevoked (d : Device) (owner : Option ChannelId) : Device :=
  match owner with
  | some c => (d.modChan c Channel.revokeAccepted).tryClose c
  | none => d

/-- The command byte of a pending control entry is accepted and takes effect (R27, R31, R35, R36). -/
def Device.entryAccepted (d : Device) (p : PortId) (entry : ControlEntry) : Device :=
  let e := d.modPort p Port.popControl
  match entry with
  | .grant n k =>
    (e.modIn p n fun h => { h with inFlight := h.inFlight - k, granted := h.granted + k }).runGenerator p n
  | .revoke n =>
    let h := e.inHalf p n
    ((e.releaseCredits h.owner h.granted).modIn p n fun x => { x with revokePending := false, granted := 0 }).ownerRevoked
      h.owner
  | .abandon n =>
    let e := (e.countSent p n).modOut p n fun h => { h with openMark := false }
    match (e.outHalf p n).owner with
    | some c => (e.reportAbandoned c).tryClose c
    | none => e

/-- The effects of an acceptance by what was offered (R58). -/
def Device.offerAccepted (d : Device) (p : PortId) (o : Offer) : Device :=
  let e := d.modPort p fun x => x.countAccepted o
  match o with
  | .entrySelect n => e.modPort p fun x => { x with selection := some n }
  | .entryByte entry => e.entryAccepted p entry
  | .msgSelect c n => e.modPort p fun x => x.messageSelected c n
  | .msgRepeat _ n _ =>
    (e.countSent p n).modPort p fun x => { x with build := x.build.map fun b => { b with repeatAccepted := true } }
  | .msgData c n _ count => ((e.countSent p n).unitAccepted p c count).modPort p Port.checkSlice
  | .msgEnd c n length => e.endAccepted p c n length

end Sys2Proof.Machine
end

