-- ==== Sys2Proof/Machine/Settle.lean ====
section
/-! DEFINITION. What the part does of itself at the end of every event, and the forms every event and every take of a command
have. -/

namespace Sys2Proof.Machine

/-! ## The walk of a waiting list (R145) -/

/-- A reservation given moves a record from WAITING to READY (R89, R145). -/
def OutMessage.given (o : OutMessage) : OutMessage :=
  { o with phase := if o.phase == .waiting then .ready else o.phase, reserved := true }

/-- Makes the request of one waiting entry again, and tells whether the walk goes on: it stops at an entry given nothing, and so at a half
whose GRANT is being offered, for which the generator may not act (R28; entry 10). A half given a part of what it asks keeps its place,
and the walk goes on behind it, where no slot is left but an entry that asks for none any more leaves (R145). -/
def Device.serveWaiter (d : Device) (r : RingId) (q : Requester) : Device × Bool :=
  match q with
  | .outRecord c =>
    if (d.ring r).room = 0 then (d, false)
    else (((d.reserve r 1).unwait r q).modOutMsg c OutMessage.given, true)
  | .commandUnit =>
    if (d.ring r).room = 0 then (d, false)
    else (((d.reserve r 1).unwait r q).modCu fun x => { x with slotHeld := true }, true)
  | .inHalf p n =>
    if (d.port p).grantOffered n then (d, false)
    else
      match d.generate p n with
      | (e, true) => (e, decide ((d.ring r).room ≠ 0))
      | (e, false) => (e.unwait r q, true)

/-- Walks the entries of a waiting list from its head. -/
def Device.walk (r : RingId) : List Requester → Device → Device
  | [], d => d
  | q :: rest, d =>
    match d.serveWaiter r q with
    | (e, true) => Device.walk r rest e
    | (e, false) => e

/-- Walks a ring's waiting list if the ring has gained room at this event (R145; entry 10). -/
def Device.walkRing (d : Device) (r : RingId) : Device :=
  (if (d.ring r).gained then Device.walk r (d.ring r).waiting d else d).modRing r
    fun x => { x with gained := false }

/-- Walks every ring's waiting list: once at an event, after all its returns (R146). -/
def Device.walkRings (d : Device) : Device := allRings.foldl Device.walkRing d

/-! ## The end of an event -/

/-- What the part does of itself at the end of an event: the waiting lists are walked, the ports go on with their work, ready records
are written, the head command's slot is asked for, and commands are fetched. -/
def Device.settle (d : Device) : Device :=
  (((allPorts.foldl Device.service d.walkRings).issueRecords).requestSlot).fetchCommands

/-! ## The form of an event and of a take -/

/-- A change that only a RUNNING engine makes (R61, R176, R178). -/
def State.whenRunning (s : State) (f : Device → Device) : State :=
  if s.engine = .running then { s with dev := f s.dev } else s

/-- An event inside the part: its own change, then what follows at its end. -/
def State.event (s : State) (f : Device → Device) : State := s.whenRunning fun d => (f d).settle

/-- The take of a command: nothing unless it is the head command and may be taken (R158). -/
def State.take (s : State) (i : Instr) (f : Device → Device) : State :=
  s.whenRunning fun d => if d.mayTake i then (f d.takeHead).settle else d

/-- A change of the levels a peer drives on a port, in whatever state the part is (R57). -/
def State.drive (s : State) (p : PortId) (f : PeerLines → PeerLines) : State :=
  { s with dev := s.dev.modPort p fun x => { x with lines := f x.lines } }

/-- The levels the peer of a port drives. -/
def State.lines (s : State) (p : PortId) : PeerLines := (s.dev.port p).lines

/-- The engine fault: the cause is kept, every request is abandoned, and all else is frozen as it stands (R178). -/
def State.engineFault (s : State) (cause : EngineFault) : State :=
  { s with engine := .faulted, cause := cause, dev := { s.dev with requests := [] } }

/-- The reply of a read is whole: it has the length asked for. -/
def Request.whole (r : Request) (bytes : List Byte) : Bool := bytes.length == r.length

end Sys2Proof.Machine
end

