-- ==== Sys2Proof/Machine/EngineControl.lean ====
section
/-! DEFINITION. The meanings of hardware reset, of the register writes, of NOTIFY and of the root table's return (chapter 10,
R6, R151, R156). -/

namespace Sys2Proof.Machine

/-! ## Shared operations of the register window -/

/-- Every block back at its reset values, with ROOT and INTMASK kept and every request abandoned (R179). -/
def State.haltEngine (s : State) : State :=
  { s with engine := .halted, cause := .clear, table := none, dev := Device.reset s.dev.serial s.dev.ports }

/-- A START request: taken in HALTED alone, it places the root table read (R173). -/
def State.startEngine (s : State) : State :=
  if s.engine = .halted then { s with engine := .starting, dev := s.dev.place .rootTable s.root 64 [] } else s

/-- Stores the six enables of INTMASK (R172, R182). -/
def State.setIntmask (s : State) (v : Word) : State := { s with intmask := v.setWidth 6 }

/-- Stores a half of ROOT, without its low six bits (R172, R182). -/
def State.setRoot (s : State) (high : Bool) (v : Word) : State :=
  if high then { s with root := v ++ s.root.extractLsb 31 0 }
  else { s with root := s.root.extractLsb 63 32 ++ (v &&& 0xFFFFFFC0#32) }

/-- A NOTIFY for a channel (R6). -/
def Device.takeChannelIndex (d : Device) (c : ChannelId) (index : BitVec 12) : Device :=
  let x := d.chan c
  let k := index.toNat
  if x.state == .closed || x.isRelay then d.badNotify c.val index
  else if k < x.size ∧ ringDistance x.size x.retire x.fetch ≤ ringDistance x.size x.retire k then
    (d.modChan c fun y => { y with producer := k }).fetchRecords c
  else d.badNotify c.val index

/-- A NOTIFY for the command ring (R156). -/
def Device.takeCommandIndex (d : Device) (index : BitVec 12) : Device :=
  let x := d.cu
  let k := index.toNat
  if k < x.size ∧ ringDistance x.size x.taken x.fetch ≤ ringDistance x.size x.taken k then
    d.modCu fun y => { y with producer := k }
  else d.badNotify 64 index

/-- A NOTIFY for a completion ring or NQ: a C that advances gains the ring room (R145, R151, R154). -/
def Device.takeConsumerIndex (d : Device) (r : RingId) (index : BitVec 12) (arm : Bool) : Device :=
  let x := d.ring r
  let k := index.toNat
  if x.isSet ∧ k < x.size ∧ ringDistance x.size x.consumer k ≤ x.unconsumed then
    d.modRing r fun y =>
      let z := { y with consumer := k, gained := y.gained || decide (k ≠ y.consumer) }
      if arm then z.rearm else z
  else d.badNotify (65 + r.val) index

/-- A NOTIFY handed to the owner of its target (R175). -/
def Device.takeNotify (d : Device) (target : Byte) (index : BitVec 12) (arm : Bool) : Device :=
  let t := target.toNat
  if h : t < 64 then d.takeChannelIndex ⟨t, h⟩ index
  else if t = 64 then d.takeCommandIndex index
  else if h : t - 65 < 5 then d.takeConsumerIndex ⟨t - 65, h⟩ index arm
  else d.badNotify t index

/-! ## Meanings -/

/-- HARDWARE_RESET: HALT, with ROOT and INTMASK cleared as well (R179). -/
def execHardwareReset (s : State) : Host.Outcome State Fault Refusal :=
  .next { s.haltEngine with root := 0, intmask := 0 }

/-- START (R173). -/
def execStart (s : State) : Host.Outcome State Fault Refusal := .next s.startEngine

/-- HALT (R179). -/
def execHalt (s : State) : Host.Outcome State Fault Refusal := .next s.haltEngine

/-- INTMASK_WRITE (R155, R172). -/
def execIntmaskWrite (value : Word) (s : State) : Host.Outcome State Fault Refusal := .next (s.setIntmask value)

/-- REGISTER_WRITE: a write of the register window, ignored unless it is 32 bits wide, aligned and to a register that can be
written (R172, R173, R175, R182). -/
def execRegisterWrite (offset : BitVec 6) (width : Nat) (value : Word) (s : State) : Host.Outcome State Fault Refusal :=
  if width = 4 then
    match offset.toNat with
    | 0x04 =>
      .next (if value.getLsbD 1 then s.haltEngine else if value.getLsbD 0 then s.startEngine else s)
    | 0x08 => .next (s.setRoot false value)
    | 0x0C => .next (s.setRoot true value)
    | 0x10 =>
      .next (s.event fun d => d.takeNotify (value.extractLsb 7 0) (value.extractLsb 19 8) (value.getLsbD 31))
    | 0x18 => .next (s.setIntmask value)
    | _ => .next s
  else .next s

/-- NOTIFY_CHANNEL: the ARM flag has no meaning here (R6). -/
def execNotifyChannel (channel : ChannelId) (index : BitVec 12) (_arm : Bool) (s : State) :
    Host.Outcome State Fault Refusal :=
  .next (s.event fun d => d.takeChannelIndex channel index)

/-- NOTIFY_COMMAND_RING: the ARM flag has no meaning here (R156). -/
def execNotifyCommandRing (index : BitVec 12) (_arm : Bool) (s : State) : Host.Outcome State Fault Refusal :=
  .next (s.event fun d => d.takeCommandIndex index)

/-- NOTIFY_RING_CONSUMER (R151, R154). -/
def execNotifyRingConsumer (ring : RingId) (index : BitVec 12) (arm : Bool) (s : State) :
    Host.Outcome State Fault Refusal :=
  .next (s.event fun d => d.takeConsumerIndex ring index arm)

/-- NOTIFY_BAD_TARGET (R175). A target that names something is handed to its owner. -/
def execNotifyBadTarget (target : Byte) (index : BitVec 12) (arm : Bool) (s : State) : Host.Outcome State Fault Refusal :=
  .next (s.event fun d => d.takeNotify target index arm)

/-- The root table's contents, judged. The six values are kept while the engine is RUNNING or FAULTED, those of a bad table too (R173,
R174; entry 23). -/
def State.takeRootTable (s : State) (id : Nat) (bytes : List Byte) : State :=
  let t := parseRootTable bytes
  if t.good then
    let d := (s.dev.returned id).modRing nqRing fun _ => Ring.setTo t.noticeBase t.noticeSize t.threshold t.time
    { s with
      engine := .running
      table := some t
      dev := { d with lost := 0, cu := { CommandUnit.reset with base := t.commandBase, size := t.commandSize } } }
  else { s.engineFault .rootBad with table := some t }

/-- ROOT_TABLE_READ_DONE (R173). -/
def execRootTableReadDone (request : Nat) (reply : ReadReply) (s : State) : Host.Outcome State Fault Refusal :=
  match s.engine, s.dev.request? request with
  | .starting, some r =>
    if r.access = .rootTable then
      match reply with
      | .busError _ => .next (s.engineFault .rootRead)
      | .data bytes => .next (if r.whole bytes then s.takeRootTable request bytes else s)
    else .next s
  | _, _ => .next s

end Sys2Proof.Machine
end

