-- ==== Sys2Proof/Machine/MemoryReturns.lean ====
section
/-! DEFINITION. The meanings of the returns of host memory accesses and of cell transfers, and of a coalescing timer's expiry
(R7, R99, R101, R113, R122, R131, R134, R148, R153, R157, R168, R177). -/

namespace Sys2Proof.Machine

/-! ## Fetches -/

/-- The records of a command fetch join the list of fetched commands (R157). -/
def Device.addCommands (d : Device) (bytes : List Byte) : Device :=
  let l := parseCommands bytes
  d.modCu fun x =>
    { x with held := x.held ++ l, fetch := ringAdvance x.size x.fetch l.length, fetchBusy := false }

/-- COMMAND_FETCH_DONE (R157, R177). -/
def execCommandFetchDone (request : Nat) (reply : ReadReply) (s : State) : Host.Outcome State Fault Refusal :=
  match s.engine, s.dev.request? request with
  | .running, some r =>
    if r.access = .commandFetch then
      match reply with
      | .busError _ => .next (s.engineFault .commandRead)
      | .data bytes =>
        .next (if r.whole bytes then s.event fun d => (d.returned request).addCommands bytes else s)
    else .next s
  | _, _ => .next s

/-- Records fetched for a channel join its list, unless a supply record has capacity 0 (R88, R109). Supply records run the grant generator
for their channel's half (R28). -/
def Device.addRecords (d : Device) (c : ChannelId) (bytes : List Byte) : Device :=
  let x := d.chan c
  let l := parseHostRecords (x.kind == .out) bytes
  if x.kind == .inn && l.any fun r => r.size == 0 then d.channelFault c .ringRead none
  else
    let e := d.modChan c fun y => { y with held := y.held ++ l, fetch := ringAdvance y.size y.fetch l.length }
    (if x.kind == .inn then e.runGenerator x.port x.number else e.startNext c).fetchRecords c

/-- The return of a record fetch: it counts only for a channel still OPEN under the opening that placed it (R7). -/
def Device.recordFetchReturned (d : Device) (c : ChannelId) (opening : Nat) (reply : ReadReply) : Device :=
  if (d.chan c).opening = opening then
    let e := d.modChan c fun y => { y with fetchBusy := false }
    if (d.chan c).state == .opened then
      match reply with
      | .data bytes => e.addRecords c bytes
      | .busError a => e.channelFault c .ringRead (some a)
    else e
  else d

/-- Whether a reply is a bus error, or the data of the length a request asked for. -/
def Request.answeredBy (r : Request) : ReadReply → Bool
  | .data bytes => r.whole bytes
  | .busError _ => true

/-- RECORD_FETCH_DONE (R7, R17, R109). -/
def execRecordFetchDone (request : Nat) (reply : ReadReply) (s : State) : Host.Outcome State Fault Refusal :=
  .next <| s.whenRunning fun d =>
    match d.request? request with
    | some r =>
      match r.access with
      | .recordFetch c opening =>
        if r.answeredBy reply then ((d.returned request).recordFetchReturned c opening reply).settle else d
      | _ => d
    | none => d

/-! ## Payload reads -/

/-- Payload bytes return: they are placed in staging if it still expects them (R99). -/
def Port.payloadReturned (x : Port) (id : Nat) (bytes : List Byte) : Port :=
  match x.outStaging.reads.find? fun r => r.id == id with
  | some r =>
    { x with
      outStaging :=
        { x.outStaging with
          reads := x.outStaging.reads.filter fun q => !(q.id == id)
          segments := x.outStaging.segments ++ [{ offset := r.offset, bytes := bytes }] } }
  | none => x

/-- A payload read fails: the channel faults, or the coming completion of an aborting one becomes FAULT (R101). -/
def Device.payloadFailed (d : Device) (c : ChannelId) (opening : Nat) (a : Address) : Device :=
  let x := d.chan c
  if x.opening = opening then
    match x.state with
    | .opened => d.channelFault c .payloadRead (some a)
    | .draining => d.channelFault c .payloadRead (some a)
    | .aborting =>
      if x.out.phase == .started && !x.out.spoiled then
        (d.modOutMsg c fun o => { o with spoiled := true }).abortingFault c .payloadRead a
      else d
    | _ => d
  else d

/-- PAYLOAD_READ_DONE (R99, R101, R106). -/
def execPayloadReadDone (request : Nat) (reply : ReadReply) (s : State) : Host.Outcome State Fault Refusal :=
  .next <| s.whenRunning fun d =>
    match d.request? request with
    | some r =>
      if r.answeredBy reply then
        match r.access, reply with
        | .payloadRead p _ _, .data bytes => ((d.returned request).modPort p fun x => x.payloadReturned request bytes).settle
        | .payloadRead _ c opening, .busError a => ((d.returned request).payloadFailed c opening a).settle
        | .discarded, _ => (d.returned request).settle
        | _, _ => d
      else d
    | none => d

/-! ## Buffer writes -/

/-- A write of a buffer fails, the buffer given as it stood before: the channel faults, or the coming completion of an aborting one
becomes FAULT, once for the buffer (R17, R122). -/
def Device.bufferFailed (d : Device) (z : Buffer) (a : Address) : Device :=
  let x := d.chan z.channel
  if x.opening = z.opening then
    match x.state with
    | .opened => d.channelFault z.channel .bufferWrite (some a)
    | .draining => d.channelFault z.channel .bufferWrite (some a)
    | .aborting => if z.failed then d else d.abortingFault z.channel .bufferWrite a
    | _ => d
  else d

/-- A buffer write of `n` bytes returns (R113, R122). -/
def Device.bufferWriteReturned (d : Device) (b n : Nat) (reply : WriteReply) : Device :=
  match reply with
  | .accepted =>
    d.modBuffer b fun z => { z with outstanding := z.outstanding - 1, acceptedBytes := z.acceptedBytes + n }
  | .busError a =>
    let e := d.modBuffer b fun z => { z with outstanding := z.outstanding - 1, failed := true }
    match d.buffer? b with
    | some z => e.bufferFailed z a
    | none => e

/-- BUFFER_WRITE_DONE (R113, R122). -/
def execBufferWriteDone (request : Nat) (reply : WriteReply) (s : State) : Host.Outcome State Fault Refusal :=
  .next <| s.whenRunning fun d =>
    match d.request? request with
    | some r =>
      match r.access with
      | .bufferWrite p b => (((d.returned request).bufferWriteReturned b r.length reply).issueInbound p).settle
      | _ => d
    | none => d

/-! ## Cell transfers -/

/-- A move into a cell completes: its bytes stand in the cell, over what stood there (R131). -/
def RelayUnit.moveDone (u : RelayUnit) (m : CellMove) : RelayUnit :=
  { u with moves := u.moves.filter fun x => !(x.id == m.id) }.place m.cell { offset := m.offset, bytes := m.bytes }

/-- CELL_MOVE_DONE (R131). -/
def execCellMoveDone (move : Nat) (s : State) : Host.Outcome State Fault Refusal :=
  .next <| s.whenRunning fun d =>
    match d.relay.moves.find? fun m => m.id == move with
    | some m => ((d.modRelay fun u => u.moveDone m).issueInbound m.port).settle
    | none => d

/-- A copy from a cell completes: its bytes stand in outbound staging (R134). -/
def Port.copyDone (x : Port) (k : CellCopy) : Port :=
  { x with
    outStaging :=
      { x.outStaging with
        copies := x.outStaging.copies.filter fun q => !(q.id == k.id)
        segments := x.outStaging.segments ++ [{ offset := k.offset, bytes := k.bytes }] } }

/-- The copy of an identity that some port's outbound staging still expects. -/
def Device.copy? (d : Device) (id : Nat) : Option (PortId × CellCopy) :=
  allPorts.findSome? fun p => ((d.port p).outStaging.copies.find? fun k => k.id == id).map fun k => (p, k)

/-- CELL_COPY_DONE: a copy that staging no longer expects is discarded (R134). -/
def execCellCopyDone (copy : Nat) (s : State) : Host.Outcome State Fault Refusal :=
  .next <| s.whenRunning fun d =>
    match d.copy? copy with
    | some (p, k) => (d.modPort p fun x => x.copyDone k).settle
    | none => d

/-! ## Record and statistics writes -/

/-- The buffer named by a posted completion, if any. -/
def RecordBody.buffer : RecordBody → Option Nat
  | .completion c => c.buffer
  | .notice _ _ => none

/-- A record write is accepted: the ring advances, and a buffer whose completion is written is done with (R118, R148). -/
def Device.recordWritten (d : Device) (r : RingId) (order : Nat) : Device :=
  let b := ((d.ring r).queue.find? fun q => q.order == order).bind fun q => q.body.buffer
  let e := d.modRing r fun x => x.recordWritten order
  { e with buffers := e.buffers.filter fun z => !(b == some z.id) }

/-- The engine fault of a failed record write on a ring (R177). -/
def ringFault (r : RingId) : EngineFault := if r = nqRing then .noticeWrite else .completionWrite

/-- RECORD_WRITE_DONE (R148, R177). -/
def execRecordWriteDone (request : Nat) (reply : WriteReply) (s : State) : Host.Outcome State Fault Refusal :=
  match s.engine, s.dev.request? request with
  | .running, some q =>
    match q.access with
    | .recordWrite r order =>
      match reply with
      | .accepted => .next (s.event fun d => (d.returned request).recordWritten r order)
      | .busError _ => .next (s.engineFault (ringFault r))
    | _ => .next s
  | _, _ => .next s

/-- A statistics write returns, and its READ_STATS completes (R168). -/
def Device.statsReturned (d : Device) (id : Nat) (reply : WriteReply) : Device :=
  match reply with
  | .accepted => d.completeDeferred (isStats id) .ok 0
  | .busError a =>
    match d.cu.deferred.find? fun e => isStats id e.work with
    | some e => (d.asyncNotice (.hostError e.subject .statsWrite (a.setWidth 32))).completeDeferred (isStats id) .badParam 0
    | none => d

/-- STATS_WRITE_DONE (R168). -/
def execStatsWriteDone (request : Nat) (reply : WriteReply) (s : State) : Host.Outcome State Fault Refusal :=
  .next <| s.whenRunning fun d =>
    match d.request? request with
    | some r => if r.access = .statsWrite then ((d.returned request).statsReturned request reply).settle else d
    | none => d

/-! ## Coalescing timers -/

/-- COALESCING_TIMER_EXPIRY (R153). -/
def execCoalescingTimerExpiry (ring : RingId) (s : State) : Host.Outcome State Fault Refusal :=
  .next (s.event fun d => d.modRing ring Ring.coalescingExpiry)

end Sys2Proof.Machine
end

