-- ==== Sys2Proof/Machine/ChannelCommands.lean ====
section
/-! DEFINITION. The meanings of the commands on channels: OPEN, OPEN_RELAY and the two modes of CLOSE (R4, R5, R9, R128). -/

namespace Sys2Proof.Machine

/-- Every channel index. -/
def allChannels : List ChannelId := List.finRange 64

/-- Whether a channel outside CLOSED holds a key (R3). -/
def Device.keyHeld (d : Device) (p : PortId) (n : LinkNumber) (outbound : Bool) : Bool :=
  allChannels.any fun c =>
    let x := d.chan c
    !(x.state == .closed) && x.port == p && x.number == n && x.isOutbound == outbound

/-! ## OPEN (R4) -/

/-- The parameters of an OPEN, in range. -/
structure OpenRequest where
  kind : Kind
  port : PortId
  number : LinkNumber
  ring : Fin 4
  cls : Fin 4
  compress : Bool
  breakPolicy : BreakPolicy
  overflow : OverflowPolicy
  base : Address
  size : Nat
  deriving DecidableEq, Repr

/-- The kind a mode byte of OPEN names. -/
def openKind (b : Byte) : Option Kind :=
  match b.toNat with
  | 0 => some .out
  | 1 => some .inn
  | _ => none

/-- The parameters of an OPEN of a kind, if every one its kind uses is in range; the others take their cleared values (R2, R4,
R180). -/
def readOpen (kind : Byte) (base : Address) (size : Half) (port number ring cls options : Byte) : Option OpenRequest := do
  let k ← openKind kind
  let p ← inRange 4 port
  let n ← inRange 64 number
  let r ← inRange 4 ring
  if !(powerOfTwoIn 16 4096 size.toNat && aligned 16 base) then none
  else if k = .out then
    let c ← inRange 4 cls
    some
      { kind := .out, port := p, number := n, ring := r, cls := c, compress := optCompress options,
        breakPolicy := optBreak options, overflow := .drop, base := base, size := size.toNat }
  else
    let o ← optOverflow options
    some
      { kind := .inn, port := p, number := n, ring := r, cls := 0, compress := false, breakPolicy := .fail, overflow := o,
        base := base, size := size.toNat }

/-- The context an OPEN writes, under a fresh opening (R4). -/
def OpenRequest.channel (q : OpenRequest) (opening : Nat) : Channel :=
  { Channel.cleared with
    state := .opened, kind := q.kind, port := q.port, number := q.number, ring := q.ring, cls := q.cls,
    compress := q.compress, breakPolicy := q.breakPolicy, overflow := q.overflow, base := q.base, size := q.size,
    opening := opening }

/-- Writes a context under a fresh opening and makes it the owner of its half (R4, R5). -/
def Device.install (d : Device) (c : ChannelId) (x : Nat → Channel) : Device :=
  ({ (d.modChan c fun _ => x d.serial) with serial := d.serial + 1 }).bind c

/-- Opens a channel whose checks have passed (R4). -/
def Device.openWith (d : Device) (c : ChannelId) (q : OpenRequest) : Device :=
  let e := d.install c q.channel
  if q.kind = .out then e.enlist c else e

/-- The result of an OPEN whose index and parameters are in range, by the checks 3 to 6 of R4. -/
def Device.openResult (d : Device) (c : ChannelId) (q : OpenRequest) : Result :=
  if (d.chan c).state ≠ .closed then .badState
  else if !(d.ring (cqRing q.ring)).isSet then .badState
  else if d.keyHeld q.port q.number (q.kind == .out) then .keyInUse
  else if q.kind = .inn ∧ (d.inHalf q.port q.number).discard then .busy
  else .ok

/-- OPEN (R4). -/
def execOpenChannel (tag : Half) (channel kind : Byte) (base : Address) (size : Half)
    (port number ring cls options : Byte) (s : State) : Host.Outcome State Fault Refusal :=
  .next <| s.take (.openChannel tag channel kind base size port number ring cls options) fun d =>
    match inRange 64 channel, readOpen kind base size port number ring cls options with
    | none, _ => d.commandDone channel tag .badIndex 0
    | some _, none => d.commandDone channel tag .badParam 0
    | some c, some q =>
      (if d.openResult c q = .ok then d.openWith c q else d).commandDone channel tag (d.openResult c q) 0

/-! ## OPEN_RELAY (R5, R128) -/

/-- The parameters of an OPEN_RELAY, in range. -/
structure RelayRequest where
  inPort : PortId
  inNumber : LinkNumber
  outPort : PortId
  outNumber : LinkNumber
  cls : Fin 4
  compress : Bool
  breakPolicy : BreakPolicy
  overflow : OverflowPolicy
  cells : Nat
  deriving DecidableEq, Repr

/-- The parameters of an OPEN_RELAY, if every one is in range (R5, R180). -/
def readRelay (inPort inNumber outPort outNumber cls cells options : Byte) : Option RelayRequest := do
  let ip ← inRange 4 inPort
  let i ← inRange 64 inNumber
  let op ← inRange 4 outPort
  let o ← inRange 64 outNumber
  let k ← inRange 4 cls
  let f ← optOverflow options
  if f = .chain || cells.toNat = 0 || 8 < cells.toNat then none
  else
    some
      { inPort := ip, inNumber := i, outPort := op, outNumber := o, cls := k, compress := optCompress options,
        breakPolicy := optBreak options, overflow := f, cells := cells.toNat }

/-- The context of the RELAY_IN half (R5). -/
def RelayRequest.inbound (q : RelayRequest) (partner : ChannelId) (opening : Nat) : Channel :=
  { Channel.cleared with
    state := .opened, kind := .relayIn, port := q.inPort, number := q.inNumber, overflow := q.overflow,
    partner := partner, cells := q.cells, opening := opening }

/-- The context of the RELAY_OUT half (R5). -/
def RelayRequest.outbound (q : RelayRequest) (partner : ChannelId) (opening : Nat) : Channel :=
  { Channel.cleared with
    state := .opened, kind := .relayOut, port := q.outPort, number := q.outNumber, cls := q.cls, compress := q.compress,
    breakPolicy := q.breakPolicy, partner := partner, cells := q.cells, opening := opening }

/-- Takes cells from the head of the free list for a new pair, with its counters at 0 (R128). -/
def Device.reserveCells (d : Device) (i o : ChannelId) (k : Nat) : Device :=
  ((d.modRelay fun u => { u with free := u.free.drop k }).setPair i
      (some { inbound := i, outbound := o, reserved := k, spare := d.relay.free.take k, filling := none, queue := [],
              cut := false })).countRelay i fun _ => RelayCounters.zero

/-- Opens a pair whose checks have passed (R5, R128). -/
def Device.openPair (d : Device) (i o : ChannelId) (q : RelayRequest) : Device :=
  ((((d.reserveCells i o q.cells).install i (q.inbound o)).install o (q.outbound i)).enlist o).runGenerator q.inPort
    q.inNumber

/-- The result of an OPEN_RELAY whose indices and parameters are in range, by the later checks of R5. -/
def Device.openPairResult (d : Device) (i o : ChannelId) (q : RelayRequest) : Result :=
  if (d.chan i).state ≠ .closed ∨ (d.chan o).state ≠ .closed then .badState
  else if d.keyHeld q.inPort q.inNumber false || d.keyHeld q.outPort q.outNumber true then .keyInUse
  else if (d.inHalf q.inPort q.inNumber).discard then .busy
  else if d.relay.free.length < q.cells then .noResource
  else .ok

/-- OPEN_RELAY (R5, R128). -/
def execOpenRelay (tag : Half) (inbound outbound inPort inNumber outPort outNumber cls cells options : Byte) (s : State) :
    Host.Outcome State Fault Refusal :=
  .next <|
    s.take (.openRelay tag inbound outbound inPort inNumber outPort outNumber cls cells options) fun d =>
      match inRange 64 inbound, inRange 64 outbound with
      | some i, some o =>
        match readRelay inPort inNumber outPort outNumber cls cells options with
        | none => d.commandDone inbound tag .badParam 0
        | some q =>
          if i = o then d.commandDone inbound tag .badParam 0
          else
            (if d.openPairResult i o q = .ok then d.openPair i o q else d).commandDone inbound tag (d.openPairResult i o q) 0
      | _, _ => d.commandDone inbound tag .badIndex 0

/-! ## CLOSE (R9) -/

/-- CLOSE_GRACEFUL: the index is checked before the mode (R9). -/
def execCloseGraceful (tag : Half) (channel mode : Byte) (s : State) : Host.Outcome State Fault Refusal :=
  .next <| s.take (.closeGraceful tag channel mode) fun d =>
    match inRange 64 channel with
    | none => d.commandDone channel tag .badIndex 0
    | some c => if mode = 0 then d.decideClose c .graceful tag channel else d.commandDone channel tag .badParam 0

/-- CLOSE_ABORT (R9). -/
def execCloseAbort (tag : Half) (channel : Byte) (s : State) : Host.Outcome State Fault Refusal :=
  .next <| s.take (.closeAbort tag channel) fun d =>
    match inRange 64 channel with
    | none => d.commandDone channel tag .badIndex 0
    | some c => d.decideClose c .abort tag channel

end Sys2Proof.Machine
end

