-- ==== Sys2Proof/Machine/PortCommands.lean ====
section
/-! DEFINITION. The meanings of the commands on ports: PORT_SETUP, PORT_ENABLE and the two modes of PORT_DISABLE (R62, R63, R77 to
R81). -/

namespace Sys2Proof.Machine

/-! ## PORT_SETUP (R62) -/

/-- The role a byte names. -/
def readRole (b : Byte) : Option Role :=
  match b.toNat with
  | 0 => some .lead
  | 1 => some .follow
  | _ => none

/-- Whether a count lies in a range, both ends included. -/
def between (lo hi n : Nat) : Bool := decide (lo ≤ n) && decide (n ≤ hi)

/-- The nine settings, if every one is in its range (R62). -/
def readSettings (role : Byte) (slice budget hold accept turnWait : Half) (recover retries : Byte) (drain : Half) :
    Option PortSettings := do
  let r ← readRole role
  if between 16 1024 slice.toNat && between 64 8192 budget.toNat && between 1 65535 accept.toNat &&
      between 1 65535 turnWait.toNat && between 1 255 recover.toNat && between 0 15 retries.toNat &&
      between 1 65535 drain.toNat
  then
    some
      { role := r, slice := slice.toNat, turnBudget := budget.toNat, holdLimit := hold.toNat, acceptLimit := accept.toNat,
        turnWait := turnWait.toNat, recover := recover.toNat, drainLimit := drain.toNat, retries := retries.toNat }
  else none

/-- The result of a command that a port takes only in DISABLED or FAILED (R62, R63). -/
def PortState.downResult : PortState → Result
  | .disabled => .ok
  | .failed => .ok
  | .quiescing => .busy
  | _ => .badState

/-- PORT_SETUP (R62). -/
def execPortSetup (tag : Half) (port role : Byte) (slice budget hold accept turnWait : Half) (recover retries : Byte)
    (drain : Half) (s : State) : Host.Outcome State Fault Refusal :=
  .next <|
    s.take (.portSetup tag port role slice budget hold accept turnWait recover retries drain) fun d =>
      match inRange 4 port, readSettings role slice budget hold accept turnWait recover retries drain with
      | none, _ => d.commandDone port tag .badIndex 0
      | some _, none => d.commandDone port tag .badParam 0
      | some p, some q =>
        let r := (d.port p).state.downResult
        (if r = .ok then d.modPort p fun x => { x with settings := q } else d).commandDone port tag r 0

/-! ## PORT_ENABLE (R63) -/

/-- A port enabled: its COMMAND_DONE, then ENGAGING with a fresh series of tries (R63, R64). -/
def Device.enablePort (d : Device) (p : PortId) (tag : Half) (subject : Byte) : Device :=
  (d.commandDone subject tag .ok 0).enterEngaging p fun x => { x with retryCount := 0, peerReleased := false }

/-- PORT_ENABLE (R63). -/
def execPortEnable (tag : Half) (port : Byte) (s : State) : Host.Outcome State Fault Refusal :=
  .next <| s.take (.portEnable tag port) fun d =>
    match inRange 4 port with
    | none => d.commandDone port tag .badIndex 0
    | some p =>
      let r := (d.port p).state.downResult
      if r = .ok then d.enablePort p tag port else d.commandDone port tag r 0

/-! ## PORT_DISABLE (R77 to R81) -/

/-- A port that is not engaged becomes DISABLED (R77, R81). -/
def Port.leaveDown (x : Port) : Port := { x with state := .disabled, recoverTimer := .stopped }

/-- A pick whose message has not started is withdrawn, since QUIESCING lets no message start (R66, R92). -/
def Device.withdrawPick (d : Device) (p : PortId) : Device :=
  match (d.port p).pick with
  | some (c, _) =>
    if (d.chan c).out.phase == .started then d else d.modPort p fun x => { x with pick := none, selectSent := false }
  | none => d

/-- Requests a revoke for every owned inbound half of a port, in increasing link number (R39). -/
def Device.revokeOwned (d : Device) (p : PortId) : Device :=
  linkNumbers.foldl (fun e n => if (e.inHalf p n).owner.isSome then e.requestRevoke p n else e) d

/-- An ACTIVE port enters QUIESCING, and is done at once if nothing is open (R77, R78). -/
def Device.quiesce (d : Device) (p : PortId) (tag : Half) (subject : Byte) : Device :=
  let e := (d.defer (.portDisable p) tag subject).modPort p fun x =>
    { x with state := .quiescing, drainTimer := .startMs x.settings.drainLimit, pendingDisable := some tag }
  (((e.unwaitPort p).revokeOwned p).withdrawPick p).checkQuiesce p

/-- PORT_DISABLE_GRACEFUL: the index is checked before the mode, and both before the port state (R77). -/
def execPortDisableGraceful (tag : Half) (port mode : Byte) (s : State) : Host.Outcome State Fault Refusal :=
  .next <| s.take (.portDisableGraceful tag port mode) fun d =>
    match inRange 4 port with
    | none => d.commandDone port tag .badIndex 0
    | some p =>
      if mode = 0 then
        match (d.port p).state with
        | .active => d.quiesce p tag port
        | .quiescing => d.commandDone port tag .busy 0
        | _ => (d.modPort p Port.leaveDown).commandDone port tag .ok 0
      else d.commandDone port tag .badParam 0

/-- PORT_DISABLE_ABRUPT (R81). -/
def execPortDisableAbrupt (tag : Half) (port : Byte) (s : State) : Host.Outcome State Fault Refusal :=
  .next <| s.take (.portDisableAbrupt tag port) fun d =>
    match inRange 4 port with
    | none => d.commandDone port tag .badIndex 0
    | some p =>
      match (d.port p).state with
      | .active => (d.tearDown p .disabled).commandDone port tag .ok 0
      | .quiescing => ((d.completeDisable p .superseded 0).tearDown p .disabled).commandDone port tag .ok 0
      | _ => (d.modPort p Port.leaveDown).commandDone port tag .ok 0

end Sys2Proof.Machine
end

