-- ==== Sys2Proof/Machine/UnitCommands.lean ====
section
/-! DEFINITION. The meanings of SET_RING, READ_STATS, BARRIER, NOP and the unknown opcodes (R143, R159, R163 to R170). -/

namespace Sys2Proof.Machine

/-! ## SET_RING (R143, R163) -/

/-- Whether an OUT or IN channel outside CLOSED has a ring as its completion ring (R143). -/
def Device.ringInUse (d : Device) (k : Fin 4) : Bool :=
  allChannels.any fun c => !((d.chan c).state == .closed) && !(d.chan c).isRelay && (d.chan c).ring == k

/-- The result of a SET_RING whose ring number is in range (R163). -/
def Device.setRingResult (d : Device) (k : Fin 4) (base : Address) (size : Half) (threshold : Byte) : Result :=
  if !(aligned 16 base && powerOfTwoIn 16 4096 size.toNat && between 1 255 threshold.toNat) then .badParam
  else if d.ringInUse k || decide (0 < (d.ring (cqRing k)).reserved) then .badState
  else .ok

/-- SET_RING (R163). -/
def execSetRing (tag : Half) (ring : Byte) (base : Address) (size : Half) (threshold : Byte) (time : Half) (s : State) :
    Host.Outcome State Fault Refusal :=
  .next <| s.take (.setRing tag ring base size threshold time) fun d =>
    match inRange 4 ring with
    | none => d.commandDone ring tag .badIndex 0
    | some k =>
      let r := d.setRingResult k base size threshold
      (if r = .ok then d.modRing (cqRing k) fun _ => Ring.setTo base size.toNat threshold.toNat time.toNat
        else d).commandDone ring tag r 0

/-! ## READ_STATS (R164 to R168) -/

/-- The subject of a READ_STATS, in range. -/
inductive StatsSubject where
  | channel (c : ChannelId)
  | port (p : PortId)
  | relay (c : ChannelId)
  deriving DecidableEq, Repr

/-- The subject a kind and an index name, or the refusal they give (R164). -/
def readSubject (kind subject : Byte) : Except Result StatsSubject :=
  match kind.toNat with
  | 0 => ((inRange 64 subject).map StatsSubject.channel).elim (.error .badIndex) .ok
  | 1 => ((inRange 4 subject).map StatsSubject.port).elim (.error .badIndex) .ok
  | 2 => ((inRange 64 subject).map StatsSubject.relay).elim (.error .badIndex) .ok
  | _ => .error .badParam

/-- The statistics record of a subject as it stands (R165). -/
def Device.statsBytes (d : Device) : StatsSubject → List Byte
  | .channel c => (d.chan c).statsBytes c
  | .port p => (d.port p).statsBytes p
  | .relay c =>
    relayStatsBytes c (d.relay.counters.get c).words (d.pair c) ((d.pair c).any d.sending) d.relay.free.length

/-- Sets the counters of a subject to 0 (R20, R84, R141, R167). -/
def Device.clearStats (d : Device) : StatsSubject → Device
  | .channel c => d.countChan c fun _ => ChannelCounters.zero
  | .port p => d.countPort p fun _ => PortCounters.zero
  | .relay c => d.countRelay c fun _ => RelayCounters.zero

/-- Takes the snapshot of a subject, with CLEAR the clear, places the statistics write and defers the command (R165, R168). -/
def Device.takeStats (d : Device) (x : StatsSubject) (clear : Bool) (destination : Address) (tag : Half) (subject : Byte) :
    Device :=
  let bytes := d.statsBytes x
  let e := if clear then d.clearStats x else d
  (e.place .statsWrite destination 64 bytes).defer (.readStats d.serial) tag subject

/-- READ_STATS (R164). -/
def execReadStats (tag : Half) (subject mode kind : Byte) (destination : Address) (s : State) :
    Host.Outcome State Fault Refusal :=
  .next <| s.take (.readStats tag subject mode kind destination) fun d =>
    match readSubject kind subject with
    | .error r => d.commandDone subject tag r 0
    | .ok x =>
      if aligned 16 destination then d.takeStats x (mode.getLsbD 0) destination tag subject
      else d.commandDone subject tag .badParam 0

/-! ## BARRIER, NOP and the unknown opcodes (R159, R169, R170) -/

/-- BARRIER (R169). -/
def execBarrier (tag : Half) (subject : Byte) (s : State) : Host.Outcome State Fault Refusal :=
  .next <| s.take (.barrier tag subject) fun d =>
    if d.cu.deferred.isEmpty then d.commandDone subject tag .ok 0 else d.defer .barrier tag subject

/-- NOP (R170). -/
def execNop (tag : Half) (subject : Byte) (s : State) : Host.Outcome State Fault Refusal :=
  .next <| s.take (.nop tag subject) fun d => d.commandDone subject tag .ok 0

/-- UNKNOWN_OPCODE (R159, R180). -/
def execUnknownOpcode (opcode : Byte) (tag : Half) (subject : Byte) (s : State) : Host.Outcome State Fault Refusal :=
  .next <| s.take (.unknownOpcode opcode tag subject) fun d => d.commandDone subject tag .badParam 0

end Sys2Proof.Machine
end

