-- ==== Sys2Proof/Machine/LinkEvents.lean ====
section
/-! DEFINITION. The meanings of the events on a port's lines and of its timers' expiries (chapter 4). -/

namespace Sys2Proof.Machine

/-! ## Bytes the part sends (R58) -/

/-- BYTE_ACCEPTED: ACK rises on the offered byte (R58). -/
def execByteAccepted (port : PortId) (s : State) : Host.Outcome State Fault Refusal :=
  .next <| s.event fun d =>
    match (d.port port).turn, (d.port port).tx with
    | .ours, .offered o => d.offerAccepted port o
    | _, _ => d

/-- BYTE_RETURNED: ACK falls, and the transfer is over (R58, R78). -/
def execByteReturned (port : PortId) (s : State) : Host.Outcome State Fault Refusal :=
  .next <| s.event fun d =>
    match (d.port port).turn, (d.port port).tx with
    | .ours, .accepted _ => (d.modPort port fun x => { x with tx := .idle, acceptTimer := .stopped }).checkQuiesce port
    | _, _ => d

/-- A timer of a port that runs expires: it stops, and the port changes. -/
def Device.expire (d : Device) (p : PortId) (t : Port → Timer) (stop : Port → Port) (f : Device → Device) : Device :=
  if (t (d.port p)).isRunning then f (d.modPort p stop) else d

/-- ACCEPT_LIMIT_EXPIRY (R58). -/
def execAcceptLimitExpiry (port : PortId) (s : State) : Host.Outcome State Fault Refusal :=
  .next <| s.event fun d =>
    d.expire port Port.acceptTimer (fun x => { x with acceptTimer := .stopped }) fun e => e.breakPort port .timeoutAccept

/-! ## Bytes the peer sends (R59) -/

/-- PEER_BYTE_OFFERED: STB rises with a byte on the lines (R59). -/
def execPeerByteOffered (port : PortId) (byte : WireByte) (s : State) : Host.Outcome State Fault Refusal :=
  if (s.lines port).stb then .next s
  else
    .next <| (s.drive port fun l => { l with stb := true, byte := byte }).event fun d => d.peerByteStands port

/-- A withheld byte is accepted once staging has the room it asks for (R59). -/
def Device.acceptWithheld (d : Device) (p : PortId) : Device :=
  let x := d.port p
  if x.rx == .withheld && x.reads && decide (d.roomNeeded p x.lines.byte ≤ x.stagingRoom) then d.acceptPeerByte p else d

/-- WITHHELD_ACCEPT (R59). -/
def execWithheldAccept (port : PortId) (s : State) : Host.Outcome State Fault Refusal :=
  .next <| s.event fun d => d.acceptWithheld port

/-- PEER_BYTE_RETURNED: STB falls, and the part lowers ACK (R59, R78). -/
def execPeerByteReturned (port : PortId) (s : State) : Host.Outcome State Fault Refusal :=
  if (s.lines port).stb then
    .next <| (s.drive port fun l => { l with stb := false }).event fun d =>
      if (d.port port).rx == .idle then d else (d.modPort port fun x => { x with rx := .idle }).checkQuiesce port
  else .next s

/-! ## Engagement lines (R63, R64, R73, R75) -/

/-- ENGI stands high: an ENGAGING port engages (R64). -/
def Device.engageIfWaiting (d : Device) (p : PortId) : Device :=
  if (d.port p).state == .engaging then d.engage p else d

/-- ENGAGEMENT (R64). -/
def execEngagement (port : PortId) (s : State) : Host.Outcome State Fault Refusal :=
  .next <| (s.drive port fun l => { l with engi := true }).event fun d => d.engageIfWaiting port

/-- ENGI_RISE: in a port state other than ENGAGING it changes the level alone (R64, R75). -/
def execEngiRise (port : PortId) (s : State) : Host.Outcome State Fault Refusal :=
  .next <| (s.drive port fun l => { l with engi := true }).event fun d => d.engageIfWaiting port

/-- ENGI falls: an engaged port breaks, and a BROKEN one notes that its peer has released (R73, R75). -/
def Device.engageLost (d : Device) (p : PortId) : Device :=
  match (d.port p).state with
  | .active => d.breakPort p (if (d.port p).linesQuiet then .peerLeft else .abrupt)
  | .quiescing => d.breakPort p (if (d.port p).linesQuiet then .peerLeft else .abrupt)
  | .broken => (d.modPort p fun x => { x with peerReleased := true }).decideRetry p
  | _ => d

/-- ENGI_FALL (R73, R75). -/
def execEngiFall (port : PortId) (s : State) : Host.Outcome State Fault Refusal :=
  if (s.lines port).engi then
    .next <| (s.drive port fun l => { l with engi := false }).event fun d => d.engageLost port
  else .next s

/-! ## Turn lines (R64, R65, R67, R69, R71, R72) -/

/-- OWNI rises: a collision in OURS, the take of an offered turn, or the first turn a FOLLOW sees (R65, R71, R72). -/
def Device.peerTakes (d : Device) (p : PortId) : Device :=
  match (d.port p).turn with
  | .ours => d.breakPort p (.protocol .collision)
  | .offered => (d.modPort p fun x => { x with takeTimer := .stopped }).enterTheirs p
  | .theirs =>
    if (d.port p).takeTimer.isRunning then d.modPort p fun x => { x with takeTimer := .stopped }.settle else d
  | _ => d

/-- OWNI_RISE (R65, R71, R72). -/
def execOwniRise (port : PortId) (s : State) : Host.Outcome State Fault Refusal :=
  if (s.lines port).owni then .next s
  else .next <| (s.drive port fun l => { l with owni := true }).event fun d => d.peerTakes port

/-- OWNI falls: in ASKED the part takes the turn, unless a byte or a REPEAT is left over; in THEIRS it is an error (R46, R67,
R72). -/
def Device.peerReleases (d : Device) (p : PortId) : Device :=
  let x := d.port p
  match x.turn with
  | .theirs => d.breakPort p (.protocol .unaskedRelease)
  | .asked =>
    if !(x.rx == .idle) then d.breakPort p (.protocol .unaskedRelease)
    else if x.repeatPending.isSome then d.breakPort p (.protocol .repeatOrphan)
    else d.modPort p Port.takeTurn
  | _ => d

/-- OWNI_FALL (R67, R72). -/
def execOwniFall (port : PortId) (s : State) : Host.Outcome State Fault Refusal :=
  if (s.lines port).owni then
    .next <| (s.drive port fun l => { l with owni := false }).event fun d => d.peerReleases port
  else .next s

/-- The first sight of REQI in a turn of the part (R69). -/
def Port.sightInTurn (x : Port) : Port := if x.turn == .ours then x.sightRequest else x

/-- REQI_RISE (R69, R70). -/
def execReqiRise (port : PortId) (s : State) : Host.Outcome State Fault Refusal :=
  .next <| (s.drive port fun l => { l with reqi := true }).event fun d => d.modPort port Port.sightInTurn

/-- REQI_FALL: the level alone changes (R69). -/
def execReqiFall (port : PortId) (s : State) : Host.Outcome State Fault Refusal :=
  .next <| (s.drive port fun l => { l with reqi := false }).event fun d => d

/-! ## Timers (R65, R67, R69, R71, R75, R79) -/

/-- SETTLE_TIMER_EXPIRY (R65). -/
def execSettleTimerExpiry (port : PortId) (s : State) : Host.Outcome State Fault Refusal :=
  .next <| s.event fun d =>
    d.expire port Port.settleTimer (fun x => { x with settleTimer := .stopped }) fun e => e.modPort port Port.settle

/-- TAKE_TIMER_EXPIRY (R64, R71). -/
def execTakeTimerExpiry (port : PortId) (s : State) : Host.Outcome State Fault Refusal :=
  .next <| s.event fun d =>
    d.expire port Port.takeTimer (fun x => { x with takeTimer := .stopped }) fun e => e.breakPort port .timeoutTake

/-- TURN_WAIT_EXPIRY (R67). -/
def execTurnWaitExpiry (port : PortId) (s : State) : Host.Outcome State Fault Refusal :=
  .next <| s.event fun d =>
    d.expire port Port.turnWaitTimer (fun x => { x with turnWaitTimer := .stopped }) fun e => e.breakPort port .turnStarved

/-- The hold timer's expiry, if it runs (R69). -/
def Port.holdExpires (x : Port) : Port :=
  match x.hold with
  | .running _ => { x with hold := .expired }
  | _ => x

/-- HOLD_TIMER_EXPIRY (R69, R70). -/
def execHoldTimerExpiry (port : PortId) (s : State) : Host.Outcome State Fault Refusal :=
  .next <| s.event fun d => d.modPort port Port.holdExpires

/-- RECOVER_EXPIRY (R75). -/
def execRecoverExpiry (port : PortId) (s : State) : Host.Outcome State Fault Refusal :=
  .next <| s.event fun d =>
    d.expire port Port.recoverTimer (fun x => { x with recoverTimer := .stopped }) fun e => e.decideRetry port

/-- DRAIN_LIMIT_EXPIRY (R79). -/
def execDrainLimitExpiry (port : PortId) (s : State) : Host.Outcome State Fault Refusal :=
  .next <| s.event fun d =>
    d.expire port Port.drainTimer (fun x => { x with drainTimer := .stopped })
      fun e => (e.tearDown port .disabled).completeDisable port .ok 1

end Sys2Proof.Machine
end

