-- ==== Sys2Proof/Machine/Dispatch.lean ====
section
/-! DEFINITION. The meaning of every command and event, one arm per constructor of Instr. -/

namespace Sys2Proof.Machine

/-- The effect of a command or event on everything but the queue. -/
def exec (i : Instr) (s : State) : Host.Outcome State Fault Refusal :=
  match i with
  | .hardwareReset => Sys2Proof.Machine.execHardwareReset s
  | .start => Sys2Proof.Machine.execStart s
  | .halt => Sys2Proof.Machine.execHalt s
  | .intmaskWrite value => Sys2Proof.Machine.execIntmaskWrite value s
  | .registerWrite offset width value => Sys2Proof.Machine.execRegisterWrite offset width value s
  | .notifyChannel channel index arm => Sys2Proof.Machine.execNotifyChannel channel index arm s
  | .notifyCommandRing index arm => Sys2Proof.Machine.execNotifyCommandRing index arm s
  | .notifyRingConsumer ring index arm => Sys2Proof.Machine.execNotifyRingConsumer ring index arm s
  | .notifyBadTarget target index arm => Sys2Proof.Machine.execNotifyBadTarget target index arm s
  | .rootTableReadDone request reply => Sys2Proof.Machine.execRootTableReadDone request reply s
  | .commandFetchDone request reply => Sys2Proof.Machine.execCommandFetchDone request reply s
  | .openChannel tag channel kind base size port number ring cls options => Sys2Proof.Machine.execOpenChannel tag channel kind base size port number ring cls options s
  | .openRelay tag inbound outbound inPort inNumber outPort outNumber cls cells options => Sys2Proof.Machine.execOpenRelay tag inbound outbound inPort inNumber outPort outNumber cls cells options s
  | .closeGraceful tag channel mode => Sys2Proof.Machine.execCloseGraceful tag channel mode s
  | .closeAbort tag channel => Sys2Proof.Machine.execCloseAbort tag channel s
  | .setRing tag ring base size threshold time => Sys2Proof.Machine.execSetRing tag ring base size threshold time s
  | .portSetup tag port role slice budget hold accept turnWait recover retries drain => Sys2Proof.Machine.execPortSetup tag port role slice budget hold accept turnWait recover retries drain s
  | .portEnable tag port => Sys2Proof.Machine.execPortEnable tag port s
  | .portDisableGraceful tag port mode => Sys2Proof.Machine.execPortDisableGraceful tag port mode s
  | .portDisableAbrupt tag port => Sys2Proof.Machine.execPortDisableAbrupt tag port s
  | .readStats tag subject mode kind destination => Sys2Proof.Machine.execReadStats tag subject mode kind destination s
  | .barrier tag subject => Sys2Proof.Machine.execBarrier tag subject s
  | .nop tag subject => Sys2Proof.Machine.execNop tag subject s
  | .unknownOpcode opcode tag subject => Sys2Proof.Machine.execUnknownOpcode opcode tag subject s
  | .statsWriteDone request reply => Sys2Proof.Machine.execStatsWriteDone request reply s
  | .recordFetchDone request reply => Sys2Proof.Machine.execRecordFetchDone request reply s
  | .payloadReadDone request reply => Sys2Proof.Machine.execPayloadReadDone request reply s
  | .bufferWriteDone request reply => Sys2Proof.Machine.execBufferWriteDone request reply s
  | .cellMoveDone move => Sys2Proof.Machine.execCellMoveDone move s
  | .cellCopyDone copy => Sys2Proof.Machine.execCellCopyDone copy s
  | .recordWriteDone request reply => Sys2Proof.Machine.execRecordWriteDone request reply s
  | .coalescingTimerExpiry ring => Sys2Proof.Machine.execCoalescingTimerExpiry ring s
  | .byteAccepted port => Sys2Proof.Machine.execByteAccepted port s
  | .byteReturned port => Sys2Proof.Machine.execByteReturned port s
  | .acceptLimitExpiry port => Sys2Proof.Machine.execAcceptLimitExpiry port s
  | .peerByteOffered port byte => Sys2Proof.Machine.execPeerByteOffered port byte s
  | .withheldAccept port => Sys2Proof.Machine.execWithheldAccept port s
  | .peerByteReturned port => Sys2Proof.Machine.execPeerByteReturned port s
  | .engagement port => Sys2Proof.Machine.execEngagement port s
  | .engiFall port => Sys2Proof.Machine.execEngiFall port s
  | .owniRise port => Sys2Proof.Machine.execOwniRise port s
  | .owniFall port => Sys2Proof.Machine.execOwniFall port s
  | .reqiRise port => Sys2Proof.Machine.execReqiRise port s
  | .settleTimerExpiry port => Sys2Proof.Machine.execSettleTimerExpiry port s
  | .takeTimerExpiry port => Sys2Proof.Machine.execTakeTimerExpiry port s
  | .turnWaitExpiry port => Sys2Proof.Machine.execTurnWaitExpiry port s
  | .holdTimerExpiry port => Sys2Proof.Machine.execHoldTimerExpiry port s
  | .recoverExpiry port => Sys2Proof.Machine.execRecoverExpiry port s
  | .drainLimitExpiry port => Sys2Proof.Machine.execDrainLimitExpiry port s
  | .reqiFall port => Sys2Proof.Machine.execReqiFall port s
  | .engiRise port => Sys2Proof.Machine.execEngiRise port s

end Sys2Proof.Machine
end

