-- ==== Sys2Proof/Machine/Step.lean ====
section
/-! DEFINITION. The step: the part takes the command or event at the front of its queue. -/

namespace Sys2Proof.Machine

/-- One step: the command or event at the front of the queue takes effect on the rest; with nothing waiting the part idles, since
every timer's expiry is an event of its own (DESIGN CHOICE, entry 1). -/
def step (s : State) : Host.Outcome State Fault Refusal :=
  match s.pending with
  | [] => .next s
  | i :: rest => exec i { s with pending := rest }

/-- The state with the command a table word spells put at the front of its queue; the table gives no row bits, so no word spells one
and the state is unchanged. -/
def State.withFetchWord (s : State) (nbits w : Nat) : State :=
  match decodeTableWord nbits w with
  | some i => { s with pending := i :: s.pending }
  | none => s

end Sys2Proof.Machine
end

