-- ==== Sys2Proof/WellFormed.lean ====
section
/-! DEFINITION. Well-formed commands and events: the operands that a host access, a memory reply or a command record can carry. -/

namespace Sys2Proof

/-- Whether a read's data is a whole number of records of `n` bytes, one at least and `most` at most; a bus error carries no
data. -/
def ReadReply.records (n most : Nat) : ReadReply → Bool
  | .data bytes => bytes.length % n == 0 && decide (n ≤ bytes.length) && decide (bytes.length ≤ n * most)
  | .busError _ => true

/-- Whether the operands of a command or event are such as can reach the part. -/
def Instr.wellFormed : Instr → Bool
  | .hardwareReset => true
  | .start => true
  | .halt => true
  | .intmaskWrite _ => true
  | .registerWrite _ width _ => decide (1 ≤ width)
  | .notifyChannel _ _ _ => true
  | .notifyCommandRing _ _ => true
  | .notifyRingConsumer _ _ _ => true
  | .notifyBadTarget target _ _ => decide (70 ≤ target.toNat)
  | .rootTableReadDone _ reply => reply.records 64 1
  | .commandFetchDone _ reply => reply.records 32 4
  | .openChannel _ _ _ _ _ _ _ _ _ _ => true
  | .openRelay _ _ _ _ _ _ _ _ _ _ => true
  | .closeGraceful _ _ mode => !(mode == 1)
  | .closeAbort _ _ => true
  | .setRing _ _ _ _ _ _ => true
  | .portSetup _ _ _ _ _ _ _ _ _ _ _ => true
  | .portEnable _ _ => true
  | .portDisableGraceful _ _ mode => !(mode == 1)
  | .portDisableAbrupt _ _ => true
  | .readStats _ _ _ _ _ => true
  | .barrier _ _ => true
  | .nop _ _ => true
  | .unknownOpcode opcode _ _ => decide (0x0A ≤ opcode.toNat)
  | .statsWriteDone _ _ => true
  | .recordFetchDone _ reply => reply.records 16 8
  | .payloadReadDone _ reply => reply.records 1 256
  | .bufferWriteDone _ _ => true
  | .cellMoveDone _ => true
  | .cellCopyDone _ => true
  | .recordWriteDone _ _ => true
  | .coalescingTimerExpiry _ => true
  | .byteAccepted _ => true
  | .byteReturned _ => true
  | .acceptLimitExpiry _ => true
  | .peerByteOffered _ _ => true
  | .withheldAccept _ => true
  | .peerByteReturned _ => true
  | .engagement _ => true
  | .engiFall _ => true
  | .owniRise _ => true
  | .owniFall _ => true
  | .reqiRise _ => true
  | .settleTimerExpiry _ => true
  | .takeTimerExpiry _ => true
  | .turnWaitExpiry _ => true
  | .holdTimerExpiry _ => true
  | .recoverExpiry _ => true
  | .drainLimitExpiry _ => true
  | .reqiFall _ => true
  | .engiRise _ => true

end Sys2Proof
end

