-- ==== Sys2Proof/Safety.lean ====
section
/-! DEFINITION. What the statements are made of: the laws the manual says hold at all times, the part of the state that the work at
the end of an event leaves alone, and what a take, a notice, a tear-down and a break leave. -/

namespace Sys2Proof.Machine

/-! ## What the work at the end of an event leaves alone

The waiting lists are walked, the ports pick, offer, release and ask, outbound staging is refilled, ready records are written, and
the head command's slot and the command fetch are asked for (entry 9). Everything else stays, and that is the steady part. -/

/-- A phase with WAITING, READY and STARTED told apart from IDLE alone: a slot given moves WAITING to READY and a message start
moves READY to STARTED. -/
def Phase.steady : Phase → Phase
  | .idle => .idle
  | _ => .ready

/-- The steady part of an outbound message state. -/
def OutMessage.steady (o : OutMessage) : OutMessage := { o with phase := o.phase.steady, reserved := false }

/-- The steady part of a context; whether a record fetch is in flight is left out as well. -/
def Channel.steady (x : Channel) : Channel := { x with out := x.out.steady, fetchBusy := false }

/-- The steady part of a Link Map entry: the owners, the credits granted and the marks of the inbound half. -/
def MapEntry.steady (e : MapEntry) : MapEntry :=
  { outbound := { e.outbound with credits := 0, openMark := false }, inbound := { e.inbound with inFlight := 0 } }

/-- Whether a pending control entry is a GRANT. -/
def ControlEntry.isGrant : ControlEntry → Bool
  | .grant _ _ => true
  | _ => false

/-- A turn state by its holder: a turn held may be released, and a turn awaited may be asked for. -/
def TurnState.steady : TurnState → TurnState
  | .offered => .ours
  | .asked => .theirs
  | t => t

/-- A transfer of the part by its acceptance: a byte may be offered. -/
def Transfer.steady : Transfer → Transfer
  | .accepted o => .accepted o
  | _ => .idle

/-- The steady part of a port record. -/
def Port.steady (x : Port) : Port :=
  { x with
    turn := x.turn.steady, hold := .off, acceptTimer := .stopped, takeTimer := .stopped, turnWaitTimer := .stopped,
    map := x.map.map MapEntry.steady, control := x.control.filter (fun e => !e.isGrant), headOffered := false,
    passBegun := false, selection := none, build := none, tx := x.tx.steady, classes := Vector.replicate 4 [], pick := none,
    selectSent := false, outStaging := OutStaging.empty, counters := { x.counters with turnsReleased := 0 } }

/-- The steady part of a ring record: all but its reservations, its waiting list, the write in flight and the mark that it has gained
room. -/
def Ring.steady (x : Ring) : Ring := { x with reserved := 0, waiting := [], writing := none, gained := false }

/-- The steady part of the Command Unit. -/
def CommandUnit.steady (x : CommandUnit) : CommandUnit := { x with fetchBusy := false, slotHeld := false }

/-- The steady part of the blocks. -/
def Device.steady (d : Device) : Device :=
  { d with
    serial := 0, requests := [], cu := d.cu.steady, channels := d.channels.map Channel.steady,
    ports := d.ports.map Port.steady, rings := d.rings.map Ring.steady }

/-! ## Frames -/

/-- The registers, the engine state, the copy of the root table and the queue of waiting commands and events are unchanged. -/
def State.sameRegisters (s t : State) : Prop :=
  t.engine = s.engine ∧ t.cause = s.cause ∧ t.root = s.root ∧ t.intmask = s.intmask ∧ t.table = s.table ∧ t.pending = s.pending

/-- The state after an event: the registers as they were, and the blocks as a given device stands, up to the work at the end of the
event. -/
def State.becomes (s t : State) (d : Device) : Prop := s.sameRegisters t ∧ t.dev.steady = d.steady

/-- The fields of a port record that only the port's own events change: no notice, completion, close or credit reaches them. -/
def Port.own (x : Port) : Port :=
  { Port.reset x.lines with
    state := x.state, settings := x.settings, settled := x.settled, retryCount := x.retryCount,
    peerReleased := x.peerReleased, lastBreak := x.lastBreak, pendingDisable := x.pendingDisable,
    settleTimer := x.settleTimer, recoverTimer := x.recoverTimer, drainTimer := x.drainTimer, rx := x.rx,
    repeatPending := x.repeatPending, turnBytes := x.turnBytes,
    turn := x.turn.steady, tx := x.tx.steady, counters := { x.counters with turnsReleased := 0 } }

/-- What a port keeps of its own when nothing but the levels of its lines may change. -/
def Port.unlined (x : Port) : Port := { x with lines := PeerLines.low }

/-- The blocks without the levels the peers drive. -/
def Device.unlined (d : Device) : Device := { d with ports := d.ports.map Port.unlined }

/-- The writes of the register window and hardware reset, which act in every engine state (R172, R173, R179). -/
def isRegisterAccess : Instr → Bool
  | .hardwareReset => true
  | .start => true
  | .halt => true
  | .intmaskWrite _ => true
  | .registerWrite _ _ _ => true
  | _ => false

/-! ## Takes and notices -/

/-- A command is at the head of the list of fetched commands and may be taken (R158). -/
def State.canTake (s : State) (i : Instr) : Prop :=
  s.engine = .running ∧ s.dev.cu.slotHeld = true ∧ s.dev.cu.deferred.length < 16 ∧
    ∃ r rest, s.dev.cu.held = r :: rest ∧ r.command = i

/-- The blocks once the head command has left the list of fetched commands (R158). -/
def Device.afterTake (d : Device) : Device :=
  { d with cu := { d.cu with held := d.cu.held.tail, taken := (d.cu.taken + 1) % d.cu.size, slotHeld := false } }

/-- The blocks with one more notice posted on NQ, at the tail of its write queue and with the lost count, which returns to 0 (R147,
R149). -/
def Device.noticed (d : Device) (body : NoticeBody) : Device :=
  { d with
    rings :=
      d.rings.set 4
        { d.rings[4] with queue := d.rings[4].queue ++ [{ order := d.serial, body := .notice body d.lost }] }
    lost := 0
    serial := d.serial + 1 }

/-- The blocks after a command that is taken and completes at once with no other effect (R158, R159). -/
def Device.answered (d : Device) (subject : Byte) (tag : Half) (result : Result) (detail : Nat) : Device :=
  d.afterTake.noticed (.commandDone subject result tag detail)

/-- The blocks after a command that is taken and deferred with no other effect (R158, R160). -/
def Device.deferred (d : Device) (work : DeferredWork) (tag : Half) (subject : Byte) : Device :=
  { d.afterTake with
    cu := { d.afterTake.cu with deferred := d.cu.deferred ++ [{ work := work, tag := tag, subject := subject }] } }

/-- The unconsumed entries P − C of a ring, by the ring arithmetic of 00_scope.md. -/
def Ring.filled (x : Ring) : Nat := (x.producer + x.size - x.consumer) % x.size

/-- A ring can give one more reservation (R144). -/
def Ring.hasRoom (x : Ring) : Prop := x.isSet = true ∧ x.filled + x.reserved < x.size - 1

/-- The blocks with one more notice that takes its slot at its event (R150). -/
def Device.noticedNow (d : Device) (body : NoticeBody) : Device :=
  { d with rings := d.rings.set 4 { d.rings[4] with reserved := d.rings[4].reserved + 1 } }.noticed body

/-- The blocks with one more notice lost and counted (R150). -/
def Device.noticeLost (d : Device) : Device := { d with lost := min (d.lost + 1) 65535 }

/-- What an asynchronous notice leaves: posted if NQ has a slot for it, and lost and counted if not (R150). -/
def Device.told (d : Device) (body : NoticeBody) (e : Device) : Prop :=
  (d.rings[4].hasRoom → e = d.noticedNow body) ∧ (¬ d.rings[4].hasRoom → e = d.noticeLost)

/-! ## Closes -/

/-- The closes of one channel in the deferred list are none, and the list does not begin with a BARRIER: what the deferred list is for a
channel with no pending close (R160, R169). -/
def State.noClosePending (s : State) (c : ChannelId) : Prop :=
  (∀ e ∈ s.dev.cu.deferred, isClose c e.work = false) ∧ ∀ e, s.dev.cu.deferred.head? = some e → e.work ≠ .barrier

/-- The blocks with a context cleared as it reaches CLOSED: every field at its cleared value but the counters and the kind they were counted
under, and its half without it as owner (R16, R20; entry 14). -/
def Device.contextCleared (d : Device) (c : ChannelId) : Device :=
  (if (d.chan c).isOutbound then
      d.modOut (d.chan c).port (d.chan c).number fun h => if h.owner = some c then { h with owner := none } else h
    else d.modIn (d.chan c).port (d.chan c).number fun h => if h.owner = some c then { h with owner := none } else h).modChan c
    fun x => { Channel.cleared with kind := x.kind, counters := x.counters }

/-! ## Laws that hold at all times -/

/-- The law of R176 with the engine fault cause of section 10.2 and R178: in HALTED and FAULTED the part has no memory access, in
STARTING the root table read alone, and a fault cause stands exactly in FAULTED. -/
def EngineLaw (s : State) : Prop :=
  (s.engine = .halted ∨ s.engine = .faulted → s.dev.requests = []) ∧
    (s.engine = .starting → ∀ r ∈ s.dev.requests, r.access = .rootTable) ∧ (s.engine = .faulted ↔ s.cause ≠ .clear)

/-- The low six bits of ROOT read 0 (R172). -/
def RootLaw (s : State) : Prop := s.root.toNat % 64 = 0

/-- The law of R3: no two channels outside CLOSED share port, direction and link number. -/
def KeyLaw (d : Device) : Prop :=
  ∀ a b : ChannelId, (d.chan a).state ≠ .closed → (d.chan b).state ≠ .closed → (d.chan a).port = (d.chan b).port →
    (d.chan a).number = (d.chan b).number → (d.chan a).isOutbound = (d.chan b).isOutbound → a = b

/-- What a pair record says of its two contexts (R5, R127): the pair stands under its inbound index, each half names the other as its
partner, and both are outside CLOSED; and every relay half outside CLOSED belongs to the pair of its inbound index. -/
def PairLaw (d : Device) : Prop :=
  (∀ (i : ChannelId) (x : RelayPair), d.pair i = some x →
      x.inbound = i ∧ (d.chan i).kind = .relayIn ∧ (d.chan i).partner = x.outbound ∧ (d.chan i).state ≠ .closed ∧
        (d.chan x.outbound).kind = .relayOut ∧ (d.chan x.outbound).partner = i ∧ (d.chan x.outbound).state ≠ .closed) ∧
    (∀ c : ChannelId, (d.chan c).kind = .relayIn → (d.chan c).state ≠ .closed → ∃ x, d.pair c = some x) ∧
      ∀ c : ChannelId, (d.chan c).kind = .relayOut → (d.chan c).state ≠ .closed → ∃ x, d.pair (d.chan c).partner = some x ∧ x.outbound = c

/-! ## Tear-downs and breaks (R74, R75, R79 to R81) -/

/-- A Link Map with every count 0 and every mark no, and an empty pending control list (R23, R38). -/
structure Port.MapDown (x : Port) : Prop where
  control : x.control = []
  map : ∀ n : LinkNumber, (x.entry n).outbound.credits = 0 ∧ (x.entry n).outbound.openMark = false ∧
    (x.entry n).inbound.granted = 0 ∧ (x.entry n).inbound.inFlight = 0 ∧ (x.entry n).inbound.revokePending = false ∧
    (x.entry n).inbound.openMark = false ∧ (x.entry n).inbound.discard = false

/-- The record of a port whose link is down, but for its Link Map: no turn, no timer but RECOVER, no framing state, no pick and empty
staging (R74, R78). -/
structure Port.LinkQuiet (x : Port) : Prop where
  turn : x.turn = .off
  timers : x.acceptTimer = .stopped ∧ x.takeTimer = .stopped ∧ x.settleTimer = .stopped ∧ x.turnWaitTimer = .stopped ∧
    x.drainTimer = .stopped ∧ x.hold = .off
  framing : x.selection = none ∧ x.repeatPending = none ∧ x.build = none ∧ x.tx = .idle ∧ x.rx = .idle
  settled : x.settled = false
  pick : x.pick = none
  staging : x.inStaging = [] ∧ x.outStaging = OutStaging.empty

/-- The record of a port whose link is down: nothing under way, and the Link Map and the pending control list cleared (R74, R78). -/
structure Port.LinkDown (x : Port) : Prop where
  quiet : x.LinkQuiet
  map : x.MapDown

/-- Whether a FAULTED channel still waits for the revoke of its fault (R17, R18). -/
def Channel.faultWaits (x : Channel) : Bool := x.state == .faulted && x.revoke == .waiting

/-- What a port going down leaves elsewhere: its own settings, retry count and lines, the fields that the other ports alone change,
the registers, and the Command Unit but for its deferred list; and no FAULTED owner of an inbound half of the port waits for the revoke of
its fault any more (R38). -/
structure State.WentDown (s t : State) (p : PortId) : Prop where
  registers : s.sameRegisters t
  down : (t.dev.port p).LinkDown
  kept : (t.dev.port p).settings = (s.dev.port p).settings ∧ (t.dev.port p).retryCount = (s.dev.port p).retryCount ∧
    (t.dev.port p).pendingDisable = none
  others : ∀ q, q ≠ p → (t.dev.port q).own = (s.dev.port q).own
  commands : t.dev.cu.held = s.dev.cu.held ∧ t.dev.cu.taken = s.dev.cu.taken ∧ t.dev.cu.fetch = s.dev.cu.fetch ∧
    t.dev.cu.producer = s.dev.cu.producer ∧ t.dev.cu.base = s.dev.cu.base ∧ t.dev.cu.size = s.dev.cu.size
  faults : ∀ n c, (s.dev.inHalf p n).owner = some c → (t.dev.chan c).faultWaits = false

/-- The first notice a state posted on NQ after another: at the tail of what stood there, with the lost count. -/
def State.nextNotice (s t : State) (body : NoticeBody) : Prop :=
  ∃ order rest, (t.dev.ring 4).queue = (s.dev.ring 4).queue ++ { order := order, body := .notice body s.dev.lost } :: rest

/-- The break of an ACTIVE port with a cause (R74, R75): `lines` are the levels its peer drives at the break. -/
structure State.Broke (s t : State) (p : PortId) (lines : PeerLines) (why : BreakCause) : Prop where
  went : s.WentDown t p
  state : (t.dev.port p).state = .broken
  cause : (t.dev.port p).lastBreak = why
  breaks : (t.dev.port p).counters.breaks = satAdd (s.dev.port p).counters.breaks 1
  recover : (t.dev.port p).recoverTimer = .running ((s.dev.port p).settings.recover * 1000)
  released : (t.dev.port p).peerReleased = !lines.engi
  lines : (t.dev.port p).lines = lines
  notice : (s.dev.ring 4).room ≠ 0 → s.nextNotice t (.portEvent p (.broke why))

/-- A port record whose link is down, in its final state: its settings, retry count, marks of the last break, counters, lines and the
owners of its halves are kept (R74, R78). -/
def Port.dropped (x : Port) (final : PortState) : Port :=
  { Port.reset x.lines with
    state := final, settings := x.settings, turnBytes := x.turnBytes, retryCount := x.retryCount, peerReleased := x.peerReleased,
    lastBreak := x.lastBreak, map := x.map.map MapEntry.clear, classes := x.classes, counters := x.counters }

/-- Nothing is open on a port, and no channel waits for its link: no half of its Link Map has a mark set, no channel is DRAINING or
ABORTING, and no FAULTED owner of an inbound half of the port waits for the revoke of its fault. -/
def State.nothingOpen (s : State) (p : PortId) : Prop :=
  (∀ n : LinkNumber, ((s.dev.port p).entry n).marked = false) ∧
    (∀ c : ChannelId, (s.dev.chan c).state ≠ .draining ∧ (s.dev.chan c).state ≠ .aborting) ∧
      ∀ n : LinkNumber, ((s.dev.inHalf p n).owner.any fun c => (s.dev.chan c).faultWaits) = false

/-- The blocks with another deferred list. -/
def Device.withDeferred (d : Device) (l : List Deferred) : Device := { d with cu := { d.cu with deferred := l } }

/-- The first deferred command selected, in the deferred list, with what stands before and after it; no BARRIER comes to the head of the
list when it leaves. -/
def State.defers (s : State) (sel : DeferredWork → Bool) (e : Deferred) (before after : List Deferred) : Prop :=
  s.dev.cu.deferred = before ++ e :: after ∧ sel e.work = true ∧ (∀ x ∈ before, sel x.work = false) ∧
    ∀ b, (before ++ after).head? = some b → b.work ≠ .barrier

/-! ## Engagements (R64) -/

/-- A port record as its link engages: everything of the link cleared, and the owners of the halves kept. -/
def Port.engaged (x : Port) : Port :=
  { Port.reset x.lines with
    state := .active, settings := x.settings, retryCount := x.retryCount, peerReleased := x.peerReleased, lastBreak := x.lastBreak,
    map := x.map.map MapEntry.clear, classes := x.classes,
    counters := { x.counters with engagements := satAdd x.counters.engagements 1 } }

/-- The engagement of a port, from the blocks as they stand before it: PORT_EVENT(ACTIVE) is posted or lost, and a LEAD enters OURS with
its settle timer running, or breaks with COLLISION if OWNI is high; a FOLLOW with STB low enters THEIRS, and settles if OWNI is high. -/
def State.engages (s t : State) (d : Device) (p : PortId) : Prop :=
  let x := d.port p
  (x.settings.role = .lead → x.lines.owni = false →
      ∃ e, d.told (.portEvent p .active) e ∧
        s.becomes t
          ((e.emptyStaging p).modPort p fun y =>
            { y.engaged with turn := .ours, settleTimer := .running y.settings.acceptLimit })) ∧
    (x.settings.role = .lead → x.lines.owni = true →
      (t.dev.port p).state = .broken ∧ (t.dev.port p).lastBreak = .protocol .collision ∧
        (t.dev.port p).counters.engagements = satAdd x.counters.engagements 1) ∧
    (x.settings.role = .follow → x.lines.stb = false →
      ∃ e, d.told (.portEvent p .active) e ∧
        s.becomes t
          ((e.emptyStaging p).modPort p fun y =>
            { y.engaged with
              turn := .theirs, settled := x.lines.owni, retryCount := if x.lines.owni then 0 else y.retryCount }))

/-! ## Bytes on the link (R58, R59, R83) -/

/-- The counts of a byte that the peer accepts: it counts as sent, a SELECT or GRANT as a control byte too, and its return is awaited. -/
def Port.sent (x : Port) (o : Offer) (control : Bool) : Port :=
  { x with
    tx := .accepted o, turnBytes := x.turnBytes + 1,
    counters :=
      { x.counters with
        wireSent := satAdd x.counters.wireSent 1
        controlSent := if control then satAdd x.counters.controlSent 1 else x.counters.controlSent } }

/-- The counts of a byte that the part accepts: a SELECT or GRANT counts as a control byte too, and its return is awaited. -/
def Port.received (x : Port) (control : Bool) : Port :=
  { x with
    rx := .accepted,
    counters :=
      { x.counters with
        wireReceived := satAdd x.counters.wireReceived 1
        controlReceived := if control then satAdd x.counters.controlReceived 1 else x.counters.controlReceived } }

/-- A port record under other levels of the lines its peer drives. -/
def Port.under (x : Port) (lines : PeerLines) : Port := { x with lines := lines }

/-- The part sends a byte on a port: it is RUNNING, holds the turn, and offers the byte. -/
def State.offers (s : State) (p : PortId) (o : Offer) : Prop :=
  s.engine = .running ∧ (s.dev.port p).turn = .ours ∧ (s.dev.port p).tx = .offered o

/-- The peer may send a byte on a port: the part is RUNNING, the turn is the peer's, STB is low, and the last transfer has returned. -/
def State.listens (s : State) (p : PortId) : Prop :=
  s.engine = .running ∧ ((s.dev.port p).turn = .theirs ∨ (s.dev.port p).turn = .asked) ∧ (s.dev.port p).lines.stb = false ∧
    (s.dev.port p).rx = .idle

/-- One wire byte counted for the owner of a half, if it has one (R19). -/
def Device.oneWireByte (d : Device) (owner : Option ChannelId) : Device :=
  match owner with
  | some c => d.modChan c fun x => { x with counters := { x.counters with wireBytes := satAdd x.counters.wireBytes 1 } }
  | none => d

/-- The levels of a peer's lines with STB high on a byte. -/
def PeerLines.offering (l : PeerLines) (w : WireByte) : PeerLines := { l with stb := true, byte := w }

/-- The expanded bytes that the peer's next data byte brings, and their number: one on the selected number, or the run of the pending
REPEAT (R45, R46). -/
def State.bringsUnit (s : State) (p : PortId) (n : LinkNumber) (r : Nat) : Prop :=
  ((s.dev.port p).repeatPending = none ∧ (s.dev.port p).selection = some n ∧ r = 1) ∨
    ((s.dev.port p).repeatPending = some (r, n) ∧ 1 ≤ r ∧ r < 64)

/-- The event that accepts a byte of the peer with staging room for it: its offer, or the room found for a byte withheld (R59). -/
def State.brings (s : State) (i : Instr) (p : PortId) (w : WireByte) : Prop :=
  (i = .peerByteOffered p w ∧ s.listens p) ∨
    (i = .withheldAccept p ∧ s.engine = .running ∧ ((s.dev.port p).turn = .theirs ∨ (s.dev.port p).turn = .asked) ∧
      (s.dev.port p).rx = .withheld ∧ (s.dev.port p).lines.byte = w)

/-- What the acceptance of a data byte for a channel leaves: the byte counted on the port and for the channel, no REPEAT pending, and the
channel's inbound message state (R19, R46, R59, R83). -/
structure State.tookUnit (s t : State) (p : PortId) (c : ChannelId) (inm : InMessage) : Prop where
  registers : s.sameRegisters t
  message : (t.dev.chan c).inm = inm
  wireBytes : (t.dev.chan c).counters.wireBytes = satAdd (s.dev.chan c).counters.wireBytes 1
  accepted : (t.dev.port p).rx = .accepted
  wireReceived : (t.dev.port p).counters.wireReceived = satAdd (s.dev.port p).counters.wireReceived 1
  run : (t.dev.port p).repeatPending = none

/-- A command byte with the value of a kind that starts at `base`, as its ten lines carry it with good parity (R40, R182). -/
def commandByte (base value : Nat) : WireByte := wireByte true (BitVec.ofNat 8 (base + value))

end Sys2Proof.Machine
end

