-- ==== Sys2Proof/Certificates/Slice0/Obligations.lean ====
section
/-! DEFINITION. The statements for the provers: what the manual's rules say the part does. -/

open Sys2Proof Sys2Proof.Machine

/-! ## The step, reset and the register window -/

/-- A step takes the command at the front of the queue and runs exec on it with the queue's rest; on an empty queue the block idles
(entry 1). -/
def Obligations.StepTakesFrontCommand : Prop :=
  (∀ (i : Instr) (rest : List Instr) (s : State), s.pending = i :: rest → step s = exec i { s with pending := rest }) ∧
    ∀ s : State, s.pending = [] → step s = .next s

/-- HALT and hardware reset leave every block at its reset values in every engine state; HALT keeps ROOT and INTMASK, hardware reset
clears them, and both keep the levels the peers drive (R1, R21, R61, R85, R127, R142, R156, R171, R172, R179; entries 5 and 36). -/
def Obligations.HaltAndHardwareResetClearEveryBlock : Prop :=
  ∀ s : State, ∃ t u,
    exec .halt s = .next t ∧ exec .hardwareReset s = .next u ∧
      t.root = s.root ∧ t.intmask = s.intmask ∧ u.root = 0 ∧ u.intmask = 0 ∧
        ∀ v, v = t ∨ v = u →
          v.engine = .halted ∧ v.cause = .clear ∧ v.table = none ∧ v.pending = s.pending ∧ v.dev.requests = [] ∧
            v.dev.cu = CommandUnit.reset ∧ (∀ c, v.dev.chan c = Channel.cleared) ∧
              (∀ p, v.dev.port p = Port.reset (s.dev.port p).lines) ∧ (∀ r, v.dev.ring r = Ring.unset) ∧
                v.dev.relay = RelayUnit.reset ∧ v.dev.lost = 0 ∧ v.dev.buffers = [] ∧ irq v = false

/-- START in HALTED moves the engine to STARTING and places one 64-byte read of the root table at the address in ROOT, and changes
nothing else; in every other engine state it is ignored (R173). -/
def Obligations.StartPlacesRootTableRead : Prop :=
  ∀ s : State,
    (s.engine = .halted →
      exec .start s =
        .next
          { s with
            engine := .starting
            dev :=
              { s.dev with
                requests :=
                  s.dev.requests ++ [{ id := s.dev.serial, access := .rootTable, address := s.root, length := 64, data := [] }]
                serial := s.dev.serial + 1 } }) ∧
      (s.engine ≠ .halted → exec .start s = .next s)

/-- A register write acts by its offset: a width other than 32 bits and an offset that names no register that can be written are
ignored, CTRL acts as HALT or START, a half of ROOT is stored without the low six bits of the address, NOTIFY goes to the owner of its
target, and INTMASK is stored (R172, R173, R175, R182; entry 8). -/
def Obligations.RegisterWriteActsByOffset : Prop :=
  ∀ (o : BitVec 6) (w : Nat) (v : Word) (s : State),
    (w ≠ 4 ∨ (o ≠ 0x04 ∧ o ≠ 0x08 ∧ o ≠ 0x0C ∧ o ≠ 0x10 ∧ o ≠ 0x18) → exec (.registerWrite o w v) s = .next s) ∧
      exec (.registerWrite 0x04 4 v) s =
        (if v.getLsbD 1 then exec .halt s else if v.getLsbD 0 then exec .start s else .next s) ∧
      exec (.registerWrite 0x08 4 v) s =
        .next { s with root := s.root.extractLsb 63 32 ++ (v.extractLsb 31 6 ++ (0 : BitVec 6)) } ∧
      exec (.registerWrite 0x0C 4 v) s = .next { s with root := v ++ s.root.extractLsb 31 0 } ∧
      (∀ c : ChannelId, v.extractLsb 7 0 = BitVec.ofNat 8 c.val →
        exec (.registerWrite 0x10 4 v) s = exec (.notifyChannel c (v.extractLsb 19 8) (v.getLsbD 31)) s) ∧
      (v.extractLsb 7 0 = 64 →
        exec (.registerWrite 0x10 4 v) s = exec (.notifyCommandRing (v.extractLsb 19 8) (v.getLsbD 31)) s) ∧
      (∀ r : RingId, v.extractLsb 7 0 = BitVec.ofNat 8 (65 + r.val) →
        exec (.registerWrite 0x10 4 v) s = exec (.notifyRingConsumer r (v.extractLsb 19 8) (v.getLsbD 31)) s) ∧
      (70 ≤ (v.extractLsb 7 0).toNat →
        exec (.registerWrite 0x10 4 v) s =
          exec (.notifyBadTarget (v.extractLsb 7 0) (v.extractLsb 19 8) (v.getLsbD 31)) s) ∧
      exec (.registerWrite 0x18 4 v) s = exec (.intmaskWrite v) s

/-- What the registers read: IDENT the part code and revision, CTRL the engine state and fault cause, ROOT its halves, INTCAUSE the
rings in RAISED and the engine fault cause, INTMASK its enables, and 0 in every reserved bit, at every other offset and for every other
width (R172, R182). -/
def Obligations.RegisterReadsShowState : Prop :=
  ∀ (o : BitVec 6) (w : Nat) (s : State),
    (w ≠ 4 ∨ (o ≠ 0x00 ∧ o ≠ 0x04 ∧ o ≠ 0x08 ∧ o ≠ 0x0C ∧ o ≠ 0x14 ∧ o ≠ 0x18) → readRegister s o w = 0) ∧
      readRegister s 0x00 4 = 0x00010464 ∧
      readRegister s 0x04 4 = BitVec.ofNat 32 (s.engine.value + 256 * s.cause.value) ∧
      readRegister s 0x08 4 = s.root.extractLsb 31 0 ∧ readRegister s 0x0C 4 = s.root.extractLsb 63 32 ∧
      (∀ r : RingId, (readRegister s 0x14 4).getLsbD r.val = ((s.dev.ring r).interrupt == .raised)) ∧
      (readRegister s 0x14 4).getLsbD 5 = !(s.cause == .clear) ∧
      (∀ k, 6 ≤ k → (readRegister s 0x14 4).getLsbD k = false) ∧
      ∀ k, (readRegister s 0x18 4).getLsbD k = s.intmask.getLsbD k

/-- A write to INTMASK stores the six enables and changes nothing else, and IRQ is high exactly when a ring in RAISED or the engine
fault cause is unmasked by the enables just written (R155, R172). -/
def Obligations.IntmaskWriteMovesIrqAtOnce : Prop :=
  ∀ (v : Word) (s : State), ∃ t,
    exec (.intmaskWrite v) s = .next t ∧ t = { s with intmask := v.extractLsb 5 0 } ∧
      (irq t = true ↔
        (∃ r : RingId, (s.dev.ring r).interrupt = .raised ∧ v.getLsbD r.val = true) ∨ (s.cause ≠ .clear ∧ v.getLsbD 5 = true))

/-- The return of the root table read in STARTING: a bus error and a table that fails a check of R174 fault the engine, with every
request abandoned and all else kept; a good one sets NQ and the command ring and makes the engine RUNNING. The values of a table read are
kept as Engine Control's copy, those of a bad one too (R143, R156, R173, R174, R178; entry 23). -/
def Obligations.RootTableReturnStartsOrFaults : Prop :=
  ∀ (id : Nat) (r : Request) (s : State), s.engine = .starting → s.dev.request? id = some r → r.access = .rootTable →
    (∀ a, exec (.rootTableReadDone id (.busError a)) s =
      .next { s with engine := .faulted, cause := .rootRead, dev := { s.dev with requests := [] } }) ∧
    ∀ bytes, bytes.length = r.length →
      let q := parseRootTable bytes
      let good := q.commandBase.toNat % 32 = 0 ∧ (∃ k, 4 ≤ k ∧ k ≤ 10 ∧ q.commandSize = 2 ^ k) ∧ q.noticeBase.toNat % 16 = 0 ∧
        (∃ k, 4 ≤ k ∧ k ≤ 12 ∧ q.noticeSize = 2 ^ k) ∧ 1 ≤ q.threshold ∧ q.threshold ≤ 255
      (¬ good →
        exec (.rootTableReadDone id (.data bytes)) s =
          .next { s with engine := .faulted, cause := .rootBad, table := some q, dev := { s.dev with requests := [] } }) ∧
      (good →
        exec (.rootTableReadDone id (.data bytes)) s =
          .next
            { s with
              engine := .running
              table := some q
              dev :=
                { s.dev with
                  requests := s.dev.requests.filter (fun x => !(x.id == id))
                  rings :=
                    s.dev.rings.set 4
                      { isSet := true, base := q.noticeBase, size := q.noticeSize, producer := 0, consumer := 0, reserved := 0,
                        lap := true, threshold := q.threshold, time := q.time, interrupt := .armed, timer := .stopped,
                        waiting := [], queue := [], writing := none, gained := false }
                  lost := 0
                  cu :=
                    { base := q.commandBase, size := q.commandSize, producer := 0, fetch := 0, taken := 0, held := [],
                      fetchBusy := false, deferred := [], slotHeld := false } } })

/-- The return of a command ring read in RUNNING: a bus error faults the engine with COMMAND_READ, keeping all else but the requests;
the data joins the list of fetched commands and moves the fetch index (R157, R177, R178). -/
def Obligations.CommandFetchReturnAddsOrFaults : Prop :=
  ∀ (id : Nat) (r : Request) (s : State), s.engine = .running → s.dev.request? id = some r → r.access = .commandFetch →
    (∀ a, exec (.commandFetchDone id (.busError a)) s =
      .next { s with engine := .faulted, cause := .commandRead, dev := { s.dev with requests := [] } }) ∧
    ∀ bytes, bytes.length = r.length → ∃ t,
      exec (.commandFetchDone id (.data bytes)) s = .next t ∧
        s.becomes t
          { s.dev with
            cu :=
              { s.dev.cu with
                held := s.dev.cu.held ++ parseCommands bytes
                fetch := (s.dev.cu.fetch + (parseCommands bytes).length) % s.dev.cu.size } }

/-! ## NOTIFY -/

/-- A NOTIFY of a channel in RUNNING: for a CLOSED channel or a relay half, and for an index not below the ring size or nearer to the
retire index than the fetch index, HOST_ERROR(BAD_NOTIFY) is posted and nothing else changes; any other index becomes the host
producer index (R6, R150, R182; entry 37). -/
def Obligations.NotifyChannelMovesProducer : Prop :=
  ∀ (c : ChannelId) (index : BitVec 12) (arm : Bool) (s : State), s.engine = .running →
    let x := s.dev.chan c
    let ok := x.state ≠ .closed ∧ (x.kind = .out ∨ x.kind = .inn) ∧ index.toNat < x.size ∧
      (x.fetch + x.size - x.retire) % x.size ≤ (index.toNat + x.size - x.retire) % x.size
    ∃ t, exec (.notifyChannel c index arm) s = .next t ∧
      (ok → s.becomes t (s.dev.modChan c fun y => { y with producer := index.toNat })) ∧
      (¬ ok → ∃ e, s.dev.told (.hostError (BitVec.ofNat 8 c.val) .badNotify (index.setWidth 32)) e ∧ s.becomes t e)

/-- A NOTIFY of the command ring in RUNNING: an index below the ring size and no nearer to the taken index than the fetch index becomes
the host producer index; any other posts HOST_ERROR(BAD_NOTIFY) with subject 64. A NOTIFY of a target 70..255 posts HOST_ERROR(BAD_NOTIFY)
with the target as subject and the index as detail, and changes nothing else (R156, R150, R175, R182; entry 37). -/
def Obligations.NotifyCommandRingOrBadTarget : Prop :=
  ∀ (index : BitVec 12) (arm : Bool) (s : State), s.engine = .running →
    let x := s.dev.cu
    let ok := index.toNat < x.size ∧ (x.fetch + x.size - x.taken) % x.size ≤ (index.toNat + x.size - x.taken) % x.size
    (∃ t, exec (.notifyCommandRing index arm) s = .next t ∧
      (ok → s.becomes t { s.dev with cu := { x with producer := index.toNat } }) ∧
      (¬ ok → ∃ e, s.dev.told (.hostError 64 .badNotify (index.setWidth 32)) e ∧ s.becomes t e)) ∧
    ∀ target : Byte, 70 ≤ target.toNat → ∃ t e, exec (.notifyBadTarget target index arm) s = .next t ∧
      s.dev.told (.hostError target .badNotify (index.setWidth 32)) e ∧ s.becomes t e

/-- A NOTIFY of a completion ring or NQ in RUNNING: on a set ring, an index in the written range becomes C, and with ARM the ring is
weighed again; on an unset ring, and for any other index, HOST_ERROR(BAD_NOTIFY) is posted and the ring is left, ARM included (R151,
R154, R150). -/
def Obligations.NotifyRingMovesConsumer : Prop :=
  ∀ (r : RingId) (index : BitVec 12) (arm : Bool) (s : State), s.engine = .running →
    let x := s.dev.ring r
    let ok := x.isSet = true ∧ index.toNat < x.size ∧ (index.toNat + x.size - x.consumer) % x.size ≤ x.filled
    ∃ t, exec (.notifyRingConsumer r index arm) s = .next t ∧
      (ok → s.becomes t
        (s.dev.modRing r fun y =>
          if arm then { y with consumer := index.toNat }.rearm else { y with consumer := index.toNat })) ∧
      (¬ ok → ∃ e,
        s.dev.told (.hostError (BitVec.ofNat 8 (65 + r.val)) .badNotify (index.setWidth 32)) e ∧ s.becomes t e)

/-- While the engine is not RUNNING, no NOTIFY, no command take, no memory return (but the root table's in STARTING), no line event and
no timer expiry changes anything but the levels the peers drive (R175, R176, R178; entry 5). -/
def Obligations.NothingActsOutsideRunning : Prop :=
  ∀ (i : Instr) (s : State), s.engine ≠ .running → isRegisterAccess i = false →
    (s.engine = .starting → ∀ id reply, i ≠ .rootTableReadDone id reply) →
      ∃ t, exec i s = .next t ∧ s.sameRegisters t ∧ t.dev.unlined = s.dev.unlined

/-! ## The Completion Unit -/

/-- Every notice posted, an asynchronous one with room and a COMMAND_DONE alike, joins the tail of NQ's write queue with the lost count
and sets the lost count to 0 (R149). An asynchronous notice takes one slot if the test of R144 allows it on NQ; if not, the lost count
goes up by one, up to 65535, and nothing else changes. -/
def Obligations.PostedNoticeTakesLostCount : Prop :=
  ∀ (d : Device) (body : NoticeBody) (subject : Byte) (tag : Half) (result : Result) (detail : Nat),
    let posted := fun (e : Device) (b : NoticeBody) =>
      (e.ring 4).queue = (d.ring 4).queue ++ [{ order := d.serial, body := .notice b d.lost }] ∧ e.lost = 0
    posted (d.postNotice body) body ∧
      posted (d.commandDone subject tag result detail) (.commandDone subject result tag detail) ∧
      ((d.ring 4).hasRoom →
        posted (d.asyncNotice body) body ∧ ((d.asyncNotice body).ring 4).reserved = (d.ring 4).reserved + 1 ∧
          ((d.asyncNotice body).ring 4).waiting = (d.ring 4).waiting) ∧
      (¬ (d.ring 4).hasRoom → d.asyncNotice body = { d with lost := if d.lost < 65535 then d.lost + 1 else 65535 })

/-- The walk of a ring's waiting list at the end of an event (R144, R145; entry 10). On a ring that has not gained room at the event
nothing changes but that the gain is forgotten, nor on one that has no room for the record or the Command Unit at the head of its list. On
one that has gained room and has it, a record or the Command Unit at the head is given one slot and leaves the list; the record then moves
from WAITING to READY. An inbound half at the head for which the generator acts is given what it asks, up to the room, in credits queued,
and leaves the list only if that is all. Whatever the walk gives, the ring's unconsumed entries and reservations stay within size − 1, no
slot is taken back, and no entry is added. -/
def Obligations.WaitingListServedFromHead : Prop :=
  ∀ (d : Device) (r : RingId),
    let x := d.ring r
    let e := d.walkRing r
    let walks := x.gained = true ∧ x.hasRoom
    let still := e = d.modRing r fun y => { y with gained := false }
    (x.gained = false → still) ∧
      (∀ q rest, ¬ x.hasRoom → x.waiting = q :: rest → (∀ p n, q ≠ .inHalf p n) → still) ∧
      (e.ring r).gained = false ∧
      (x.isSet = true → x.filled + x.reserved ≤ x.size - 1 →
        (e.ring r).filled + (e.ring r).reserved ≤ x.size - 1 ∧ x.reserved ≤ (e.ring r).reserved ∧
          (e.ring r).waiting.Sublist x.waiting) ∧
      (∀ c rest, walks → x.waiting = .outRecord c :: rest →
        .outRecord c ∉ (e.ring r).waiting ∧ x.reserved < (e.ring r).reserved ∧ (e.chan c).out.reserved = true ∧
          (e.chan c).out.phase = if (d.chan c).out.phase = .waiting then .ready else (d.chan c).out.phase) ∧
      (∀ rest, walks → x.waiting = .commandUnit :: rest →
        .commandUnit ∉ (e.ring r).waiting ∧ x.reserved < (e.ring r).reserved ∧ e.cu.slotHeld = true) ∧
      ∀ p n c rest, x.gained = true → x.isSet = true → x.waiting = .inHalf p n :: rest → d.generatorOwner p n = some c →
        (d.chan c).kind = .inn → cqRing (d.chan c).ring = r →
        let asked := d.available p n c
        let free := x.size - 1 - (x.filled + x.reserved)
        (e.inHalf p n).inFlight = (d.inHalf p n).inFlight + min asked free ∧ x.reserved + min asked free ≤ (e.ring r).reserved ∧
          (.inHalf p n ∈ (e.ring r).waiting ↔ free < asked)

/-- A NOTIFY with ARM whose index is accepted re-arms the ring with the new C (R154): it is RAISED at once, with the timer stopped, when
P − C has reached the threshold or the coalescing time is 0 and P − C is 1 or more; else it is ARMED, with the timer started if it is
stopped and running on if it runs while P − C is 1 or more, and as it was when P − C is 0. Nothing else of the ring changes. -/
def Obligations.RearmWeighsRing : Prop :=
  (∀ (r : RingId) (index : BitVec 12) (s : State), s.engine = .running → (s.dev.ring r).isSet = true →
    index.toNat < (s.dev.ring r).size →
    (index.toNat + (s.dev.ring r).size - (s.dev.ring r).consumer) % (s.dev.ring r).size ≤ (s.dev.ring r).filled →
    ∃ t, exec (.notifyRingConsumer r index true) s = .next t ∧
      s.becomes t (s.dev.modRing r fun y => { y with consumer := index.toNat }.rearm)) ∧
    ∀ x : Ring,
      (x.threshold ≤ x.filled ∨ (x.time = 0 ∧ 1 ≤ x.filled) → x.rearm = { x with interrupt := .raised, timer := .stopped }) ∧
        (¬ (x.threshold ≤ x.filled ∨ (x.time = 0 ∧ 1 ≤ x.filled)) →
          x.rearm =
            { x with
              interrupt := .armed
              timer := if 1 ≤ x.filled ∧ x.timer = .stopped then .running x.time else x.timer })

/-- A record write accepted weighs its ring with the new P (R152): in ARMED it is RAISED, with the timer stopped, when P − C has reached
the threshold or the coalescing time is 0, and else the timer starts if it is stopped; in RAISED the state and the timer stay. -/
def Obligations.WriteWeighsRing : Prop :=
  (∀ (id : Nat) (q : Request) (r : RingId) (order : Nat) (s : State), s.engine = .running → s.dev.request? id = some q →
    q.access = .recordWrite r order →
    let y := Ring.weighWrite { s.dev.ring r with producer := ((s.dev.ring r).producer + 1) % (s.dev.ring r).size }
    ∃ t, exec (.recordWriteDone id .accepted) s = .next t ∧ (t.dev.ring r).interrupt = y.interrupt ∧
      (t.dev.ring r).timer = y.timer) ∧
    ∀ x : Ring,
      (x.interrupt = .raised → x.weighWrite = x) ∧
        (x.interrupt = .armed → (x.threshold ≤ x.filled ∨ x.time = 0) →
          x.weighWrite = { x with interrupt := .raised, timer := .stopped }) ∧
        (x.interrupt = .armed → ¬ (x.threshold ≤ x.filled ∨ x.time = 0) →
          x.weighWrite = { x with timer := if x.timer = .stopped then .running x.time else x.timer })

/-- The expiry of a running coalescing timer stops it, and raises a ring in ARMED that has unconsumed entries; nothing else changes, and
an expiry of a stopped timer changes nothing (R153; entry 2). -/
def Obligations.CoalescingExpiryRaisesRing : Prop :=
  ∀ (r : RingId) (s : State), s.engine = .running →
    ∃ t, exec (.coalescingTimerExpiry r) s = .next t ∧
      ((s.dev.ring r).timer ≠ .stopped →
        s.becomes t
          (s.dev.modRing r fun x =>
            { x with
              timer := .stopped
              interrupt := if x.interrupt = .armed ∧ 1 ≤ x.filled then .raised else x.interrupt })) ∧
      ((s.dev.ring r).timer = .stopped → s.becomes t s.dev)

/-! ## The Command Unit's own commands -/

/-- NOP completes at once with OK and detail 0 and changes nothing else: it takes one position of the command ring, uses the slot held
on NQ, and its notice carries the lost count; without a slot held it is not taken (R170, R158, R149). -/
def Obligations.NopCompletesAtOnce : Prop :=
  ∀ (tag : Half) (subject : Byte) (s : State),
    (s.canTake (.nop tag subject) →
      ∃ t, exec (.nop tag subject) s = .next t ∧ s.becomes t (s.dev.answered subject tag .ok 0)) ∧
      (s.dev.cu.slotHeld = false → exec (.nop tag subject) s = .next s)

/-- A BARRIER taken with no command deferred completes at once with OK; with some deferred it joins the tail of the deferred list. An
opcode the part does not know completes at once with BAD_PARAM and changes nothing else (R159, R169, R180). -/
def Obligations.BarrierWaitsAndUnknownIsRefused : Prop :=
  (∀ (tag : Half) (subject : Byte) (s : State), s.canTake (.barrier tag subject) →
    ∃ t, exec (.barrier tag subject) s = .next t ∧
      (s.dev.cu.deferred = [] → s.becomes t (s.dev.answered subject tag .ok 0)) ∧
      (s.dev.cu.deferred ≠ [] → s.becomes t (s.dev.deferred .barrier tag subject))) ∧
    ∀ (opcode : Byte) (tag : Half) (subject : Byte) (s : State), s.canTake (.unknownOpcode opcode tag subject) →
      ∃ t, exec (.unknownOpcode opcode tag subject) s = .next t ∧ s.becomes t (s.dev.answered subject tag .badParam 0)

/-- SET_RING is decided in order: a ring number outside 0..3 gives BAD_INDEX; a base, size or threshold out of range gives BAD_PARAM; a
channel outside CLOSED that completes on the ring, or a reservation on it, gives BAD_STATE; else the ring is set, empty, ARMED and with
lap mark 1, and the command completes at once with OK (R143, R163). -/
def Obligations.SetRingDecidedInOrder : Prop :=
  ∀ (tag : Half) (ring : Byte) (base : Address) (size : Half) (threshold : Byte) (time : Half) (s : State),
    s.canTake (.setRing tag ring base size threshold time) →
    ∃ t, exec (.setRing tag ring base size threshold time) s = .next t ∧
      (4 ≤ ring.toNat → s.becomes t (s.dev.answered ring tag .badIndex 0)) ∧
      ∀ k : Fin 4, ring.toNat = k.val →
        let good := base.toNat % 16 = 0 ∧ (∃ e, 4 ≤ e ∧ e ≤ 12 ∧ size.toNat = 2 ^ e) ∧ 1 ≤ threshold.toNat
        let busy := (∃ c : ChannelId, (s.dev.chan c).state ≠ .closed ∧
            ((s.dev.chan c).kind = .out ∨ (s.dev.chan c).kind = .inn) ∧ (s.dev.chan c).ring = k) ∨
          0 < (s.dev.ring k.castSucc).reserved
        (¬ good → s.becomes t (s.dev.answered ring tag .badParam 0)) ∧
        (good → busy → s.becomes t (s.dev.answered ring tag .badState 0)) ∧
        (good → ¬ busy →
          s.becomes t
            ((s.dev.modRing k.castSucc fun _ =>
              { isSet := true, base := base, size := size.toNat, producer := 0, consumer := 0, reserved := 0, lap := true,
                threshold := threshold.toNat, time := time.toNat, interrupt := .armed, timer := .stopped, waiting := [],
                queue := [], writing := none, gained := false }).answered ring tag .ok 0))

/-! ## Opening -/

/-- An OPEN is refused by the first check that fails: BAD_INDEX for its channel; BAD_PARAM for a parameter its kind uses out of range;
BAD_STATE for a channel outside CLOSED or an unset completion ring; KEY_IN_USE for a key held; BUSY for an IN channel whose half is
discarding to END. A refused OPEN changes nothing but the command ring and NQ (R2, R4, R159). -/
def Obligations.OpenRefusedByFirstCheck : Prop :=
  ∀ (tag : Half) (channel kind : Byte) (base : Address) (size : Half) (port number ring cls options : Byte) (s : State),
    s.canTake (.openChannel tag channel kind base size port number ring cls options) →
    ∃ t, exec (.openChannel tag channel kind base size port number ring cls options) s = .next t ∧
      (64 ≤ channel.toNat → s.becomes t (s.dev.answered channel tag .badIndex 0)) ∧
      ∀ c : ChannelId, channel.toNat = c.val →
        let good := kind.toNat < 2 ∧ port.toNat < 4 ∧ number.toNat < 64 ∧ ring.toNat < 4 ∧ base.toNat % 16 = 0 ∧
          (∃ e, 4 ≤ e ∧ e ≤ 12 ∧ size.toNat = 2 ^ e) ∧ (kind.toNat = 0 → cls.toNat < 4) ∧
          (kind.toNat = 1 → options.extractLsb 3 2 ≠ 3)
        (¬ good → s.becomes t (s.dev.answered channel tag .badParam 0)) ∧
        ∀ (p : PortId) (n : LinkNumber) (r : Fin 4), good → port.toNat = p.val → number.toNat = n.val → ring.toNat = r.val →
          let closed := (s.dev.chan c).state = .closed ∧ (s.dev.ring r.castSucc).isSet = true
          let held := ∃ e : ChannelId, (s.dev.chan e).state ≠ .closed ∧ (s.dev.chan e).port = p ∧ (s.dev.chan e).number = n ∧
            (s.dev.chan e).isOutbound = (kind == 0)
          let discarding := kind = 1 ∧ (s.dev.inHalf p n).discard = true
          (¬ closed → s.becomes t (s.dev.answered channel tag .badState 0)) ∧
          (closed → held → s.becomes t (s.dev.answered channel tag .keyInUse 0)) ∧
          (closed → ¬ held → discarding → s.becomes t (s.dev.answered channel tag .busy 0))

/-- An OPEN that passes its checks makes the channel OPEN under a fresh opening with the options its kind uses, every other field at its
cleared value and its counters at 0, and the owner of its half; an OUT channel joins its class list; the command completes at once with
OK (R1, R2, R3, R4, R20, R91; entry 4 for the identity of an opening). -/
def Obligations.OpenWritesContext : Prop :=
  ∀ (tag : Half) (channel kind : Byte) (base : Address) (size : Half) (port number ring cls options : Byte) (s : State)
    (c : ChannelId) (p : PortId) (n : LinkNumber) (r k : Fin 4),
    s.canTake (.openChannel tag channel kind base size port number ring cls options) →
    channel.toNat = c.val → port.toNat = p.val → number.toNat = n.val → ring.toNat = r.val → base.toNat % 16 = 0 →
    (∃ e, 4 ≤ e ∧ e ≤ 12 ∧ size.toNat = 2 ^ e) → (s.dev.chan c).state = .closed → (s.dev.ring r.castSucc).isSet = true →
    (∀ e : ChannelId, (s.dev.chan e).state ≠ .closed → (s.dev.chan e).port = p → (s.dev.chan e).number = n →
      (s.dev.chan e).isOutbound ≠ (kind == 0)) →
    ∃ t, exec (.openChannel tag channel kind base size port number ring cls options) s = .next t ∧
      (kind = 0 → cls.toNat = k.val →
        s.becomes t
          ({ (s.dev.modChan c fun _ =>
                { Channel.cleared with
                  state := .opened, kind := .out, port := p, number := n, ring := r, cls := k,
                  compress := options.getLsbD 0, breakPolicy := if options.getLsbD 1 then .restart else .fail,
                  base := base, size := size.toNat, opening := s.dev.serial }).modOut p n fun h => { h with owner := some c } with
              serial := s.dev.serial + 1 }.answered channel tag .ok 0) ∧
          c ∈ (t.dev.port p).classes.get k) ∧
      ∀ policy : OverflowPolicy, kind = 1 → (s.dev.inHalf p n).discard = false →
        options.extractLsb 3 2 = (match policy with | .drop => 0 | .truncate => 1 | .chain => 2) →
        s.becomes t
          ({ (s.dev.modChan c fun _ =>
                { Channel.cleared with
                  state := .opened, kind := .inn, port := p, number := n, ring := r, overflow := policy, base := base,
                  size := size.toNat, opening := s.dev.serial }).modIn p n fun h => { h with owner := some c } with
              serial := s.dev.serial + 1 }.answered channel tag .ok 0)

/-- An OPEN_RELAY is refused by the first check that fails: BAD_INDEX, BAD_PARAM (equal indices among them), BAD_STATE, KEY_IN_USE,
BUSY, NO_RESOURCE. A refused one changes nothing but the command ring and NQ (R5, R128). -/
def Obligations.OpenRelayRefusedByFirstCheck : Prop :=
  ∀ (tag : Half) (inbound outbound inPort inNumber outPort outNumber cls cells options : Byte) (s : State),
    s.canTake (.openRelay tag inbound outbound inPort inNumber outPort outNumber cls cells options) →
    ∃ t, exec (.openRelay tag inbound outbound inPort inNumber outPort outNumber cls cells options) s = .next t ∧
      (64 ≤ inbound.toNat ∨ 64 ≤ outbound.toNat → s.becomes t (s.dev.answered inbound tag .badIndex 0)) ∧
      ∀ i o : ChannelId, inbound.toNat = i.val → outbound.toNat = o.val →
        let good := i ≠ o ∧ inPort.toNat < 4 ∧ inNumber.toNat < 64 ∧ outPort.toNat < 4 ∧ outNumber.toNat < 64 ∧ cls.toNat < 4 ∧
          1 ≤ cells.toNat ∧ cells.toNat ≤ 8 ∧ (options.extractLsb 3 2).toNat < 2
        (¬ good → s.becomes t (s.dev.answered inbound tag .badParam 0)) ∧
        ∀ (p q : PortId) (n m : LinkNumber), good → inPort.toNat = p.val → inNumber.toNat = n.val → outPort.toNat = q.val →
          outNumber.toNat = m.val →
          let closed := (s.dev.chan i).state = .closed ∧ (s.dev.chan o).state = .closed
          let held := ∃ e : ChannelId, (s.dev.chan e).state ≠ .closed ∧
            ((s.dev.chan e).port = p ∧ (s.dev.chan e).number = n ∧ (s.dev.chan e).isOutbound = false ∨
              (s.dev.chan e).port = q ∧ (s.dev.chan e).number = m ∧ (s.dev.chan e).isOutbound = true)
          let discarding := (s.dev.inHalf p n).discard = true
          (¬ closed → s.becomes t (s.dev.answered inbound tag .badState 0)) ∧
          (closed → held → s.becomes t (s.dev.answered inbound tag .keyInUse 0)) ∧
          (closed → ¬ held → discarding → s.becomes t (s.dev.answered inbound tag .busy 0)) ∧
          (closed → ¬ held → ¬ discarding → s.dev.relay.free.length < cells.toNat →
            s.becomes t (s.dev.answered inbound tag .noResource 0))

/-- An OPEN_RELAY that passes its checks opens both halves together under fresh openings, each the other's partner and the owner of its
half, takes the cells from the head of the free list into the pair's spare list, clears the relay counters of the inbound index, puts
the outbound half in its class list, and completes at once with OK (R5, R22, R91, R127, R128, R141; entry 4 for the identity of an
opening). -/
def Obligations.OpenRelayWritesPair : Prop :=
  ∀ (tag : Half) (inbound outbound inPort inNumber outPort outNumber cls cells options : Byte) (s : State) (i o : ChannelId)
    (p q : PortId) (n m : LinkNumber) (k : Fin 4) (policy : OverflowPolicy),
    s.canTake (.openRelay tag inbound outbound inPort inNumber outPort outNumber cls cells options) →
    inbound.toNat = i.val → outbound.toNat = o.val → i ≠ o → inPort.toNat = p.val → inNumber.toNat = n.val →
    outPort.toNat = q.val → outNumber.toNat = m.val → cls.toNat = k.val → 1 ≤ cells.toNat → cells.toNat ≤ 8 →
    (policy = .drop ∧ options.extractLsb 3 2 = 0 ∨ policy = .truncate ∧ options.extractLsb 3 2 = 1) →
    (s.dev.chan i).state = .closed → (s.dev.chan o).state = .closed →
    (∀ e : ChannelId, (s.dev.chan e).state ≠ .closed →
      ¬ ((s.dev.chan e).port = p ∧ (s.dev.chan e).number = n ∧ (s.dev.chan e).isOutbound = false) ∧
        ¬ ((s.dev.chan e).port = q ∧ (s.dev.chan e).number = m ∧ (s.dev.chan e).isOutbound = true)) →
    (s.dev.inHalf p n).discard = false → cells.toNat ≤ s.dev.relay.free.length →
    ∃ t, exec (.openRelay tag inbound outbound inPort inNumber outPort outNumber cls cells options) s = .next t ∧
      s.becomes t
        ({ ((((s.dev.modRelay fun u =>
                { u with
                  free := u.free.drop cells.toNat
                  pairs :=
                    u.pairs.set i
                      (some
                        { inbound := i, outbound := o, reserved := cells.toNat, spare := u.free.take cells.toNat, filling := none,
                          queue := [], cut := false })
                  counters := u.counters.set i RelayCounters.zero }).modChan i fun _ =>
              { Channel.cleared with
                state := .opened, kind := .relayIn, port := p, number := n, overflow := policy, partner := o,
                cells := cells.toNat, opening := s.dev.serial }).modIn p n fun h => { h with owner := some i }).modChan o fun _ =>
              { Channel.cleared with
                state := .opened, kind := .relayOut, port := q, number := m, cls := k, compress := options.getLsbD 0,
                breakPolicy := if options.getLsbD 1 then .restart else .fail, partner := i, cells := cells.toNat,
                opening := s.dev.serial + 1 }).modOut q m fun h => { h with owner := some o } with
            serial := s.dev.serial + 2 }.answered inbound tag .ok 0) ∧
        o ∈ (t.dev.port q).classes.get k

/-! ## Closing -/

/-- A CLOSE is refused at once, with detail 0 and no other effect: BAD_INDEX for its channel, BAD_PARAM for a mode that is neither mode,
and by the table of R9 for the channel's state (R9). -/
def Obligations.CloseRefusedByTable : Prop :=
  ∀ (tag : Half) (channel mode : Byte) (s : State),
    (s.canTake (.closeGraceful tag channel mode) →
      ∃ t, exec (.closeGraceful tag channel mode) s = .next t ∧
        (64 ≤ channel.toNat → s.becomes t (s.dev.answered channel tag .badIndex 0)) ∧
        ∀ c : ChannelId, channel.toNat = c.val →
          (mode ≠ 0 → s.becomes t (s.dev.answered channel tag .badParam 0)) ∧
          (mode = 0 →
            ((s.dev.chan c).state = .closed ∨ (s.dev.chan c).state = .faulted →
                s.becomes t (s.dev.answered channel tag .badState 0)) ∧
              ((s.dev.chan c).state = .draining ∨ (s.dev.chan c).state = .aborting →
                s.becomes t (s.dev.answered channel tag .busy 0)))) ∧
      (s.canTake (.closeAbort tag channel) →
        ∃ t, exec (.closeAbort tag channel) s = .next t ∧
          (64 ≤ channel.toNat → s.becomes t (s.dev.answered channel tag .badIndex 0)) ∧
          ∀ c : ChannelId, channel.toNat = c.val →
            ((s.dev.chan c).state = .closed → s.becomes t (s.dev.answered channel tag .badState 0)) ∧
              ((s.dev.chan c).state = .aborting → s.becomes t (s.dev.answered channel tag .busy 0)))

/-- A graceful CLOSE of an OPEN OUT channel with a message open, or with a restarted record and its link up, makes it DRAINING and is
deferred; with neither, the channel reaches CLOSED at once and the command completes OK with the retire index (R9, R10, R16; entry 14 for
the fields cleared at CLOSED). -/
def Obligations.GracefulCloseOfOutChannel : Prop :=
  ∀ (tag : Half) (channel : Byte) (c : ChannelId) (s : State), s.canTake (.closeGraceful tag channel 0) →
    channel.toNat = c.val → (s.dev.chan c).state = .opened → (s.dev.chan c).kind = .out →
    let started := (s.dev.chan c).out.phase = .started
    let restarted := (s.dev.chan c).out.phase = .ready ∧ (s.dev.chan c).out.restarted = true
    ∃ t, exec (.closeGraceful tag channel 0) s = .next t ∧
      (started ∨ (restarted ∧ (s.dev.port (s.dev.chan c).port).up = true) →
        s.becomes t
          ((s.dev.modChan c fun x => { x with state := .draining, pendingClose := some (.graceful, tag) }).deferred
            (.close .graceful c) tag channel)) ∧
      (¬ started → ¬ restarted → s.noClosePending c →
        s.becomes t ((s.dev.answered channel tag .ok (s.dev.chan c).retire).contextCleared c))

/-- A graceful CLOSE of an OPEN IN channel whose port is engaged makes it DRAINING, queues a revoke unless one is pending, and is
deferred; with the port not engaged and nothing open, the channel reaches CLOSED at once and the command completes OK with the retire
index (R9, R11, R15, R16, R34; entry 14 for the fields cleared at CLOSED). -/
def Obligations.GracefulCloseOfInChannel : Prop :=
  ∀ (tag : Half) (channel : Byte) (c : ChannelId) (s : State), s.canTake (.closeGraceful tag channel 0) →
    channel.toNat = c.val → (s.dev.chan c).state = .opened → (s.dev.chan c).kind = .inn →
    let p := (s.dev.chan c).port
    let n := (s.dev.chan c).number
    ∃ t, exec (.closeGraceful tag channel 0) s = .next t ∧
      ((s.dev.port p).up = true →
        s.becomes t
          ((((s.dev.modChan c fun x =>
              { x with state := .draining, pendingClose := some (.graceful, tag), revoke := .waiting }).modIn p n
              fun h => { h with revokePending := true }).modPort p fun x =>
              { x with
                control := if (s.dev.inHalf p n).revokePending then x.control else x.control ++ [.revoke n] }).deferred
            (.close .graceful c) tag channel)) ∧
      ((s.dev.port p).up = false → (s.dev.inHalf p n).openMark = false → s.noClosePending c →
        s.becomes t ((s.dev.answered channel tag .ok (s.dev.chan c).retire).contextCleared c))

/-- A CLOSE ABORT of an OUT channel with its message open on the link makes it ABORTING, queues one abandon, and is deferred; from
DRAINING the graceful CLOSE, here the first of the deferred list, completes SUPERSEDED with detail 0 before it. With no message open and
no restarted record the channel reaches CLOSED at once, and the command completes OK with the retire index (R9, R12, R14, R16, R18,
R36; entry 14 for the fields cleared at CLOSED). -/
def Obligations.AbortCloseOfOutChannel : Prop :=
  ∀ (tag : Half) (channel : Byte) (c : ChannelId) (s : State), s.canTake (.closeAbort tag channel) →
    channel.toNat = c.val → (s.dev.chan c).kind = .out →
    let p := (s.dev.chan c).port
    let n := (s.dev.chan c).number
    let aborting := (s.dev.modChan c fun x => { x with state := .aborting, pendingClose := some (.abort, tag) }).modPort p fun x =>
      { x with control := if x.control.contains (.abandon n) then x.control else x.control ++ [.abandon n] }
    let open_ := (s.dev.outHalf p n).openMark = true ∧ (s.dev.chan c).out.phase = .started
    ∃ t, exec (.closeAbort tag channel) s = .next t ∧
      ((s.dev.chan c).state = .opened ∨ (s.dev.chan c).state = .faulted → open_ →
        s.becomes t (aborting.deferred (.close .abort c) tag channel)) ∧
      (∀ e rest, (s.dev.chan c).state = .draining → open_ → s.dev.cu.deferred = e :: rest → e.work = .close .graceful c →
        (∀ b, rest.head? = some b → b.work ≠ .barrier) →
        s.becomes t
          (let d := { aborting.afterTake with cu := { aborting.afterTake.cu with deferred := rest } }.noticed
              (.commandDone e.subject .superseded e.tag 0)
           { d with cu := { d.cu with deferred := rest ++ [{ work := .close .abort c, tag := tag, subject := channel }] } })) ∧
      ((s.dev.chan c).state = .opened ∨ (s.dev.chan c).state = .faulted → (s.dev.outHalf p n).openMark = false →
        ¬ ((s.dev.chan c).out.phase = .ready ∧ (s.dev.chan c).out.restarted = true) → s.noClosePending c →
        s.becomes t ((s.dev.answered channel tag .ok (s.dev.chan c).retire).contextCleared c))

/-- A CLOSE ABORT of an OPEN IN channel whose port is engaged makes it ABORTING, queues a revoke unless one is pending, and is deferred.
With a message open, its buffer completes ABORTED at once with the bytes of the writes issued and the total so far, the record is
retired, and the half is marked discard-to-END (R9, R13, R34, R123). -/
def Obligations.AbortCloseOfInChannel : Prop :=
  ∀ (tag : Half) (channel : Byte) (c : ChannelId) (s : State), s.canTake (.closeAbort tag channel) →
    channel.toNat = c.val → (s.dev.chan c).state = .opened → (s.dev.chan c).kind = .inn →
    let p := (s.dev.chan c).port
    let n := (s.dev.chan c).number
    (s.dev.port p).up = true →
    ∃ t, exec (.closeAbort tag channel) s = .next t ∧
      ((s.dev.inHalf p n).openMark = false →
        s.becomes t
          ((((s.dev.modChan c fun x =>
              { x with state := .aborting, pendingClose := some (.abort, tag), revoke := .waiting }).modIn p n
              fun h => { h with revokePending := true }).modPort p fun x =>
              { x with
                control := if (s.dev.inHalf p n).revokePending then x.control else x.control ++ [.revoke n] }).deferred
            (.close .abort c) tag channel)) ∧
      (∀ h rest, (s.dev.inHalf p n).openMark = true → (s.dev.chan c).held = h :: rest →
        s.sameRegisters t ∧ (t.dev.chan c).state = .aborting ∧ (t.dev.chan c).inm = InMessage.cleared ∧
          (t.dev.chan c).held = rest ∧ (t.dev.chan c).retire = ((s.dev.chan c).retire + 1) % (s.dev.chan c).size ∧
          (t.dev.inHalf p n).openMark = false ∧ (t.dev.inHalf p n).discard = true ∧
          (t.dev.inHalf p n).revokePending = true ∧ (t.dev.chan c).revoke = .waiting ∧
          (t.dev.port p).steady.control =
            (s.dev.port p).steady.control ++ (if (s.dev.inHalf p n).revokePending then [] else [.revoke n]) ∧
          t.dev.cu.deferred = s.dev.cu.deferred ++ [{ work := .close .abort c, tag := tag, subject := channel }] ∧
          (t.dev.chan c).pendingClose = some (.abort, tag) ∧
          (t.dev.ring (s.dev.chan c).ring.castSucc).queue = (s.dev.ring (s.dev.chan c).ring.castSucc).queue ++
            [{ order := s.dev.serial
               body :=
                .completion
                  { channel := c, status := .aborted, tag := h.tag, length := s.dev.issuedBytes c,
                    total := min (s.dev.chan c).inm.total 65535, continued := false, restarted := false,
                    buffer := (s.dev.chan c).inm.buffer } }] ∧
          (t.dev.ring 4).queue = (s.dev.ring 4).queue ∧ t.dev.relay = s.dev.relay ∧
          (∀ e, e ≠ c → (t.dev.chan e).steady = (s.dev.chan e).steady) ∧
          (∀ q, (t.dev.port q).own = (s.dev.port q).own))

/-- A CLOSE of either half of an OPEN relay pair with both ports engaged and nothing filling, queued or sending moves both halves, to
DRAINING or ABORTING by its mode, queues a revoke for the inbound number unless one is pending, and is deferred under the pair's inbound
index (R9, R137, R139). -/
def Obligations.CloseMovesBothHalvesOfPair : Prop :=
  ∀ (tag : Half) (channel : Byte) (c i : ChannelId) (x : RelayPair) (s : State), channel.toNat = c.val →
    s.dev.pair i = some x → x.inbound = i → x.queue = [] → x.filling = none → (c = i ∨ c = x.outbound) → i ≠ x.outbound →
    (s.dev.chan i).kind = .relayIn → (s.dev.chan x.outbound).kind = .relayOut → (s.dev.chan x.outbound).partner = i →
    (s.dev.chan i).state = .opened → (s.dev.chan x.outbound).state = .opened →
    (s.dev.chan x.outbound).out = OutMessage.cleared →
    let p := (s.dev.chan i).port
    let n := (s.dev.chan i).number
    let q := (s.dev.chan x.outbound).port
    let m := (s.dev.chan x.outbound).number
    (s.dev.port p).up = true → (s.dev.port q).up = true → (s.dev.inHalf p n).openMark = false →
    (s.dev.outHalf q m).openMark = false →
    let moved := fun (state : ChannelState) (mode : CloseMode) =>
      (((((s.dev.modChan i fun y =>
          { y with state := state, pendingClose := some (mode, tag), revoke := .waiting }).modChan x.outbound
          fun y => { y with state := state, pendingClose := some (mode, tag) }).modIn p n
          fun h => { h with revokePending := true }).modPort p fun y =>
          { y with
            control := if (s.dev.inHalf p n).revokePending then y.control else y.control ++ [.revoke n] }).deferred
        (.close mode i) tag channel)
    (s.canTake (.closeGraceful tag channel 0) →
      ∃ t, exec (.closeGraceful tag channel 0) s = .next t ∧ s.becomes t (moved .draining .graceful)) ∧
      (s.canTake (.closeAbort tag channel) →
        ∃ t, exec (.closeAbort tag channel) s = .next t ∧ s.becomes t (moved .aborting .abort))

/-! ## Ports: settings, enabling and disabling -/

/-- PORT_SETUP is decided in order: a port number outside 0..3 gives BAD_INDEX; a value outside its range gives BAD_PARAM; a port in
QUIESCING gives BUSY; one in ENGAGING, ACTIVE or BROKEN gives BAD_STATE; one in DISABLED or FAILED takes all nine values, keeps its state
and its retry count, and the command completes at once with OK. A refused one changes no setting (R62). -/
def Obligations.PortSetupDecidedInOrder : Prop :=
  ∀ (tag : Half) (port role : Byte) (slice budget hold accept turnWait : Half) (recover retries : Byte) (drain : Half) (s : State),
    s.canTake (.portSetup tag port role slice budget hold accept turnWait recover retries drain) →
    ∃ t, exec (.portSetup tag port role slice budget hold accept turnWait recover retries drain) s = .next t ∧
      (4 ≤ port.toNat → s.becomes t (s.dev.answered port tag .badIndex 0)) ∧
      ∀ p : PortId, port.toNat = p.val →
        let good := role.toNat ≤ 1 ∧ (16 ≤ slice.toNat ∧ slice.toNat ≤ 1024) ∧ (64 ≤ budget.toNat ∧ budget.toNat ≤ 8192) ∧
          1 ≤ accept.toNat ∧ 1 ≤ turnWait.toNat ∧ 1 ≤ recover.toNat ∧ retries.toNat ≤ 15 ∧ 1 ≤ drain.toNat
        let state := (s.dev.port p).state
        (¬ good → s.becomes t (s.dev.answered port tag .badParam 0)) ∧
        (good → state = .quiescing → s.becomes t (s.dev.answered port tag .busy 0)) ∧
        (good → state = .engaging ∨ state = .active ∨ state = .broken → s.becomes t (s.dev.answered port tag .badState 0)) ∧
        (good → state = .disabled ∨ state = .failed →
          s.becomes t
            ((s.dev.modPort p fun x =>
              { x with
                settings :=
                  { role := if role = 0 then .lead else .follow, slice := slice.toNat, turnBudget := budget.toNat,
                    holdLimit := hold.toNat, acceptLimit := accept.toNat, turnWait := turnWait.toNat, recover := recover.toNat,
                    drainLimit := drain.toNat, retries := retries.toNat } }).answered port tag .ok 0))

/-- PORT_ENABLE: a port number outside 0..3 gives BAD_INDEX, QUIESCING gives BUSY, and ENGAGING, ACTIVE and BROKEN give BAD_STATE. A port
in DISABLED or FAILED becomes ENGAGING with a retry count of 0, and the command completes at once with OK; with ENGI high the port then
engages at once (R63, R64; entry 7). -/
def Obligations.PortEnableStartsEngaging : Prop :=
  ∀ (tag : Half) (port : Byte) (s : State), s.canTake (.portEnable tag port) →
    ∃ t, exec (.portEnable tag port) s = .next t ∧
      (4 ≤ port.toNat → s.becomes t (s.dev.answered port tag .badIndex 0)) ∧
      ∀ p : PortId, port.toNat = p.val →
        let state := (s.dev.port p).state
        let d := (s.dev.modPort p fun x =>
          { x with state := .engaging, settled := false, retryCount := 0, peerReleased := false }).answered port tag .ok 0
        (state = .quiescing → s.becomes t (s.dev.answered port tag .busy 0)) ∧
        (state = .engaging ∨ state = .active ∨ state = .broken → s.becomes t (s.dev.answered port tag .badState 0)) ∧
        (state = .disabled ∨ state = .failed →
          ((s.dev.port p).lines.engi = false → s.becomes t d) ∧ ((s.dev.port p).lines.engi = true → s.engages t d p))

/-- PORT_DISABLE checks its port number, then its mode, before the port state. On a port that is not engaged, either mode leaves it
DISABLED with RECOVER stopped and completes at once with OK and detail 0; on a QUIESCING port a graceful one gives BUSY (R77, R81). -/
def Obligations.PortDisableOfDownPort : Prop :=
  ∀ (tag : Half) (port mode : Byte) (s : State),
    (s.canTake (.portDisableGraceful tag port mode) →
      ∃ t, exec (.portDisableGraceful tag port mode) s = .next t ∧
        (4 ≤ port.toNat → s.becomes t (s.dev.answered port tag .badIndex 0)) ∧
        ∀ p : PortId, port.toNat = p.val →
          (mode ≠ 0 → s.becomes t (s.dev.answered port tag .badParam 0)) ∧
          (mode = 0 → (s.dev.port p).state = .quiescing → s.becomes t (s.dev.answered port tag .busy 0)) ∧
          (mode = 0 → (s.dev.port p).up = false →
            s.becomes t
              ((s.dev.modPort p fun x => { x with state := .disabled, recoverTimer := .stopped }).answered port tag .ok 0))) ∧
      (s.canTake (.portDisableAbrupt tag port) →
        ∃ t, exec (.portDisableAbrupt tag port) s = .next t ∧
          (4 ≤ port.toNat → s.becomes t (s.dev.answered port tag .badIndex 0)) ∧
          ∀ p : PortId, port.toNat = p.val → (s.dev.port p).up = false →
            s.becomes t
              ((s.dev.modPort p fun x => { x with state := .disabled, recoverTimer := .stopped }).answered port tag .ok 0))

/-- A graceful PORT_DISABLE of an ACTIVE port with an owned inbound half, a mark set or a byte under way makes it QUIESCING: DRAIN_LIMIT
starts, the tag is kept, a revoke is requested for every owned inbound half, and the command is deferred. With none of these, nothing
pending and no channel closing, the port is DISABLED at once and the command completes with OK and detail 0 (R39, R60, R77, R78). What that
last clause says of inbound staging is the model's choice, entry 15: the staged bytes of messages that have ended are dropped, a buffer of
one is waited for only as far as its issued writes go, and those of a queued relay message go to their cells. -/
def Obligations.GracefulDisableQuiescesPort : Prop :=
  ∀ (tag : Half) (port : Byte) (p : PortId) (s : State), s.canTake (.portDisableGraceful tag port 0) → port.toNat = p.val →
    (s.dev.port p).state = .active →
    ∃ t, exec (.portDisableGraceful tag port 0) s = .next t ∧
      ((s.dev.port p).linesQuiet = false ∨
          (∃ n, (s.dev.inHalf p n).owner.isSome = true ∨ ((s.dev.port p).entry n).marked = true) →
        s.sameRegisters t ∧ (t.dev.port p).state = .quiescing ∧
          (t.dev.port p).drainTimer = .running ((s.dev.port p).settings.drainLimit * 1000) ∧
          (t.dev.port p).pendingDisable = some tag ∧
          t.dev.cu.deferred = s.dev.cu.deferred ++ [{ work := .portDisable p, tag := tag, subject := port }] ∧
          (∀ n, (t.dev.inHalf p n).revokePending = ((s.dev.inHalf p n).revokePending || (s.dev.inHalf p n).owner.isSome)) ∧
          (∀ n, (s.dev.inHalf p n).owner.isSome = true → (s.dev.inHalf p n).revokePending = false →
            .revoke n ∈ (t.dev.port p).control) ∧
          (t.dev.ring 4).queue = (s.dev.ring 4).queue ∧ (∀ c, (t.dev.chan c).steady = (s.dev.chan c).steady) ∧
          ∀ q, q ≠ p → (t.dev.port q).steady = (s.dev.port q).steady) ∧
      ((s.dev.port p).linesQuiet = true → (s.dev.port p).control = [] → s.nothingOpen p →
        (∀ n, (s.dev.inHalf p n).owner = none ∧ (s.dev.inHalf p n).revokePending = false) →
        (∀ x ∈ s.dev.cu.deferred, isDisable p x.work = false) → (∀ x, s.dev.cu.deferred.head? = some x → x.work ≠ .barrier) →
        s.becomes t (((s.dev.emptyStaging p).modPort p fun x => x.dropped .disabled).answered port tag .ok 0))

/-- An abrupt PORT_DISABLE of an ACTIVE port takes the link down at once: the port is DISABLED, its break counter and last break cause
stay, and COMMAND_DONE with OK and detail 0 is the last notice. From QUIESCING the graceful PORT_DISABLE completes SUPERSEDED with detail
0 before anything else. With nothing open and no channel or fault waiting for the link, nothing else changes but inbound staging: that the
staged bytes of messages that have ended are dropped, a buffer of one waited for only as far as its issued writes go, and those of a queued
relay message placed in their cells, is the model's choice (R60, R81, R79, R162; entries 13 and 15). -/
def Obligations.AbruptDisableTakesPortDown : Prop :=
  ∀ (tag : Half) (port : Byte) (p : PortId) (s : State), s.canTake (.portDisableAbrupt tag port) → port.toNat = p.val →
    (s.dev.port p).up = true →
    ∃ t, exec (.portDisableAbrupt tag port) s = .next t ∧ State.WentDown { s with dev := s.dev.afterTake } t p ∧
      (t.dev.port p).state = .disabled ∧ (t.dev.port p).lastBreak = (s.dev.port p).lastBreak ∧
      (t.dev.port p).counters.breaks = (s.dev.port p).counters.breaks ∧ (t.dev.port p).recoverTimer = .stopped ∧
      (∃ l order lost, (t.dev.ring 4).queue =
        (s.dev.ring 4).queue ++ l ++ [{ order := order, body := .notice (.commandDone port .ok tag 0) lost }]) ∧
      ((s.dev.port p).state = .active → s.nothingOpen p →
        s.becomes t (((s.dev.emptyStaging p).modPort p fun x => x.dropped .disabled).answered port tag .ok 0)) ∧
      ((s.dev.port p).state = .quiescing → ∀ e before after, s.defers (isDisable p) e before after →
        s.nextNotice t (.commandDone e.subject .superseded e.tag 0) ∧
          (s.nothingOpen p →
            s.becomes t
              (((((s.dev.withDeferred (before ++ after)).noticed (.commandDone e.subject .superseded e.tag 0)).emptyStaging p).modPort p
                fun x => x.dropped .disabled).answered port tag .ok 0)))

/-! ## Statistics -/

/-- READ_STATS is refused by the first check that fails: a kind that is none of the three gives BAD_PARAM, an index out of range gives
BAD_INDEX, and a destination that is not a multiple of 16 gives BAD_PARAM. One that passes takes the snapshot as the subject stands,
places it as one 64-byte write to the destination, with CLEAR sets the subject's own counters to 0, and is deferred (R164, R165, R167,
R168; entry 18 for the flag's place). -/
def Obligations.ReadStatsTakesSnapshot : Prop :=
  ∀ (tag : Half) (subject mode kind : Byte) (destination : Address) (s : State),
    s.canTake (.readStats tag subject mode kind destination) →
    ∃ t, exec (.readStats tag subject mode kind destination) s = .next t ∧
      (3 ≤ kind.toNat → s.becomes t (s.dev.answered subject tag .badParam 0)) ∧
      (kind.toNat < 3 → (if kind = 1 then 4 ≤ subject.toNat else 64 ≤ subject.toNat) →
        s.becomes t (s.dev.answered subject tag .badIndex 0)) ∧
      (kind.toNat < 3 → (if kind = 1 then subject.toNat < 4 else subject.toNat < 64) →
        (destination.toNat % 16 ≠ 0 → s.becomes t (s.dev.answered subject tag .badParam 0)) ∧
        (destination.toNat % 16 = 0 →
          let placed := fun (bytes : List Byte) =>
            ({ id := s.dev.serial, access := .statsWrite, address := destination, length := 64, data := bytes } : Request) ∈
              t.dev.requests
          let taken := fun (d : Device) =>
            s.becomes t ((if mode.getLsbD 0 then d else s.dev).deferred (.readStats s.dev.serial) tag subject)
          (∀ c : ChannelId, kind = 0 → subject.toNat = c.val →
            placed ((s.dev.chan c).statsBytes c) ∧
              taken (s.dev.modChan c fun x => { x with counters := ChannelCounters.zero })) ∧
          (∀ p : PortId, kind = 1 → subject.toNat = p.val →
            placed ((s.dev.port p).statsBytes p) ∧ taken (s.dev.modPort p fun x => { x with counters := PortCounters.zero })) ∧
          ∀ c : ChannelId, kind = 2 → subject.toNat = c.val →
            placed
                (relayStatsBytes c (s.dev.relay.counters.get c).words (s.dev.pair c) ((s.dev.pair c).any s.dev.sending)
                  s.dev.relay.free.length) ∧
              taken (s.dev.modRelay fun u => { u with counters := u.counters.set c RelayCounters.zero })))

/-- The return of a statistics write completes its READ_STATS: OK if accepted; after a bus error, BAD_PARAM, with HOST_ERROR(STATS_WRITE)
and the low 32 bits of the failing address posted or lost before it. A BARRIER that comes to the head of the deferred list completes
after it with OK (R160, R161, R168, R169, R177). -/
def Obligations.StatsWriteReturnCompletes : Prop :=
  ∀ (id : Nat) (r : Request) (e : Deferred) (s : State), s.engine = .running → s.dev.request? id = some r → r.access = .statsWrite →
    (∀ before after, s.defers (isStats id) e before after →
      (∃ t, exec (.statsWriteDone id .accepted) s = .next t ∧
        s.becomes t ((s.dev.withDeferred (before ++ after)).noticed (.commandDone e.subject .ok e.tag 0))) ∧
      ∀ a, ∃ t d, exec (.statsWriteDone id (.busError a)) s = .next t ∧
        s.dev.told (.hostError e.subject .statsWrite (a.extractLsb 31 0)) d ∧
        s.becomes t ((d.withDeferred (before ++ after)).noticed (.commandDone e.subject .badParam e.tag 0))) ∧
      ∀ b after, s.dev.cu.deferred = e :: b :: after → e.work = .readStats id → b.work = .barrier →
        (∀ x, after.head? = some x → x.work ≠ .barrier) →
        ∃ t, exec (.statsWriteDone id .accepted) s = .next t ∧
          s.becomes t
            (((s.dev.withDeferred after).noticed (.commandDone e.subject .ok e.tag 0)).noticed (.commandDone b.subject .ok b.tag 0))

/-! ## Host memory returns -/

/-- The return of a record fetch. On a channel still OPEN under the opening that placed it, the records join its list and the fetch index
moves past them; an idle OUT channel makes its head record current, and for an IN channel whose port is ACTIVE, with no revoke pending
and no GRANT of its number being offered, the grant generator reserves a slot for each buffer that no credit stands behind, as far as its
completion ring has room, and queues those credits in its one GRANT entry; what it still wants waits for room. A bus error faults the
channel with RING_READ and posts CHANNEL_EVENT and HOST_ERROR: the record of a STARTED message completes FAULT with its offset, its
message is abandoned on the link, and an IN channel asks for a revoke. A supply record of capacity 0 faults an IN channel in the same way
but without HOST_ERROR. On a channel that has left OPEN, or has been opened again, the result is discarded, error included (R7, R17, R28,
R29, R30, R89, R101, R109, R177; entry 11 for DRAINING). -/
def Obligations.RecordFetchReturnJoinsOrFaults : Prop :=
  ∀ (id : Nat) (r : Request) (c : ChannelId) (opening : Nat) (s : State), s.engine = .running → s.dev.request? id = some r →
    r.access = .recordFetch c opening →
    let x := s.dev.chan c
    let p := x.port
    let n := x.number
    let h := s.dev.inHalf p n
    let live := x.opening = opening ∧ x.state = .opened
    let faulted := fun (revoke : RevokeState) =>
      s.dev.modChan c fun y => { y with state := .faulted, cause := .ringRead, revoke := revoke }
    let revoked := ((faulted .waiting).modIn p n fun y => { y with revokePending := true }).modPort p fun y =>
      { y with control := if h.revokePending then y.control else y.control ++ [.revoke n] }
    (∀ bytes, bytes.length = r.length → ∃ t, exec (.recordFetchDone id (.data bytes)) s = .next t ∧
      (x.opening ≠ opening ∨ x.state ≠ .opened → s.becomes t s.dev) ∧
      (live → x.kind = .out →
        let l := x.held ++ parseHostRecords true bytes
        s.becomes t
          (s.dev.modChan c fun y =>
            { y with
              held := l, fetch := (y.fetch + (parseHostRecords true bytes).length) % y.size,
              out := { y.out with phase := if y.out.phase = .idle ∧ l ≠ [] then .ready else y.out.phase } })) ∧
      (live → x.kind = .inn → (∀ q ∈ parseHostRecords false bytes, q.size ≠ 0) →
        s.becomes t
            (s.dev.modChan c fun y =>
              { y with
                held := y.held ++ parseHostRecords false bytes,
                fetch := (y.fetch + (parseHostRecords false bytes).length) % y.size }) ∧
          ((s.dev.port p).state = .active → h.owner = some c → h.revokePending = false → (s.dev.port p).grantOffered n = false →
            (∀ k, (s.dev.ring k).gained = false) →
            let ring := s.dev.ring x.ring.castSucc
            let want := x.held.length + (parseHostRecords false bytes).length -
              (h.granted + h.inFlight + if h.openMark then 1 else 0)
            let k := min want (if ring.isSet then ring.size - 1 - (ring.filled + ring.reserved) else 0)
            (t.dev.ring x.ring.castSucc).reserved = ring.reserved + k ∧ (t.dev.inHalf p n).inFlight = h.inFlight + k ∧
              (k < want → .inHalf p n ∈ (t.dev.ring x.ring.castSucc).waiting) ∧
              (1 ≤ k → (∀ v, .grant n v ∉ (s.dev.port p).control) →
                (t.dev.port p).control = (s.dev.port p).control ++ [.grant n k]) ∧
              ∀ before v after, (s.dev.port p).control = before ++ .grant n v :: after →
                (∀ u, .grant n u ∉ before) → (∀ u, .grant n u ∉ after) →
                (t.dev.port p).control = before ++ .grant n (v + k) :: after)) ∧
      (live → x.kind = .inn → (∃ q ∈ parseHostRecords false bytes, q.size = 0) → (s.dev.port p).up = true → h.openMark = false →
        ∃ d, revoked.told (.channelFaulted c .ringRead) d ∧ s.becomes t d)) ∧
    ∀ a, ∃ t, exec (.recordFetchDone id (.busError a)) s = .next t ∧
      let told := fun (d : Device) => ∃ e f, d.told (.channelFaulted c .ringRead) e ∧
        e.told (.hostError (BitVec.ofNat 8 c.val) .ringRead (a.extractLsb 31 0)) f ∧ s.becomes t f
      (x.opening ≠ opening ∨ x.state ≠ .opened → s.becomes t s.dev) ∧
      (live → x.kind = .out → x.out.phase ≠ .started →
        told ((faulted x.revoke).modChan c fun y =>
          { y with out := { y.out with phase := if y.out.phase = .waiting then .idle else y.out.phase } })) ∧
      (∀ q rest, live → x.kind = .out → x.out.phase = .started → (s.dev.outHalf p n).openMark = true → x.held = q :: rest →
        told
          ((((faulted x.revoke).postCompletion
              { channel := c, status := .fault, tag := q.tag, length := x.out.offset, total := 0, continued := false,
                restarted := x.out.restarted, buffer := none }).modChan c fun y =>
              { y with held := rest, retire := (y.retire + 1) % y.size, out := OutMessage.cleared }).modPort p fun y =>
            { y with control := if y.control.contains (.abandon n) then y.control else y.control ++ [.abandon n] })) ∧
      (live → x.kind = .inn → (s.dev.port p).up = true → h.openMark = false → told revoked)

/-- The return of a payload read: its bytes stand in outbound staging if staging still expects them, and are dropped if not. A bus error
faults an OPEN or DRAINING channel under the same opening with PAYLOAD_READ, expected or not; a channel that has closed or been opened
again, and a read of a message whose loss has been reported since, are not faulted (R7, R17, R99, R101, R106; entry 17). -/
def Obligations.PayloadReadReturnStagesOrFaults : Prop :=
  ∀ (id : Nat) (r : Request) (s : State), s.engine = .running → s.dev.request? id = some r →
    let d := { s.dev with requests := s.dev.requests.filter fun x => !(x.id == id) }
    (∀ p c opening bytes, r.access = .payloadRead p c opening → bytes.length = r.length →
      (∀ q, (s.dev.port p).outStaging.reads.find? (fun x => x.id == id) = some q →
        exec (.payloadReadDone id (.data bytes)) s =
          .next
            { s with
              dev :=
                (d.modPort p fun x =>
                  { x with
                    outStaging :=
                      { x.outStaging with
                        reads := x.outStaging.reads.filter fun y => !(y.id == id)
                        segments := x.outStaging.segments ++ [{ offset := q.offset, bytes := bytes }] } }).settle }) ∧
      ((s.dev.port p).outStaging.reads.find? (fun x => x.id == id) = none →
        exec (.payloadReadDone id (.data bytes)) s = .next { s with dev := d.settle })) ∧
    (∀ reply, r.access = .discarded → (∀ bytes, reply = .data bytes → bytes.length = r.length) →
      exec (.payloadReadDone id reply) s = .next { s with dev := d.settle }) ∧
    ∀ p c opening a, r.access = .payloadRead p c opening → ∃ t, exec (.payloadReadDone id (.busError a)) s = .next t ∧
      ((s.dev.chan c).opening = opening → (s.dev.chan c).state = .opened ∨ (s.dev.chan c).state = .draining →
        (t.dev.chan c).state = .faulted ∧ (t.dev.chan c).cause = .payloadRead) ∧
      ((s.dev.chan c).opening ≠ opening ∨ (s.dev.chan c).state = .closed ∨ (s.dev.chan c).state = .faulted → s.becomes t s.dev)

/-- The return of a buffer write is counted for its buffer, accepted bytes only without an error, and makes room for the next write of
the port. A bus error marks the buffer failed in every channel state. It faults an OPEN or DRAINING channel under the same opening with
BUFFER_WRITE; of an ABORTING one it posts CHANNEL_EVENT and HOST_ERROR, the first of them for the buffer, and records the cause if none
stands; any other channel is left as it is (R13, R17, R113, R122, R177; entries 19 and 28). -/
def Obligations.BufferWriteReturnCounts : Prop :=
  ∀ (id : Nat) (r : Request) (p : PortId) (b : Nat) (s : State), s.engine = .running → s.dev.request? id = some r →
    r.access = .bufferWrite p b →
    exec (.bufferWriteDone id .accepted) s =
        .next
          { s with
            dev :=
              ({ s.dev with
                  requests := s.dev.requests.filter fun x => !(x.id == id)
                  buffers :=
                    s.dev.buffers.map fun (z : Buffer) =>
                      if z.id = b then
                        { z with outstanding := z.outstanding - 1, acceptedBytes := z.acceptedBytes + r.length }
                      else z }.issueInbound p).settle } ∧
      ∀ a, ∃ t, exec (.bufferWriteDone id (.busError a)) s = .next t ∧
        ∀ z, s.dev.buffers.find? (fun y => y.id == b) = some z →
          let x := s.dev.chan z.channel
          let failed : Device :=
            { s.dev with
              requests := s.dev.requests.filter fun y => !(y.id == id)
              buffers :=
                s.dev.buffers.map fun (y : Buffer) =>
                  if y.id = b then { y with outstanding := y.outstanding - 1, failed := true } else y }
          (∃ y, t.dev.buffers.find? (fun y => y.id == b) = some y ∧ y.failed = true ∧ y.acceptedBytes = z.acceptedBytes ∧
            y.address = z.address ∧ y.channel = z.channel ∧
            ((∀ g ∈ (s.dev.port p).inStaging, g.dest ≠ .buffer b) →
              y.outstanding = z.outstanding - 1 ∧ y.issued = z.issued)) ∧
          (x.opening = z.opening → x.state = .opened ∨ x.state = .draining →
            (t.dev.chan z.channel).state = .faulted ∧ (t.dev.chan z.channel).cause = .bufferWrite) ∧
          (x.opening = z.opening → x.state = .aborting → z.failed = false →
            ∃ d e, (failed.modChan z.channel fun y =>
                { y with cause := if y.cause = .clear then .bufferWrite else y.cause }).told
                (.channelFaulted z.channel .bufferWrite) d ∧
              d.told (.hostError (BitVec.ofNat 8 z.channel.val) .bufferWrite (a.extractLsb 31 0)) e ∧
              s.becomes t (e.issueInbound p)) ∧
          (x.opening ≠ z.opening ∨ x.state = .closed ∨ x.state = .faulted ∨ (x.state = .aborting ∧ z.failed = true) →
            s.becomes t (failed.issueInbound p))

/-- A move into a cell completes: its bytes stand in the cell, over what stands there, and no other cell changes. A copy from a cell
completes: its bytes stand in the outbound staging that expects it; one that no staging expects is discarded (R131, R134). -/
def Obligations.CellTransfersComplete : Prop :=
  ∀ (id : Nat) (s : State), s.engine = .running →
    (∀ m, s.dev.relay.moves.find? (fun x => x.id == id) = some m → ∃ t, exec (.cellMoveDone id) s = .next t ∧
      s.sameRegisters t ∧ t.dev.relay.cells.get m.cell = { offset := m.offset, bytes := m.bytes } :: s.dev.relay.cells.get m.cell ∧
        (∀ k, k ≠ m.cell → t.dev.relay.cells.get k = s.dev.relay.cells.get k) ∧ t.dev.relay.free = s.dev.relay.free ∧
        t.dev.relay.pairs = s.dev.relay.pairs ∧ t.dev.cu.steady = s.dev.cu.steady ∧
        (∀ c, (t.dev.chan c).steady = (s.dev.chan c).steady) ∧ ∀ q, (t.dev.port q).own = (s.dev.port q).own) ∧
    (s.dev.relay.moves.find? (fun x => x.id == id) = none → exec (.cellMoveDone id) s = .next s) ∧
    (∀ p k, (s.dev.port p).outStaging.copies.find? (fun x => x.id == id) = some k →
      (∀ q, q < p → (s.dev.port q).outStaging.copies.find? (fun x => x.id == id) = none) →
      exec (.cellCopyDone id) s =
        .next
          { s with
            dev :=
              (s.dev.modPort p fun x =>
                { x with
                  outStaging :=
                    { x.outStaging with
                      copies := x.outStaging.copies.filter fun y => !(y.id == id)
                      segments := x.outStaging.segments ++ [{ offset := k.offset, bytes := k.bytes }] } }).settle }) ∧
    ((∀ p, (s.dev.port p).outStaging.copies.find? (fun x => x.id == id) = none) → exec (.cellCopyDone id) s = .next s)

/-- A record write accepted advances its ring: the record leaves the write queue, P moves on by one, the lap mark changes as P wraps to 0,
and the interrupt state is weighed. A bus error faults the engine with COMPLETION_WRITE, or NOTICE_WRITE on NQ, and leaves the record in
its queue (R148, R152, R177, R178; entry 27). -/
def Obligations.RecordWriteReturnAdvancesRing : Prop :=
  ∀ (id : Nat) (q : Request) (r : RingId) (order : Nat) (s : State), s.engine = .running → s.dev.request? id = some q →
    q.access = .recordWrite r order →
    (∃ t, exec (.recordWriteDone id .accepted) s = .next t ∧ s.sameRegisters t ∧
      (t.dev.ring r).steady =
        (Ring.weighWrite
          { s.dev.ring r with
            producer := ((s.dev.ring r).producer + 1) % (s.dev.ring r).size
            lap := if ((s.dev.ring r).producer + 1) % (s.dev.ring r).size = 0 then !(s.dev.ring r).lap else (s.dev.ring r).lap
            queue := (s.dev.ring r).queue.filter fun x => !(x.order == order) }).steady ∧
      (∀ k, k ≠ r → (t.dev.ring k).steady = (s.dev.ring k).steady) ∧ t.dev.cu.steady = s.dev.cu.steady ∧
      (∀ c, (t.dev.chan c).steady = (s.dev.chan c).steady) ∧ (∀ p, (t.dev.port p).steady = (s.dev.port p).steady) ∧
      t.dev.relay = s.dev.relay ∧ t.dev.lost = s.dev.lost) ∧
    ∀ a, exec (.recordWriteDone id (.busError a)) s =
      .next
        { s with
          engine := .faulted, cause := if r = 4 then .noticeWrite else .completionWrite, dev := { s.dev with requests := [] } }

/-! ## Bytes the part sends -/

/-- A SELECT, REPEAT or data byte of the part counts as sent when it is accepted: in the turn, in the port's counters, a SELECT as a
control byte, and a REPEAT or data byte as a wire byte of the half's owner; a data byte moves the offset of a started message past the
bytes of its unit (R19, R58, R68, R83, R89). -/
def Obligations.AcceptedByteCountsAsSent : Prop :=
  ∀ (p : PortId) (o : Offer) (s : State), s.offers p o →
    ∃ t, exec (.byteAccepted p) s = .next t ∧
      (∀ n, o = .entrySelect n → s.becomes t (s.dev.modPort p fun x => x.sent o true)) ∧
      (∀ c n, o = .msgSelect c n → s.becomes t (s.dev.modPort p fun x => x.sent o true)) ∧
      (∀ c n r, o = .msgRepeat c n r →
        s.becomes t ((s.dev.modPort p fun x => x.sent o false).oneWireByte (s.dev.outHalf p n).owner)) ∧
      ∀ c n b k, o = .msgData c n b k →
        s.becomes t
          (((s.dev.modPort p fun x => x.sent o false).oneWireByte (s.dev.outHalf p n).owner).modChan c fun x =>
            { x with out := { x.out with offset := if x.out.phase = .started then x.out.offset + k else x.out.offset } })

/-- The command byte of a pending control entry takes effect when it is accepted, and the entry leaves the list. A GRANT's value joins the
credits granted. A REVOKE zeroes them and clears its mark, and a closing IN channel with no message open then reaches CLOSED. An END
ABANDON ends the open message and clears its mark: the record of an ABORTING OUT channel completes CANCELLED, or FAULT after a payload
read error, and the channel reaches CLOSED (R12, R16, R27, R31, R35, R36, R101; entries 14 and 19). -/
def Obligations.AcceptedControlEntryActs : Prop :=
  ∀ (p : PortId) (entry : ControlEntry) (s : State), s.offers p (.entryByte entry) →
    ∃ t, exec (.byteAccepted p) s = .next t ∧
      let sent := fun (control : Bool) =>
        s.dev.modPort p fun x => { x.sent (.entryByte entry) control with control := x.control.tail }
      (∀ n k, entry = .grant n k → s.becomes t ((sent true).modIn p n fun h => { h with granted := h.granted + k })) ∧
      (∀ n, entry = .revoke n →
        let revoked := (sent true).modIn p n fun h => { h with revokePending := false, granted := 0 }
        ((s.dev.inHalf p n).owner = none → s.becomes t revoked) ∧
        ∀ c, (s.dev.inHalf p n).owner = some c → (s.dev.chan c).kind = .inn → (s.dev.chan c).port = p →
          (s.dev.chan c).number = n →
          ((s.dev.chan c).state = .opened → s.becomes t revoked) ∧
          ((s.dev.chan c).state = .faulted → s.becomes t (revoked.modChan c fun x => { x with revoke := .accepted })) ∧
          ∀ e before after,
            (s.dev.chan c).state = .draining ∧ (s.dev.inHalf p n).openMark = false ∨ (s.dev.chan c).state = .aborting →
            s.defers (isClose c) e before after →
            s.becomes t
              (((revoked.withDeferred (before ++ after)).noticed
                (.commandDone e.subject .ok e.tag (s.dev.chan c).retire)).contextCleared c)) ∧
      ∀ n, entry = .abandon n →
        (t.dev.outHalf p n).openMark = false ∧
        ((s.dev.outHalf p n).owner = none → s.becomes t (sent false)) ∧
        ∀ c h rest e before after, (s.dev.outHalf p n).owner = some c → (s.dev.chan c).kind = .out → (s.dev.chan c).port = p →
          (s.dev.chan c).number = n → (s.dev.chan c).state = .aborting → (s.dev.chan c).out.phase = .started →
          (s.dev.chan c).held = h :: rest → s.defers (isClose c) e before after →
          let x := s.dev.chan c
          let status : Status := if x.out.spoiled then .fault else .cancelled
          s.becomes t
            (((((((sent false).oneWireByte (some c)).postCompletion
                  { channel := c, status := status, tag := h.tag, length := x.out.offset, total := 0, continued := false,
                    restarted := x.out.restarted, buffer := none }).modChan c fun y =>
                { y with
                  counters :=
                    { y.counters with
                      abandoned := if x.out.spoiled then y.counters.abandoned else satAdd y.counters.abandoned 1 } }).withDeferred
              (before ++ after)).noticed (.commandDone e.subject .ok e.tag ((x.retire + 1) % x.size))).contextCleared c)

/-- An END COMPLETE of an OPEN OUT channel's message completes its record SENT with the message's length when it is accepted: the record
is retired, the open mark is cleared, the messages, payload and wire bytes are counted, and the next record held becomes current. Of a RELAY_OUT half, the head
entry leaves the relay queue as forwarded and its cell returns to spare (R8, R19, R27, R83, R89, R102, R129, R135). -/
def Obligations.AcceptedEndCompletesMessage : Prop :=
  ∀ (p : PortId) (c : ChannelId) (n : LinkNumber) (length : Nat) (s : State), s.offers p (.msgEnd c n length) →
    (s.dev.outHalf p n).owner = some c → (s.dev.chan c).port = p → (s.dev.chan c).number = n → (s.dev.chan c).state = .opened →
    (s.dev.chan c).out.phase = .started → .abandon n ∉ (s.dev.port p).control →
    ∃ t, exec (.byteAccepted p) s = .next t ∧ (t.dev.outHalf p n).openMark = false ∧
      let sent := (s.dev.modPort p fun x => x.sent (.msgEnd c n length) false).modChan c fun x =>
        { x with
          counters :=
            { x.counters with
              wireBytes := satAdd x.counters.wireBytes 1, messages := satAdd x.counters.messages 1,
              payloadBytes := satAdd x.counters.payloadBytes length } }
      (∀ h rest, (s.dev.chan c).kind = .out → (s.dev.chan c).held = h :: rest →
        s.becomes t
          ((sent.postCompletion
              { channel := c, status := .sent, tag := h.tag, length := length, total := 0, continued := false,
                restarted := (s.dev.chan c).out.restarted, buffer := none }).modChan c fun x =>
            { x with
              held := rest, retire := (x.retire + 1) % x.size,
              out := { OutMessage.cleared with phase := if rest = [] then .idle else .ready } })) ∧
      ∀ i x e rest, (s.dev.chan c).kind = .relayOut → (s.dev.chan c).partner = i → i ≠ c → s.dev.pair i = some x →
        x.inbound = i → x.outbound = c → x.queue = e :: rest → (s.dev.chan i).state = .opened →
        s.becomes t
          ((sent.modRelay fun u =>
              { u with
                pairs := u.pairs.set i (some { x with queue := rest, spare := x.spare ++ [e.cell] })
                counters :=
                  u.counters.set i
                    { u.counters.get i with forwarded := satAdd (u.counters.get i).forwarded 1 } }).modChan c fun y =>
            { y with out := { OutMessage.cleared with phase := if rest = [] then .idle else .ready } })

/-- The return of a byte, in either direction, ends its transfer and changes nothing else on a port that is not QUIESCING. On a QUIESCING
port with nothing else to wait for, it ends the quiesce: the port is DISABLED, and the PORT_DISABLE completes with OK and detail 0. What
that does to inbound staging is the model's choice, entry 15: the staged bytes of messages that have ended are dropped, a buffer of one is
waited for only as far as its issued writes go, and those of a queued relay message go to their cells. A byte of the peer still withheld
when STB falls is gone with no other trace, which is the model's choice, entry 6 (R58, R59, R60, R78). -/
def Obligations.ReturnEndsTransfer : Prop :=
  ∀ (p : PortId) (s : State), s.engine = .running →
    let x := s.dev.port p
    let idle := x.control = [] ∧ s.nothingOpen p ∧ ∀ n, (s.dev.inHalf p n).revokePending = false
    (∀ o, x.turn = .ours → x.tx = .accepted o → ∃ t, exec (.byteReturned p) s = .next t ∧
      (x.state ≠ .quiescing → s.becomes t (s.dev.modPort p fun y => { y with tx := .idle })) ∧
      (x.state = .quiescing → x.rx = .idle → idle → ∀ e before after, s.defers (isDisable p) e before after →
        s.becomes t
          ((((s.dev.emptyStaging p).modPort p fun y => y.dropped .disabled).withDeferred (before ++ after)).noticed
            (.commandDone e.subject .ok e.tag 0)))) ∧
    (x.lines.stb = true → ∃ t, exec (.peerByteReturned p) s = .next t ∧
      let low := fun (y : Port) => y.under { y.lines with stb := false }
      (x.state ≠ .quiescing → s.becomes t (s.dev.modPort p fun y => { low y with rx := .idle })) ∧
      (x.state = .quiescing → x.rx ≠ .idle → x.tx = .idle → idle → ∀ e before after, s.defers (isDisable p) e before after →
        s.becomes t
          (((((s.dev.modPort p low).emptyStaging p).modPort p fun y => y.dropped .disabled).withDeferred
            (before ++ after)).noticed (.commandDone e.subject .ok e.tag 0))))

/-! ## Bytes the peer sends -/

/-- A SELECT byte of the peer sets the turn selection. Under a selection, a GRANT of 1..63 is added to the credits of the outbound half
while the sum is 255 at most, and a GRANT of 0 zeroes them and leaves the open mark. Each counts as a control byte received and changes
nothing else (R24, R25, R43, R48, R59, R83). -/
def Obligations.PeerControlByteActs : Prop :=
  ∀ (p : PortId) (s : State), s.listens p → (s.dev.port p).repeatPending = none →
    (∀ m : LinkNumber, let w := commandByte 0 m.val
      ∃ t, exec (.peerByteOffered p w) s = .next t ∧
        s.becomes t ((s.dev.modPort p fun x => (x.under (x.lines.offering w)).received true).issueInbound p) ∧
        (t.dev.port p).selection = some m) ∧
    ∀ (n : LinkNumber) (v : Nat), (s.dev.port p).selection = some n → v < 64 →
      v = 0 ∨ (s.dev.outHalf p n).credits + v ≤ 255 → let w := commandByte 192 v
      ∃ t, exec (.peerByteOffered p w) s = .next t ∧
        s.becomes t ((s.dev.modPort p fun x => (x.under (x.lines.offering w)).received true).issueInbound p) ∧
        (t.dev.port p).selection = some n ∧
        t.dev.outHalf p n =
          { s.dev.outHalf p n with credits := if v = 0 then 0 else (s.dev.outHalf p n).credits + v }

/-- The errors of the decoder, each on an ACTIVE port: an accepted byte that a check of R44 refuses breaks the port with PROTOCOL and the
sub-code of the check, checks made in the table's order (R32, R44, R49). -/
def Obligations.DecoderErrorBreaksPort : Prop :=
  ∀ (p : PortId) (s : State), s.listens p → (s.dev.port p).state = .active →
    let breaks := fun (w : WireByte) (sub : SubCode) =>
      ∃ t, exec (.peerByteOffered p w) s = .next t ∧ s.Broke t p ((s.dev.port p).lines.offering w) (.protocol sub)
    (∀ r n v, v < 256 → (s.dev.port p).repeatPending = some (r, n) → breaks (commandByte 0 v) .repeatOrphan) ∧
    ((s.dev.port p).repeatPending = none → (s.dev.port p).selection = none →
      (∀ v, 64 ≤ v → v < 256 → breaks (commandByte 0 v) .noSelect) ∧ ∀ b, breaks (wireByte false b) .noSelect) ∧
    ∀ n, (s.dev.port p).repeatPending = none → (s.dev.port p).selection = some n →
      let h := s.dev.inHalf p n
      (∀ v, v < 2 → breaks (commandByte 64 v) .badRepeat) ∧ (∀ v, 2 ≤ v → v < 64 → breaks (commandByte 128 v) .badEnd) ∧
      (∀ v, v < 64 → v ≠ 0 → 255 < (s.dev.outHalf p n).credits + v → breaks (commandByte 192 v) .creditOverflow) ∧
      (h.openMark = false → h.discard = false →
        breaks (commandByte 128 1) .strayAbandon ∧
          (h.granted = 0 →
            breaks (commandByte 128 0) .creditViolation ∧ (∀ v, 2 ≤ v → v < 64 → breaks (commandByte 64 v) .creditViolation) ∧
              ∀ b, breaks (wireByte false b) .creditViolation))

/-- A data byte of the peer brings one expanded byte on the selected number or, with a REPEAT pending, a run of r on the run's number; it
is one wire byte of the half's owner. Under the open mark, while the host buffer or the filling cell of the owner has room for the whole
unit, it is placed at offset fill once inbound staging has room, offered or withheld before: r is added to the fill and to the total, and
with staging empty and fewer than four transfers in flight the bytes are written, or moved to the cell, at once. Without room in staging
its acceptance is withheld and counted. A unit that passes the capacity fills the buffer and is the overflow: DROP drops the buffer's
staged bytes, or gives up the cell; TRUNCATE goes on counting; CHAIN, with a record that no credit stands behind and a slot, completes the
buffer DELIVERED with the continued flag and goes on in the next record's, and else is as TRUNCATE. Past an overflow only the total grows.
Under the discard mark the byte is dropped and counted. With neither mark and a credit granted it starts a message: the credit is used,
the open mark is set, and the head supply record's buffer, or the head spare cell, is taken (R32, R45, R46, R59, R111, R112, R113, R114,
R115, R116, R117, R131; entry 28). -/
def Obligations.PeerDataByteIsPlaced : Prop :=
  ∀ (p : PortId) (n : LinkNumber) (b : Byte) (r : Nat) (s : State), s.bringsUnit p n r →
    let w := wireByte false b
    let h := s.dev.inHalf p n
    let left := 512 - (s.dev.port p).inStaging.length
    let accepted := fun (y : Port) =>
      { (y.under (y.lines.offering w)).received false with repeatPending := none }
    (∀ c, h.owner = some c → (s.dev.chan c).port = p → (s.dev.chan c).number = n →
      let x := s.dev.chan c
      let ring := x.ring.castSucc
      let capacity := if x.kind = .relayIn then 1024 else (x.held.head?.map HostRecord.size).getD 0
      let total := min (x.inm.total + r) 4294967295
      let space := capacity - x.inm.fill
      (∀ i, h.openMark = true → x.inm.mode = .writing → x.inm.fill + r ≤ capacity → r ≤ left → s.brings i p w →
        (∀ k z, x.kind = .inn → x.inm.buffer = some k → s.dev.buffers.find? (fun y => y.id == k) = some z →
          ∃ t, exec i s = .next t ∧ s.tookUnit t p c { x.inm with fill := x.inm.fill + r, total := total } ∧
            (t.dev.buffers.find? (fun y => y.id == k)).map Buffer.placed = some (z.placed + r) ∧
            ((s.dev.port p).inStaging = [] → s.dev.inboundInFlight p < 4 →
              ∃ q ∈ t.dev.requests,
                q.access = .bufferWrite p k ∧ q.address = z.address + BitVec.ofNat 64 x.inm.fill ∧
                  q.data = List.replicate r b)) ∧
        ∀ k y, x.kind = .relayIn → s.dev.pair c = some y → y.filling = some k →
          ∃ t, exec i s = .next t ∧ s.tookUnit t p c { x.inm with fill := x.inm.fill + r, total := total } ∧
            t.dev.pair c = some y ∧
            ((s.dev.port p).inStaging = [] → s.dev.inboundInFlight p < 4 →
              ∃ m ∈ t.dev.relay.moves,
                m.port = p ∧ m.cell = k ∧ m.offset = x.inm.fill ∧ m.bytes = List.replicate r b)) ∧
      (h.openMark = true → x.inm.mode = .writing → x.inm.fill + r ≤ capacity → left < r → s.listens p →
        ∃ t, exec (.peerByteOffered p w) s = .next t ∧
          s.becomes t
            (s.dev.modPort p fun y =>
              { y.under (y.lines.offering w) with
                rx := .withheld, counters := { y.counters with withheld := satAdd y.counters.withheld 1 } })) ∧
      (h.openMark = true → x.inm.mode = .writing → x.inm.fill ≤ capacity → capacity < x.inm.fill + r → s.listens p →
        let chains := x.overflow = .chain ∧ h.granted + h.inFlight + 2 ≤ x.held.length ∧ (s.dev.ring ring).hasRoom
        (∀ k z, x.kind = .inn → x.inm.buffer = some k → s.dev.buffers.find? (fun y => y.id == k) = some z →
          (x.overflow = .drop → space ≤ left → ∃ t, exec (.peerByteOffered p w) s = .next t ∧
            s.tookUnit t p c { x.inm with fill := capacity, total := total, mode := .dropping } ∧
            (t.dev.buffers.find? (fun y => y.id == k)).map Buffer.placed = some z.issued ∧
            ∀ y ∈ (t.dev.port p).inStaging, y.dest ≠ .buffer k) ∧
          (x.overflow ≠ .drop → ¬ chains → space ≤ left → ∃ t, exec (.peerByteOffered p w) s = .next t ∧
            s.tookUnit t p c { x.inm with fill := capacity, total := total, mode := .truncating } ∧
            (t.dev.buffers.find? (fun y => y.id == k)).map Buffer.placed = some (z.placed + space)) ∧
          ∀ q next rest, chains → r ≤ left → x.held = q :: next :: rest → r ≤ space + next.size →
            ∃ t id, exec (.peerByteOffered p w) s = .next t ∧
              s.tookUnit t p c { x.inm with buffer := some id, fill := r - space, total := total } ∧
              (t.dev.chan c).held = next :: rest ∧ (t.dev.chan c).retire = (x.retire + 1) % x.size ∧
              (∃ y ∈ t.dev.buffers, y.id = id ∧ y.address = next.address ∧ y.channel = c ∧ y.placed = r - space) ∧
              (t.dev.ring ring).queue = (s.dev.ring ring).queue ++
                [{ order := s.dev.serial
                   body :=
                    .completion
                      { channel := c, status := .delivered, tag := q.tag, length := q.size,
                        total := min (x.inm.total + space) 65535, continued := true, restarted := false, buffer := some k } }] ∧
              (s.dev.ring ring).reserved + 1 ≤ (t.dev.ring ring).reserved) ∧
        ∀ k y, x.kind = .relayIn → s.dev.pair c = some y → y.filling = some k → space ≤ left →
          (x.overflow = .drop → ∃ t, exec (.peerByteOffered p w) s = .next t ∧
            s.tookUnit t p c { x.inm with fill := 1024, total := total, mode := .dropping } ∧
            t.dev.pair c = some { y with filling := none, spare := y.spare ++ [k] } ∧
            ∀ z ∈ (t.dev.port p).inStaging, z.dest ≠ .cell c k) ∧
          (x.overflow ≠ .drop → ∃ t, exec (.peerByteOffered p w) s = .next t ∧
            s.tookUnit t p c { x.inm with fill := 1024, total := total, mode := .truncating } ∧ t.dev.pair c = some y)) ∧
      (h.openMark = true → x.inm.mode ≠ .writing → s.listens p → ∃ t, exec (.peerByteOffered p w) s = .next t ∧
        s.becomes t
          (((s.dev.modPort p accepted).modChan c fun y =>
            { y with
              inm := { y.inm with total := total }
              counters := { y.counters with wireBytes := satAdd y.counters.wireBytes 1 } }).issueInbound p)) ∧
      (h.openMark = false → h.discard = false → 1 ≤ h.granted → (s.dev.port p).repeatPending = none → x.state = .opened →
        1 ≤ left → s.listens p →
        let used := fun (t : State) => (t.dev.inHalf p n).granted = h.granted - 1 ∧ (t.dev.inHalf p n).openMark = true
        (∀ q rest, x.kind = .inn → x.held = q :: rest → 1 ≤ q.size → ∃ t k m, exec (.peerByteOffered p w) s = .next t ∧ used t ∧
          s.tookUnit t p c { buffer := some k, message := m, fill := 1, total := 1, mode := .writing } ∧
          ∃ z ∈ t.dev.buffers, z.id = k ∧ z.address = q.address ∧ z.channel = c ∧ z.placed = 1) ∧
        ∀ y k rest, x.kind = .relayIn → s.dev.pair c = some y → y.spare = k :: rest →
          ∃ t, exec (.peerByteOffered p w) s = .next t ∧ used t ∧
            s.tookUnit t p c { InMessage.cleared with fill := 1, total := 1 } ∧
            t.dev.pair c = some { y with spare := rest, filling := some k } ∧ t.dev.relay.cells.get k = [])) ∧
    (h.openMark = false → h.discard = true → s.listens p →
      ∃ t, exec (.peerByteOffered p w) s = .next t ∧
        s.becomes t
          ((s.dev.modPort p fun y =>
            { accepted y with
              counters := { (accepted y).counters with discarded := satAdd y.counters.discarded 1 } }).issueInbound p))

/-- A REPEAT of the peer on an open message sets the pending run and counts as a wire byte of the owner. An END on an OPEN IN channel's
open message completes its buffer: DELIVERED with the fill, or TRUNCATED or OVERSIZE with the capacity, by the mode, and ABANDONED after
an END ABANDON; the record is retired, the message counted, and the marks cleared. On an OPEN RELAY_IN half, an END COMPLETE puts the
filling cell at the tail of the relay queue with the fill, or with 1024 after a truncation, or counts a drop, and an END ABANDON gives the
cell up with its staged bytes and moves. An END under the discard mark clears it and is counted (R8, R19, R33, R46, R47, R118, R119, R120,
R131, R132, R133). -/
def Obligations.PeerEndCompletesBuffer : Prop :=
  ∀ (p : PortId) (n : LinkNumber) (c : ChannelId) (s : State), s.listens p → (s.dev.port p).repeatPending = none →
    (s.dev.port p).selection = some n →
    let h := s.dev.inHalf p n
    let x := s.dev.chan c
    let accepted := fun (w : WireByte) => s.dev.modPort p fun y => (y.under (y.lines.offering w)).received false
    let closed := fun (d : Device) => d.modIn p n fun y => { y with openMark := false, discard := false }
    (∀ r, 2 ≤ r → r < 64 → h.openMark = true → h.owner = some c →
      ∃ t, exec (.peerByteOffered p (commandByte 64 r)) s = .next t ∧
        s.becomes t
          ((((accepted (commandByte 64 r)).modPort p fun y => { y with repeatPending := some (r, n) }).oneWireByte
            (some c)).issueInbound p)) ∧
    (∀ (q : HostRecord) (rest : List HostRecord) (complete : Bool), h.openMark = true → h.owner = some c → x.kind = .inn →
      x.state = .opened → x.held = q :: rest →
      let w := commandByte 128 (if complete then 0 else 1)
      let status : Status := if complete then (match x.inm.mode with
        | .writing => .delivered | .truncating => .truncated | .dropping => .oversize) else .abandoned
      let one := fun (k : Status) (v : Word) => if status = k then satAdd v 1 else v
      ∃ t, exec (.peerByteOffered p w) s = .next t ∧
        s.becomes t
          (((((closed (accepted w)).postCompletion
              { channel := c, status := status, tag := q.tag, length := if x.inm.mode = .writing then x.inm.fill else q.size,
                total := min x.inm.total 65535, continued := false, restarted := false, buffer := x.inm.buffer }).modChan c fun y =>
            { y with
              held := rest, retire := (y.retire + 1) % y.size, inm := InMessage.cleared,
              counters :=
                { y.counters with
                  wireBytes := satAdd y.counters.wireBytes 1
                  messages := if complete then satAdd y.counters.messages 1 else y.counters.messages
                  payloadBytes := if complete then satAdd y.counters.payloadBytes x.inm.total else y.counters.payloadBytes
                  truncated := one .truncated y.counters.truncated
                  oversize := one .oversize y.counters.oversize
                  abandoned := one .abandoned y.counters.abandoned } }).fetchRecords c).issueInbound p)) ∧
    (∀ (y : RelayPair) (complete : Bool), h.openMark = true → h.owner = some c → x.kind = .relayIn → x.state = .opened → x.port = p →
      s.dev.pair c = some y → y.inbound = c → y.cut = false →
      let w := commandByte 128 (if complete then 0 else 1)
      let ended := (closed (accepted w)).modChan c fun z =>
        { z with
          inm := InMessage.cleared
          counters :=
            { z.counters with
              wireBytes := satAdd z.counters.wireBytes 1
              messages := if complete then satAdd z.counters.messages 1 else z.counters.messages
              payloadBytes := if complete then satAdd z.counters.payloadBytes x.inm.total else z.counters.payloadBytes } }
      let counted := fun (d : Device) (f : RelayCounters → RelayCounters) =>
        d.modRelay fun u => { u with counters := u.counters.set c (f (u.counters.get c)) }
      let queued := fun (d : Device) (k : CellId) (length : Nat) =>
        (d.modRelay fun u =>
          { u with
            pairs :=
              u.pairs.set c (some { y with filling := none, queue := y.queue ++ [{ cell := k, length := length }] }) }).modChan
          y.outbound fun z => { z with out := { z.out with phase := .ready } }
      ∃ t, exec (.peerByteOffered p w) s = .next t ∧
        (∀ k, complete = true → y.filling = some k →
          (x.inm.mode = .writing → s.becomes t ((queued ended k x.inm.fill).issueInbound p)) ∧
            (x.inm.mode = .truncating →
              s.becomes t
                ((queued (counted ended fun g => { g with truncated := satAdd g.truncated 1 }) k 1024).issueInbound p))) ∧
        (complete = true → x.inm.mode = .dropping →
          s.becomes t
            ((counted ended fun g => { g with droppedOversize := satAdd g.droppedOversize 1 }).issueInbound p)) ∧
        (complete = false → y.filling = none →
          s.becomes t ((counted ended fun g => { g with abandoned := satAdd g.abandoned 1 }).issueInbound p)) ∧
        ∀ k, complete = false → y.filling = some k →
          s.becomes t
            ((((counted ended fun g => { g with abandoned := satAdd g.abandoned 1 }).modPort p fun z =>
                { z with inStaging := z.inStaging.filter fun g => !(g.dest == .cell c k) }).modRelay fun u =>
              { u with
                moves := u.moves.filter fun m => !(m.cell == k)
                pairs := u.pairs.set c (some { y with filling := none, spare := y.spare ++ [k] }) }).issueInbound p)) ∧
    ∀ v, v < 2 → h.openMark = false → h.discard = true →
      ∃ t, exec (.peerByteOffered p (commandByte 128 v)) s = .next t ∧
        s.becomes t
          (((closed (accepted (commandByte 128 v))).modPort p fun y =>
            { y with counters := { y.counters with discarded := satAdd y.counters.discarded 1 } }).issueInbound p)

/-! ## Engagement, breaks and quiesces -/

/-- ENGI high on an ENGAGING port engages it; in every other port state a rise of ENGI changes the level alone (R64, R75; entries 7
and 8). -/
def Obligations.EngiRiseEngages : Prop :=
  ∀ (p : PortId) (i : Instr) (s : State), s.engine = .running → i = .engagement p ∨ i = .engiRise p →
    let d := s.dev.modPort p fun x => x.under { x.lines with engi := true }
    ∃ t, exec i s = .next t ∧ ((s.dev.port p).state = .engaging → s.engages t d p) ∧
      ((s.dev.port p).state ≠ .engaging → s.becomes t d)

/-- The breaks of an ACTIVE port, each with its cause: its acceptance, take and turn-wait timers, the fall of ENGI with a byte under way
or with none, OWNI rising in OURS, OWNI falling in THEIRS, in ASKED with a byte of the peer not returned, and in ASKED with a REPEAT
pending, and a byte offered with even parity. In ASKED with both left over, the byte decides, by the order of entry 34. Every break
drops the link, clears the Link Map, posts PORT_EVENT first of all and leaves
the port BROKEN with RECOVER running (R46, R58, R59, R64, R67, R71, R72, R73, R74, R75; entries 13 and 34). -/
def Obligations.ActivePortBreaks : Prop :=
  ∀ (p : PortId) (s : State), s.engine = .running → (s.dev.port p).state = .active →
    let x := s.dev.port p
    let breaks := fun (i : Instr) (lines : PeerLines) (why : BreakCause) => ∃ t, exec i s = .next t ∧ s.Broke t p lines why
    (x.acceptTimer ≠ .stopped → breaks (.acceptLimitExpiry p) x.lines .timeoutAccept) ∧
    (x.takeTimer ≠ .stopped → breaks (.takeTimerExpiry p) x.lines .timeoutTake) ∧
    (x.turnWaitTimer ≠ .stopped → breaks (.turnWaitExpiry p) x.lines .turnStarved) ∧
    (x.lines.engi = true →
      breaks (.engiFall p) { x.lines with engi := false }
        (if x.tx = .idle ∧ x.rx = .idle then .peerLeft else .abrupt)) ∧
    (x.lines.owni = false → x.turn = .ours →
      breaks (.owniRise p) { x.lines with owni := true } (.protocol .collision)) ∧
    (x.lines.owni = true → x.turn = .theirs ∨ (x.turn = .asked ∧ x.rx ≠ .idle) →
      breaks (.owniFall p) { x.lines with owni := false } (.protocol .unaskedRelease)) ∧
    (x.lines.owni = true → x.turn = .asked → x.rx = .idle → x.repeatPending ≠ none →
      breaks (.owniFall p) { x.lines with owni := false } (.protocol .repeatOrphan)) ∧
    ∀ w, s.listens p → parityGood w = false → breaks (.peerByteOffered p w) (x.lines.offering w) .parity

/-- A QUIESCING port that breaks, here by a timer or by the fall of ENGI, is DISABLED with its PORT_EVENT posted first and no RECOVER;
DRAIN_LIMIT expired takes it down with no PORT_EVENT and no break counted. With nothing open and no channel or fault waiting for the
link, nothing else changes but the pending PORT_DISABLE, which completes with OK and detail 2 after a break and detail 1 after the expiry,
and inbound staging: that the staged bytes of messages that have ended are dropped, a buffer of one waited for only as far as its issued
writes go, and those of a queued relay message placed in their cells, is the model's choice (R60, R74, R79, R80; entries 13 and 15). -/
def Obligations.QuiescingPortEnds : Prop :=
  ∀ (p : PortId) (s : State), s.engine = .running → (s.dev.port p).state = .quiescing →
    let x := s.dev.port p
    (∀ i lines why,
      i = .acceptLimitExpiry p ∧ x.acceptTimer ≠ .stopped ∧ lines = x.lines ∧ why = .timeoutAccept ∨
        i = .takeTimerExpiry p ∧ x.takeTimer ≠ .stopped ∧ lines = x.lines ∧ why = .timeoutTake ∨
        i = .turnWaitExpiry p ∧ x.turnWaitTimer ≠ .stopped ∧ lines = x.lines ∧ why = .turnStarved ∨
        i = .engiFall p ∧ x.lines.engi = true ∧ lines = { x.lines with engi := false } ∧
          why = (if x.tx = .idle ∧ x.rx = .idle then .peerLeft else .abrupt) →
      ∃ t, exec i s = .next t ∧ s.WentDown t p ∧ (t.dev.port p).state = .disabled ∧ (t.dev.port p).lastBreak = why ∧
        (t.dev.port p).counters.breaks = satAdd x.counters.breaks 1 ∧ (t.dev.port p).recoverTimer = .stopped ∧
        (t.dev.port p).lines = lines ∧ ((s.dev.ring 4).room ≠ 0 → s.nextNotice t (.portEvent p (.broke why))) ∧
        ∀ e before after, s.nothingOpen p → s.defers (isDisable p) e before after →
          ∃ d, s.dev.told (.portEvent p (.broke why)) d ∧
            s.becomes t
              ((((d.emptyStaging p).modPort p fun y =>
                  (({ y with
                      lastBreak := why
                      counters := { y.counters with breaks := satAdd y.counters.breaks 1 } }).under lines).dropped .disabled).withDeferred
                  (before ++ after)).noticed (.commandDone e.subject .ok e.tag 2))) ∧
    (x.drainTimer ≠ .stopped →
      ∃ t, exec (.drainLimitExpiry p) s = .next t ∧ s.WentDown t p ∧ (t.dev.port p).state = .disabled ∧
        (t.dev.port p).lastBreak = x.lastBreak ∧ (t.dev.port p).counters.breaks = x.counters.breaks ∧
        (t.dev.port p).recoverTimer = .stopped ∧
        ∀ e before after, s.nothingOpen p → s.defers (isDisable p) e before after →
          s.becomes t
            ((((s.dev.emptyStaging p).modPort p fun y => y.dropped .disabled).withDeferred (before ++ after)).noticed
              (.commandDone e.subject .ok e.tag 1)))

/-- A BROKEN port decides once RECOVER has expired and its peer has released, at whichever comes second: below RETRIES it counts one more
try and becomes ENGAGING, and engages at once with ENGI high; else it becomes FAILED and PORT_EVENT(FAILED) is posted or lost. Until then
the fall of ENGI sets the peer released mark, and RECOVER stops at its expiry (R73, R75). -/
def Obligations.BrokenPortDecides : Prop :=
  ∀ (p : PortId) (s : State), s.engine = .running → (s.dev.port p).state = .broken →
    let x := s.dev.port p
    let retried := fun (y : Port) => { y with state := .engaging, settled := false, retryCount := y.retryCount + 1 }
    (x.recoverTimer ≠ .stopped → ∃ t, exec (.recoverExpiry p) s = .next t ∧
      let stopped := fun (y : Port) => { y with recoverTimer := .stopped }
      (x.peerReleased = false → s.becomes t (s.dev.modPort p stopped)) ∧
      (x.peerReleased = true → x.retryCount < x.settings.retries →
        (x.lines.engi = false → s.becomes t (s.dev.modPort p fun y => retried (stopped y))) ∧
          (x.lines.engi = true → s.engages t (s.dev.modPort p fun y => retried (stopped y)) p)) ∧
      (x.peerReleased = true → x.settings.retries ≤ x.retryCount →
        ∃ e, (s.dev.modPort p fun y => { stopped y with state := .failed }).told (.portEvent p .failed) e ∧ s.becomes t e)) ∧
    (x.lines.engi = true → ∃ t, exec (.engiFall p) s = .next t ∧
      let fallen := fun (y : Port) => { y.under { y.lines with engi := false } with peerReleased := true }
      (x.recoverTimer ≠ .stopped → s.becomes t (s.dev.modPort p fallen)) ∧
      (x.recoverTimer = .stopped → x.retryCount < x.settings.retries →
        s.becomes t (s.dev.modPort p fun y => retried (fallen y))) ∧
      (x.recoverTimer = .stopped → x.settings.retries ≤ x.retryCount →
        ∃ e, (s.dev.modPort p fun y => { fallen y with state := .failed }).told (.portEvent p .failed) e ∧ s.becomes t e))

/-- The turn lines: OWNI rising in OFFERED, with STB low, gives the peer the turn, and in THEIRS it settles a FOLLOW that waits for its
first turn; OWNI falling in ASKED, with no byte and no REPEAT left over, gives the part the turn, with its bytes counted afresh. REQI
rising in OURS starts the hold timer once, and its expiry is kept; a fall of REQI changes the level alone. The settle timer's expiry
settles a LEAD. Of the OWNI edges that R72 says cannot occur, a rise in ASKED or in THEIRS once settled and a fall in OURS or OFFERED, and
of an edge with no link, the model changes the level alone (R65, R67, R69, R71; entries 2 and 5 for those edges, entry 25 for a
HOLD_LIMIT of 0). -/
def Obligations.TurnLinesMoveTurn : Prop :=
  ∀ (p : PortId) (s : State), s.engine = .running →
    let x := s.dev.port p
    let settled := fun (y : Port) => { y with settled := true, retryCount := 0 }
    let rises := fun (y : Port) => y.under { y.lines with owni := true }
    let falls := fun (y : Port) => y.under { y.lines with owni := false }
    (x.lines.owni = false → ∃ t, exec (.owniRise p) s = .next t ∧
      (x.turn = .offered → x.lines.stb = false → s.becomes t (s.dev.modPort p fun y => { rises y with turn := .theirs })) ∧
      (x.turn = .theirs → x.takeTimer ≠ .stopped → s.becomes t (s.dev.modPort p fun y => settled (rises y))) ∧
      (x.turn = .theirs → x.takeTimer = .stopped → s.becomes t (s.dev.modPort p rises)) ∧
      (x.turn = .off ∨ x.turn = .asked → s.becomes t (s.dev.modPort p rises))) ∧
    (x.lines.owni = true → ∃ t, exec (.owniFall p) s = .next t ∧
      (x.turn = .asked → x.rx = .idle → x.repeatPending = none →
        s.becomes t
          (s.dev.modPort p fun y =>
            { falls y with
              turn := .ours, turnBytes := 0,
              counters := { y.counters with turnsTaken := satAdd y.counters.turnsTaken 1 } })) ∧
      (x.turn = .off ∨ x.turn = .ours ∨ x.turn = .offered → s.becomes t (s.dev.modPort p falls))) ∧
    (∃ t, exec (.reqiRise p) s = .next t ∧ s.becomes t (s.dev.modPort p fun y => y.under { y.lines with reqi := true }) ∧
      (x.turn = .ours → (t.dev.port p).turn = .ours →
        (t.dev.port p).hold =
          if x.hold = .off then (if x.settings.holdLimit = 0 then .expired else .running x.settings.holdLimit) else x.hold)) ∧
    (∃ t, exec (.reqiFall p) s = .next t ∧ s.becomes t (s.dev.modPort p fun y => y.under { y.lines with reqi := false })) ∧
    (∀ us, x.hold = .running us → ∃ t, exec (.holdTimerExpiry p) s = .next t ∧ s.becomes t s.dev ∧
      (x.turn = .ours → (t.dev.port p).turn = .ours → (t.dev.port p).hold = .expired)) ∧
    (x.settleTimer ≠ .stopped → ∃ t, exec (.settleTimerExpiry p) s = .next t ∧
      s.becomes t (s.dev.modPort p fun y => settled { y with settleTimer := .stopped }))

/-! ## The scheduler and the encoder -/

/-- What the part does next in OURS with no byte under way and no SELECT to follow up. It releases the turn if REQI is high and the hold
timer has expired, or, outside a pass of the pending control list, it has no work or has reached TURN_BUDGET; a pick with a byte accepted
then moves to the tail of its class. Else it offers the head of the pending control list, or the picked channel's next byte, each after
its SELECT where the selection is another; the offer of a READY message's first unit uses a credit, and that of a STARTED message's next
unit, or of its END COMPLETE, uses none. With the byte stream at a boundary the scheduler picks the first eligible channel, class 0 first
and from head to tail (R26, R37, R68, R70, R93, R94, R95, R97). -/
def Obligations.TurnGoesOnInOrder : Prop :=
  ∀ (d : Device) (p : PortId), (d.port p).turn = .ours →
    let x := d.port p
    let offers := fun (e : Device) (o : Offer) =>
      e.modPort p fun y => { y with tx := .offered o, acceptTimer := .running y.settings.acceptLimit }
    (x.tx = .idle → x.build = none → x.headOffered = false → x.selectSent = false →
      let work := x.control ≠ [] ∨ ∃ k, ∃ c ∈ x.classes.get k, d.eligible c = true
      let due := x.lines.reqi = true ∧
        (x.hold = .expired ∨ ((x.passBegun = false ∨ x.control = []) ∧ (¬ work ∨ x.settings.turnBudget ≤ x.turnBytes)))
      (due → x.pick = none →
        d.transmit p = d.modPort p fun y =>
          { y with
            turn := .offered, selection := none, hold := .off, passBegun := false, takeTimer := .running y.settings.acceptLimit
            counters := { y.counters with turnsReleased := satAdd y.counters.turnsReleased 1 } }) ∧
      (∀ c k, due → x.pick = some (c, k) →
        ((d.transmit p).port p).turn = .offered ∧ ((d.transmit p).port p).pick = none ∧
          ∀ j, ((d.transmit p).port p).classes.get j =
            if k ≠ 0 ∧ c ∈ x.classes.get j then (x.classes.get j).filter (fun e => !(e == c)) ++ [c] else x.classes.get j) ∧
      (¬ due → x.pick = none →
        (x.control = [] → d.transmit p = d) ∧
          ∀ e rest, x.control = e :: rest →
            d.transmit p =
              offers (d.modPort p fun y => { y with headOffered := true })
                (if x.selection = some e.number then .entryByte e else .entrySelect e.number)) ∧
      ∀ c k, ¬ due → x.pick = some (c, k) →
        (d.nextOffer p c = none → d.transmit p = d) ∧
          ∀ o u, d.nextOffer p c = some (o, u) →
            (x.selection ≠ some (d.chan c).number → d.transmit p = offers d (.msgSelect c (d.chan c).number)) ∧
              (x.selection = some (d.chan c).number → (d.chan c).out.phase = .ready →
                ((d.transmit p).port p).tx = .offered o ∧ ((d.transmit p).chan c).out.phase = .started ∧
                  (d.transmit p).outHalf p (d.chan c).number =
                    { d.outHalf p (d.chan c).number with
                      credits := (d.outHalf p (d.chan c).number).credits - 1, openMark := true }) ∧
              (x.selection = some (d.chan c).number → (d.chan c).out.phase = .started →
                ((d.transmit p).port p).tx = .offered o ∧ (d.transmit p).channels = d.channels ∧
                  ((d.transmit p).port p).map = x.map)) ∧
    (x.control = [] → x.pick = none → (∀ o, x.tx ≠ .offered o) → x.build = none → ∀ k l c m, x.classes.get k = l ++ c :: m → d.eligible c = true →
      (∀ e ∈ l, d.eligible e = false) → (∀ j, j < k → ∀ e ∈ x.classes.get j, d.eligible e = false) →
      d.pickChannel p = d.modPort p fun y => { y with pick := some (c, 0), selectSent := false })


/-- The unit the encoder forms next from the payload that stands in outbound staging. In plain form it is the byte at the offset. In
compressed form a run of 3 to 63 equal bytes is a REPEAT unit and a shorter one a plain byte, once the run is known: by another byte after
it, by 63 bytes, or by the end of the message; until then there is none (R52, R53). -/
def Obligations.EncoderFormsUnits : Prop :=
  ∀ (d : Device) (p : PortId) (c : ChannelId),
    (d.stagedBytes p c = [] → d.nextUnit p c = none) ∧
      ((d.chan c).compress = false ∨
          ((d.chan c).kind = .out ∧ ((d.chan c).held.head?.map HostRecord.plain).getD false = true) →
        ∀ b rest, d.stagedBytes p c = b :: rest → d.nextUnit p c = some (.plain b)) ∧
      ((d.chan c).compress = true →
        (d.chan c).kind = .relayOut ∨ ((d.chan c).held.head?.map HostRecord.plain).getD false = false →
        ∀ (b : Byte) (run : Nat) (rest : List Byte), 1 ≤ run → rest.head? ≠ some b →
          d.stagedBytes p c = List.replicate run b ++ rest →
          let left := d.messageLength c - (d.chan c).out.offset
          d.nextUnit p c =
            if rest ≠ [] ∨ run = 63 ∨ run = left then some (if 3 ≤ run then .rep run b else .plain b) else none)

/-! ## Laws that every step keeps -/

/-- Every command and event, and every step, keeps the law of the engine's memory accesses and fault cause, and the low six bits of ROOT
at 0 (R172, R176, R177, R178). -/
def Obligations.EngineAndRootLawsKept : Prop :=
  (∀ (i : Instr) (s t : State), EngineLaw s → RootLaw s → exec i s = .next t → EngineLaw t ∧ RootLaw t) ∧
    ∀ s t : State, EngineLaw s → RootLaw s → step s = .next t → EngineLaw t ∧ RootLaw t

/-- Every command and event, and every step, keeps the keys of the channels outside CLOSED apart and every relay pair whole (R3, R5,
R127). -/
def Obligations.KeyAndPairLawsKept : Prop :=
  (∀ (i : Instr) (s t : State), KeyLaw s.dev → PairLaw s.dev → exec i s = .next t → KeyLaw t.dev ∧ PairLaw t.dev) ∧
    ∀ s t : State, KeyLaw s.dev → PairLaw s.dev → step s = .next t → KeyLaw t.dev ∧ PairLaw t.dev

/-- The part after hardware reset meets the laws: HALTED with no fault cause and no memory access, ROOT at 0, and every context cleared
with no pair open (R1, R3, R127, R172, R176, R179). -/
def Obligations.LawsHoldAtReset : Prop :=
  EngineLaw State.reset ∧ RootLaw State.reset ∧ KeyLaw State.reset.dev ∧ PairLaw State.reset.dev
end

