-- ==== Sys2Proof/Laws/State.lean ====
section
/-! SUPPORT. One lemma for each block of the Device and each table update: what an update writes, and what it leaves. -/

namespace Sys2Proof.Machine

/-! ## Vectors -/

/-- Reading a place of a table after writing one. -/
theorem get_set {α : Type} {n : Nat} (v : Vector α n) (i j : Fin n) (x : α) :
    (v.set i x).get j = if i = j then x else v.get j := by
  simp only [Vector.get_eq_getElem, Vector.getElem_set, Fin.ext_iff]

/-- Reading the place just written. -/
@[simp] theorem get_set_self {α : Type} {n : Nat} (v : Vector α n) (i : Fin n) (x : α) : (v.set i x).get i = x := by
  simp [get_set]

/-- Reading a place other than the one written. -/
theorem get_set_ne {α : Type} {n : Nat} (v : Vector α n) {i j : Fin n} (x : α) (h : i ≠ j) : (v.set i x).get j = v.get j := by
  simp [get_set, h]

/-- Reading a place of a table changed throughout. -/
@[simp] theorem get_map {α β : Type} {n : Nat} (f : α → β) (v : Vector α n) (i : Fin n) : (v.map f).get i = f (v.get i) := by
  simp [Vector.get_eq_getElem]

/-- Reading a place of a table filled with one value. -/
@[simp] theorem get_replicate {α : Type} {n : Nat} (x : α) (i : Fin n) : (Vector.replicate n x).get i = x := by
  simp [Vector.get_eq_getElem]

/-- Tables with the same entries are the same table. -/
theorem vector_ext_get {α : Type} {n : Nat} {v w : Vector α n} (h : ∀ i, v.get i = w.get i) : v = w := by
  apply Vector.ext
  intro i hi
  simpa [Vector.get_eq_getElem] using h ⟨i, hi⟩

/-- A projection of a table is unchanged by a write that keeps the entry's projection. -/
theorem map_set_eq {α β : Type} {n : Nat} (f : α → β) (v : Vector α n) (i : Fin n) (x : α) (h : f x = f (v.get i)) :
    (v.set i x).map f = v.map f := by
  apply vector_ext_get
  intro j
  simp only [get_map, get_set]
  split
  · next e => rw [h, e]
  · rfl

/-! ## What each update writes -/

variable (d : Device) (c c' : ChannelId) (p q : PortId) (n m : LinkNumber) (r r' : RingId)

@[simp] theorem chan_modChan_self (f : Channel → Channel) : (d.modChan c f).chan c = f (d.chan c) := by
  simp [Device.chan, Device.modChan]

theorem chan_modChan (f : Channel → Channel) : (d.modChan c f).chan c' = if c = c' then f (d.chan c) else d.chan c' := by
  simp only [Device.chan, Device.modChan, get_set]

@[simp] theorem port_modPort_self (f : Port → Port) : (d.modPort p f).port p = f (d.port p) := by
  simp [Device.port, Device.modPort]

theorem port_modPort (f : Port → Port) : (d.modPort p f).port q = if p = q then f (d.port p) else d.port q := by
  simp only [Device.port, Device.modPort, get_set]

@[simp] theorem ring_modRing_self (f : Ring → Ring) : (d.modRing r f).ring r = f (d.ring r) := by
  simp [Device.ring, Device.modRing]

theorem ring_modRing (f : Ring → Ring) : (d.modRing r f).ring r' = if r = r' then f (d.ring r) else d.ring r' := by
  simp only [Device.ring, Device.modRing, get_set]

@[simp] theorem entry_modEntry_self (x : Port) (f : MapEntry → MapEntry) : (x.modEntry n f).entry n = f (x.entry n) := by
  simp [Port.entry, Port.modEntry]

theorem entry_modEntry (x : Port) (f : MapEntry → MapEntry) :
    (x.modEntry n f).entry m = if n = m then f (x.entry n) else x.entry m := by
  simp only [Port.entry, Port.modEntry, get_set]

/-! ## What each update leaves -/
@[simp] theorem modChan_serial (f : Channel → Channel) : (d.modChan c f).serial = d.serial := rfl
@[simp] theorem modChan_requests (f : Channel → Channel) : (d.modChan c f).requests = d.requests := rfl
@[simp] theorem modChan_cu (f : Channel → Channel) : (d.modChan c f).cu = d.cu := rfl
@[simp] theorem modChan_ports (f : Channel → Channel) : (d.modChan c f).ports = d.ports := rfl
@[simp] theorem modChan_relay (f : Channel → Channel) : (d.modChan c f).relay = d.relay := rfl
@[simp] theorem modChan_rings (f : Channel → Channel) : (d.modChan c f).rings = d.rings := rfl
@[simp] theorem modChan_lost (f : Channel → Channel) : (d.modChan c f).lost = d.lost := rfl
@[simp] theorem modChan_buffers (f : Channel → Channel) : (d.modChan c f).buffers = d.buffers := rfl
@[simp] theorem modChan_port (f : Channel → Channel) : (d.modChan c f).port q = d.port q := rfl
@[simp] theorem modChan_ring (f : Channel → Channel) : (d.modChan c f).ring r' = d.ring r' := rfl

@[simp] theorem modPort_serial (f : Port → Port) : (d.modPort p f).serial = d.serial := rfl
@[simp] theorem modPort_requests (f : Port → Port) : (d.modPort p f).requests = d.requests := rfl
@[simp] theorem modPort_cu (f : Port → Port) : (d.modPort p f).cu = d.cu := rfl
@[simp] theorem modPort_channels (f : Port → Port) : (d.modPort p f).channels = d.channels := rfl
@[simp] theorem modPort_relay (f : Port → Port) : (d.modPort p f).relay = d.relay := rfl
@[simp] theorem modPort_rings (f : Port → Port) : (d.modPort p f).rings = d.rings := rfl
@[simp] theorem modPort_lost (f : Port → Port) : (d.modPort p f).lost = d.lost := rfl
@[simp] theorem modPort_buffers (f : Port → Port) : (d.modPort p f).buffers = d.buffers := rfl
@[simp] theorem modPort_chan (f : Port → Port) : (d.modPort p f).chan c' = d.chan c' := rfl
@[simp] theorem modPort_ring (f : Port → Port) : (d.modPort p f).ring r' = d.ring r' := rfl

@[simp] theorem modRing_serial (f : Ring → Ring) : (d.modRing r f).serial = d.serial := rfl
@[simp] theorem modRing_requests (f : Ring → Ring) : (d.modRing r f).requests = d.requests := rfl
@[simp] theorem modRing_cu (f : Ring → Ring) : (d.modRing r f).cu = d.cu := rfl
@[simp] theorem modRing_channels (f : Ring → Ring) : (d.modRing r f).channels = d.channels := rfl
@[simp] theorem modRing_ports (f : Ring → Ring) : (d.modRing r f).ports = d.ports := rfl
@[simp] theorem modRing_relay (f : Ring → Ring) : (d.modRing r f).relay = d.relay := rfl
@[simp] theorem modRing_lost (f : Ring → Ring) : (d.modRing r f).lost = d.lost := rfl
@[simp] theorem modRing_buffers (f : Ring → Ring) : (d.modRing r f).buffers = d.buffers := rfl
@[simp] theorem modRing_chan (f : Ring → Ring) : (d.modRing r f).chan c' = d.chan c' := rfl
@[simp] theorem modRing_port (f : Ring → Ring) : (d.modRing r f).port q = d.port q := rfl

@[simp] theorem modCu_serial (f : CommandUnit → CommandUnit) : (d.modCu f).serial = d.serial := rfl
@[simp] theorem modCu_requests (f : CommandUnit → CommandUnit) : (d.modCu f).requests = d.requests := rfl
@[simp] theorem modCu_channels (f : CommandUnit → CommandUnit) : (d.modCu f).channels = d.channels := rfl
@[simp] theorem modCu_ports (f : CommandUnit → CommandUnit) : (d.modCu f).ports = d.ports := rfl
@[simp] theorem modCu_relay (f : CommandUnit → CommandUnit) : (d.modCu f).relay = d.relay := rfl
@[simp] theorem modCu_rings (f : CommandUnit → CommandUnit) : (d.modCu f).rings = d.rings := rfl
@[simp] theorem modCu_lost (f : CommandUnit → CommandUnit) : (d.modCu f).lost = d.lost := rfl
@[simp] theorem modCu_buffers (f : CommandUnit → CommandUnit) : (d.modCu f).buffers = d.buffers := rfl
@[simp] theorem modCu_chan (f : CommandUnit → CommandUnit) : (d.modCu f).chan c' = d.chan c' := rfl
@[simp] theorem modCu_port (f : CommandUnit → CommandUnit) : (d.modCu f).port q = d.port q := rfl
@[simp] theorem modCu_ring (f : CommandUnit → CommandUnit) : (d.modCu f).ring r' = d.ring r' := rfl

@[simp] theorem modRelay_serial (f : RelayUnit → RelayUnit) : (d.modRelay f).serial = d.serial := rfl
@[simp] theorem modRelay_requests (f : RelayUnit → RelayUnit) : (d.modRelay f).requests = d.requests := rfl
@[simp] theorem modRelay_cu (f : RelayUnit → RelayUnit) : (d.modRelay f).cu = d.cu := rfl
@[simp] theorem modRelay_channels (f : RelayUnit → RelayUnit) : (d.modRelay f).channels = d.channels := rfl
@[simp] theorem modRelay_ports (f : RelayUnit → RelayUnit) : (d.modRelay f).ports = d.ports := rfl
@[simp] theorem modRelay_rings (f : RelayUnit → RelayUnit) : (d.modRelay f).rings = d.rings := rfl
@[simp] theorem modRelay_lost (f : RelayUnit → RelayUnit) : (d.modRelay f).lost = d.lost := rfl
@[simp] theorem modRelay_buffers (f : RelayUnit → RelayUnit) : (d.modRelay f).buffers = d.buffers := rfl
@[simp] theorem modRelay_chan (f : RelayUnit → RelayUnit) : (d.modRelay f).chan c' = d.chan c' := rfl
@[simp] theorem modRelay_port (f : RelayUnit → RelayUnit) : (d.modRelay f).port q = d.port q := rfl
@[simp] theorem modRelay_ring (f : RelayUnit → RelayUnit) : (d.modRelay f).ring r' = d.ring r' := rfl

@[simp] theorem modCu_cu (f : CommandUnit → CommandUnit) : (d.modCu f).cu = f d.cu := rfl
@[simp] theorem modRelay_relay (f : RelayUnit → RelayUnit) : (d.modRelay f).relay = f d.relay := rfl

end Sys2Proof.Machine
end

