-- ==== Sys2Proof/Laws/Settle.lean ====
section
/-! SUPPORT. The work at the end of an event leaves the steady part of the blocks alone: one lemma for each operation it is made of. -/

namespace Sys2Proof.Machine

/-! ## The steady part under one update -/

theorem steady_modChan {d : Device} {c : ChannelId} {f : Channel → Channel} (h : (f (d.chan c)).steady = (d.chan c).steady) :
    (d.modChan c f).steady = d.steady := by
  simp only [Device.steady, Device.modChan, Device.mk.injEq, true_and, and_true]
  exact map_set_eq _ _ _ _ h

theorem steady_modPort {d : Device} {p : PortId} {f : Port → Port} (h : (f (d.port p)).steady = (d.port p).steady) :
    (d.modPort p f).steady = d.steady := by
  simp only [Device.steady, Device.modPort, Device.mk.injEq, true_and, and_true]
  exact map_set_eq _ _ _ _ h

theorem steady_modRing {d : Device} {r : RingId} {f : Ring → Ring} (h : (f (d.ring r)).steady = (d.ring r).steady) :
    (d.modRing r f).steady = d.steady := by
  simp only [Device.steady, Device.modRing, Device.mk.injEq, true_and, and_true]
  exact map_set_eq _ _ _ _ h

theorem steady_modCu {d : Device} {f : CommandUnit → CommandUnit} (h : (f d.cu).steady = d.cu.steady) :
    (d.modCu f).steady = d.steady := by
  simp only [Device.steady, Device.modCu, Device.mk.injEq, true_and, and_true]
  exact h

@[simp] theorem steady_place (d : Device) (a : Access) (b : Address) (k : Nat) (l : List Byte) :
    (d.place a b k l).steady = d.steady := rfl

theorem steady_serial (d : Device) (k : Nat) : ({ d with serial := k } : Device).steady = d.steady := rfl

theorem steady_modOutMsg {d : Device} {c : ChannelId} {f : OutMessage → OutMessage}
    (h : (f (d.chan c).out).steady = (d.chan c).out.steady) : (d.modOutMsg c f).steady = d.steady := by
  apply steady_modChan
  simp only [Channel.steady, h]

/-- The steady part of a port record under a change of one Link Map entry. -/
theorem steady_modEntry {x : Port} {n : LinkNumber} {f : MapEntry → MapEntry} (h : (f (x.entry n)).steady = (x.entry n).steady) :
    (x.modEntry n f).steady = x.steady := by
  simp only [Port.steady, Port.modEntry, Port.mk.injEq, true_and, and_true]
  exact map_set_eq _ _ _ _ h

theorem steady_modIn {d : Device} {p : PortId} {n : LinkNumber} {f : InHalf → InHalf}
    (h : { f (d.inHalf p n) with inFlight := 0 } = { d.inHalf p n with inFlight := 0 }) :
    (d.modIn p n f).steady = d.steady := by
  apply steady_modPort
  apply steady_modEntry
  simp only [MapEntry.steady, MapEntry.mk.injEq, true_and]
  exact h

theorem steady_modOut {d : Device} {p : PortId} {n : LinkNumber} {f : OutHalf → OutHalf}
    (h : (f (d.outHalf p n)).owner = (d.outHalf p n).owner) : (d.modOut p n f).steady = d.steady := by
  apply steady_modPort
  apply steady_modEntry
  simp only [MapEntry.steady, MapEntry.mk.injEq, and_true, OutHalf.mk.injEq]
  exact h

/-! ## Reservations and the waiting lists -/

@[simp] theorem reserve_steady (d : Device) (r : RingId) (k : Nat) : (d.reserve r k).steady = d.steady := steady_modRing rfl

@[simp] theorem release_steady (d : Device) (r : RingId) (k : Nat) : (d.release r k).steady = d.steady := steady_modRing rfl

@[simp] theorem unwait_steady (d : Device) (r : RingId) (q : Requester) : (d.unwait r q).steady = d.steady := steady_modRing rfl

@[simp] theorem waitFor_steady (d : Device) (r : RingId) (q : Requester) : (d.waitFor r q).steady = d.steady := by
  apply steady_modRing
  split <;> rfl

/-- The entries of a pending control list other than GRANT entries are as they were when a grant is added. -/
theorem addGrant_filter (n : LinkNumber) (k : Nat) (l : List ControlEntry) :
    (addGrant n k l).filter (fun e => !e.isGrant) = l.filter (fun e => !e.isGrant) := by
  unfold addGrant
  simp only
  split
  · clear * -
    induction l with
    | nil => rfl
    | cons e l ih =>
      rw [List.map_cons, List.filter_cons, List.filter_cons, ih]
      cases e <;> simp only [ControlEntry.isGrant]
      split <;> simp
  · simp [ControlEntry.isGrant]

theorem modUnoffered_steady (x : Port) (n : LinkNumber) (k : Nat) : (x.modUnoffered (addGrant n k)).steady = x.steady := by
  unfold Port.modUnoffered
  split
  · simp only [Port.steady, Port.mk.injEq, true_and, and_true, List.filter_append, addGrant_filter]
    rw [← List.filter_append, List.take_append_drop]
  · simp only [Port.steady, addGrant_filter]

@[simp] theorem queueGrant_steady (d : Device) (p : PortId) (n : LinkNumber) (k : Nat) : (d.queueGrant p n k).steady = d.steady := by
  unfold Device.queueGrant
  rw [steady_modPort (modUnoffered_steady _ _ _), steady_modIn rfl]

@[simp] theorem generate_steady (d : Device) (p : PortId) (n : LinkNumber) : (d.generate p n).1.steady = d.steady := by
  unfold Device.generate
  split
  · rfl
  · simp only
    repeat' split
    all_goals simp

@[simp] theorem serveWaiter_steady (d : Device) (r : RingId) (q : Requester) : (d.serveWaiter r q).1.steady = d.steady := by
  unfold Device.serveWaiter
  cases q with
  | outRecord c =>
    dsimp only
    split
    · rfl
    · rw [steady_modOutMsg, unwait_steady, reserve_steady]
      generalize (((d.reserve r 1).unwait r (.outRecord c)).chan c).out = o
      rcases o with ⟨ph, _, _, _, _⟩
      cases ph <;> rfl
  | commandUnit =>
    dsimp only
    split
    · rfl
    · rw [steady_modCu rfl, unwait_steady, reserve_steady]
  | inHalf p n =>
    dsimp only
    split
    · rfl
    · have h := generate_steady d p n
      split
      · next e he => rw [he] at h; exact h
      · next e he => rw [he] at h; simpa using h

@[simp] theorem walk_steady (r : RingId) (l : List Requester) (d : Device) : (Device.walk r l d).steady = d.steady := by
  induction l generalizing d with
  | nil => rfl
  | cons q l ih =>
    have h := serveWaiter_steady d r q
    unfold Device.walk
    split
    · next e he => rw [he] at h; rw [ih]; exact h
    · next e he => rw [he] at h; exact h

@[simp] theorem walkRing_steady (d : Device) (r : RingId) : (d.walkRing r).steady = d.steady := by
  unfold Device.walkRing
  rw [steady_modRing rfl]
  split
  · exact walk_steady r _ d
  · rfl

/-- A fold of changes that leave a projection leaves it. -/
theorem foldl_keeps {α β γ : Type} (g : α → γ) (f : α → β → α) (h : ∀ a b, g (f a b) = g a) (l : List β) (a : α) :
    g (l.foldl f a) = g a := by
  induction l generalizing a with
  | nil => rfl
  | cons b l ih => rw [List.foldl_cons, ih, h]

@[simp] theorem walkRings_steady (d : Device) : d.walkRings.steady = d.steady :=
  foldl_keeps Device.steady Device.walkRing walkRing_steady _ _

/-! ## The ports' own work -/

theorem offer_steady {d : Device} {p : PortId} {o : Offer} (h : (d.port p).tx.steady = .idle) :
    (d.offer p o).steady = d.steady := by
  apply steady_modPort
  simp only [Port.steady, h]
  rfl

theorem startMessage_steady (d : Device) (p : PortId) (c : ChannelId) : (d.startMessage p c).steady = d.steady := by
  unfold Device.startMessage
  simp only
  split
  · next h =>
    rw [steady_modOutMsg, steady_modOut rfl]
    have e : ((d.modOut p (d.chan c).number fun h => { h with credits := h.credits - 1, openMark := true }).chan c) =
      d.chan c := rfl
    rw [e]
    simp only [beq_iff_eq] at h
    simp only [OutMessage.steady, h, Phase.steady]
  · rfl


theorem startMessage_tx (d : Device) (c : ChannelId) (p : PortId) : ((d.startMessage p c).port p).tx = (d.port p).tx := by
  unfold Device.startMessage
  simp only
  split
  · simp only [Device.modOutMsg, modChan_port, Device.modOut, port_modPort_self]
    rfl
  · rfl

theorem offerUnit_steady {d : Device} {p : PortId} {c : ChannelId} (h : (d.port p).tx.steady = .idle) :
    (d.offerUnit p c).steady = d.steady := by
  unfold Device.offerUnit
  split
  · rfl
  · simp only
    rw [offer_steady, steady_modPort rfl, startMessage_steady]
    simpa [startMessage_tx] using h

theorem sendMessage_steady {d : Device} {p : PortId} {c : ChannelId} (h : (d.port p).tx.steady = .idle) :
    (d.sendMessage p c).steady = d.steady := by
  unfold Device.sendMessage
  simp only
  repeat' split
  · rfl
  · exact offerUnit_steady h
  · exact offer_steady h

theorem offerHead_steady {d : Device} {p : PortId} (h : (d.port p).tx.steady = .idle) : (d.offerHead p).steady = d.steady := by
  unfold Device.offerHead
  split
  · rfl
  · simp only
    split <;> rw [offer_steady (by simpa using h), steady_modPort rfl]

theorem releaseTurn_steady {x : Port} (h : x.turn = .ours) : x.releaseTurn.steady = x.steady := by
  unfold Port.releaseTurn Port.cutSlice Port.endSlice Port.moveToTail
  split
  · split <;> simp only [Port.steady, h] <;> rfl
  · simp only [Port.steady, h] ; rfl

theorem proceed_steady {d : Device} {p : PortId} (h : (d.port p).tx.steady = .idle) (ht : (d.port p).turn = .ours) :
    (d.proceed p).steady = d.steady := by
  unfold Device.proceed
  simp only
  repeat' split
  all_goals first
    | rfl
    | exact offer_steady h
    | exact offerUnit_steady h
    | exact sendMessage_steady h
    | exact offerHead_steady h
    | exact steady_modPort (releaseTurn_steady ht)

@[simp] theorem pickChannel_steady (d : Device) (p : PortId) : (d.pickChannel p).steady = d.steady := by
  unfold Device.pickChannel
  simp only
  repeat' split
  all_goals first
    | rfl
    | exact steady_modPort rfl

@[simp] theorem transmit_steady (d : Device) (p : PortId) : (d.transmit p).steady = d.steady := by
  unfold Device.transmit
  split
  · next h =>
    simp only [Bool.and_eq_true, beq_iff_eq] at h
    exact proceed_steady (by rw [h.2]; rfl) h.1
  · rfl

@[simp] theorem askForTurn_steady (d : Device) (p : PortId) : (d.askForTurn p).steady = d.steady := by
  unfold Device.askForTurn
  simp only
  split
  · next h =>
    simp only [Bool.and_eq_true, beq_iff_eq] at h
    apply steady_modPort
    simp only [Port.steady, h.1.1]
    rfl
  · rfl

@[simp] theorem restage_steady (d : Device) (p : PortId) : (d.restage p).steady = d.steady := by
  unfold Device.restage
  simp only
  split
  · rfl
  · exact steady_modPort rfl

@[simp] theorem issueRead_steady (d : Device) (p : PortId) : (d.issueRead p).steady = d.steady := by
  unfold Device.issueRead
  simp only
  split
  · rfl
  · split
    · rfl
    · split
      · rfl
      · refine (steady_modPort ?_).trans (steady_place ..)
        rfl

@[simp] theorem issueCopy_steady (d : Device) (p : PortId) : (d.issueCopy p).steady = d.steady := by
  unfold Device.issueCopy
  simp only
  split
  · rfl
  · split
    · rfl
    · refine (steady_serial _ _).trans (steady_modPort ?_)
      rfl

@[simp] theorem issueOutbound_steady (d : Device) (p : PortId) : (d.issueOutbound p).steady = d.steady := by
  simp [Device.issueOutbound]

@[simp] theorem endPass_steady (d : Device) (p : PortId) : (d.modPort p Port.endPass).steady = d.steady := steady_modPort rfl

@[simp] theorem service_steady (d : Device) (p : PortId) : (d.service p).steady = d.steady := by
  unfold Device.service
  split <;> simp

/-! ## Record writes, the head command's slot and the command fetch -/

@[simp] theorem issueRecord_steady (d : Device) (r : RingId) : (d.issueRecord r).steady = d.steady := by
  unfold Device.issueRecord
  simp only
  split
  · rw [steady_modRing rfl, steady_place]
  · rfl

@[simp] theorem issueRecords_steady (d : Device) : d.issueRecords.steady = d.steady :=
  foldl_keeps Device.steady Device.issueRecord issueRecord_steady _ _

@[simp] theorem requestSlot_steady (d : Device) : d.requestSlot.steady = d.steady := by
  unfold Device.requestSlot
  repeat' split
  · rfl
  · simp
  · rw [steady_modCu rfl, reserve_steady]

@[simp] theorem fetchCommands_steady (d : Device) : d.fetchCommands.steady = d.steady := by
  unfold Device.fetchCommands
  simp only
  split
  · rfl
  · rw [steady_modCu rfl, steady_place]

/-- The work at the end of an event leaves the steady part of the blocks as the event left it. -/
@[simp] theorem settle_steady (d : Device) : d.settle.steady = d.steady := by
  unfold Device.settle
  rw [fetchCommands_steady, requestSlot_steady, issueRecords_steady, foldl_keeps Device.steady Device.service service_steady,
    walkRings_steady]

/-! ## What is steady, block by block -/

/-- Two devices with the same steady part have the same Relay Unit. -/
theorem relay_of_steady {d e : Device} (h : d.steady = e.steady) : d.relay = e.relay := by
  have := congrArg Device.relay h
  exact this

theorem lost_of_steady {d e : Device} (h : d.steady = e.steady) : d.lost = e.lost := by
  have := congrArg Device.lost h
  exact this

theorem buffers_of_steady {d e : Device} (h : d.steady = e.steady) : d.buffers = e.buffers := by
  have := congrArg Device.buffers h
  exact this

theorem cu_of_steady {d e : Device} (h : d.steady = e.steady) : d.cu.steady = e.cu.steady := by
  have := congrArg Device.cu h
  exact this

theorem chan_of_steady {d e : Device} (h : d.steady = e.steady) (c : ChannelId) : (d.chan c).steady = (e.chan c).steady := by
  have := congrArg (fun x => (Device.channels x).get c) h
  simpa [Device.steady, Device.chan, Device.port, Device.ring] using this

theorem port_of_steady {d e : Device} (h : d.steady = e.steady) (p : PortId) : (d.port p).steady = (e.port p).steady := by
  have := congrArg (fun x => (Device.ports x).get p) h
  simpa [Device.steady, Device.chan, Device.port, Device.ring] using this

theorem ring_of_steady {d e : Device} (h : d.steady = e.steady) (r : RingId) : (d.ring r).steady = (e.ring r).steady := by
  have := congrArg (fun x => (Device.rings x).get r) h
  simpa [Device.steady, Device.chan, Device.port, Device.ring] using this

/-- The turn state, told by its holder, stays so told. -/
@[simp] theorem turn_steady_steady (t : TurnState) : t.steady.steady = t.steady := by cases t <;> rfl

@[simp] theorem tx_steady_steady (t : Transfer) : t.steady.steady = t.steady := by cases t <;> rfl

/-- What a port keeps of its own is part of its steady part. -/
theorem own_steady (x : Port) : x.steady.own = x.own := by
  simp [Port.own, Port.steady]

theorem own_of_steady {d e : Device} (h : d.steady = e.steady) (p : PortId) : (d.port p).own = (e.port p).own := by
  rw [← own_steady, port_of_steady h p, own_steady]

/-- Two devices have the same steady part when their blocks have. -/
theorem steady_ext {d e : Device} (cu : d.cu.steady = e.cu.steady) (chan : ∀ c, (d.chan c).steady = (e.chan c).steady)
    (port : ∀ p, (d.port p).steady = (e.port p).steady) (ring : ∀ r, (d.ring r).steady = (e.ring r).steady)
    (relay : d.relay = e.relay) (lost : d.lost = e.lost) (buffers : d.buffers = e.buffers) : d.steady = e.steady := by
  simp only [Device.steady, Device.mk.injEq, true_and]
  refine ⟨cu, ?_, ?_, relay, ?_, lost, buffers⟩
  · exact vector_ext_get fun c => by simpa [Device.chan] using chan c
  · exact vector_ext_get fun c => by simpa [Device.port] using port c
  · exact vector_ext_get fun c => by simpa [Device.ring] using ring c

end Sys2Proof.Machine
end

