-- ==== Sys2Proof/Laws/Frames.lean ====
section
/-! SUPPORT. What notices, completions, closes and losses never do: one lemma for each of their operations, saying that the ports keep
their own fields, a port that is down stays down, the command ring's indices stay, and NQ's write queue only gains records. -/

namespace Sys2Proof.Machine

/-- One device may follow another by bookkeeping alone. -/
structure Device.Follows (e d : Device) : Prop where
  own : ∀ p, (e.port p).own = (d.port p).own
  quiet : ∀ p, (d.port p).up = false → (d.port p).LinkQuiet → (e.port p).LinkQuiet
  down : ∀ p, (d.port p).up = false → (d.port p).MapDown → (e.port p).MapDown
  held : e.cu.held = d.cu.held
  taken : e.cu.taken = d.cu.taken
  fetch : e.cu.fetch = d.cu.fetch
  producer : e.cu.producer = d.cu.producer
  base : e.cu.base = d.cu.base
  size : e.cu.size = d.cu.size
  queue : ∃ l, (e.ring 4).queue = (d.ring 4).queue ++ l

namespace Device.Follows

theorem self (d : Device) : d.Follows d :=
  ⟨fun _ => rfl, fun _ _ h => h, fun _ _ h => h, rfl, rfl, rfl, rfl, rfl, rfl, [], by simp⟩

/-- A port's state is one of its own fields. -/
theorem up_of_own {x y : Port} (h : x.own = y.own) : x.up = y.up := by
  have := congrArg Port.state h
  unfold Port.up
  simp only [Port.own] at this
  rw [this]

theorem trans {f e d : Device} (h : f.Follows e) (g : e.Follows d) : f.Follows d := by
  refine ⟨fun p => (h.own p).trans (g.own p), fun p hu hd => ?_, fun p hu hd => ?_, h.held.trans g.held, h.taken.trans g.taken,
    h.fetch.trans g.fetch, h.producer.trans g.producer, h.base.trans g.base, h.size.trans g.size, ?_⟩
  · exact h.quiet p ((up_of_own (g.own p)).trans hu) (g.quiet p hu hd)
  · exact h.down p ((up_of_own (g.own p)).trans hu) (g.down p hu hd)
  · obtain ⟨l, hl⟩ := g.queue
    obtain ⟨m, hm⟩ := h.queue
    exact ⟨l ++ m, by rw [hm, hl, List.append_assoc]⟩

/-- A change that touches no port, no command index and no write queue of NQ. -/
theorem of_eq {e d : Device} (hp : e.ports = d.ports) (hc : e.cu = d.cu) (hq : (e.ring 4).queue = (d.ring 4).queue) :
    e.Follows d := by
  have hport : ∀ p, e.port p = d.port p := fun p => by simp only [Device.port, hp]
  exact ⟨fun p => by rw [hport], fun p _ h => by rw [hport]; exact h,
    fun p _ h => by rw [hport]; exact h, by rw [hc], by rw [hc], by rw [hc], by rw [hc], by rw [hc],
    by rw [hc], [], by rw [hq, List.append_nil]⟩

/-- The same, after bookkeeping. -/
theorem after {e d a : Device} (h : d.Follows a) (hp : e.ports = d.ports) (hc : e.cu = d.cu)
    (hq : (e.ring 4).queue = (d.ring 4).queue) : e.Follows a := trans (of_eq hp hc hq) h

variable {a d : Device}

theorem modChan {c : ChannelId} {f : Channel → Channel} (h : d.Follows a) : (d.modChan c f).Follows a :=
  after h rfl rfl rfl

theorem modRelay {f : RelayUnit → RelayUnit} (h : d.Follows a) : (d.modRelay f).Follows a := after h rfl rfl rfl

theorem modOutMsg {c : ChannelId} {f : OutMessage → OutMessage} (h : d.Follows a) : (d.modOutMsg c f).Follows a := modChan h

theorem modInMsg {c : ChannelId} {f : InMessage → InMessage} (h : d.Follows a) : (d.modInMsg c f).Follows a := modChan h

theorem countChan {c : ChannelId} {f : ChannelCounters → ChannelCounters} (h : d.Follows a) : (d.countChan c f).Follows a :=
  modChan h

theorem countRelay {c : ChannelId} {f : RelayCounters → RelayCounters} (h : d.Follows a) : (d.countRelay c f).Follows a :=
  modRelay h

theorem setPair {c : ChannelId} {x : Option RelayPair} (h : d.Follows a) : (d.setPair c x).Follows a := modRelay h

theorem modPair {c : ChannelId} {f : RelayPair → RelayPair} (h : d.Follows a) : (d.modPair c f).Follows a := setPair h

theorem place {x : Access} {b : Address} {k : Nat} {l : List Byte} (h : d.Follows a) : (d.place x b k l).Follows a :=
  after h rfl rfl rfl

theorem modBuffer {b : Nat} {f : Buffer → Buffer} (h : d.Follows a) : (d.modBuffer b f).Follows a := after h rfl rfl rfl

/-- A change of a ring that keeps its write queue. -/
theorem modRing {r : RingId} {f : Ring → Ring} (hf : ∀ x, (f x).queue = x.queue) (h : d.Follows a) : (d.modRing r f).Follows a := by
  refine after h rfl rfl ?_
  rw [ring_modRing]
  split
  · next e => rw [hf, e]
  · rfl

/-- A change of the Command Unit that keeps its list of fetched commands and its indices. -/
theorem modCu {f : CommandUnit → CommandUnit}
    (hf : ∀ x, (f x).held = x.held ∧ (f x).taken = x.taken ∧ (f x).fetch = x.fetch ∧ (f x).producer = x.producer ∧
      (f x).base = x.base ∧ (f x).size = x.size)
    (h : d.Follows a) : (d.modCu f).Follows a := by
  refine Device.Follows.trans ?_ h
  obtain ⟨h1, h2, h3, h4, h5, h6⟩ := hf d.cu
  exact ⟨fun _ => rfl, fun _ _ h => h, fun _ _ h => h, h1, h2, h3, h4, h5, h6, [], by simp⟩

/-- A change of a port that keeps its own fields, and that keeps it down if it is down. -/
theorem modPort {p : PortId} {f : Port → Port} (ho : (f (d.port p)).own = (d.port p).own)
    (hq : (d.port p).up = false → (d.port p).LinkQuiet → (f (d.port p)).LinkQuiet)
    (hd : (d.port p).up = false → (d.port p).MapDown → (f (d.port p)).MapDown) (h : d.Follows a) : (d.modPort p f).Follows a := by
  refine Device.Follows.trans ?_ h
  refine ⟨fun q => ?_, fun q hu hl => ?_, fun q hu hl => ?_, rfl, rfl, rfl, rfl, rfl, rfl, [], by simp⟩
  · rw [port_modPort]
    split
    · next e => rw [ho, e]
    · rfl
  · rw [port_modPort]
    split
    · next e => subst e; exact hq hu hl
    · exact hl
  · rw [port_modPort]
    split
    · next e => subst e; exact hd hu hl
    · exact hl

/-! ## The completion rings and NQ -/

theorem reserve {r : RingId} {k : Nat} (h : d.Follows a) : (d.reserve r k).Follows a := modRing (fun _ => rfl) h

theorem release {r : RingId} {k : Nat} (h : d.Follows a) : (d.release r k).Follows a := modRing (fun _ => rfl) h

theorem unwait {r : RingId} {q : Requester} (h : d.Follows a) : (d.unwait r q).Follows a := modRing (fun _ => rfl) h

theorem waitFor {r : RingId} {q : Requester} (h : d.Follows a) : (d.waitFor r q).Follows a :=
  modRing (fun _ => by split <;> rfl) h

theorem unwaitPort {p : PortId} (h : d.Follows a) : (d.unwaitPort p).Follows a := by
  refine after h rfl rfl ?_
  simp only [Device.unwaitPort, Device.ring, get_map]

theorem post {r : RingId} {b : RecordBody} (h : d.Follows a) : (d.post r b).Follows a := by
  refine Device.Follows.trans ?_ h
  refine ⟨fun _ => rfl, fun _ _ h => h, fun _ _ h => h, rfl, rfl, rfl, rfl, rfl, rfl, ?_⟩
  by_cases e : r = 4
  · subst e
    refine ⟨[{ order := d.serial, body := b }], ?_⟩
    have e := ring_modRing_self d 4 fun x => { x with queue := x.queue ++ [{ order := d.serial, body := b }] }
    exact congrArg Ring.queue e
  · refine ⟨[], ?_⟩
    simp only [Device.post, Device.ring, Device.modRing, List.append_nil]
    rw [get_set_ne _ _ e]

theorem postCompletion {x : Completion} (h : d.Follows a) : (d.postCompletion x).Follows a := post h

theorem postNotice {b : NoticeBody} (h : d.Follows a) : (d.postNotice b).Follows a :=
  after (post h) rfl rfl rfl

theorem asyncNotice {b : NoticeBody} (h : d.Follows a) : (d.asyncNotice b).Follows a := by
  unfold Device.asyncNotice
  split
  · exact after h rfl rfl rfl
  · exact postNotice (reserve h)

theorem badNotify {t : Nat} {i : BitVec 12} (h : d.Follows a) : (d.badNotify t i).Follows a := asyncNotice h

theorem commandDone {s : Byte} {t : Half} {r : Result} {k : Nat} (h : d.Follows a) : (d.commandDone s t r k).Follows a :=
  postNotice h

/-- A fold of bookkeeping is bookkeeping. -/
theorem foldl {β : Type} {f : Device → β → Device} (hf : ∀ d b, (f d b).Follows d) (l : List β) (h : d.Follows a) :
    (l.foldl f d).Follows a := by
  induction l generalizing d with
  | nil => exact h
  | cons b l ih => exact ih ((hf d b).trans h)

theorem defer {w : DeferredWork} {t : Half} {s : Byte} (h : d.Follows a) : (d.defer w t s).Follows a :=
  modCu (fun _ => ⟨rfl, rfl, rfl, rfl, rfl, rfl⟩) h

theorem weighBarriers (h : d.Follows a) : d.weighBarriers.Follows a := by
  unfold Device.weighBarriers
  exact foldl (fun _ _ => commandDone (self _)) _ (modCu (fun _ => ⟨rfl, rfl, rfl, rfl, rfl, rfl⟩) h)

theorem completeDeferred {s : DeferredWork → Bool} {r : Result} {k : Nat} (h : d.Follows a) :
    (d.completeDeferred s r k).Follows a := by
  unfold Device.completeDeferred
  split
  · exact h
  · exact weighBarriers (commandDone (modCu (fun _ => ⟨rfl, rfl, rfl, rfl, rfl, rfl⟩) h))

/-! ## The Link Map -/

/-- A change of a Link Map entry that keeps what it must in an entry of a port that is down. -/
theorem modEntry {p : PortId} {n : LinkNumber} {f : MapEntry → MapEntry}
    (hf : (d.port p).up = false → ∀ e : MapEntry,
      (e.outbound.credits = 0 ∧ e.outbound.openMark = false ∧ e.inbound.granted = 0 ∧ e.inbound.inFlight = 0 ∧
        e.inbound.revokePending = false ∧ e.inbound.openMark = false ∧ e.inbound.discard = false) → e = (d.port p).entry n →
      ((f e).outbound.credits = 0 ∧ (f e).outbound.openMark = false ∧ (f e).inbound.granted = 0 ∧
        (f e).inbound.inFlight = 0 ∧ (f e).inbound.revokePending = false ∧ (f e).inbound.openMark = false ∧
        (f e).inbound.discard = false))
    (h : d.Follows a) : (d.modPort p fun x => x.modEntry n f).Follows a := by
  refine modPort rfl (fun _ hl => ⟨hl.turn, hl.timers, hl.framing, hl.settled, hl.pick, hl.staging⟩) (fun hu hl => ?_) h
  refine ⟨hl.control, fun m => ?_⟩
  rw [entry_modEntry]
  split
  · exact hf hu _ (hl.map n) rfl
  · exact hl.map m

theorem bind {c : ChannelId} (h : d.Follows a) : (d.bind c).Follows a := by
  unfold Device.bind
  simp only
  split
  · exact modEntry (fun _ _ he _ => he) h
  · exact modEntry (fun _ _ he _ => he) h

theorem unbind {c : ChannelId} (h : d.Follows a) : (d.unbind c).Follows a := by
  unfold Device.unbind
  simp only
  split
  · exact modEntry (fun _ e he _ => by dsimp only; split <;> exact he) h
  · exact modEntry (fun _ e he _ => by dsimp only; split <;> exact he) h

theorem enlist {c : ChannelId} (h : d.Follows a) : (d.enlist c).Follows a := by
  unfold Device.enlist
  exact modPort rfl (fun _ hl => ⟨hl.turn, hl.timers, hl.framing, hl.settled, hl.pick, hl.staging⟩)
    (fun _ hl => ⟨hl.control, hl.map⟩) h

theorem delist_own (x : Port) (c : ChannelId) : (x.delist c).own = x.own := by
  unfold Port.delist
  simp only
  repeat' split
  all_goals rfl

theorem delist_quiet {x : Port} {c : ChannelId} (hl : x.LinkQuiet) : (x.delist c).LinkQuiet := by
  unfold Port.delist
  simp only
  split
  · next e k h => rw [hl.pick] at h; cases h
  · exact ⟨hl.turn, hl.timers, hl.framing, hl.settled, hl.pick, hl.staging⟩

theorem delist_down {x : Port} {c : ChannelId} (hl : x.MapDown) : (x.delist c).MapDown := by
  unfold Port.delist
  simp only
  repeat' split
  all_goals exact ⟨hl.control, hl.map⟩

theorem delist {c : ChannelId} (h : d.Follows a) : (d.delist c).Follows a :=
  modPort (delist_own _ _) (fun _ hl => delist_quiet hl) (fun _ hl => delist_down hl) h

theorem modUnoffered_own (x : Port) (f : List ControlEntry → List ControlEntry) : (x.modUnoffered f).own = x.own := by
  unfold Port.modUnoffered
  split <;> rfl

/-- The generator acts on no port that is down. -/
theorem generatorOwner_down {p : PortId} {n : LinkNumber} {c : ChannelId} (h : d.generatorOwner p n = some c) :
    (d.port p).state = .active := by
  unfold Device.generatorOwner at h
  split at h
  · cases h
  · split at h
    · next hc => simp only [Bool.and_eq_true, beq_iff_eq] at hc; exact hc.1.1.1.1
    · cases h

theorem queueGrant {p : PortId} {n : LinkNumber} {k : Nat} (hu : (d.port p).state = .active) (h : d.Follows a) :
    (d.queueGrant p n k).Follows a := by
  have hup : (d.port p).up = true := by simp [Port.up, hu]
  unfold Device.queueGrant
  refine modPort (modUnoffered_own _ _) (fun hd _ => ?_) (fun hd _ => ?_) (modEntry (fun hd => ?_) h)
  iterate 2
    have hp : ((d.modIn p n fun h => { h with inFlight := h.inFlight + k }).port p).up = (d.port p).up := by
      rw [Device.modIn, port_modPort_self]; rfl
    rw [hp, hup] at hd
    cases hd
  · rw [hup] at hd
    cases hd

theorem generate {p : PortId} {n : LinkNumber} (h : d.Follows a) : (d.generate p n).1.Follows a := by
  unfold Device.generate
  split
  · exact h
  · next c hc =>
    have hs := generatorOwner_down hc
    simp only
    repeat' split
    · exact h
    · exact queueGrant hs h
    · exact h
    · exact queueGrant (by simpa [Device.reserve] using hs) (reserve h)

theorem runGenerator {p : PortId} {n : LinkNumber} (h : d.Follows a) : (d.runGenerator p n).Follows a := by
  have g := generate (p := p) (n := n) h
  unfold Device.runGenerator
  split
  · next c e _ he => rw [he] at g; exact waitFor g
  · next c e _ he =>
    rw [he] at g
    split
    · exact g
    · exact unwait g
  · next e b _ he => rw [he] at g; exact g

theorem runGenerators {p : PortId} (h : d.Follows a) : (d.runGenerators p).Follows a :=
  foldl (fun _ _ => runGenerator (self _)) _ h

theorem releaseCredits {o : Option ChannelId} {k : Nat} (h : d.Follows a) : (d.releaseCredits o k).Follows a := by
  unfold Device.releaseCredits
  split
  · split
    · exact release h
    · exact h
  · exact h

/-- An inbound half of a port that is up may change in any way. -/
theorem modIn_up {p : PortId} {n : LinkNumber} {f : InHalf → InHalf} (hu : (d.port p).up = true) (h : d.Follows a) :
    (d.modIn p n f).Follows a := modEntry (fun hd => by rw [hu] at hd; cases hd) h

/-- The pending control list of a port that is up may change in any way. -/
theorem modPort_up {p : PortId} {f : Port → Port} (ho : ∀ x, (f x).own = x.own) (hu : (d.port p).up = true) (h : d.Follows a) :
    (d.modPort p f).Follows a := modPort (ho _) (fun hd => by rw [hu] at hd; cases hd) (fun hd => by rw [hu] at hd; cases hd) h

/-- Bookkeeping takes no port up or down. -/
theorem up_eq {e : Device} (h : e.Follows d) (p : PortId) : (e.port p).up = (d.port p).up := up_of_own (h.own p)

/-- The changes a revoke request makes on a port that is up. -/
theorem queueRevoke {b : Device} {p : PortId} {n : LinkNumber} {o : Option ChannelId} {k : Nat} {pending : Bool}
    {f : List ControlEntry → List ControlEntry} (hu : (d.port p).up = true) (h : d.Follows a)
    (hb : b = ((d.modPort p fun x => x.modUnoffered f).modIn p n fun x => { x with inFlight := x.inFlight - k }).releaseCredits o k) :
    (if pending = true then b
      else (b.modIn p n fun x => { x with revokePending := true }).modPort p
        fun x => { x with control := x.control ++ [.revoke n] }).Follows a := by
  have h1 : ∀ c : Device, d.Follows c → b.Follows c := fun c hc => by
    have g := modPort_up (f := fun x => x.modUnoffered f) (fun x => modUnoffered_own x f) hu hc
    have u := modPort_up (f := fun x => x.modUnoffered f) (fun x => modUnoffered_own x f) hu (self d)
    rw [hb]
    exact releaseCredits (modIn_up (by rw [up_eq u, hu]) g)
  have hub : (b.port p).up = true := by rw [up_eq (h1 d (self d)), hu]
  split
  · exact h1 a h
  · exact modPort_up (fun _ => rfl) (by rw [up_eq (modIn_up hub (self b)), hub]) (modIn_up hub (h1 a h))

theorem requestRevoke {p : PortId} {n : LinkNumber} (h : d.Follows a) : (d.requestRevoke p n).Follows a := by
  unfold Device.requestRevoke
  dsimp only
  cases ho : (d.inHalf p n).owner with
  | none =>
    dsimp only
    split
    · next hu => exact queueRevoke hu h rfl
    · exact h
  | some c =>
    dsimp only
    split
    · next hu => exact queueRevoke (d := d.unwait (cqRing (d.chan c).ring) (.inHalf p n)) hu (unwait h) rfl
    · exact unwait h

theorem requestAbandon {p : PortId} {n : LinkNumber} (h : d.Follows a) : (d.requestAbandon p n).Follows a := by
  unfold Device.requestAbandon
  split
  · next hc =>
    refine modPort rfl (fun _ hl => ⟨hl.turn, hl.timers, hl.framing, hl.settled, hl.pick, hl.staging⟩) (fun _ hl => ?_) h
    have := (hl.map n).2.1
    simp only [Bool.and_eq_true, Device.outHalf] at hc
    rw [hc.1] at this
    cases this
  · exact h

theorem returnCredits {p : PortId} (h : d.Follows a) : (d.returnCredits p).Follows a :=
  foldl (fun _ _ => releaseCredits (self _)) _ h

/-! ## Sending -/

theorem fetchRecords {c : ChannelId} (h : d.Follows a) : (d.fetchRecords c).Follows a := by
  unfold Device.fetchRecords
  simp only
  split
  · exact modChan (place h)
  · exact h

theorem startNext {c : ChannelId} (h : d.Follows a) : (d.startNext c).Follows a := by
  unfold Device.startNext
  simp only
  repeat' split
  · exact modOutMsg (waitFor h)
  · exact modOutMsg (reserve h)
  · exact h

theorem withdrawRequest {c : ChannelId} (h : d.Follows a) : (d.withdrawRequest c).Follows a := by
  unfold Device.withdrawRequest
  split
  · exact modOutMsg (unwait h)
  · exact h

theorem unstage {c : ChannelId} (h : d.Follows a) : (d.unstage c).Follows a := by
  unfold Device.unstage
  refine modPort (by split <;> rfl) (fun _ hl => ?_) (fun _ hl => ?_) h
  · split
    · exact ⟨hl.turn, hl.timers, hl.framing, hl.settled, hl.pick, ⟨hl.staging.1, rfl⟩⟩
    · exact hl
  · split
    · exact ⟨hl.control, hl.map⟩
    · exact hl

theorem completeSend {c : ChannelId} {s : Status} {k : Nat} (h : d.Follows a) : (d.completeSend c s k).Follows a := by
  unfold Device.completeSend
  simp only
  split
  · exact h
  · exact fetchRecords (startNext (modChan (unstage (postCompletion h))))

theorem setBack {c : ChannelId} (h : d.Follows a) : (d.setBack c).Follows a := countChan (modOutMsg h)

/-! ## Relaying -/

theorem runPairGenerator {i : ChannelId} (h : d.Follows a) : (d.runPairGenerator i).Follows a := runGenerator h

theorem returnCell {i : ChannelId} {k : CellId} (h : d.Follows a) : (d.returnCell i k).Follows a := runPairGenerator (modPair h)

theorem refreshPhase {i : ChannelId} (h : d.Follows a) : (d.refreshPhase i).Follows a := by
  unfold Device.refreshPhase
  split
  · exact h
  · exact modOutMsg h

theorem popQueue {i : ChannelId} (h : d.Follows a) : (d.popQueue i).Follows a := by
  unfold Device.popQueue
  split
  · exact h
  · split
    · exact h
    · exact returnCell (refreshPhase (modOutMsg (modPair (unstage h))))

theorem cancelCell {i : ChannelId} {k : CellId} (h : d.Follows a) : (d.cancelCell i k).Follows a := by
  unfold Device.cancelCell
  refine modRelay (modPort rfl (fun _ hl => ?_) (fun _ hl => ⟨hl.control, hl.map⟩) h)
  refine ⟨hl.turn, hl.timers, hl.framing, hl.settled, hl.pick, ⟨?_, hl.staging.2⟩⟩
  simp [hl.staging.1]

theorem issueOne {p : PortId} (h : d.Follows a) : (d.issueOne p).Follows a := by
  unfold Device.issueOne
  split
  · exact h
  · split
    · exact h
    · next b rest hs =>
      have g : ∀ l, (d.modPort p fun x => { x with inStaging := l }).Follows a := fun l => by
        refine modPort rfl (fun _ hl => ?_) (fun _ hl => ⟨hl.control, hl.map⟩) h
        rw [hl.staging.1] at hs
        cases hs
      dsimp only
      split
      · split
        · exact g _
        · exact modBuffer (place (g _))
      · exact after (g _) rfl rfl rfl

theorem issueInbound {p : PortId} (h : d.Follows a) : (d.issueInbound p).Follows a := issueOne (issueOne (issueOne (issueOne h)))

theorem giveUpCell {i : ChannelId} {k : CellId} (h : d.Follows a) : (d.giveUpCell i k).Follows a :=
  issueInbound (returnCell (cancelCell h))

theorem giveUpHead {i : ChannelId} (h : d.Follows a) : (d.giveUpHead i).Follows a := by
  unfold Device.giveUpHead
  split
  · exact h
  · exact issueInbound (popQueue (cancelCell h))

theorem giveUpFilling {i : ChannelId} (h : d.Follows a) : (d.giveUpFilling i).Follows a := by
  unfold Device.giveUpFilling
  split
  · exact h
  · exact returnCell (modPair (cancelCell h))

theorem queueFilling {i : ChannelId} {k : Nat} (h : d.Follows a) : (d.queueFilling i k).Follows a := by
  unfold Device.queueFilling
  repeat' split
  · exact h
  · exact h
  · exact giveUpCell (countRelay (modPair h))
  · exact refreshPhase (modPair h)

theorem relayEndComplete {i : ChannelId} (h : d.Follows a) : (d.relayEndComplete i).Follows a := by
  unfold Device.relayEndComplete
  simp only
  split
  · exact queueFilling (modInMsg h)
  · exact queueFilling (countRelay (modInMsg h))
  · exact countRelay (modInMsg h)

theorem relayEndAbandon {i : ChannelId} (h : d.Follows a) : (d.relayEndAbandon i).Follows a :=
  countRelay (giveUpFilling (modInMsg h))

theorem relayInboundLost {i : ChannelId} (h : d.Follows a) : (d.relayInboundLost i).Follows a :=
  countRelay (giveUpFilling (modInMsg h))

theorem relayOutboundLost {c : ChannelId} (h : d.Follows a) : (d.relayOutboundLost c).Follows a := by
  unfold Device.relayOutboundLost
  simp only
  split
  · exact setBack h
  · exact giveUpHead (countRelay h)
  · exact giveUpHead (countRelay h)

theorem returnEntries {i : ChannelId} {l : List RelayEntry} (h : d.Follows a) : (d.returnEntries i l).Follows a :=
  foldl (fun _ _ => giveUpCell (self _)) _ h

theorem cutPair {i : ChannelId} (h : d.Follows a) : (d.cutPair i).Follows a := by
  unfold Device.cutPair
  split
  · exact h
  · exact returnEntries (countRelay (modOutMsg (modPair (unstage h))))

theorem abandonQueue {i : ChannelId} (h : d.Follows a) : (d.abandonQueue i).Follows a := by
  unfold Device.abandonQueue
  split
  · exact h
  · exact returnEntries (countRelay (modOutMsg (modPair h)))

/-! ## Receiving -/

theorem postInbound {c : ChannelId} {s : Status} {k : Nat} {b : Bool} (h : d.Follows a) : (d.postInbound c s k b).Follows a := by
  unfold Device.postInbound
  simp only
  split
  · exact h
  · exact fetchRecords (modChan (postCompletion h))

theorem endInbound {c : ChannelId} {s : Status} {k : Nat} (h : d.Follows a) : (d.endInbound c s k).Follows a :=
  countChan (modInMsg (postInbound h))

theorem dropStaged {p : PortId} {s : Buffer → Bool} (h : d.Follows a) : (d.dropStaged p s).Follows a := by
  unfold Device.dropStaged
  refine after (modPort (p := p) (f := fun x => { x with inStaging := x.inStaging.filter fun b => match b.dest with | .buffer k => !((d.buffers.filter s).map Buffer.id).contains k | _ => true }) rfl (fun _ hl => ?_)
    (fun _ hl => ⟨hl.control, hl.map⟩) h) rfl rfl rfl
  refine ⟨hl.turn, hl.timers, hl.framing, hl.settled, hl.pick, ⟨?_, hl.staging.2⟩⟩
  simp [hl.staging.1]

theorem dropMessage {c : ChannelId} (h : d.Follows a) : (d.dropMessage c).Follows a := dropStaged h

theorem cutInbound {c : ChannelId} {s : Status} (h : d.Follows a) : (d.cutInbound c s).Follows a := endInbound (dropMessage h)

theorem faultInbound {c : ChannelId} (h : d.Follows a) : (d.faultInbound c).Follows a := by
  unfold Device.faultInbound
  simp only
  split
  · exact endInbound (modBuffer (dropMessage h))
  · exact endInbound (dropMessage h)

theorem inEndComplete {c : ChannelId} (h : d.Follows a) : (d.inEndComplete c).Follows a := endInbound h

theorem inEndAbandon {c : ChannelId} (h : d.Follows a) : (d.inEndAbandon c).Follows a := endInbound h

/-! ## Closing and faults -/

theorem clearContext {c : ChannelId} (h : d.Follows a) : (d.clearContext c).Follows a := by
  unfold Device.clearContext
  simp only
  split
  · exact modChan (delist (unbind (unwait (release h))))
  · exact modChan (delist (unbind (unwait h)))

theorem finishChannel {c : ChannelId} (h : d.Follows a) : (d.finishChannel c).Follows a := clearContext (completeDeferred h)

theorem finishPair {x : RelayPair} (h : d.Follows a) : (d.finishPair x).Follows a :=
  setPair (modRelay (clearContext (clearContext (completeDeferred h))))

theorem tryClose {c : ChannelId} (h : d.Follows a) : (d.tryClose c).Follows a := by
  unfold Device.tryClose
  repeat' split
  · exact finishPair h
  · exact h
  · exact finishChannel h
  · exact h

theorem ownerRevoked {o : Option ChannelId} (h : d.Follows a) : (d.ownerRevoked o).Follows a := by
  unfold Device.ownerRevoked
  split
  · exact tryClose (modChan h)
  · exact h

theorem askRevoke {c : ChannelId} (h : d.Follows a) : (d.askRevoke c).Follows a := modChan (requestRevoke h)

theorem faultNotices {c : ChannelId} {k : FaultCause} {f : Option Address} (h : d.Follows a) :
    (d.faultNotices c k f).Follows a := by
  unfold Device.faultNotices
  simp only
  split
  · exact asyncNotice (asyncNotice h)
  · exact asyncNotice h

theorem faultOut {c : ChannelId} {k : FaultCause} (h : d.Follows a) : (d.faultOut c k).Follows a := by
  unfold Device.faultOut
  simp only
  repeat' split
  · exact requestAbandon (completeSend (delist (withdrawRequest h)))
  · exact completeSend (delist (withdrawRequest h))
  · exact delist (withdrawRequest h)

/-! ## Losses and the closes they complete -/

theorem inboundLost {c : ChannelId} (h : d.Follows a) : (d.inboundLost c).Follows a := by
  unfold Device.inboundLost
  split
  · exact relayInboundLost h
  · exact cutInbound h

theorem discardReads {c : ChannelId} (h : d.Follows a) : (d.discardReads c).Follows a := after h rfl rfl rfl

theorem outboundLost {c : ChannelId} (h : d.Follows a) : (d.outboundLost c).Follows a := by
  unfold Device.outboundLost
  simp only
  repeat' split
  · exact relayOutboundLost h
  · exact setBack (discardReads h)
  · exact completeSend (discardReads h)
  · exact completeSend (discardReads h)
  · exact completeSend (discardReads h)
  · exact h
  · exact h

theorem reportLoss {p : PortId} {n : LinkNumber} (h : d.Follows a) : (Device.reportLoss p d n).Follows a := by
  have key : ∀ e : Device, e.Follows a →
      (match (e.outHalf p n).openMark, (e.outHalf p n).owner with
        | true, some c => e.outboundLost c
        | _, _ => e).Follows a := by
    intro e he
    split
    · exact outboundLost he
    · exact he
  unfold Device.reportLoss
  dsimp only
  apply key
  split
  · exact inboundLost h
  · exact h

theorem closeOwner {c : ChannelId} (h : d.Follows a) : (d.closeOwner c).Follows a := by
  unfold Device.closeOwner
  simp only
  repeat' split
  · exact tryClose (completeSend h)
  · exact tryClose (cutPair h)
  · exact tryClose h

theorem closeAfterLoss {p : PortId} {n : LinkNumber} (h : d.Follows a) : (Device.closeAfterLoss p d n).Follows a := by
  have key : ∀ e : Device, e.Follows a →
      (match (e.outHalf p n).owner with | some c => e.closeOwner c | none => e).Follows a := by
    intro e he
    split
    · exact closeOwner he
    · exact he
  unfold Device.closeAfterLoss
  dsimp only
  apply key
  split
  · exact closeOwner (modChan h)
  · exact h

theorem completeDisable {p : PortId} {r : Result} {k : Nat} (h : d.Follows a) : (d.completeDisable p r k).Follows a :=
  completeDeferred h

end Device.Follows

end Sys2Proof.Machine
end

