-- ==== Sys2Proof/Laws/PortDown.lean ====
section
/-! SUPPORT. What a port going down leaves: the work at the end of an event does not touch a port that is down, and what a tear-down
and a break leave of the port, of the other ports and of the Command Unit. -/

namespace Sys2Proof.Machine

/-! ## A port that is down at the end of an event -/

/-- Bookkeeping leaves the whole record of one port as it is. -/
structure Device.Rests (e d : Device) (q : PortId) : Prop where
  port : (d.port q).up = false → e.port q = d.port q

namespace Device.Rests

variable {a d : Device} {q : PortId}

theorem self (d : Device) (q : PortId) : d.Rests d q := ⟨fun _ => rfl⟩

theorem trans {f e d : Device} (h : f.Rests e q) (g : e.Rests d q) : f.Rests d q :=
  ⟨fun hu => by have := g.port hu; rw [h.port (by rw [this]; exact hu), this]⟩

theorem after {e : Device} (h : d.Rests a q) (hp : e.port q = d.port q) : e.Rests a q := ⟨fun hu => by rw [hp, h.port hu]⟩

/-- A change of a port that is up leaves the ports that are down. -/
theorem modPort_up {p : PortId} {f : Port → Port} (hu : (d.port p).up = true) (h : d.Rests a q) : (d.modPort p f).Rests a q := by
  refine Device.Rests.trans ⟨fun hq => ?_⟩ h
  rw [port_modPort]
  split
  · next e => subst e; rw [hu] at hq; cases hq
  · rfl

theorem queueGrant {p : PortId} {n : LinkNumber} {k : Nat} (hs : (d.port p).state = .active) (h : d.Rests a q) :
    (d.queueGrant p n k).Rests a q := by
  have hu : (d.port p).up = true := by simp [Port.up, hs]
  unfold Device.queueGrant
  exact modPort_up (by rw [Device.modIn, port_modPort_self]; exact hu) (modPort_up hu h)

theorem generate {p : PortId} {n : LinkNumber} (h : d.Rests a q) : (d.generate p n).1.Rests a q := by
  unfold Device.generate
  split
  · exact h
  · next c hc =>
    have hs := Device.Follows.generatorOwner_down hc
    simp only
    repeat' split
    · exact h
    · exact queueGrant hs h
    · exact h
    · exact queueGrant (by simpa [Device.reserve] using hs) (after h rfl)

theorem serveWaiter {r : RingId} {x : Requester} (h : d.Rests a q) : (d.serveWaiter r x).1.Rests a q := by
  unfold Device.serveWaiter
  cases x with
  | outRecord c => dsimp only; split <;> exact after h rfl
  | commandUnit => dsimp only; split <;> exact after h rfl
  | inHalf p n =>
    dsimp only
    have g := generate (p := p) (n := n) h
    split
    · exact h
    · split
      · next e he => rw [he] at g; exact g
      · next e he => rw [he] at g; exact after g rfl

theorem walk {r : RingId} (l : List Requester) (h : d.Rests a q) : (Device.walk r l d).Rests a q := by
  induction l generalizing d with
  | nil => exact h
  | cons x l ih =>
    have g := serveWaiter (r := r) (x := x) h
    unfold Device.walk
    split
    · next e he => rw [he] at g; exact ih g
    · next e he => rw [he] at g; exact g

theorem foldl {β : Type} {f : Device → β → Device} (hf : ∀ d b, (f d b).Rests d q) (l : List β) (h : d.Rests a q) :
    (l.foldl f d).Rests a q := by
  induction l generalizing d with
  | nil => exact h
  | cons b l ih => exact ih ((hf d b).trans h)

theorem walkRings (h : d.Rests a q) : d.walkRings.Rests a q := by
  refine foldl (fun e r => ?_) _ h
  unfold Device.walkRing
  refine after (d := if (e.ring r).gained then Device.walk r (e.ring r).waiting e else e) ?_ rfl
  split
  · exact walk _ (self _ _)
  · exact self _ _

/-- What one port does of itself leaves every other port's record. -/
theorem offer_other {p : PortId} {o : Offer} (hq : q ≠ p) : (d.offer p o).port q = d.port q := by
  unfold Device.offer
  rw [port_modPort, if_neg (Ne.symm hq)]

theorem modPort_other {p : PortId} {f : Port → Port} (hq : q ≠ p) : (d.modPort p f).port q = d.port q := by
  rw [port_modPort, if_neg (Ne.symm hq)]

theorem startMessage_other {p : PortId} {c : ChannelId} (hq : q ≠ p) : (d.startMessage p c).port q = d.port q := by
  unfold Device.startMessage
  simp only
  split
  · simp only [Device.modOutMsg, modChan_port, Device.modOut]
    exact modPort_other hq
  · rfl

theorem offerUnit_other {p : PortId} {c : ChannelId} (hq : q ≠ p) : (d.offerUnit p c).port q = d.port q := by
  unfold Device.offerUnit
  split
  · rfl
  · simp only
    rw [offer_other hq, modPort_other hq, startMessage_other hq]

theorem sendMessage_other {p : PortId} {c : ChannelId} (hq : q ≠ p) : (d.sendMessage p c).port q = d.port q := by
  unfold Device.sendMessage
  simp only
  repeat' split
  · rfl
  · exact offerUnit_other hq
  · exact offer_other hq

theorem offerHead_other {p : PortId} (hq : q ≠ p) : (d.offerHead p).port q = d.port q := by
  unfold Device.offerHead
  split
  · rfl
  · simp only
    split <;> rw [offer_other hq, modPort_other hq]

theorem proceed_other {p : PortId} (hq : q ≠ p) : (d.proceed p).port q = d.port q := by
  unfold Device.proceed
  simp only
  repeat' split
  all_goals first
    | rfl
    | exact offer_other hq
    | exact offerUnit_other hq
    | exact sendMessage_other hq
    | exact offerHead_other hq
    | exact modPort_other hq

theorem pickChannel_other {p : PortId} (hq : q ≠ p) : (d.pickChannel p).port q = d.port q := by
  unfold Device.pickChannel
  simp only
  repeat' split
  all_goals first
    | rfl
    | exact modPort_other hq

theorem transmit_other {p : PortId} (hq : q ≠ p) : (d.transmit p).port q = d.port q := by
  unfold Device.transmit
  split
  · exact proceed_other hq
  · rfl

theorem askForTurn_other {p : PortId} (hq : q ≠ p) : (d.askForTurn p).port q = d.port q := by
  unfold Device.askForTurn
  simp only
  split
  · exact modPort_other hq
  · rfl

theorem restage_other {p : PortId} (hq : q ≠ p) : (d.restage p).port q = d.port q := by
  unfold Device.restage
  simp only
  split
  · rfl
  · exact modPort_other hq

theorem issueRead_other {p : PortId} (hq : q ≠ p) : (d.issueRead p).port q = d.port q := by
  unfold Device.issueRead
  simp only
  split
  · rfl
  · split
    · rfl
    · split
      · rfl
      · exact modPort_other hq

theorem serial_port (k : Nat) : ({ d with serial := k } : Device).port q = d.port q := rfl

theorem issueCopy_other {p : PortId} (hq : q ≠ p) : (d.issueCopy p).port q = d.port q := by
  unfold Device.issueCopy
  simp only
  split
  · rfl
  · split
    · rfl
    · rw [serial_port]
      exact modPort_other hq

theorem issueOutbound_other {p : PortId} (hq : q ≠ p) : (d.issueOutbound p).port q = d.port q := by
  unfold Device.issueOutbound
  rw [issueCopy_other hq, issueRead_other hq]

theorem service_other {p : PortId} (hq : q ≠ p) : (d.service p).port q = d.port q := by
  unfold Device.service
  split
  · simp only
    iterate 4 rw [issueOutbound_other hq]
    rw [restage_other hq, askForTurn_other hq, transmit_other hq, pickChannel_other hq, modPort_other hq]
  · rfl

theorem service (p : PortId) : (d.service p).Rests d q := by
  refine ⟨fun hu => ?_⟩
  by_cases hq : q = p
  · subst hq
    unfold Device.service
    rw [hu]
    rfl
  · exact service_other hq

theorem issueRecord (r : RingId) : (d.issueRecord r).Rests d q := by
  unfold Device.issueRecord
  simp only
  split
  · exact ⟨fun _ => rfl⟩
  · exact self _ _

theorem requestSlot : d.requestSlot.Rests d q := by
  unfold Device.requestSlot
  repeat' split
  all_goals exact ⟨fun _ => rfl⟩

theorem fetchCommands : d.fetchCommands.Rests d q := by
  unfold Device.fetchCommands
  simp only
  split
  all_goals exact ⟨fun _ => rfl⟩

end Device.Rests

/-- The work at the end of an event leaves the record of a port that is down. -/
theorem settle_port_down (d : Device) (q : PortId) (h : (d.port q).up = false) : d.settle.port q = d.port q := by
  have key : d.settle.Rests d q := by
    unfold Device.settle
    refine Device.Rests.fetchCommands.trans (Device.Rests.requestSlot.trans ?_)
    exact Device.Rests.foldl (fun e r => Device.Rests.issueRecord r) _
      (Device.Rests.foldl (fun e p => Device.Rests.service p) _ (Device.Rests.walkRings (Device.Rests.self _ _)))
  exact key.port h

/-- The work at the end of an event is bookkeeping. -/
theorem settle_follows (d : Device) : d.settle.Follows d := by
  have hs := settle_steady d
  have hc := cu_of_steady hs
  have hr := ring_of_steady hs 4
  simp only [CommandUnit.steady, CommandUnit.mk.injEq] at hc
  simp only [Ring.steady, Ring.mk.injEq] at hr
  exact ⟨fun p => own_of_steady hs p, fun p hu hl => by rw [settle_port_down d p hu]; exact hl,
    fun p hu hl => by rw [settle_port_down d p hu]; exact hl, hc.2.2.2.2.2.1, hc.2.2.2.2.1, hc.2.2.2.1, hc.2.2.1, hc.1, hc.2.1, [],
    by simp [hr]⟩

/-! ## Tear-downs -/

/-- What a tear-down leaves: the port down in its final state, with the rest of its own fields as the drop of the link leaves them,
and bookkeeping elsewhere. -/
structure Device.TornDown (e d : Device) (p : PortId) (final : PortState) : Prop where
  down : (e.port p).LinkDown
  own : (e.port p).own = ((d.port p).dropLink final).own
  others : ∀ q, q ≠ p → (e.port q).own = (d.port q).own
  held : e.cu.held = d.cu.held
  taken : e.cu.taken = d.cu.taken
  fetch : e.cu.fetch = d.cu.fetch
  producer : e.cu.producer = d.cu.producer
  base : e.cu.base = d.cu.base
  size : e.cu.size = d.cu.size
  queue : ∃ l, (e.ring 4).queue = (d.ring 4).queue ++ l

namespace Device.TornDown

variable {e f d : Device} {p : PortId} {final : PortState}

/-- Bookkeeping after a tear-down keeps what it left. -/
theorem follows (hu : final ≠ .active ∧ final ≠ .quiescing) (h : e.TornDown d p final) (g : f.Follows e) : f.TornDown d p final := by
  have hup : (e.port p).up = false := by
    have : (e.port p).state = final := by
      have := congrArg Port.state h.own
      simpa [Port.own, Port.dropLink] using this
    simp [Port.up, this, hu]
  obtain ⟨l, hl⟩ := h.queue
  obtain ⟨m, hm⟩ := g.queue
  exact ⟨⟨g.quiet p hup h.down.quiet, g.down p hup h.down.map⟩, (g.own p).trans h.own, fun q hq => (g.own q).trans (h.others q hq),
    g.held.trans h.held, g.taken.trans h.taken, g.fetch.trans h.fetch, g.producer.trans h.producer, g.base.trans h.base,
    g.size.trans h.size, l ++ m, by rw [hm, hl, List.append_assoc]⟩

end Device.TornDown

/-- A cleared entry has every count 0 and every mark no. -/
theorem clearMap_down (x : Port) : x.clearMap.MapDown := by
  refine ⟨rfl, fun n => ?_⟩
  have : x.clearMap.entry n = (x.entry n).clear := by simp [Port.clearMap, Port.entry]
  rw [this]
  exact ⟨rfl, rfl, rfl, rfl, rfl, rfl, rfl⟩

theorem clearMap_own (x : Port) : x.clearMap.own = x.own := rfl

theorem clearMap_quiet {x : Port} (h : x.LinkQuiet) : x.clearMap.LinkQuiet :=
  ⟨h.turn, h.timers, h.framing, h.settled, h.pick, h.staging⟩

/-- Keeping the staged bytes of queued relay messages touches the Relay Buffer alone. -/
theorem keepQueued_eq (l : List StagedByte) (d : Device) : l.foldl Device.keepQueued d = { d with relay := (l.foldl Device.keepQueued d).relay } := by
  induction l generalizing d with
  | nil => rfl
  | cons b l ih =>
    have h : d.keepQueued b = { d with relay := (d.keepQueued b).relay } := by
      unfold Device.keepQueued
      repeat' split
      all_goals rfl
    rw [List.foldl_cons, ih, h]

/-- Emptying a port's staging buffers empties them and leaves the other ports, the Command Unit and the rings as they are. -/
theorem emptyStaging_eq (d : Device) (p : PortId) :
    (d.emptyStaging p).ports = (d.modPort p fun x => { x with inStaging := [], outStaging := OutStaging.empty }).ports ∧
      (d.emptyStaging p).cu = d.cu ∧ (d.emptyStaging p).rings = d.rings := by
  unfold Device.emptyStaging
  rw [keepQueued_eq]
  exact ⟨rfl, rfl, rfl⟩

/-- The tear-down of a port (steps 1, 3, 4 and 5 of R74). -/
theorem tearDown_spec (d : Device) (p : PortId) {final : PortState} (hu : final ≠ .active ∧ final ≠ .quiescing) :
    (d.tearDown p final).TornDown d p final := by
  let x1 : Port := { (d.port p).dropLink final with inStaging := [], outStaging := OutStaging.empty }
  let d1 := (d.modPort p fun x => x.dropLink final).emptyStaging p
  obtain ⟨ports1, cu1, rings1⟩ := emptyStaging_eq (d.modPort p fun x => x.dropLink final) p
  have h1 : ∀ q, d1.port q = ((d.modPort p fun x => x.dropLink final).modPort p
      fun x => { x with inStaging := [], outStaging := OutStaging.empty }).port q := fun q => congrArg (·.get q) ports1
  have hp1 : d1.port p = x1 := by rw [h1, port_modPort_self, port_modPort_self]
  have hq1 : ∀ q, q ≠ p → d1.port q = d.port q := fun q hq => by
    rw [h1, Device.Rests.modPort_other hq, Device.Rests.modPort_other hq]
  have hc1 : d1.cu = d.cu := cu1
  have hr1 : d1.ring 4 = d.ring 4 := congrArg (·.get 4) rings1
  have hx1 : x1.LinkQuiet := ⟨rfl, ⟨rfl, rfl, rfl, rfl, rfl, rfl⟩, ⟨rfl, rfl, rfl, rfl, rfl⟩, rfl, rfl, ⟨rfl, rfl⟩⟩
  have hup1 : (d1.port p).up = false := by rw [hp1]; simp [x1, Port.up, Port.dropLink, hu]
  obtain ⟨d2, hd2⟩ : ∃ x, x = (linkNumbers.foldl (Device.reportLoss p) d1).returnCredits p := ⟨_, rfl⟩
  have h2 : d2.Follows d1 := by
    rw [hd2]
    exact Device.Follows.returnCredits (Device.Follows.foldl (fun e n => Device.Follows.reportLoss (Device.Follows.self e)) _
      (Device.Follows.self d1))
  have q2 : (d2.port p).LinkQuiet := h2.quiet p hup1 (by rw [hp1]; exact hx1)
  obtain ⟨d3, hd3⟩ : ∃ x, x = (d2.modPort p Port.clearMap).unwaitPort p := ⟨_, rfl⟩
  have hp3 : d3.port p = (d2.port p).clearMap := by
    have : d3.port p = (d2.modPort p Port.clearMap).port p := by rw [hd3]; rfl
    rw [this, port_modPort_self]
  have hq3 : ∀ q, q ≠ p → d3.port q = d2.port q := fun q hq => by
    have : d3.port q = (d2.modPort p Port.clearMap).port q := by rw [hd3]; rfl
    rw [this, Device.Rests.modPort_other hq]
  have hr3 : (d3.ring 4).queue = (d2.ring 4).queue := by
    rw [hd3]
    simp only [Device.unwaitPort, Device.ring, get_map]
    rfl
  have hc3 : d3.cu = d2.cu := by rw [hd3]; rfl
  have t3 : d3.TornDown d p final := by
    refine ⟨⟨?_, ?_⟩, ?_, fun q hq => ?_, by rw [hc3, ← hc1]; exact h2.held, by rw [hc3, ← hc1]; exact h2.taken,
      by rw [hc3, ← hc1]; exact h2.fetch, by rw [hc3, ← hc1]; exact h2.producer, by rw [hc3, ← hc1]; exact h2.base,
      by rw [hc3, ← hc1]; exact h2.size, ?_⟩
    · rw [hp3]; exact clearMap_quiet q2
    · rw [hp3]; exact clearMap_down _
    · rw [hp3, clearMap_own, h2.own p, hp1]; rfl
    · rw [hq3 q hq, h2.own q, hq1 q hq]
    · rw [hr3, ← hr1]; exact h2.queue
  have e4 : d.tearDown p final = linkNumbers.foldl (Device.closeAfterLoss p) d3 := by
    rw [hd3, hd2]
    rfl
  rw [e4]
  exact t3.follows hu (Device.Follows.foldl (fun e n => Device.Follows.closeAfterLoss (Device.Follows.self e)) _
    (Device.Follows.self d3))

end Sys2Proof.Machine
end

