-- ==== Sys2Proof/Laws/Scheduler.lean ====
section
/-! SUPPORT. The work at the end of an event may move a channel within its class list, but takes none out and puts none in (R91, R94,
R95). -/

namespace Sys2Proof.Machine

/-- The same channels stand in the class lists of every port. -/
def Device.sameClasses (e d : Device) : Prop :=
  ∀ (p : PortId) (k : Fin 4) (c : ChannelId), c ∈ (e.port p).classes.get k ↔ c ∈ (d.port p).classes.get k

namespace Device.sameClasses

variable {a d : Device}

theorem self (d : Device) : d.sameClasses d := fun _ _ _ => Iff.rfl

theorem trans {f e d : Device} (h : f.sameClasses e) (g : e.sameClasses d) : f.sameClasses d :=
  fun p k c => (h p k c).trans (g p k c)

/-- A change that touches no port. -/
theorem after {e : Device} (h : d.sameClasses a) (hp : ∀ p, e.port p = d.port p) : e.sameClasses a :=
  trans (fun p k c => by rw [hp]) h

/-- A change of a port that keeps who stands in its class lists. -/
theorem modPort {p : PortId} {f : Port → Port} (hf : ∀ x k (c : ChannelId), c ∈ (f x).classes.get k ↔ c ∈ x.classes.get k)
    (h : d.sameClasses a) : (d.modPort p f).sameClasses a := by
  refine trans (fun q k c => ?_) h
  rw [port_modPort]
  split
  · next e => subst e; exact hf _ k c
  · exact Iff.rfl

/-- A channel moved to the tail of its class list is in it, and no other comes or goes. -/
theorem moveToTail_mem (x : Port) (e c : ChannelId) (k : Fin 4) : c ∈ (x.moveToTail e).classes.get k ↔ c ∈ x.classes.get k := by
  unfold Port.moveToTail
  rw [get_map]
  split
  · next h =>
    simp only [List.mem_append, List.mem_filter, List.mem_singleton, Bool.not_eq_true', beq_eq_false_iff_ne]
    simp only [List.contains_iff_mem] at h
    constructor
    · rintro (h1 | rfl)
      · exact h1.1
      · exact h
    · intro h1
      by_cases hc : c = e
      · exact Or.inr hc
      · exact Or.inl ⟨h1, hc⟩
  · exact Iff.rfl

theorem endSlice_mem (x : Port) (e c : ChannelId) (k : Fin 4) : c ∈ (x.endSlice e).classes.get k ↔ c ∈ x.classes.get k :=
  moveToTail_mem x e c k

theorem releaseTurn_mem (x : Port) (k : Fin 4) (c : ChannelId) : c ∈ x.releaseTurn.classes.get k ↔ c ∈ x.classes.get k := by
  have : x.releaseTurn.classes = x.cutSlice.classes := rfl
  rw [this]
  unfold Port.cutSlice
  split
  · split
    · exact Iff.rfl
    · exact endSlice_mem _ _ _ _
  · exact Iff.rfl

theorem queueGrant {p : PortId} {n : LinkNumber} {k : Nat} (h : d.sameClasses a) : (d.queueGrant p n k).sameClasses a := by
  unfold Device.queueGrant
  refine modPort (fun x k c => ?_) (modPort (fun x k c => Iff.rfl) h)
  unfold Port.modUnoffered
  split <;> exact Iff.rfl

theorem generate {p : PortId} {n : LinkNumber} (h : d.sameClasses a) : (d.generate p n).1.sameClasses a := by
  unfold Device.generate
  split
  · exact h
  · simp only
    repeat' split
    · exact h
    · exact queueGrant h
    · exact h
    · exact queueGrant (after h fun _ => rfl)

theorem serveWaiter {r : RingId} {x : Requester} (h : d.sameClasses a) : (d.serveWaiter r x).1.sameClasses a := by
  unfold Device.serveWaiter
  cases x with
  | outRecord c => dsimp only; split <;> exact after h fun _ => rfl
  | commandUnit => dsimp only; split <;> exact after h fun _ => rfl
  | inHalf p n =>
    dsimp only
    have g := generate (p := p) (n := n) h
    split
    · exact h
    · split
      · next e he => rw [he] at g; exact g
      · next e he => rw [he] at g; exact after g fun _ => rfl

theorem walk {r : RingId} (l : List Requester) (h : d.sameClasses a) : (Device.walk r l d).sameClasses a := by
  induction l generalizing d with
  | nil => exact h
  | cons x l ih =>
    have g := serveWaiter (r := r) (x := x) h
    unfold Device.walk
    split
    · next e he => rw [he] at g; exact ih g
    · next e he => rw [he] at g; exact g

theorem foldl {β : Type} {f : Device → β → Device} (hf : ∀ d b, (f d b).sameClasses d) (l : List β) (h : d.sameClasses a) :
    (l.foldl f d).sameClasses a := by
  induction l generalizing d with
  | nil => exact h
  | cons b l ih => exact ih ((hf d b).trans h)

theorem offer {p : PortId} {o : Offer} (h : d.sameClasses a) : (d.offer p o).sameClasses a := modPort (fun _ _ _ => Iff.rfl) h

theorem startMessage {p : PortId} {c : ChannelId} (h : d.sameClasses a) : (d.startMessage p c).sameClasses a := by
  unfold Device.startMessage
  simp only
  split
  · exact after (modPort (p := p) (f := fun x => x.modEntry (d.chan c).number fun e =>
      { e with outbound := { e.outbound with credits := e.outbound.credits - 1, openMark := true } }) (fun _ _ _ => Iff.rfl) h)
      fun _ => rfl
  · exact h

theorem offerUnit {p : PortId} {c : ChannelId} (h : d.sameClasses a) : (d.offerUnit p c).sameClasses a := by
  unfold Device.offerUnit
  split
  · exact h
  · exact offer (modPort (fun _ _ _ => Iff.rfl) (startMessage h))

theorem sendMessage {p : PortId} {c : ChannelId} (h : d.sameClasses a) : (d.sendMessage p c).sameClasses a := by
  unfold Device.sendMessage
  simp only
  repeat' split
  · exact h
  · exact offerUnit h
  · exact offer h

theorem offerHead {p : PortId} (h : d.sameClasses a) : (d.offerHead p).sameClasses a := by
  unfold Device.offerHead
  split
  · exact h
  · simp only
    split <;> exact offer (modPort (fun _ _ _ => Iff.rfl) h)

theorem proceed {p : PortId} (h : d.sameClasses a) : (d.proceed p).sameClasses a := by
  unfold Device.proceed
  simp only
  repeat' split
  all_goals first
    | with_reducible exact h
    | with_reducible exact offer h
    | with_reducible exact offerUnit h
    | with_reducible exact sendMessage h
    | with_reducible exact offerHead h
    | with_reducible exact modPort releaseTurn_mem h

theorem pickChannel {p : PortId} (h : d.sameClasses a) : (d.pickChannel p).sameClasses a := by
  unfold Device.pickChannel
  simp only
  repeat' split
  · exact modPort (fun _ _ _ => Iff.rfl) h
  · exact h
  · exact h

theorem transmit {p : PortId} (h : d.sameClasses a) : (d.transmit p).sameClasses a := by
  unfold Device.transmit
  split
  · exact proceed h
  · exact h

theorem askForTurn {p : PortId} (h : d.sameClasses a) : (d.askForTurn p).sameClasses a := by
  unfold Device.askForTurn
  simp only
  split
  · exact modPort (fun _ _ _ => Iff.rfl) h
  · exact h

theorem restage {p : PortId} (h : d.sameClasses a) : (d.restage p).sameClasses a := by
  unfold Device.restage
  simp only
  split
  · exact h
  · exact modPort (fun _ _ _ => Iff.rfl) h

theorem issueRead {p : PortId} (h : d.sameClasses a) : (d.issueRead p).sameClasses a := by
  unfold Device.issueRead
  simp only
  split
  · exact h
  · split
    · exact h
    · split
      · exact h
      · exact modPort (fun _ _ _ => Iff.rfl) (after h fun _ => rfl)

theorem issueCopy {p : PortId} (h : d.sameClasses a) : (d.issueCopy p).sameClasses a := by
  unfold Device.issueCopy
  simp only
  split
  · exact h
  · split
    · exact h
    · intro q k c
      rw [Device.Rests.serial_port, port_modPort]
      split
      · next e => subst e; exact h p k c
      · exact h q k c

theorem issueOutbound {p : PortId} (h : d.sameClasses a) : (d.issueOutbound p).sameClasses a := issueCopy (issueRead h)

theorem service {p : PortId} (h : d.sameClasses a) : (d.service p).sameClasses a := by
  unfold Device.service
  split
  · exact issueOutbound (issueOutbound (issueOutbound (issueOutbound (restage (askForTurn (transmit (pickChannel
      (modPort (fun _ _ _ => Iff.rfl) h))))))))
  · exact h

theorem walkRing {r : RingId} (h : d.sameClasses a) : (d.walkRing r).sameClasses a := by
  unfold Device.walkRing
  refine after (d := if (d.ring r).gained then Device.walk r (d.ring r).waiting d else d) ?_ fun _ => rfl
  split
  · exact walk _ h
  · exact h

theorem issueRecord {r : RingId} (h : d.sameClasses a) : (d.issueRecord r).sameClasses a := by
  unfold Device.issueRecord
  simp only
  split
  · exact after h fun _ => rfl
  · exact h

theorem requestSlot (h : d.sameClasses a) : d.requestSlot.sameClasses a := by
  unfold Device.requestSlot
  repeat' split
  · exact h
  · exact after h fun _ => rfl
  · exact after h fun _ => rfl

theorem fetchCommands (h : d.sameClasses a) : d.fetchCommands.sameClasses a := by
  unfold Device.fetchCommands
  simp only
  split
  · exact h
  · exact after h fun _ => rfl

theorem settle (h : d.sameClasses a) : d.settle.sameClasses a := by
  have h1 : d.walkRings.sameClasses a := by
    unfold Device.walkRings
    exact foldl (fun e r => walkRing (self e)) _ h
  have h2 : (allPorts.foldl Device.service d.walkRings).sameClasses a := foldl (fun e p => service (self e)) _ h1
  have h3 : (allPorts.foldl Device.service d.walkRings).issueRecords.sameClasses a := by
    unfold Device.issueRecords
    exact foldl (fun e r => issueRecord (self e)) _ h2
  exact fetchCommands (requestSlot h3)

end Device.sameClasses

end Sys2Proof.Machine
end

