-- ==== Sys2Proof/Laws/Rings.lean ====
section
/-! SUPPORT. What the Completion Unit's operations and the ring tests say: room, notices, and powers of two. -/

namespace Sys2Proof.Machine

/-- A ring has room exactly when the test of R144 allows one more reservation. -/
theorem room_pos (x : Ring) : x.room ≠ 0 ↔ x.hasRoom := by
  unfold Ring.room Ring.hasRoom Ring.filled Ring.unconsumed ringDistance
  cases x.isSet with
  | true => simp only [if_true, true_and]; omega
  | false => simp

/-- A notice that is posted. -/
theorem postNotice_eq (d : Device) (b : NoticeBody) : d.postNotice b = d.noticed b := rfl

theorem commandDone_eq (d : Device) (s : Byte) (t : Half) (r : Result) (k : Nat) :
    d.commandDone s t r k = d.noticed (.commandDone s r t k) := rfl

theorem takeHead_eq (d : Device) : d.takeHead = d.afterTake := rfl

/-- An asynchronous notice is posted if NQ has room, and is lost if not (R150). -/
theorem asyncNotice_told (d : Device) (b : NoticeBody) : d.told b (d.asyncNotice b) := by
  have h : (d.ring nqRing).room ≠ 0 ↔ d.rings[4].hasRoom := room_pos (d.ring nqRing)
  refine ⟨fun hr => ?_, fun hr => ?_⟩
  · unfold Device.asyncNotice
    rw [if_neg (h.mpr hr)]
    rfl
  · unfold Device.asyncNotice
    rw [if_pos (by_contra fun c => hr (h.mp c))]
    rfl

/-- A size accepted between two powers of two is a power of two between them. -/
theorem powerOfTwoIn_iff (a b n : Nat) : powerOfTwoIn (2 ^ a) (2 ^ b) n = true ↔ ∃ k, a ≤ k ∧ k ≤ b ∧ n = 2 ^ k := by
  unfold powerOfTwoIn
  simp only [Bool.and_eq_true, decide_eq_true_eq]
  constructor
  · rintro ⟨⟨h1, h2⟩, h3⟩
    refine ⟨Nat.log2 n, ?_, ?_, h3.symm⟩
    · rw [← h3] at h1
      exact (Nat.pow_le_pow_iff_right (by decide)).mp h1
    · rw [← h3] at h2
      exact (Nat.pow_le_pow_iff_right (by decide)).mp h2
  · rintro ⟨k, h1, h2, rfl⟩
    refine ⟨⟨Nat.pow_le_pow_right (by decide) h1, Nat.pow_le_pow_right (by decide) h2⟩, ?_⟩
    rw [Nat.log2_two_pow]

/-- The sizes of the command ring (R174). -/
theorem commandSize_iff (n : Nat) : powerOfTwoIn 16 1024 n = true ↔ ∃ k, 4 ≤ k ∧ k ≤ 10 ∧ n = 2 ^ k := by
  have h := powerOfTwoIn_iff 4 10 n
  norm_num at h
  exact h

/-- The sizes of every other ring (R4, R163, R174). -/
theorem ringSize_iff (n : Nat) : powerOfTwoIn 16 4096 n = true ↔ ∃ k, 4 ≤ k ∧ k ≤ 12 ∧ n = 2 ^ k := by
  have h := powerOfTwoIn_iff 4 12 n
  norm_num at h
  exact h

/-- The checks of R174. -/
theorem good_iff (q : RootTable) :
    q.good = true ↔ q.commandBase.toNat % 32 = 0 ∧ (∃ k, 4 ≤ k ∧ k ≤ 10 ∧ q.commandSize = 2 ^ k) ∧
      q.noticeBase.toNat % 16 = 0 ∧ (∃ k, 4 ≤ k ∧ k ≤ 12 ∧ q.noticeSize = 2 ^ k) ∧ 1 ≤ q.threshold ∧ q.threshold ≤ 255 := by
  simp only [RootTable.good, Bool.and_eq_true, commandSize_iff, ringSize_iff, aligned, beq_iff_eq, decide_eq_true_eq, and_assoc]

end Sys2Proof.Machine
end

