-- ==== Sys2Proof/Laws/Steps.lean ====
section
/-! SUPPORT. What an event and a take of a command leave, up to the work at the end of the event. -/

namespace Sys2Proof.Machine

/-- A change of a RUNNING part. -/
theorem whenRunning_eq {s : State} (h : s.engine = .running) (f : Device → Device) : s.whenRunning f = { s with dev := f s.dev } := by
  simp [State.whenRunning, h]

/-- A part that is not RUNNING does not change (R175, R176, R178). -/
theorem whenRunning_not {s : State} (h : s.engine ≠ .running) (f : Device → Device) : s.whenRunning f = s := by
  simp [State.whenRunning, h]

/-- An event of a RUNNING part. -/
theorem event_eq {s : State} (h : s.engine = .running) (f : Device → Device) : s.event f = { s with dev := (f s.dev).settle } :=
  whenRunning_eq h _

/-- An event of a RUNNING part leaves what its own change leaves, up to the work at its end. -/
theorem event_becomes {s : State} (h : s.engine = .running) (f : Device → Device) : s.becomes (s.event f) (f s.dev) := by
  rw [event_eq h]
  refine ⟨⟨rfl, rfl, rfl, rfl, rfl, rfl⟩, ?_⟩
  dsimp only
  rw [settle_steady]

/-- The head command may be taken. -/
theorem mayTake_of_canTake {s : State} {i : Instr} (h : s.canTake i) : s.dev.mayTake i = true := by
  obtain ⟨_, h2, h3, r, rest, h4, h5⟩ := h
  simp [Device.mayTake, h2, h4, h5, Config.deferredCommands, h3]

/-- A take of the head command leaves what the command leaves of the blocks without it, up to the work at the end of the event. -/
theorem take_eq {s : State} {i : Instr} (h : s.canTake i) (f : Device → Device) :
    s.take i f = { s with dev := (f s.dev.afterTake).settle } := by
  unfold State.take
  rw [whenRunning_eq h.1]
  simp only [mayTake_of_canTake h, if_true]
  rfl

theorem take_becomes {s : State} {i : Instr} (h : s.canTake i) (f : Device → Device) : s.becomes (s.take i f) (f s.dev.afterTake) := by
  rw [take_eq h]
  refine ⟨⟨rfl, rfl, rfl, rfl, rfl, rfl⟩, ?_⟩
  dsimp only
  rw [settle_steady]

end Sys2Proof.Machine
end

