-- ==== Sys2Proof/Laws/Commands.lean ====
section
/-! SUPPORT. The deferred list: what the completion of a deferred command leaves. -/

namespace Sys2Proof.Machine

/-- With no BARRIER at its head, weighing the barriers changes nothing. -/
theorem weighBarriers_none {d : Device} (h : ∀ b, d.cu.deferred.head? = some b → b.work ≠ .barrier) : d.weighBarriers = d := by
  have ht : d.cu.deferred.takeWhile (fun e => e.work == .barrier) = [] ∧
      d.cu.deferred.dropWhile (fun e => e.work == .barrier) = d.cu.deferred := by
    cases hl : d.cu.deferred with
    | nil => simp
    | cons b l =>
      have : (b.work == DeferredWork.barrier) = false := by simpa using h b (by simp [hl])
      simp [this]
  unfold Device.weighBarriers
  simp only [ht.1, ht.2, List.foldl_nil, Device.modCu]

/-- A deferred command completes: its entry leaves the list, and its notice is posted; no BARRIER comes to the head (R160, R161,
R169). -/
theorem completeDeferred_eq {d : Device} {sel : DeferredWork → Bool} {r : Result} {k : Nat} {e : Deferred} (l m : List Deferred)
    (h : d.cu.deferred = l ++ e :: m) (hl : ∀ x ∈ l, sel x.work = false) (he : sel e.work = true)
    (hb : ∀ b, (l ++ m).head? = some b → b.work ≠ .barrier) :
    d.completeDeferred sel r k = (d.withDeferred (l ++ m)).noticed (.commandDone e.subject r e.tag k) := by
  have hf : d.cu.deferred.find? (fun x => sel x.work) = some e := by
    rw [h, List.find?_append, List.find?_eq_none.mpr (by simpa using hl)]
    simp [he]
  have hne : e ∉ l := fun hm => by rw [hl e hm] at he; cases he
  have hr : d.cu.deferred.erase e = l ++ m := by
    rw [h, List.erase_append_right _ hne, List.erase_cons_head]
  unfold Device.completeDeferred
  rw [hf]
  simp only
  rw [weighBarriers_none]
  · simp only [Device.modCu, hr]
    rfl
  · simpa [Device.commandDone, Device.postNotice, Device.post, hr] using hb

/-- A deferred command that is not in the list does not complete. -/
theorem completeDeferred_none {d : Device} {sel : DeferredWork → Bool} {r : Result} {k : Nat}
    (h : ∀ x ∈ d.cu.deferred, sel x.work = false) : d.completeDeferred sel r k = d := by
  unfold Device.completeDeferred
  rw [List.find?_eq_none.mpr (by simpa using h)]

end Sys2Proof.Machine
end

