-- ==== Sys2Proof/Laws/Operands.lean ====
section
/-! SUPPORT. When the fields of a command record name something, and when they are in range. -/

namespace Sys2Proof.Machine

/-- A byte at or past the range names nothing. -/
theorem inRange_none {n : Nat} {b : Byte} (h : n ≤ b.toNat) : inRange n b = none := by
  unfold inRange; rw [dif_neg (by omega)]

/-- A byte in the range names its value. -/
theorem inRange_some {n : Nat} {b : Byte} {k : Fin n} (h : b.toNat = k.val) : inRange n b = some k := by
  unfold inRange; rw [dif_pos (by omega)]; congr 1; exact Fin.ext h

/-- A byte names something exactly when it lies in the range. -/
theorem inRange_isSome {n : Nat} {b : Byte} : (∃ k, inRange n b = some k) ↔ b.toNat < n := by
  unfold inRange
  split <;> simp [*]

/-- The sizes a ring may have (R3, R9, R163). -/
theorem powerOfTwoIn_ring (n : Nat) : powerOfTwoIn 16 4096 n = true ↔ ∃ k, 4 ≤ k ∧ k ≤ 12 ∧
    n = 2 ^ k := powerOfTwoIn_iff 4 12 n

/-- The one overflow field that names no policy (R9). -/
theorem optOverflow_none_iff (o : Byte) : optOverflow o = none ↔ o.extractLsb 3 2 = 3 := by
  unfold optOverflow
  have : (o.extractLsb 3 2).toNat < 4 := (o.extractLsb 3 2).isLt
  constructor
  · intro h
    split at h <;> try cases h
    rename_i a b c
    apply BitVec.eq_of_toNat_eq
    change _ = 3
    generalize hx : (o.extractLsb 3 2).toNat = x at *
    simp at *
    omega
  · intro h; rw [h]; rfl

/-- The overflow fields that do not name CHAIN (R128). -/
theorem optOverflow_ne_chain_iff (o : Byte) (f : OverflowPolicy) (h : optOverflow o = some f) : f ≠ .chain ↔
    (o.extractLsb 3 2).toNat < 2 := by
  unfold optOverflow at h
  split at h <;> rename_i e <;> cases h
  · simp [e]
  · simp [e]
  · simp [e]

/-- The kinds an OPEN may name (R9). -/
theorem openKind_eq (kind : Byte) : openKind kind = if kind = 0 then some .out else if kind =
    1 then some .inn else none := by
  unfold openKind
  split
  · next h => have : kind = 0 := BitVec.eq_of_toNat_eq h
              simp [this]
  · next h => have : kind = 1 := BitVec.eq_of_toNat_eq h
              simp [this]
  · next a b =>
    have e0 : (kind = 0) = False := eq_false (fun e => a (by rw [e]; rfl))
    have e1 : (kind = 1) = False := eq_false (fun e => b (by rw [e]; rfl))
    rw [if_neg (of_eq_false e0), if_neg (of_eq_false e1)]

/-- An OPEN out of one of its ranges is not read (R9). -/
theorem readOpen_none {kind : Byte} {base : Address} {size : Half} {port number ring cls options : Byte}
    (h : ¬ (kind.toNat < 2 ∧ port.toNat < 4 ∧ number.toNat < 64 ∧ ring.toNat < 4 ∧ base.toNat % 16 = 0 ∧
          (∃ e, 4 ≤ e ∧ e ≤ 12 ∧ size.toNat = 2 ^ e) ∧ (kind.toNat = 0 → cls.toNat < 4) ∧
          (kind.toNat = 1 → options.extractLsb 3 2 ≠ 3))) : readOpen kind base size port number ring cls options = none := by
  by_contra hc
  apply h
  obtain ⟨q, hq⟩ := Option.ne_none_iff_exists'.mp hc
  clear hc h
  unfold readOpen at hq
  simp only [Option.bind_eq_bind, Option.bind_eq_some_iff] at hq
  obtain ⟨k, hk, p, hp, n, hn, r, hr, hq⟩ := hq
  have hp := inRange_isSome.mp ⟨p, hp⟩
  have hn := inRange_isSome.mp ⟨n, hn⟩
  have hr := inRange_isSome.mp ⟨r, hr⟩
  split at hq
  · cases hq
  · next hg =>
    simp only [Bool.not_eq_true', Bool.not_eq_false, Bool.and_eq_true, powerOfTwoIn_ring, aligned, beq_iff_eq] at hg
    have hkk : kind.toNat < 2 := by
      rw [openKind_eq] at hk
      by_cases h0 : kind = 0
      · rw [h0]; decide
      · by_cases h1 : kind = 1
        · rw [h1]; decide
        · rw [if_neg h0, if_neg h1] at hk; cases hk
    refine ⟨hkk, hp, hn, hr, hg.2, hg.1, fun e => ?_, fun e => ?_⟩
    · have : kind = 0 := BitVec.eq_of_toNat_eq e
      subst this
      cases hk
      simp only [if_true, Option.bind_eq_some_iff] at hq
      obtain ⟨c, hc, _⟩ := hq
      exact inRange_isSome.mp ⟨c, hc⟩
    · have : kind = 1 := BitVec.eq_of_toNat_eq e
      subst this
      cases hk
      simp only [reduceCtorEq, if_false, Option.bind_eq_some_iff] at hq
      obtain ⟨c, hc, _⟩ := hq
      intro e
      rw [(optOverflow_none_iff options).mpr e] at hc
      cases hc

/-- An OPEN_RELAY out of one of its ranges is not read (R128). -/
theorem readRelay_none {inPort inNumber outPort outNumber cls cells options : Byte}
    (h : ¬ (inPort.toNat < 4 ∧ inNumber.toNat < 64 ∧ outPort.toNat < 4 ∧ outNumber.toNat < 64 ∧ cls.toNat < 4 ∧
          1 ≤ cells.toNat ∧ cells.toNat ≤ 8 ∧ (options.extractLsb 3 2).toNat < 2)) :
    readRelay inPort inNumber outPort outNumber cls cells options = none := by
  by_contra hc
  apply h
  obtain ⟨q, hq⟩ := Option.ne_none_iff_exists'.mp hc
  clear hc h
  unfold readRelay at hq
  simp only [Option.bind_eq_bind, Option.bind_eq_some_iff] at hq
  obtain ⟨p, hp, n, hn, p2, hp2, n2, hn2, k, hk, f, hf, hq⟩ := hq
  have a1 := inRange_isSome.mp ⟨p, hp⟩
  have a2 := inRange_isSome.mp ⟨n, hn⟩
  have a3 := inRange_isSome.mp ⟨p2, hp2⟩
  have a4 := inRange_isSome.mp ⟨n2, hn2⟩
  have a5 := inRange_isSome.mp ⟨k, hk⟩
  split at hq
  · cases hq
  · next hg =>
    simp only [Bool.or_eq_true, decide_eq_true_eq, not_or] at hg
    exact ⟨a1, a2, a3, a4, a5, by omega, by omega, (optOverflow_ne_chain_iff options f hf).mp hg.1.1⟩

/-- A key is held exactly by a channel outside CLOSED with that port, number and direction (R3). -/
theorem keyHeld_iff {d : Device} {p n b} : d.keyHeld p n b = true ↔ ∃ e : ChannelId, (d.chan e).state ≠ .closed ∧
    (d.chan e).port = p ∧ (d.chan e).number = n ∧
            (d.chan e).isOutbound = b := by
  unfold Device.keyHeld
  simp [allChannels, and_assoc]

end Sys2Proof.Machine
end

