-- ==== Sys2Proof/Laws/Steady.lean ====
section
/-! SUPPORT. Operations that keep devices equal in their steady part, and what opening, closing and a REVOKE leave of it. -/

namespace Sys2Proof.Machine

/-- A change of a map entry that agrees with one of its steady part. -/
theorem map_modEntry (x : Port) (n : LinkNumber) (f : MapEntry → MapEntry) (g : MapEntry → MapEntry)
   (h : (f (x.entry n)).steady = g (x.entry n).steady) : (x.modEntry n f).steady = (x.steady.modEntry n g) := by
  simp only [Port.steady, Port.modEntry, Port.mk.injEq, true_and, and_true]
  apply vector_ext_get
  intro m
  simp only [get_map, get_set]
  split
  · rw [h]; simp [Port.entry]
  · rfl

/-- A change of an outbound half that reads and writes its owner only. -/
theorem steady_modOut_own (x : Port) (n : LinkNumber) (f : OutHalf → OutHalf) (hf : ∀ h h' : OutHalf,
    h.owner = h'.owner → (f h).owner = (f h').owner) :
    (x.modEntry n fun e => { e with outbound := f e.outbound }).steady =
        x.steady.modEntry n fun e => { e with outbound := { f e.outbound with credits := 0, openMark := false } } := by
  apply map_modEntry
  simp only [MapEntry.steady, MapEntry.mk.injEq, OutHalf.mk.injEq, and_true]
  exact hf _ _ rfl

/-- A change of an inbound half that does not look at its credits in flight. -/
theorem steady_modIn_own (x : Port) (n : LinkNumber) (f : InHalf → InHalf) (hf : ∀ h h' : InHalf,
    {h with inFlight := 0} = {h' with inFlight := 0} → {f h with inFlight := 0} = {f h' with inFlight := 0}) :
    (x.modEntry n fun e => { e with inbound := f e.inbound }).steady =
        x.steady.modEntry n fun e => { e with inbound := { f e.inbound with inFlight := 0 } } := by
  apply map_modEntry
  simp only [MapEntry.steady, MapEntry.mk.injEq, true_and]
  exact hf _ _ rfl

/-- The same change of an outbound half keeps the ports equal in their steady part. -/
theorem modOut_congr {e d : Device} (p : PortId) (n : LinkNumber) (f : OutHalf → OutHalf) (hf : ∀ h h' : OutHalf,
    h.owner = h'.owner → (f h).owner = (f h').owner)
   (h : ∀ q, (e.port q).steady = (d.port q).steady) (q : PortId) : ((e.modOut p n f).port q).steady =
       ((d.modOut p n f).port q).steady := by
  unfold Device.modOut
  rw [port_modPort, port_modPort]
  split
  · rw [steady_modOut_own _ _ _ hf, steady_modOut_own _ _ _ hf, h]
  · exact h q

/-- The same change of an inbound half keeps the ports equal in their steady part. -/
theorem modIn_congr {e d : Device} (p : PortId) (n : LinkNumber) (f : InHalf → InHalf) (hf : ∀ h h' : InHalf,
    {h with inFlight := 0} = {h' with inFlight := 0} → {f h with inFlight := 0} = {f h' with inFlight := 0})
   (h : ∀ q, (e.port q).steady = (d.port q).steady) (q : PortId) : ((e.modIn p n f).port q).steady =
       ((d.modIn p n f).port q).steady := by
  unfold Device.modIn
  rw [port_modPort, port_modPort]
  split
  · rw [steady_modIn_own _ _ _ hf, steady_modIn_own _ _ _ hf, h]
  · exact h q

/-- The same change of a channel keeps devices equal in their steady part. -/
theorem steady_modChan_congr {e d : Device} (c : ChannelId) (f : Channel → Channel) (h : e.steady = d.steady)
   (hf : ∀ x y : Channel, x.steady = y.steady → (f x).steady = (f y).steady) : (e.modChan c f).steady =
       (d.modChan c f).steady := by
  refine steady_ext (cu_of_steady (d := e) (e := d) h) (fun k => ?_) (port_of_steady (d := e) (e := d) h)
      (ring_of_steady (d := e) (e := d) h) (relay_of_steady (d := e) (e := d) h) (lost_of_steady (d := e) (e := d) h)
      (buffers_of_steady (d := e) (e := d) h)
  rw [chan_modChan, chan_modChan]
  split
  · exact hf _ _ (chan_of_steady h c)
  · exact chan_of_steady h k

/-- Changes of a port that agree on its steady part keep devices equal in theirs. -/
theorem steady_modPort_congr {e d : Device} (c : PortId) (f : Port → Port) (g : Port → Port) (h : e.steady = d.steady)
   (hf : ∀ x y : Port, x.steady = y.steady → (f x).steady = (g y).steady) : (e.modPort c f).steady =
       (d.modPort c g).steady := by
  refine steady_ext (cu_of_steady (d := e) (e := d) h) (chan_of_steady (d := e) (e := d) h) (fun k => ?_)
      (ring_of_steady (d := e) (e := d) h) (relay_of_steady (d := e) (e := d) h) (lost_of_steady (d := e) (e := d) h)
      (buffers_of_steady (d := e) (e := d) h)
  rw [port_modPort, port_modPort]
  split
  · exact hf _ _ (port_of_steady h c)
  · exact port_of_steady h k

/-- The same change of an inbound half keeps devices equal in their steady part. -/
theorem steady_modIn_congr {e d : Device} (p : PortId) (n : LinkNumber) (f : InHalf → InHalf) (hf : ∀ h h' : InHalf,
    {h with inFlight := 0} = {h' with inFlight := 0} → {f h with inFlight := 0} = {f h' with inFlight := 0})
   (h : e.steady = d.steady) : (e.modIn p n f).steady = (d.modIn p n f).steady :=
  steady_ext (cu_of_steady (d := e) (e := d) h) (chan_of_steady (d := e) (e := d) h) (modIn_congr p n f hf
      (port_of_steady (d := e) (e := d) h)) (ring_of_steady (d := e) (e := d) h) (relay_of_steady (d := e) (e := d) h)
      (lost_of_steady (d := e) (e := d) h) (buffers_of_steady (d := e) (e := d) h)

/-- Entries added to the pending control list keep ports equal in their steady part. -/
theorem steady_control_congr {x y : Port} (k : List ControlEntry) (h : x.steady = y.steady) :
    ({ x with control := x.control ++ k } : Port).steady = ({ y with control := y.control ++ k } : Port).steady := by
  have e : ∀ z : Port, ({ z with control := z.control ++ k } : Port).steady =
      { z.steady with control := z.steady.control ++ k.filter fun e => !e.isGrant } := by
    intro z
    simp [Port.steady]
  rw [e, e, h]

/-- The same command deferred keeps devices equal in their steady part. -/
theorem defer_congr {e d : Device} (w : DeferredWork) (t : Half) (s : Byte) (h : e.steady = d.steady) :
    (e.defer w t s).steady = (d.defer w t s).steady := by
  refine steady_ext ?_ (chan_of_steady (d := e) (e := d) h) (port_of_steady (d := e) (e := d) h) (ring_of_steady
      (d := e) (e := d) h) (relay_of_steady (d := e) (e := d) h) (lost_of_steady (d := e) (e := d) h) (buffers_of_steady
      (d := e) (e := d) h)
  have := cu_of_steady h
  simp only [CommandUnit.steady, CommandUnit.mk.injEq, Device.defer, Device.modCu] at this ⊢
  simp [this]

/-- The same notice posted keeps devices equal in their steady part. -/
theorem noticed_congr {e d : Device} (b : NoticeBody) (h : e.steady = d.steady) (hs : e.serial = d.serial) :
    (e.noticed b).steady = (d.noticed b).steady := by
  have a1 := cu_of_steady h
  have a2 := chan_of_steady h
  have a3 := port_of_steady h
  have a4 := relay_of_steady h
  have a5 := buffers_of_steady h
  refine steady_ext (e := d.noticed b) (d := e.noticed b) a1 a2 a3 ?_ a4 rfl a5
  intro r
  have h4 := ring_of_steady h 4
  have hl := lost_of_steady h
  simp only [Device.noticed, Device.ring]
  change ((e.rings.set (4 : Fin 5) _).get r).steady = ((d.rings.set (4 : Fin 5) _).get r).steady
  rw [get_set, get_set]
  split
  · simp only [Ring.steady, Ring.mk.injEq] at h4 ⊢
    simp only [Device.ring, Vector.get_eq_getElem] at h4
    simp [hl, hs]
    simpa using h4
  · exact ring_of_steady h r

/-- The grant generator leaves the steady part alone (R28). -/
theorem runGenerator_steady (d : Device) (p : PortId) (n : LinkNumber) : (d.runGenerator p n).steady = d.steady := by
  have h := generate_steady d p n
  unfold Device.runGenerator
  split
  · next e he => rw [he] at h; rw [waitFor_steady]; exact h
  · next e he =>
    rw [he] at h
    split
    · exact h
    · rw [unwait_steady]; exact h
  · next e _ he => rw [he] at h; exact h

/-- A grant takes no identity. -/
theorem generate_serial (d : Device) (p : PortId) (n : LinkNumber) : (d.generate p n).1.serial = d.serial := by
  unfold Device.generate
  split
  · rfl
  · simp only
    repeat' split
    all_goals rfl

/-- The grant generator takes no identity. -/
theorem runGenerator_serial (d : Device) (p : PortId) (n : LinkNumber) : (d.runGenerator p n).serial = d.serial := by
  have h := generate_serial d p n
  unfold Device.runGenerator
  split
  · next e he => rw [he] at h; exact h
  · next e he =>
    rw [he] at h
    split
    · exact h
    · exact h
  · next e _ he => rw [he] at h; exact h

/-- The grant generator leaves the class lists alone. -/
theorem runGenerator_classes (d : Device) (p : PortId) (n : LinkNumber) : (d.runGenerator p n).sameClasses d := by
  have h := Device.sameClasses.generate (p := p) (n := n) (Device.sameClasses.self d)
  unfold Device.runGenerator
  split
  · next e he => rw [he] at h; exact Device.sameClasses.after h fun _ => rfl
  · next e he =>
    rw [he] at h
    split
    · exact h
    · exact Device.sameClasses.after h fun _ => rfl
  · next e _ he => rw [he] at h; exact h

/-- An enlisted channel stands in its class list (R91). -/
theorem mem_classes_enlist (d : Device) (c : ChannelId) : c ∈ ((d.enlist c).port (d.chan c).port).classes.get
    (d.chan c).cls := by
  unfold Device.enlist
  simp

/-- What an installed channel holds (R4). -/
theorem install_chan (d : Device) (c : ChannelId) (x : Nat → Channel) : (d.install c x).chan c = x d.serial := by
  unfold Device.install Device.bind
  simp only
  split
  · exact chan_modChan_self d c (fun _ => x d.serial)
  · exact chan_modChan_self d c (fun _ => x d.serial)

/-- An outbound channel installed: its context and its half (R4, R23). -/
theorem install_out (d : Device) (c : ChannelId) (x : Nat → Channel) (h : (x d.serial).isOutbound = true) :
    d.install c x = ({ (d.modChan c fun _ => x d.serial) with serial := d.serial + 1 }).modOut (x d.serial).port
        (x d.serial).number
      fun h => { h with owner := some c } := by
  unfold Device.install Device.bind
  have ec : (((d.modChan c fun _ => x d.serial)).chan c) = x d.serial := by simp
  have ec' : ({ (d.modChan c fun _ => x d.serial) with serial := d.serial + 1 } : Device).chan c = x d.serial := ec
  simp only
  rw [ec', if_pos h]

/-- An inbound channel installed: its context and its half (R4, R23). -/
theorem install_in (d : Device) (c : ChannelId) (x : Nat → Channel) (h : (x d.serial).isOutbound = false) :
    d.install c x = ({ (d.modChan c fun _ => x d.serial) with serial := d.serial + 1 }).modIn (x d.serial).port
        (x d.serial).number
      fun h => { h with owner := some c } := by
  unfold Device.install Device.bind
  have ec : (((d.modChan c fun _ => x d.serial)).chan c) = x d.serial := by simp
  have ec' : ({ (d.modChan c fun _ => x d.serial) with serial := d.serial + 1 } : Device).chan c = x d.serial := ec
  simp only
  rw [ec', if_neg (by simp [h])]

/-- A context cleared keeps devices equal in their steady part. -/
theorem contextCleared_congr {e d : Device} (c : ChannelId) (hcu : e.cu.steady = d.cu.steady) (chan : ∀ k,
    k ≠ c → (e.chan k).steady = (d.chan k).steady)
   (hc : (e.chan c).kind = (d.chan c).kind ∧ (e.chan c).port = (d.chan c).port ∧ (e.chan c).number = (d.chan c).number ∧
       (e.chan c).counters = (d.chan c).counters)
   (hp : ∀ p, (e.port p).steady = (d.port p).steady) (hr : ∀ p,
       (e.ring p).steady = (d.ring p).steady) (a : e.relay = d.relay) (b : e.lost = d.lost)
   (f : e.buffers = d.buffers) : (e.contextCleared c).steady = (d.contextCleared c).steady := by
  obtain ⟨h1, h2, h3, h4⟩ := hc
  have ho : (e.chan c).isOutbound = (d.chan c).isOutbound := by unfold Channel.isOutbound; rw [h1]
  have key : ∀ (E D : Device), E.cu = e.cu → D.cu = d.cu → (∀ k, E.chan k = e.chan k) → (∀ k,
      D.chan k = d.chan k) → (∀ p, (E.port p).steady = (D.port p).steady) →
    (∀ r, E.ring r = e.ring r) → (∀ r, D.ring r = d.ring r) → E.relay = e.relay → D.relay = d.relay → E.lost = e.lost →
        D.lost = d.lost → E.buffers = e.buffers → D.buffers = d.buffers →
    (E.modChan c fun x => { Channel.cleared with kind := x.kind, counters := x.counters }).steady =
        (D.modChan c fun x => { Channel.cleared with kind := x.kind, counters := x.counters }).steady := by
    intro E D g1 g2 g3 g4 g5 g6 g7 g8 g9 g10 g11 g12 g13
    refine steady_ext (by simp [g1, g2, hcu]) ?_ g5 (fun r => by simp [g6, g7, hr]) (by simp [g8, g9, a]) (by simp [g10,
        g11, b]) (by simp [g12, g13, f])
    intro k
    rw [chan_modChan, chan_modChan]
    split
    · rw [g3, g4, h4, h1]
    · rw [g3, g4]; exact chan k (fun e => by simp_all)
  unfold Device.contextCleared
  rw [ho, h2, h3]
  split
  · apply key <;> try (intros; rfl)
    apply modOut_congr _ _ _ _ hp
    intro h h' e
    simp only [e]
    split <;> simp [*]
  · apply key <;> try (intros; rfl)
    apply modIn_congr _ _ _ _ hp
    intro h h' e
    simp only [InHalf.mk.injEq] at e
    obtain ⟨e1, e2, e3, e4, e5, e6⟩ := e
    simp only [e1]
    split <;> simp [*]

/-- What CLOSED leaves of a context and its half, in the steady part (R1, R16). -/
theorem clearContext_steady (d : Device) (c : ChannelId) : (d.clearContext c).steady = (d.contextCleared c).steady := by
  have key : ∀ e : Device, e.cu.steady = d.cu.steady → (∀ k, e.chan k = d.chan k) → (∀ q, e.port q = d.port q) → (∀ r,
      (e.ring r).steady = (d.ring r).steady) → e.relay = d.relay → e.lost = d.lost → e.buffers = d.buffers →
     ((((e.unbind c).delist c).modChan c fun y => { Channel.cleared with kind := y.kind, counters := y.counters })).steady =
         (d.contextCleared c).steady := by
    intro e g1 g2 g3 g4 g5 g6 g7
    have h1 : (e.contextCleared c).steady = (d.contextCleared c).steady :=
      contextCleared_congr c g1 (fun k _ => by rw [g2]) (by rw [g2]; exact ⟨rfl, rfl, rfl,
          rfl⟩) (fun p => by rw [g3]) g4 g5 g6 g7
    rw [← h1]
    have h2 : (((e.unbind c).delist c).modChan c fun y => { Channel.cleared with kind := y.kind, counters := y.counters }).steady =
        ((e.unbind c).modChan c fun y => { Channel.cleared with kind := y.kind, counters := y.counters }).steady := by
      change ((((e.unbind c).modChan c fun y => { Channel.cleared with kind := y.kind, counters := y.counters })).modPort
          ((e.unbind c).chan c).port fun x => x.delist c).steady = _
      apply steady_modPort
      unfold Port.delist
      simp only
      split
      · split <;> rfl
      · rfl
    rw [h2]
    rfl
  unfold Device.clearContext
  simp only
  split
  · apply key <;> try (intros; rfl)
    intro r
    simp only [Device.unwait, Device.release, ring_modRing]
    split
    · next e => subst e; simp [Ring.steady]
    · rfl
  · apply key <;> try (intros; rfl)
    intro r
    simp only [Device.unwait, ring_modRing]
    split
    · next e => subst e; simp [Ring.steady]
    · rfl

/-- A channel closed: its CLOSE completes with the retire index and its context is cleared (R13, R16, R160). -/
theorem finishChannel_steady {e d : Device} {c : ChannelId} {m : CloseMode} {tag : Half} {subject : Byte} {k : Nat}
    (hl : ∀ x ∈ d.cu.deferred, isClose c x.work = false) (hb : ∀ x, d.cu.deferred.head? = some x → x.work ≠ .barrier)
    (hcu : e.cu = { d.cu with deferred := d.cu.deferred ++ [{ work := .close m c, tag := tag, subject := subject }] })
    (chan : ∀ k, k ≠ c → (e.chan k).steady = (d.chan k).steady)
    (hc : (e.chan c).kind = (d.chan c).kind ∧ (e.chan c).port = (d.chan c).port ∧ (e.chan c).number = (d.chan c).number ∧
        (e.chan c).counters = (d.chan c).counters)
    (hk : (e.chan c).retire = k)
   (hp : ∀ p, (e.port p).steady = (d.port p).steady) (hr : ∀ p,
       (e.ring p).steady = (d.ring p).steady) (a : e.relay = d.relay) (b : e.lost = d.lost)
   (f : e.buffers = d.buffers) (hs : e.serial = d.serial) :
    (e.finishChannel c).steady = ((d.noticed (.commandDone subject .ok tag k)).contextCleared c).steady := by
  unfold Device.finishChannel
  rw [clearContext_steady]
  have h1 : e.completeDeferred (isClose c) .ok (e.chan c).retire = (e.withDeferred d.cu.deferred).noticed
      (.commandDone subject .ok tag k) := by
    have := completeDeferred_eq (d := e) (sel := isClose c) (r := .ok) (k := (e.chan c).retire) d.cu.deferred []
        (by rw [hcu]) hl (by simp [isClose]) (by simpa using hb)
    rw [this, hk, List.append_nil]
  rw [h1]
  have hring : ∀ (x : Device) (r : RingId), (x.noticed (.commandDone subject .ok tag k)).ring r =
     if r = 4 then
        { x.ring 4 with queue := (x.ring 4).queue ++ [{ order := x.serial, body := .notice (.commandDone subject .ok tag k) x.lost }] }
      else x.ring r := by
    intro x r
    simp only [Device.noticed, Device.ring]
    change ((x.rings.set (4 : Fin 5) _).get r) = _
    rw [get_set]
    by_cases h : r = 4
    · subst h; rfl
    · simp [h, Ne.symm h]
  apply contextCleared_congr
  · change (e.withDeferred d.cu.deferred).cu.steady = d.cu.steady
    simp only [Device.withDeferred, hcu]
  · intro k hk; exact chan k hk
  · exact hc
  · intro p; exact hp p
  · intro r
    rw [hring, hring]
    split
    · have := hr 4
      simp only [Ring.steady, Ring.mk.injEq] at this ⊢
      have e1 : (e.withDeferred d.cu.deferred).ring 4 = e.ring 4 := rfl
      have e2 : (e.withDeferred d.cu.deferred).serial = e.serial := rfl
      have e3 : (e.withDeferred d.cu.deferred).lost = e.lost := rfl
      rw [e1, e2, e3, hs, b]
      simp [this]
    · exact hr r
  · exact a
  · rfl
  · exact f

/-- Only the outbound half of a pair is found through its partner. -/
theorem pairIndex_self {d : Device} {c : ChannelId} (h : (d.chan c).kind ≠ .relayOut) : d.pairIndex c = c := by
  unfold Device.pairIndex
  simp [h]

/-- Two devices that agree but for one channel and what is not steady. -/
structure SameBut (e d : Device) (c : ChannelId) : Prop where
  cu : e.cu = d.cu
  chan : ∀ k, k ≠ c → e.chan k = d.chan k
  port : ∀ p, (e.port p).steady = (d.port p).steady
  ring : ∀ p, (e.ring p).steady = (d.ring p).steady
  relay : e.relay = d.relay
  lost : e.lost = d.lost
  buffers : e.buffers = d.buffers
  serial : e.serial = d.serial

/-- A waiting request withdrawn: the channel no longer waits, and all else stays (R12, R90). -/
theorem withdrawRequest_spec (e : Device) (c : ChannelId) : SameBut (e.withdrawRequest c) e c ∧
    (e.withdrawRequest c).chan c =
    { e.chan c with out := if (e.chan c).out.phase = .waiting then { (e.chan c).out with phase := .idle } else
        (e.chan c).out } := by
  unfold Device.withdrawRequest
  by_cases h : (e.chan c).out.phase = .waiting
  · rw [if_pos (by simp [h]), if_pos h]
    refine ⟨⟨rfl, fun k hk => ?_, fun _ => rfl, fun r => ?_, rfl, rfl, rfl, rfl⟩, ?_⟩
    · unfold Device.modOutMsg
      rw [chan_modChan, if_neg (Ne.symm hk)]
      rfl
    · change (((e.unwait (cqRing (e.chan c).ring) (.outRecord c))).ring r).steady = _
      simp only [Device.unwait, ring_modRing]
      split
      · next h => rw [h]; rfl
      · rfl
    · unfold Device.modOutMsg
      rw [chan_modChan_self]
      rfl
  · rw [if_neg (by simpa using h), if_neg h]
    exact ⟨⟨rfl, fun _ _ => rfl, fun _ => rfl, fun _ => rfl, rfl, rfl, rfl, rfl⟩, rfl⟩

/-- Dropping the pending GRANTs of a number keeps the other control entries in order. -/
theorem modUnoffered_others (x : Port) (n : LinkNumber) :
    (x.modUnoffered (List.filter fun e => match e with | .grant m _ => !(m == n) | _ => true)).control.filter
        (fun e => !e.isGrant) = x.control.filter (fun e => !e.isGrant) := by
  have key : ∀ l : List ControlEntry, ((l.filter fun e => match e with | .grant m _ => !(m == n) | _ => true)).filter
      (fun e => !e.isGrant) = l.filter (fun e => !e.isGrant) := by
    intro l
    rw [List.filter_filter]
    congr 1
    funext e
    cases e <;> simp [ControlEntry.isGrant]
  unfold Port.modUnoffered
  split
  · simp only [List.filter_append, key]
    rw [← List.filter_append, List.take_append_drop]
  · exact key _

/-- Dropping the pending GRANTs of a number leaves the port's steady part alone. -/
theorem modUnoffered_drop_steady (x : Port) (n : LinkNumber) :
    (x.modUnoffered (List.filter fun e => match e with | .grant m _ => !(m == n) | _ => true)).steady = x.steady := by
  have h := modUnoffered_others x n
  unfold Port.modUnoffered at *
  split
  · next g => rw [if_pos g] at h; simp only [Port.steady, Port.mk.injEq, true_and, and_true]; exact h
  · next g => rw [if_neg g] at h; simp only [Port.steady, Port.mk.injEq, true_and, and_true]; exact h

/-- Reservations returned are not in the steady part. -/
theorem releaseCredits_steady (d : Device) (o : Option ChannelId) (k : Nat) : (d.releaseCredits o k).steady = d.steady := by
  unfold Device.releaseCredits
  split
  · split
    · exact release_steady ..
    · rfl
  · rfl

/-- A REVOKE already pending. -/
theorem revokePending_self (x : InHalf) (h : x.revokePending = true) : { x with revokePending := true } =
    x := by cases x; simp_all

/-- A REVOKE asked for on a port that is up: it is pending and queued once (R30). -/
theorem requestRevoke_up {d : Device} {p : PortId} {n : LinkNumber} (hu : (d.port p).up = true) :
    (d.requestRevoke p n).steady = ((d.modIn p n fun h => { h with revokePending := true }).modPort p fun x =>
              { x with
                control := if (d.inHalf p n).revokePending then x.control else x.control ++ [.revoke n] }).steady ∧
     ((d.requestRevoke p n).inHalf p n).revokePending = true ∧ (d.requestRevoke p n).cu = d.cu ∧
         (∀ c, (d.requestRevoke p n).chan c = d.chan c) ∧ (d.requestRevoke p n).serial = d.serial := by
  obtain ⟨d0, hd0⟩ : ∃ d0, d0 = (match (d.inHalf p n).owner with
    | some c => d.unwait (cqRing (d.chan c).ring) (.inHalf p n)
    | none => d) := ⟨_, rfl⟩
  have h0 : d0.steady = d.steady ∧ d0.cu = d.cu ∧ (∀ c, d0.chan c = d.chan c) ∧ d0.serial = d.serial ∧
      (∀ q, d0.port q = d.port q) := by
    rw [hd0]
    split
    · exact ⟨unwait_steady .., rfl, fun _ => rfl, rfl, fun _ => rfl⟩
    · exact ⟨rfl, rfl, fun _ => rfl, rfl, fun _ => rfl⟩
  obtain ⟨d2, hd2⟩ : ∃ d2, d2 = (((d0.modPort p fun x =>
        x.modUnoffered (List.filter fun e => match e with | .grant m _ => !(m == n) | _ => true)).modIn p n
      fun x => { x with inFlight := x.inFlight - grantValue n (d.port p).unoffered }).releaseCredits
          (d.inHalf p n).owner (grantValue n (d.port p).unoffered)) := ⟨_, rfl⟩
  have hrel : ∀ (x : Device) (o : Option ChannelId) k, (x.releaseCredits o k).cu = x.cu ∧
      (∀ c, (x.releaseCredits o k).chan c = x.chan c) ∧ (x.releaseCredits o k).serial = x.serial ∧
      (∀ q, (x.releaseCredits o k).port q = x.port q) := by
    intro x o k
    unfold Device.releaseCredits
    split
    · split <;> exact ⟨rfl, fun _ => rfl, rfl, fun _ => rfl⟩
    · exact ⟨rfl, fun _ => rfl, rfl, fun _ => rfl⟩
  have h2 : d2.steady = d.steady ∧ d2.cu = d.cu ∧ (∀ c, d2.chan c = d.chan c) ∧ d2.serial = d.serial ∧
      (d2.inHalf p n).revokePending = (d.inHalf p n).revokePending := by
    rw [hd2]
    refine ⟨?_, (hrel ..).1.trans h0.2.1, fun c => ((hrel ..).2.1 c).trans (h0.2.2.1 c),
        (hrel ..).2.2.1.trans h0.2.2.2.1, ?_⟩
    · rw [releaseCredits_steady, steady_modIn rfl, steady_modPort (modUnoffered_drop_steady _ _)]
      exact h0.1
    · unfold Device.inHalf Device.modIn
      rw [(hrel ..).2.2.2 p, port_modPort_self, entry_modEntry_self, port_modPort_self, h0.2.2.2.2]
      unfold Port.modUnoffered
      split <;> rfl
  have e : d.requestRevoke p n = if (d.inHalf p n).revokePending then d2 else
      (d2.modIn p n fun x => { x with revokePending := true }).modPort p
      fun x => { x with control := x.control ++ [.revoke n] } := by
    unfold Device.requestRevoke
    simp only [hu, if_true]
    (rw [hd2, hd0]; try rfl)
  rw [e]
  by_cases hr : (d.inHalf p n).revokePending = true
  · simp only [hr, if_true]
    refine ⟨?_, by rw [h2.2.2.2.2, hr], h2.2.1, h2.2.2.1, h2.2.2.2.1⟩
    rw [h2.1]
    have : ((d.modIn p n fun h => { h with revokePending := true }).modPort p fun x => { x with control := x.control }).steady = (d.modIn p n fun h => { h with revokePending := true }).steady := steady_modPort rfl
    rw [this, steady_modIn]
    rw [revokePending_self _ hr]
  · simp only [hr]
    refine ⟨?_, ?_, h2.2.1, h2.2.2.1, h2.2.2.2.1⟩
    · simp only [Bool.false_eq_true, if_false]
      apply steady_modPort_congr
      · exact steady_modIn_congr _ _ _ (fun h h' e => by simp only [InHalf.mk.injEq] at e ⊢; simp [e]) h2.1
      · exact fun x y h => steady_control_congr _ h
    · simp only [Bool.false_eq_true, if_false]
      unfold Device.inHalf Device.modIn
      rw [port_modPort_self, port_modPort_self]
      have := entry_modEntry_self n (d2.port p) (fun e => { e with inbound := { e.inbound with revokePending := true } })
      exact congrArg (fun e : MapEntry => e.inbound.revokePending) this

end Sys2Proof.Machine
end

