-- ==== Sys2Proof/Tests/Slice0.lean ====
section
/-! SUPPORT. Tests: ill-formed terms refused, command records written out byte by byte from chapter 11, small steps, and for every
statement with hypotheses a concrete state and operands that meet them. -/

namespace Sys2Proof.Tests

open Sys2Proof Sys2Proof.Machine

set_option maxRecDepth 8000
set_option Elab.async false

/-! ## Small states -/

/-- A RUNNING part with NQ set, 16 entries, and a command ring of 16 entries, under a change of its blocks. -/
def made (f : Device → Device) : State :=
  { State.reset with
    engine := .running
    dev :=
      f
        { State.reset.dev with
          cu := { CommandUnit.reset with base := 0x1000, producer := 3, fetch := 1 }
          rings := State.reset.dev.rings.set 4 (Ring.setTo 0x2000 16 1 0) } }

/-- The same with one command record fetched and its slot held. -/
def taking (bytes : List Byte) (f : Device → Device) : State :=
  made fun d => (f d).modCu fun x => { x with held := [parseCommand bytes], slotHeld := true }

/-- The state after a command or event. -/
def after (i : Instr) (s : State) : State :=
  match exec i s with
  | .next t => t
  | _ => s

/-- A command record with zeros after the bytes given. -/
def padded (l : List Byte) : List Byte := l ++ List.replicate (32 - l.length) 0

/-- A head command with its slot held may be taken. -/
theorem taking_canTake {bytes : List Byte} {f : Device → Device} {i : Instr} (h : (parseCommand bytes).command = i)
    (hd : (f (made id).dev).cu.deferred.length < 16) : (taking bytes f).canTake i :=
  ⟨rfl, rfl, hd, _, _, rfl, h⟩

/-- A deferred list of one command defers it, with nothing before it or after. -/
theorem defers_one {s : State} {sel : DeferredWork → Bool} {e : Deferred} (h : s.dev.cu.deferred = [e]) (g : sel e.work = true) :
    s.defers sel e [] [] :=
  ⟨h, g, by simp, by simp⟩

/-- A deferred list of one command. -/
def deferring (w : DeferredWork) (d : Device) : Device :=
  d.modCu fun x => { x with deferred := [{ work := w, tag := 7, subject := 2 }] }

/-- One memory request placed, under identity 9. -/
def asking (a : Access) (length : Nat) (d : Device) : Device :=
  { d with requests := [{ id := 9, access := a, address := 0x5000, length := length, data := [] }] }

/-- Channel 5 open as OUT on port 1, number 9, with one send record of 4 bytes fetched. -/
def outOpen (d : Device) : Device :=
  (d.modChan 5 fun x =>
    { x with
      state := .opened, kind := .out, port := 1, number := 9, producer := 1, fetch := 1,
      held := [{ address := 0x6000, size := 4, plain := false, tag := 0xA }], opening := 3 }).modOut 1 9
    fun h => { h with owner := some 5 }

/-- Channel 6 open as IN on port 1, number 9, with one supply record of 4 bytes fetched. -/
def inOpen (d : Device) : Device :=
  (d.modChan 6 fun x =>
    { x with
      state := .opened, kind := .inn, port := 1, number := 9, producer := 1, fetch := 1,
      held := [{ address := 0x7000, size := 4, plain := false, tag := 0xB }], opening := 4 }).modIn 1 9
    fun h => { h with owner := some 6 }

/-- A relay pair of channels 1 and 2, from port 0 number 3 to port 2 number 8, with one cell. -/
def pairOpen (d : Device) : Device :=
  ((((d.setPair 1
      (some { inbound := 1, outbound := 2, reserved := 1, spare := [4], filling := none, queue := [], cut := false })).modChan 1
      fun x => { x with state := .opened, kind := .relayIn, port := 0, number := 3, partner := 2 }).modChan 2
      fun x => { x with state := .opened, kind := .relayOut, port := 2, number := 8, partner := 1 }).modIn 0 3
      fun h => { h with owner := some 1 }).modOut 2 8
    fun h => { h with owner := some 2 }

/-- A port in a state, with a change of its record. -/
def port (p : PortId) (state : PortState) (f : Port → Port) (d : Device) : Device := d.modPort p fun x => f { x with state := state }

/-- A ring set with 16 entries. -/
def ringSet (r : RingId) (d : Device) : Device := d.modRing r fun _ => Ring.setTo 0x3000 16 1 0

/-! ## Well-formedness: one ill-formed term for each check -/

theorem test_illformed_width : (Instr.registerWrite 4 0 1).wellFormed = false := by decide

theorem test_illformed_target : (Instr.notifyBadTarget 69 0 false).wellFormed = false := by decide

theorem test_illformed_root : (Instr.rootTableReadDone 1 (.data (List.replicate 63 0))).wellFormed = false := by decide

theorem test_illformed_commands : (Instr.commandFetchDone 1 (.data (List.replicate 160 0))).wellFormed = false := by
  decide +kernel

theorem test_illformed_records : (Instr.recordFetchDone 1 (.data [])).wellFormed = false := by decide

theorem test_illformed_payload : (Instr.payloadReadDone 1 (.data (List.replicate 257 0))).wellFormed = false := by
  decide +kernel

theorem test_illformed_close : (Instr.closeGraceful 0 0 1).wellFormed = false := by decide

theorem test_illformed_disable : (Instr.portDisableGraceful 0 0 1).wellFormed = false := by decide

theorem test_illformed_opcode : (Instr.unknownOpcode 9 0 0).wellFormed = false := by decide

/-! ## Command records, byte by byte from the table of section 11.1 -/

def nopBytes : List Byte := padded [0x00, 0xEE, 0x34, 0x12, 7, 1, 2, 3]

theorem test_decode_nop : (parseCommand nopBytes).command = .nop 0x1234 7 := by decide

/-- OPEN of channel 5 as OUT: base 4000h, 16 entries, port 1, number 9, ring 2, class 3, COMPRESS and RESTART. -/
def openOut : List Byte :=
  padded [0x01, 0, 0x34, 0x12, 5, 0, 0, 0, 0x00, 0x40, 0, 0, 0, 0, 0, 0, 0x10, 0x00, 1, 9, 2, 3, 0x03]

theorem test_decode_open_out : (parseCommand openOut).command = .openChannel 0x1234 5 0 0x4000 16 1 9 2 3 3 := by decide

/-- OPEN of channel 6 as IN: base 8000h, 4096 entries, port 3, number 63, ring 0, policy CHAIN. -/
def openIn : List Byte :=
  padded [0x01, 1, 0xFF, 0x00, 6, 0, 0, 0, 0x00, 0x80, 0, 0, 0, 0, 0, 0, 0x00, 0x10, 3, 63, 0, 0, 0x08]

theorem test_decode_open_in : (parseCommand openIn).command = .openChannel 0x00FF 6 1 0x8000 4096 3 63 0 0 8 := by decide

/-- OPEN_RELAY: inbound channel 1 on port 0, number 3; outbound channel 2 on port 2, number 8; class 1, 8 cells, TRUNCATE. -/
def relayBytes : List Byte := padded [0x02, 0, 0x01, 0x00, 1, 0, 0, 0, 2, 0, 3, 2, 8, 1, 8, 0x04]

theorem test_decode_relay : (parseCommand relayBytes).command = .openRelay 1 1 2 0 3 2 8 1 8 4 := by decide

def closeBytes (channel : Byte) (mode : Byte) : List Byte := padded [0x03, mode, 0x07, 0x00, channel]

theorem test_decode_close :
    (parseCommand (closeBytes 5 0)).command = .closeGraceful 7 5 0 ∧ (parseCommand (closeBytes 5 1)).command = .closeAbort 7 5 ∧
      (parseCommand (closeBytes 5 2)).command = .closeGraceful 7 5 2 := by decide

/-- SET_RING of ring 3: base 2000h, 4096 entries, threshold 255, coalescing time 0102h. -/
def ringBytes (ring : Byte) : List Byte :=
  padded [0x04, 0, 0x05, 0x00, ring, 0, 0, 0, 0x00, 0x20, 0, 0, 0, 0, 0, 0, 0x00, 0x10, 0xFF, 0, 0x02, 0x01]

theorem test_decode_set_ring : (parseCommand (ringBytes 3)).command = .setRing 5 3 0x2000 4096 0xFF 0x0102 := by decide

/-- PORT_SETUP of a port: FOLLOW, SLICE 16, TURN_BUDGET 64, HOLD_LIMIT 0, ACCEPT_LIMIT 1, TURN_WAIT 65535, RECOVER 255, RETRIES 15,
DRAIN_LIMIT 0201h. -/
def setupBytes (p : Byte) : List Byte :=
  padded
    [0x05, 0, 0x06, 0x00, p, 0, 0, 0, 1, 0, 0x10, 0x00, 0x40, 0x00, 0x00, 0x00, 0x01, 0x00, 0xFF, 0xFF, 0xFF, 15, 0x01, 0x02]

theorem test_decode_setup : (parseCommand (setupBytes 3)).command = .portSetup 6 3 1 16 64 0 1 65535 255 15 0x0201 := by decide

def enableBytes (p : Byte) : List Byte := padded [0x06, 0, 0x08, 0x00, p]

theorem test_decode_enable : (parseCommand (enableBytes 2)).command = .portEnable 8 2 := by decide

def disableBytes (p : Byte) (mode : Byte) : List Byte := padded [0x07, mode, 0x09, 0x00, p]

theorem test_decode_disable :
    (parseCommand (disableBytes 2 0)).command = .portDisableGraceful 9 2 0 ∧
      (parseCommand (disableBytes 2 1)).command = .portDisableAbrupt 9 2 := by decide

/-- READ_STATS of a subject with CLEAR, to 4030h. -/
def statsBytes (subject : Byte) (kind : Byte) : List Byte :=
  padded [0x08, 1, 0x0A, 0x00, subject, 0, 0, 0, kind, 0, 0, 0, 0, 0, 0, 0, 0x30, 0x40]

theorem test_decode_stats : (parseCommand (statsBytes 63 2)).command = .readStats 10 63 1 2 0x4030 := by decide

def barrierBytes : List Byte := padded [0x09, 0, 0x0B, 0x00, 1]

theorem test_decode_barrier : (parseCommand barrierBytes).command = .barrier 11 1 := by decide

def unknownBytes : List Byte := padded [0x0A, 0, 0x0C, 0x00, 1]

theorem test_decode_unknown : (parseCommand unknownBytes).command = .unknownOpcode 0x0A 12 1 := by decide

theorem test_table_word : decodeTableWord 32 5 = none := by decide

/-- The command bytes of section 11.3: SELECT 9, REPEAT 63, END ABANDON, GRANT 2. -/
theorem test_link_bytes :
    linkCommand 0x09 = .select 9 ∧ linkCommand 0x7F = .rep 63 ∧ linkCommand 0x81 = .finish 1 ∧ linkCommand 0xC2 = .grant 2 := by
  decide

/-- Odd parity over the ten lines (R40): a data byte 00h has PAR high, a data byte 01h low. -/
theorem test_parity : wireByte false 0x00 = { flag := false, par := true, data := 0 } ∧
    wireByte false 0x01 = { flag := false, par := false, data := 1 } ∧ parityGood (wireByte true 0xC2) = true := by decide

/-! ## Small steps -/

theorem test_start : (after .start { State.reset with root := 0x40 }).dev.requests =
    [{ id := 1, access := .rootTable, address := 0x40, length := 64, data := [] }] := by decide +kernel

theorem test_halt : (after .halt (made outOpen)).engine = .halted ∧ (after .halt (made outOpen)).dev.chan 5 = Channel.cleared := by
  decide +kernel

theorem test_root_low_bits : (after (.registerWrite 0x08 4 0xFFF) State.reset).root = 0xFC0 := by decide +kernel

theorem test_ident : readRegister State.reset 0x00 4 = 0x00010464 := by decide +kernel

theorem test_nop_notice : ((after (.nop 0x1234 7) (taking nopBytes id)).dev.ring 4).queue =
    [{ order := 1, body := .notice (.commandDone 7 .ok 0x1234 0) 0 }] := by decide +kernel

/-- The notice record of section 11.2: lap mark 1, kind 1, lost count 2, subject 7, code OK, tag 1234h, detail 0. -/
theorem test_notice_bytes : NoticeBody.bytes (.commandDone 7 .ok 0x1234 0) 2 true =
    [0x01, 0x01, 0x02, 0x00, 0x07, 0x00, 0x34, 0x12, 0, 0, 0, 0, 0, 0, 0, 0] := by decide

theorem test_open_owner :
    ((after (.openChannel 0x1234 5 0 0x4000 16 1 9 2 3 3) (taking openOut (ringSet 2))).dev.outHalf 1 9).owner = some 5 := by
  decide +kernel

theorem test_open_unset_ring :
    ((after (.openChannel 0x1234 5 0 0x4000 16 1 9 2 3 3) (taking openOut id)).dev.chan 5).state = .closed := by decide +kernel

theorem test_relay_cells :
    ((after (.openRelay 1 1 2 0 3 2 8 1 8 4) (taking relayBytes id)).dev.pair 1).map RelayPair.spare = some [0, 1, 2, 3, 4, 5, 6, 7] := by
  decide +kernel

theorem test_close_draining :
    ((after (.closeGraceful 7 5 0)
      (taking (closeBytes 5 0) fun d => (outOpen d).modOutMsg 5 fun o => { o with phase := .started })).dev.chan 5).state =
        .draining := by decide +kernel

theorem test_notify_fetches :
    (after (.notifyChannel 5 3 false) (made outOpen)).dev.requests.map Request.length = [32, 64] := by decide +kernel

theorem test_engage_grants :
    ((after (.engagement 1) (made fun d => port 1 .engaging id (ringSet 0 (inOpen d)))).dev.port 1).control = [.grant 9 1] := by
  decide +kernel

theorem test_data_byte :
    ((after (.peerByteOffered 1 (wireByte false 0x41))
      (made fun d => port 1 .active (fun x => { x with turn := .theirs, selection := some 9 })
        ((inOpen d).modIn 1 9 fun h => { h with granted := 1 }))).dev.requests.map Request.data) = [[0x41], []] := by decide +kernel

theorem test_parity_breaks :
    ((after (.peerByteOffered 1 { flag := false, par := false, data := 0 })
      (made (port 1 .active fun x => { x with turn := .theirs }))).dev.port 1).lastBreak = .parity := by decide +kernel

/-- A write takes the staged bytes of its buffer past those of another message (R113). -/
theorem test_gather_interleaved :
    gather (.buffer 1) 256 0
      [{ dest := .buffer 1, offset := 0, byte := 7 }, { dest := .buffer 2, offset := 0, byte := 8 },
        { dest := .buffer 1, offset := 1, byte := 9 }] = ([7, 9], [{ dest := .buffer 2, offset := 0, byte := 8 }]) := by decide

/-- A byte moved late lies over what stood there (R131). -/
theorem test_late_move :
    bytesFrom ((RelayUnit.reset.place 3 { offset := 0, bytes := [1, 2] }).place 3 { offset := 0, bytes := [9] } |>.cells.get 3) 0 4 =
      [9, 2] := by decide +kernel

/-! ## Witnesses for the hypotheses of the statements: registers and NOTIFY -/

theorem witness_StepTakesFrontCommand :
    { State.reset with pending := [.start, .halt] }.pending = .start :: [.halt] ∧ State.reset.pending = [] := by decide

theorem witness_StartPlacesRootTableRead : State.reset.engine = .halted ∧ (made id).engine ≠ .halted := by decide

theorem witness_RegisterWriteActsByOffset :
    ((0x1C : BitVec 6) ≠ 0x04 ∧ (0x1C : BitVec 6) ≠ 0x08 ∧ (0x1C : BitVec 6) ≠ 0x0C ∧ (0x1C : BitVec 6) ≠ 0x10 ∧ (0x1C : BitVec 6) ≠ 0x18) ∧
      (0x3F : Word).extractLsb 7 0 = BitVec.ofNat 8 (63 : ChannelId).val ∧ (0x40 : Word).extractLsb 7 0 = 64 ∧
      (0x45 : Word).extractLsb 7 0 = BitVec.ofNat 8 (65 + (4 : RingId).val) ∧ 70 ≤ ((0x46 : Word).extractLsb 7 0).toNat ∧
      70 ≤ ((0xFF : Word).extractLsb 7 0).toNat := by decide

/-- A root table with both rings at their smallest and the threshold at 1. -/
def smallTable : List Byte :=
  [0x20, 0, 0, 0, 0, 0, 0, 0, 16, 0, 0, 0, 0, 0, 0, 0, 0x10, 0, 0, 0, 0, 0, 0, 0, 16, 0, 1, 0] ++ List.replicate 36 0

/-- A root table with both rings at their largest and the threshold at 255. -/
def largeTable : List Byte :=
  [0x20, 0, 0, 0, 0, 0, 0, 0, 0, 4, 0, 0, 0, 0, 0, 0, 0x10, 0, 0, 0, 0, 0, 0, 0, 0, 16, 255, 0] ++ List.replicate 36 0

/-- The part in STARTING with its root table read placed. -/
def starting : State := { State.reset with engine := .starting, dev := asking .rootTable 64 State.reset.dev }

theorem witness_RootTableReturnStartsOrFaults :
    starting.engine = .starting ∧ starting.dev.requests.length = 1 ∧ ∃ r, starting.dev.request? 9 = some r ∧ r.access = .rootTable ∧
      smallTable.length = r.length ∧ largeTable.length = r.length :=
  ⟨rfl, rfl, _, rfl, rfl, rfl, rfl⟩

theorem witness_RootTableReturn_good :
    ∀ t ∈ [smallTable, largeTable],
      let q := parseRootTable t
      q.commandBase.toNat % 32 = 0 ∧ (∃ k, 4 ≤ k ∧ k ≤ 10 ∧ q.commandSize = 2 ^ k) ∧ q.noticeBase.toNat % 16 = 0 ∧
        (∃ k, 4 ≤ k ∧ k ≤ 12 ∧ q.noticeSize = 2 ^ k) ∧ 1 ≤ q.threshold ∧ q.threshold ≤ 255 := by
  simp only [List.forall_mem_cons, List.not_mem_nil, false_implies, implies_true, and_true]
  exact ⟨⟨by decide, ⟨4, by decide⟩, by decide, ⟨4, by decide⟩, by decide⟩,
    ⟨by decide, ⟨10, by decide⟩, by decide, ⟨12, by decide⟩, by decide⟩⟩

theorem witness_RootTableReturn_bad : ¬ 1 ≤ (parseRootTable (List.replicate 64 0)).threshold := by decide

theorem witness_CommandFetchReturnAddsOrFaults :
    (made (asking .commandFetch 64)).engine = .running ∧ ∃ r, (made (asking .commandFetch 64)).dev.request? 9 = some r ∧
      r.access = .commandFetch ∧ (nopBytes ++ barrierBytes).length = r.length :=
  ⟨rfl, _, rfl, rfl, rfl⟩

theorem witness_NotifyChannelMovesProducer :
    let x := (made outOpen).dev.chan 5
    (made outOpen).engine = .running ∧ x.state ≠ .closed ∧ (x.kind = .out ∨ x.kind = .inn) ∧ (15 : BitVec 12).toNat < x.size ∧
      (x.fetch + x.size - x.retire) % x.size ≤ ((15 : BitVec 12).toNat + x.size - x.retire) % x.size ∧
      (x.fetch + x.size - x.retire) % x.size ≤ ((1 : BitVec 12).toNat + x.size - x.retire) % x.size ∧
      ¬ (16 : BitVec 12).toNat < x.size ∧
      ¬ (x.fetch + x.size - x.retire) % x.size ≤ ((0 : BitVec 12).toNat + x.size - x.retire) % x.size := by decide +kernel

theorem witness_NotifyCommandRingOrBadTarget :
    let x := (made id).dev.cu
    (made id).engine = .running ∧ (15 : BitVec 12).toNat < x.size ∧
      (x.fetch + x.size - x.taken) % x.size ≤ ((15 : BitVec 12).toNat + x.size - x.taken) % x.size ∧
      ¬ (16 : BitVec 12).toNat < x.size ∧
      ¬ (x.fetch + x.size - x.taken) % x.size ≤ ((0 : BitVec 12).toNat + x.size - x.taken) % x.size ∧ 70 ≤ (70 : Byte).toNat ∧
      70 ≤ (255 : Byte).toNat := by decide +kernel

/-- NQ with two unconsumed entries. -/
def twoWritten (d : Device) : Device := d.modRing 4 fun x => { x with producer := 2, threshold := 4, time := 9 }

theorem witness_NotifyRingMovesConsumer :
    let x := (made twoWritten).dev.ring 4
    (made twoWritten).engine = .running ∧ x.isSet = true ∧ (2 : BitVec 12).toNat < x.size ∧
      ((2 : BitVec 12).toNat + x.size - x.consumer) % x.size ≤ x.filled ∧
      ((0 : BitVec 12).toNat + x.size - x.consumer) % x.size ≤ x.filled ∧
      ¬ ((3 : BitVec 12).toNat + x.size - x.consumer) % x.size ≤ x.filled ∧ ((made twoWritten).dev.ring 0).isSet = false := by
  decide +kernel

theorem witness_NothingActsOutsideRunning :
    State.reset.engine ≠ .running ∧ starting.engine ≠ .running ∧ isRegisterAccess (.engiRise 1) = false ∧
      ∀ id reply, Instr.engiRise 1 ≠ .rootTableReadDone id reply :=
  ⟨by decide, by decide, rfl, fun _ _ h => nomatch h⟩

/-! ## Witnesses: rings -/

theorem witness_PostedNoticeTakesLostCount :
    ((made id).dev.ring 4).hasRoom ∧ ¬ ((made fun d => d.modRing 4 fun x => { x with reserved := 15 }).dev.ring 4).hasRoom ∧
      ((made fun d => d.modRing 4 fun x => { x with reserved := 14 }).dev.ring 4).hasRoom := by
  unfold Ring.hasRoom
  decide +kernel

/-- CQ0 set with channel 5's record waiting, and NQ with the Command Unit waiting, both with room just gained. -/
def waiters (d : Device) : Device :=
  ((ringSet 0 (outOpen d)).modRing 0 fun x => { x with waiting := [.outRecord 5], gained := true }).modRing 4
    fun x => { x with waiting := [.commandUnit], reserved := 14, gained := true }

/-- The IN channel 6 with two supply records on an ACTIVE port, waiting at the head of CQ0's list with the half of number 10, which has no
owner; CQ0 has just gained room, and has a number of slots. -/
def halfWaits (slots : Nat) (d : Device) : Device :=
  ((ringSet 0 (port 1 .active id (inOpen d))).modChan 6 fun x => { x with held := x.held ++ x.held }).modRing 0
    fun x => { x with waiting := [.inHalf 1 9, .inHalf 1 10], reserved := 15 - slots, gained := true }

theorem witness_WaitingListServedFromHead :
    let d := (made waiters).dev
    let full := (made fun d => (waiters d).modRing 4 fun x => { x with reserved := 15 }).dev.ring 4
    (d.ring 1).gained = false ∧ (d.ring 0).gained = true ∧ (d.ring 0).hasRoom ∧ (d.ring 0).waiting = .outRecord 5 :: [] ∧
      (d.ring 4).gained = true ∧ (d.ring 4).hasRoom ∧ (d.ring 4).waiting = .commandUnit :: [] ∧ (d.ring 4).isSet = true ∧
      (d.ring 4).filled + (d.ring 4).reserved ≤ (d.ring 4).size - 1 ∧ ¬ full.hasRoom ∧ full.waiting = .commandUnit :: [] ∧
      ∀ p n, Requester.commandUnit ≠ .inHalf p n := by
  unfold Ring.hasRoom
  refine ⟨?_, ?_, ?_, ?_, ?_, ?_, ?_, ?_, ?_, ?_, ?_, fun _ _ h => nomatch h⟩ <;> decide +kernel

theorem witness_WaitingListServedFromHead_half :
    let d := (made (halfWaits 1)).dev
    let u := (made (halfWaits 2)).dev
    (d.ring 0).gained = true ∧ (d.ring 0).isSet = true ∧ (d.ring 0).waiting = .inHalf 1 9 :: [.inHalf 1 10] ∧
      d.generatorOwner 1 9 = some 6 ∧ (d.chan 6).kind = .inn ∧ cqRing (d.chan 6).ring = 0 ∧ d.available 1 9 6 = 2 ∧
      (d.ring 0).size - 1 - ((d.ring 0).filled + (d.ring 0).reserved) = 1 ∧ u.generatorOwner 1 9 = some 6 ∧
      u.available 1 9 6 = 2 ∧ (u.ring 0).size - 1 - ((u.ring 0).filled + (u.ring 0).reserved) = 2 := by
  decide +kernel

/-- A half given a part of what it asks keeps its place, and an entry behind it that asks for nothing leaves (R145). -/
theorem test_walk_goes_on : (((made (halfWaits 1)).dev.walkRing 0).ring 0).waiting = [.inHalf 1 9] := by decide +kernel

theorem witness_RearmWeighsRing :
    let x := (made twoWritten).dev.ring 4
    (made twoWritten).engine = .running ∧ x.isSet = true ∧ (1 : BitVec 12).toNat < x.size ∧
      ((1 : BitVec 12).toNat + x.size - x.consumer) % x.size ≤ x.filled ∧
      ¬ (x.threshold ≤ x.filled ∨ (x.time = 0 ∧ 1 ≤ x.filled)) ∧ { x with threshold := 2 }.threshold ≤ x.filled := by decide +kernel

/-- A record write in flight on NQ. -/
def writingNq (d : Device) : Device := asking (.recordWrite 4 1) 16 (twoWritten d)

theorem witness_WriteWeighsRing :
    let x := (made writingNq).dev.ring 4
    (made writingNq).engine = .running ∧ (∃ q, (made writingNq).dev.request? 9 = some q ∧ q.access = .recordWrite 4 1) ∧
      x.interrupt = .armed ∧ ¬ (x.threshold ≤ x.filled ∨ x.time = 0) ∧ { x with time := 0 }.time = 0 ∧
      { x with interrupt := .raised }.interrupt = .raised :=
  ⟨rfl, ⟨_, rfl, rfl⟩, by decide +kernel, by decide +kernel, rfl, rfl⟩

theorem witness_CoalescingExpiryRaisesRing :
    (made id).engine = .running ∧ ((made id).dev.ring 4).timer = .stopped ∧
      ((made fun d => (twoWritten d).modRing 4 fun x => { x with timer := .running 9 }).dev.ring 4).timer ≠ .stopped := by
  decide +kernel

/-! ## Witnesses: the Command Unit -/

theorem witness_NopCompletesAtOnce : (taking nopBytes id).canTake (.nop 0x1234 7) ∧ (made id).dev.cu.slotHeld = false :=
  ⟨taking_canTake test_decode_nop (by decide), rfl⟩

theorem witness_BarrierWaitsAndUnknownIsRefused :
    (taking barrierBytes id).canTake (.barrier 11 1) ∧ (taking barrierBytes id).dev.cu.deferred = [] ∧
      (taking barrierBytes (deferring .barrier)).canTake (.barrier 11 1) ∧
      (taking barrierBytes (deferring .barrier)).dev.cu.deferred ≠ [] ∧ (taking unknownBytes id).canTake (.unknownOpcode 0x0A 12 1) :=
  ⟨taking_canTake test_decode_barrier (by decide), rfl, taking_canTake test_decode_barrier (by decide), by decide,
    taking_canTake test_decode_unknown (by decide)⟩

theorem witness_SetRingDecidedInOrder_index : (taking (ringBytes 4) id).canTake (.setRing 5 4 0x2000 4096 0xFF 0x0102) ∧ 4 ≤ (4 : Byte).toNat :=
  ⟨taking_canTake (by decide) (by decide), by decide⟩

theorem witness_SetRingDecidedInOrder_good :
    (taking (ringBytes 3) id).canTake (.setRing 5 3 0x2000 4096 0xFF 0x0102) ∧ (3 : Byte).toNat = (3 : Fin 4).val ∧
      (0x2000 : Address).toNat % 16 = 0 ∧ (∃ e, 4 ≤ e ∧ e ≤ 12 ∧ (4096 : Half).toNat = 2 ^ e) ∧ 1 ≤ (0xFF : Byte).toNat ∧
      ¬ 1 ≤ (0 : Byte).toNat ∧
      ¬ ((∃ c : ChannelId, ((taking (ringBytes 3) id).dev.chan c).state ≠ .closed ∧
            (((taking (ringBytes 3) id).dev.chan c).kind = .out ∨ ((taking (ringBytes 3) id).dev.chan c).kind = .inn) ∧
            ((taking (ringBytes 3) id).dev.chan c).ring = 3) ∨
          0 < ((taking (ringBytes 3) id).dev.ring (3 : Fin 4).castSucc).reserved) :=
  ⟨taking_canTake test_decode_set_ring (by decide), rfl, by decide, ⟨12, by decide⟩, by decide, by decide, by decide +kernel⟩

theorem witness_SetRingDecidedInOrder_busy :
    0 < ((taking (ringBytes 3) fun d => d.modRing 3 fun x => { x with reserved := 1 }).dev.ring (3 : Fin 4).castSucc).reserved := by
  decide +kernel

/-! ## Witnesses: opening and closing -/

theorem witness_OpenWritesContext_out :
    let s := taking openOut (ringSet 2)
    s.canTake (.openChannel 0x1234 5 0 0x4000 16 1 9 2 3 3) ∧ (s.dev.chan 5).state = .closed ∧
      (s.dev.ring (2 : Fin 4).castSucc).isSet = true ∧ (∃ e, 4 ≤ e ∧ e ≤ 12 ∧ (16 : Half).toNat = 2 ^ e) ∧
      (∀ e : ChannelId, (s.dev.chan e).state ≠ .closed → (s.dev.chan e).port = 1 → (s.dev.chan e).number = 9 →
        (s.dev.chan e).isOutbound ≠ ((0 : Byte) == 0)) ∧ (3 : Byte).toNat = (3 : Fin 4).val :=
  ⟨taking_canTake test_decode_open_out (by decide +kernel), by decide +kernel, by decide +kernel, ⟨4, by decide⟩,
    by decide +kernel, rfl⟩

theorem witness_OpenWritesContext_in :
    let s := taking openIn (ringSet 0)
    s.canTake (.openChannel 0x00FF 6 1 0x8000 4096 3 63 0 0 8) ∧ (s.dev.chan 6).state = .closed ∧
      (s.dev.ring (0 : Fin 4).castSucc).isSet = true ∧ (∃ e, 4 ≤ e ∧ e ≤ 12 ∧ (4096 : Half).toNat = 2 ^ e) ∧
      (∀ e : ChannelId, (s.dev.chan e).state ≠ .closed → (s.dev.chan e).port = 3 → (s.dev.chan e).number = 63 →
        (s.dev.chan e).isOutbound ≠ ((1 : Byte) == 0)) ∧ (s.dev.inHalf 3 63).discard = false ∧ (8 : Byte).extractLsb 3 2 = 2 := by
  refine ⟨taking_canTake test_decode_open_in (by decide +kernel), ?_, ?_, ⟨12, by decide⟩, ?_, ?_, by decide⟩ <;> decide +kernel

theorem witness_OpenRefusedByFirstCheck :
    (0x8000 : Address).toNat % 16 = 0 ∧ (8 : Byte).extractLsb 3 2 ≠ 3 ∧ 64 ≤ (64 : Byte).toNat ∧ ¬ (2 : Byte).toNat < 2 ∧
      ((taking openIn inOpen).dev.chan 6).state ≠ .closed ∧ ((taking openIn id).dev.ring (0 : Fin 4).castSucc).isSet = false ∧
      (∃ e : ChannelId, ((taking openOut fun d => ringSet 2 (outOpen d)).dev.chan e).state ≠ .closed ∧
        ((taking openOut fun d => ringSet 2 (outOpen d)).dev.chan e).port = 1 ∧
        ((taking openOut fun d => ringSet 2 (outOpen d)).dev.chan e).number = 9 ∧
        ((taking openOut fun d => ringSet 2 (outOpen d)).dev.chan e).isOutbound = ((0 : Byte) == 0)) ∧
      ((taking openIn fun d => (ringSet 0 d).modIn 3 63 fun h => { h with discard := true }).dev.inHalf 3 63).discard = true := by
  decide +kernel

theorem witness_OpenRelayWritesPair :
    let s := taking relayBytes id
    s.canTake (.openRelay 1 1 2 0 3 2 8 1 8 4) ∧ (1 : ChannelId) ≠ 2 ∧ 1 ≤ (8 : Byte).toNat ∧ (8 : Byte).toNat ≤ 8 ∧
      (4 : Byte).extractLsb 3 2 = 1 ∧ (s.dev.chan 1).state = .closed ∧ (s.dev.chan 2).state = .closed ∧
      (∀ e : ChannelId, (s.dev.chan e).state ≠ .closed →
        ¬ ((s.dev.chan e).port = 0 ∧ (s.dev.chan e).number = 3 ∧ (s.dev.chan e).isOutbound = false) ∧
          ¬ ((s.dev.chan e).port = 2 ∧ (s.dev.chan e).number = 8 ∧ (s.dev.chan e).isOutbound = true)) ∧
      (s.dev.inHalf 0 3).discard = false ∧ (8 : Byte).toNat ≤ s.dev.relay.free.length :=
  ⟨taking_canTake test_decode_relay (by decide), by decide +kernel⟩

theorem witness_OpenRelayRefusedByFirstCheck :
    64 ≤ (64 : Byte).toNat ∧ ¬ ((4 : Byte).extractLsb 3 2).toNat < 1 ∧ ¬ ((8 : Byte).extractLsb 3 2).toNat < 2 ∧
      ((taking relayBytes pairOpen).dev.chan 1).state ≠ .closed ∧
      (∃ e : ChannelId,
        ((taking relayBytes fun d => (inOpen d).modChan 6 fun x => { x with port := 0, number := 3 }).dev.chan e).state ≠ .closed ∧
        ((taking relayBytes fun d => (inOpen d).modChan 6 fun x => { x with port := 0, number := 3 }).dev.chan e).port = 0 ∧
        ((taking relayBytes fun d => (inOpen d).modChan 6 fun x => { x with port := 0, number := 3 }).dev.chan e).number = 3 ∧
        ((taking relayBytes fun d => (inOpen d).modChan 6 fun x => { x with port := 0, number := 3 }).dev.chan e).isOutbound = false) ∧
      ((taking relayBytes fun d => d.modIn 0 3 fun h => { h with discard := true }).dev.inHalf 0 3).discard = true ∧
      (taking relayBytes fun d => d.modRelay fun u => { u with free := [0, 1, 2, 3, 4, 5, 6] }).dev.relay.free.length < (8 : Byte).toNat := by
  decide +kernel

/-- A channel's context under a CLOSE of a mode, in a state. -/
def closing (mode : Byte) (state : ChannelState) : State :=
  taking (closeBytes 5 mode) fun d => (outOpen d).modChan 5 fun x => { x with state := state }

theorem witness_CloseRefusedByTable :
    (taking (closeBytes 64 0) id).canTake (.closeGraceful 7 64 0) ∧ (closing 2 .opened).canTake (.closeGraceful 7 5 2) ∧
      (closing 0 .closed).canTake (.closeGraceful 7 5 0) ∧ (closing 0 .faulted).canTake (.closeGraceful 7 5 0) ∧
      (closing 0 .draining).canTake (.closeGraceful 7 5 0) ∧ (closing 1 .aborting).canTake (.closeAbort 7 5) ∧
      (closing 1 .closed).canTake (.closeAbort 7 5) ∧ ((closing 0 .faulted).dev.chan 5).state = .faulted ∧
      ((closing 0 .draining).dev.chan 5).state = .draining ∧ ((closing 1 .aborting).dev.chan 5).state = .aborting ∧
      ((closing 1 .closed).dev.chan 5).state = .closed :=
  ⟨taking_canTake (by decide) (by decide), taking_canTake (by decide) (by decide), taking_canTake (by decide) (by decide),
    taking_canTake (by decide) (by decide), taking_canTake (by decide) (by decide), taking_canTake (by decide) (by decide),
    taking_canTake (by decide) (by decide), by decide +kernel⟩

/-- The OUT channel under a CLOSE, with its message in a phase and open on an ACTIVE port, or not. -/
def closingOut (mode : Byte) (state : ChannelState) (phase : Phase) (open_ restarted : Bool) : State :=
  taking (closeBytes 5 mode) fun d =>
    port 1 .active id
      (((outOpen d).modChan 5 fun x =>
        { x with state := state, out := { x.out with phase := phase, restarted := restarted } }).modOut 1 9
        fun h => { h with openMark := open_ })

theorem noClose_none {s : State} {c : ChannelId} (h : s.dev.cu.deferred = []) : s.noClosePending c := by
  unfold State.noClosePending
  simp [h]

theorem witness_GracefulCloseOfOutChannel :
    (closingOut 0 .opened .started true false).canTake (.closeGraceful 7 5 0) ∧ (5 : Byte).toNat = (5 : ChannelId).val ∧
      ((closingOut 0 .opened .started true false).dev.chan 5).state = .opened ∧
      ((closingOut 0 .opened .started true false).dev.chan 5).kind = .out ∧
      ((closingOut 0 .opened .started true false).dev.chan 5).out.phase = .started ∧
      ((closingOut 0 .opened .ready false true).dev.chan 5).out.restarted = true ∧
      ((closingOut 0 .opened .ready false true).dev.port 1).up = true ∧
      ((closingOut 0 .opened .ready false false).dev.chan 5).out.phase ≠ .started ∧
      (closingOut 0 .opened .ready false false).noClosePending 5 := by
  refine ⟨taking_canTake (by decide) (by decide), ?_, ?_, ?_, ?_, ?_, ?_, ?_, noClose_none rfl⟩ <;> decide +kernel

/-- The IN channel under a CLOSE, on a port in a state, with a peer message open or not. -/
def closingIn (mode : Byte) (state : PortState) (open_ : Bool) : State :=
  taking (closeBytes 6 mode) fun d => port 1 state id ((inOpen d).modIn 1 9 fun h => { h with openMark := open_ })

theorem witness_GracefulCloseOfInChannel :
    (closingIn 0 .active true).canTake (.closeGraceful 7 6 0) ∧ (6 : Byte).toNat = (6 : ChannelId).val ∧
      ((closingIn 0 .active true).dev.chan 6).state = .opened ∧ ((closingIn 0 .active true).dev.chan 6).kind = .inn ∧
      ((closingIn 0 .active true).dev.port 1).up = true ∧ ((closingIn 0 .broken false).dev.port 1).up = false ∧
      ((closingIn 0 .broken false).dev.inHalf 1 9).openMark = false ∧ (closingIn 0 .broken false).noClosePending 6 := by
  refine ⟨taking_canTake (by decide) (by decide), ?_, ?_, ?_, ?_, ?_, ?_, noClose_none rfl⟩ <;> decide +kernel

/-- The DRAINING OUT channel under a CLOSE ABORT, with its graceful CLOSE deferred. -/
def escalating : State :=
  taking (closeBytes 5 1) fun d =>
    deferring (.close .graceful 5)
      (((outOpen d).modChan 5 fun x => { x with state := .draining, out := { x.out with phase := .started } }).modOut 1 9
        fun h => { h with openMark := true })

theorem witness_AbortCloseOfOutChannel :
    (closingOut 1 .faulted .started true false).canTake (.closeAbort 7 5) ∧
      ((closingOut 1 .faulted .started true false).dev.chan 5).kind = .out ∧
      ((closingOut 1 .faulted .started true false).dev.chan 5).state = .faulted ∧
      ((closingOut 1 .faulted .started true false).dev.outHalf 1 9).openMark = true ∧
      ((closingOut 1 .faulted .started true false).dev.chan 5).out.phase = .started ∧ escalating.canTake (.closeAbort 7 5) ∧
      (escalating.dev.chan 5).state = .draining ∧ (escalating.dev.outHalf 1 9).openMark = true ∧
      escalating.dev.cu.deferred = { work := .close .graceful 5, tag := 7, subject := 2 } :: [] ∧
      ((closingOut 1 .opened .idle false false).dev.chan 5).state = .opened ∧
      ((closingOut 1 .opened .idle false false).dev.outHalf 1 9).openMark = false ∧
      (closingOut 1 .opened .idle false false).noClosePending 5 := by
  refine ⟨taking_canTake (by decide) (by decide), ?_, ?_, ?_, ?_, taking_canTake (by decide) (by decide), ?_, ?_, ?_, ?_, ?_,
    noClose_none rfl⟩ <;> decide +kernel

theorem witness_AbortCloseOfInChannel :
    (closingIn 1 .active true).canTake (.closeAbort 7 6) ∧ ((closingIn 1 .active true).dev.chan 6).state = .opened ∧
      ((closingIn 1 .active true).dev.chan 6).kind = .inn ∧ ((closingIn 1 .active true).dev.port 1).up = true ∧
      ((closingIn 1 .active true).dev.inHalf 1 9).openMark = true ∧
      (∃ h rest, ((closingIn 1 .active true).dev.chan 6).held = h :: rest) ∧
      ((closingIn 1 .active false).dev.inHalf 1 9).openMark = false := by
  refine ⟨taking_canTake (by decide) (by decide), ?_, ?_, ?_, ?_, ⟨_, _, rfl⟩, ?_⟩ <;> decide +kernel

/-- The relay pair with both ports ACTIVE, under a CLOSE of a half. -/
def closingPair (channel mode : Byte) : State :=
  taking (closeBytes channel mode) fun d => port 0 .active id (port 2 .active id (pairOpen d))

theorem witness_CloseMovesBothHalvesOfPair :
    let s := closingPair 1 0
    (closingPair 1 0).canTake (.closeGraceful 7 1 0) ∧ (closingPair 2 1).canTake (.closeAbort 7 2) ∧
      (s.dev.pair 1).map RelayPair.inbound = some 1 ∧ (s.dev.pair 1).map RelayPair.queue = some [] ∧
      (s.dev.pair 1).map RelayPair.filling = some none ∧ (s.dev.pair 1).map RelayPair.outbound = some 2 ∧
      (s.dev.chan 1).kind = .relayIn ∧ (s.dev.chan 2).kind = .relayOut ∧ (s.dev.chan 2).partner = 1 ∧
      (s.dev.chan 1).state = .opened ∧ (s.dev.chan 2).state = .opened ∧ (s.dev.chan 2).out = OutMessage.cleared ∧
      (s.dev.port 0).up = true ∧ (s.dev.port 2).up = true ∧ (s.dev.inHalf 0 3).openMark = false ∧
      (s.dev.outHalf 2 8).openMark = false :=
  ⟨taking_canTake (by decide) (by decide), taking_canTake (by decide) (by decide), by decide +kernel⟩

/-! ## Witnesses: port commands -/

theorem witness_PortSetupDecidedInOrder :
    (taking (setupBytes 3) id).canTake (.portSetup 6 3 1 16 64 0 1 65535 255 15 0x0201) ∧
      (taking (setupBytes 4) id).canTake (.portSetup 6 4 1 16 64 0 1 65535 255 15 0x0201) ∧ (3 : Byte).toNat = (3 : PortId).val ∧
      (4 ≤ (4 : Byte).toNat) ∧
      ((1 : Byte).toNat ≤ 1 ∧ (16 ≤ (16 : Half).toNat ∧ (16 : Half).toNat ≤ 1024) ∧ (64 ≤ (64 : Half).toNat ∧ (64 : Half).toNat ≤ 8192) ∧
        1 ≤ (1 : Half).toNat ∧ 1 ≤ (65535 : Half).toNat ∧ 1 ≤ (255 : Byte).toNat ∧ (15 : Byte).toNat ≤ 15 ∧ 1 ≤ (0x0201 : Half).toNat) ∧
      ¬ (15 : Half).toNat ≥ 16 ∧ ((taking (setupBytes 3) id).dev.port 3).state = .disabled ∧
      ((taking (setupBytes 3) (port 3 .quiescing id)).dev.port 3).state = .quiescing ∧
      ((taking (setupBytes 3) (port 3 .broken id)).dev.port 3).state = .broken :=
  ⟨taking_canTake (by decide) (by decide), taking_canTake (by decide) (by decide), by decide +kernel⟩

/-- A port with its peer's ENGI high, or low, in a state. -/
def facing (p : PortId) (state : PortState) (engi : Bool) (d : Device) : Device :=
  port p state (fun x => { x with lines := { x.lines with engi := engi } }) d

theorem witness_PortEnableStartsEngaging :
    (taking (enableBytes 2) id).canTake (.portEnable 8 2) ∧ (taking (enableBytes 4) id).canTake (.portEnable 8 4) ∧
      (2 : Byte).toNat = (2 : PortId).val ∧ ((taking (enableBytes 2) (facing 2 .failed true)).dev.port 2).state = .failed ∧
      ((taking (enableBytes 2) (facing 2 .failed true)).dev.port 2).lines.engi = true ∧
      ((taking (enableBytes 2) (facing 2 .disabled false)).dev.port 2).lines.engi = false ∧
      ((taking (enableBytes 2) (facing 2 .quiescing false)).dev.port 2).state = .quiescing ∧
      ((taking (enableBytes 2) (facing 2 .engaging false)).dev.port 2).state = .engaging :=
  ⟨taking_canTake (by decide) (by decide), taking_canTake (by decide) (by decide), by decide +kernel⟩

theorem witness_PortDisableOfDownPort :
    (taking (disableBytes 2 0) id).canTake (.portDisableGraceful 9 2 0) ∧
      (taking (disableBytes 4 0) id).canTake (.portDisableGraceful 9 4 0) ∧
      (taking (disableBytes 2 2) id).canTake (.portDisableGraceful 9 2 2) ∧ (taking (disableBytes 2 1) id).canTake (.portDisableAbrupt 9 2) ∧
      ((taking (disableBytes 2 0) (port 2 .broken id)).dev.port 2).up = false ∧
      ((taking (disableBytes 2 0) (port 2 .quiescing id)).dev.port 2).state = .quiescing :=
  ⟨taking_canTake (by decide) (by decide), taking_canTake (by decide) (by decide), taking_canTake (by decide) (by decide),
    taking_canTake (by decide) (by decide), by decide +kernel⟩

theorem witness_GracefulDisableQuiescesPort :
    let s := taking (disableBytes 1 0) fun d => port 1 .active id (inOpen d)
    let u := taking (disableBytes 1 0) (port 1 .active id)
    s.canTake (.portDisableGraceful 9 1 0) ∧ u.canTake (.portDisableGraceful 9 1 0) ∧ (s.dev.port 1).state = .active ∧
      (s.dev.inHalf 1 9).owner.isSome = true ∧ (u.dev.port 1).linesQuiet = true ∧ (u.dev.port 1).control = [] ∧
      ((∀ n : LinkNumber, ((u.dev.port 1).entry n).marked = false) ∧
        ∀ c : ChannelId, (u.dev.chan c).state ≠ .draining ∧ (u.dev.chan c).state ≠ .aborting) ∧
      (∀ n, (u.dev.inHalf 1 n).owner = none ∧ (u.dev.inHalf 1 n).revokePending = false) ∧ u.dev.cu.deferred = [] :=
  ⟨taking_canTake (by decide) (by decide), taking_canTake (by decide) (by decide), by decide +kernel⟩

theorem witness_AbruptDisableTakesPortDown :
    let s := taking (disableBytes 1 1) (port 1 .active id)
    let u := taking (disableBytes 1 1) fun d => deferring (.portDisable 1) (port 1 .quiescing id d)
    s.canTake (.portDisableAbrupt 9 1) ∧ u.canTake (.portDisableAbrupt 9 1) ∧ (s.dev.port 1).state = .active ∧ s.nothingOpen 1 ∧
      (u.dev.port 1).state = .quiescing ∧ u.nothingOpen 1 ∧
      u.defers (isDisable 1) { work := .portDisable 1, tag := 7, subject := 2 } [] [] := by
  refine ⟨taking_canTake (by decide) (by decide), taking_canTake (by decide) (by decide), by decide +kernel, ?_, by decide +kernel, ?_,
    defers_one rfl rfl⟩ <;> unfold State.nothingOpen <;> decide +kernel

/-! ## Witnesses: statistics and memory returns -/

theorem witness_ReadStatsTakesSnapshot :
    (taking (statsBytes 63 0) id).canTake (.readStats 10 63 1 0 0x4030) ∧ (taking (statsBytes 3 1) id).canTake (.readStats 10 3 1 1 0x4030) ∧
      (taking (statsBytes 63 2) id).canTake (.readStats 10 63 1 2 0x4030) ∧ (taking (statsBytes 4 1) id).canTake (.readStats 10 4 1 1 0x4030) ∧
      (taking (statsBytes 0 3) id).canTake (.readStats 10 0 1 3 0x4030) ∧ (0x4030 : Address).toNat % 16 = 0 ∧
      (0x4038 : Address).toNat % 16 ≠ 0 ∧ (63 : Byte).toNat = (63 : ChannelId).val ∧ (3 : Byte).toNat = (3 : PortId).val ∧
      (1 : Byte).getLsbD 0 = true ∧ 3 ≤ (3 : Byte).toNat ∧ 4 ≤ (4 : Byte).toNat ∧ 64 ≤ (64 : Byte).toNat :=
  ⟨taking_canTake (by decide) (by decide), taking_canTake (by decide) (by decide), taking_canTake (by decide) (by decide),
    taking_canTake (by decide) (by decide), taking_canTake (by decide) (by decide), by decide⟩

theorem witness_StatsWriteReturnCompletes :
    let s := made fun d => deferring (.readStats 9) (asking .statsWrite 64 d)
    let u := made fun d => (deferring (.readStats 9) (asking .statsWrite 64 d)).modCu fun x =>
      { x with deferred := x.deferred ++ [{ work := .barrier, tag := 8, subject := 3 }] }
    s.engine = .running ∧ (∃ r, s.dev.request? 9 = some r ∧ r.access = .statsWrite) ∧
      s.defers (isStats 9) { work := .readStats 9, tag := 7, subject := 2 } [] [] ∧
      u.dev.cu.deferred = { work := .readStats 9, tag := 7, subject := 2 } :: { work := .barrier, tag := 8, subject := 3 } :: [] :=
  ⟨rfl, ⟨_, rfl, rfl⟩, defers_one rfl rfl, rfl⟩

theorem witness_RecordFetchReturnJoinsOrFaults :
    let s := made fun d => asking (.recordFetch 5 3) 16 (outOpen d)
    let u := made fun d => asking (.recordFetch 6 4) 16 (inOpen d)
    let supply : List Byte := List.replicate 8 0 ++ [4, 0, 0, 0, 1, 0, 0, 0]
    (∃ r, s.dev.request? 9 = some r ∧ r.access = .recordFetch 5 3 ∧ supply.length = r.length) ∧ (s.dev.chan 5).opening = 3 ∧
      (s.dev.chan 5).state = .opened ∧ (s.dev.chan 5).kind = .out ∧ (s.dev.chan 5).out.phase ≠ .started ∧
      (s.dev.chan 5).opening ≠ 2 ∧ (∃ r, u.dev.request? 9 = some r ∧ r.access = .recordFetch 6 4) ∧ (u.dev.chan 6).opening = 4 ∧
      (u.dev.chan 6).state = .opened ∧ (u.dev.chan 6).kind = .inn ∧ ∀ h ∈ parseHostRecords false supply, h.size ≠ 0 := by
  refine ⟨⟨_, rfl, rfl, rfl⟩, ?_, ?_, ?_, ?_, ?_, ⟨_, rfl, rfl⟩, ?_⟩ <;> decide +kernel

theorem witness_PayloadReadReturnStagesOrFaults :
    let s := made fun d => port 1 .active (fun x => { x with outStaging := { x.outStaging with channel := some 5, reads := [{ id := 9, offset := 0 }] } })
      (asking (.payloadRead 1 5 3) 4 (outOpen d))
    let u := made fun d => asking (.payloadRead 1 5 2) 4 (outOpen d)
    let v := made (asking .discarded 4)
    s.engine = .running ∧ (∃ r, s.dev.request? 9 = some r ∧ r.access = .payloadRead 1 5 3 ∧ [(1 : Byte), 2, 3, 4].length = r.length) ∧
      (s.dev.port 1).outStaging.reads.find? (fun x => x.id == 9) = some { id := 9, offset := 0 } ∧ (s.dev.chan 5).opening = 3 ∧
      (s.dev.chan 5).state = .opened ∧ (∃ r, u.dev.request? 9 = some r ∧ r.access = .payloadRead 1 5 2) ∧
      (u.dev.port 1).outStaging.reads.find? (fun x => x.id == 9) = none ∧ (u.dev.chan 5).opening ≠ 2 ∧
      ∃ r, v.dev.request? 9 = some r ∧ r.access = .discarded := by
  refine ⟨rfl, ⟨_, rfl, rfl, rfl⟩, ?_, ?_, ?_, ⟨_, rfl, rfl⟩, ?_, ?_, _, rfl, rfl⟩ <;> decide +kernel

/-- A supply record of a capacity below 256, as 16 bytes (section 11.2). -/
def supplyOf (capacity : Byte) : List Byte := List.replicate 8 0 ++ [capacity, 0, 0, 0, 1, 0, 0, 0]

/-- The IN channel 6 with its port ACTIVE and a record fetch in flight, its completion ring with a room of slots. -/
def supplying (room : Nat) (f : Port → Port) : State :=
  made fun d => port 1 .active f (asking (.recordFetch 6 4) 16 ((ringSet 0 (inOpen d)).modRing 0 fun x => { x with reserved := 15 - room }))

theorem witness_RecordFetchReturnJoinsOrFaults_grant :
    let s := supplying 1 id
    let u := supplying 2 fun x => { x with control := [.grant 9 1] }
    let ring := s.dev.ring (s.dev.chan 6).ring.castSucc
    let h := s.dev.inHalf 1 9
    let want := (s.dev.chan 6).held.length + (parseHostRecords false (supplyOf 255)).length -
      (h.granted + h.inFlight + if h.openMark then 1 else 0)
    let k := min want (if ring.isSet then ring.size - 1 - (ring.filled + ring.reserved) else 0)
    (∃ r, s.dev.request? 9 = some r ∧ r.access = .recordFetch 6 4 ∧ (supplyOf 255).length = r.length) ∧
      (s.dev.chan 6).opening = 4 ∧ (s.dev.chan 6).state = .opened ∧ (s.dev.chan 6).kind = .inn ∧ (s.dev.port 1).state = .active ∧
      h.owner = some 6 ∧ h.revokePending = false ∧ (s.dev.port 1).grantOffered 9 = false ∧ (∀ r, (s.dev.ring r).gained = false) ∧
      (∀ q ∈ parseHostRecords false (supplyOf 255), q.size ≠ 0) ∧ k < want ∧ 1 ≤ k ∧ (s.dev.port 1).control = [] ∧
      (u.dev.port 1).control = [] ++ .grant 9 1 :: [] :=
  ⟨⟨_, rfl, rfl, rfl⟩, by decide +kernel⟩

theorem witness_RecordFetchReturnJoinsOrFaults_fault :
    let s := supplying 1 id
    let u := made fun d =>
      asking (.recordFetch 5 3) 16 (((outOpen d).modOutMsg 5 fun o => { o with phase := .started }).modOut 1 9 fun h => { h with openMark := true })
    (∃ q ∈ parseHostRecords false (supplyOf 0), q.size = 0) ∧ (s.dev.port 1).up = true ∧ (s.dev.inHalf 1 9).openMark = false ∧
      (∃ r, u.dev.request? 9 = some r ∧ r.access = .recordFetch 5 3) ∧ (u.dev.chan 5).opening = 3 ∧ (u.dev.chan 5).state = .opened ∧
      (u.dev.chan 5).kind = .out ∧ (u.dev.chan 5).out.phase = .started ∧ (u.dev.outHalf 1 9).openMark = true ∧
      ∃ q rest, (u.dev.chan 5).held = q :: rest := by
  refine ⟨by decide, ?_, ?_, ⟨_, rfl, rfl⟩, ?_, ?_, ?_, ?_, ?_, _, _, rfl⟩ <;> decide +kernel

/-- The IN channel 6 with the message open on its half, one byte placed in the buffer 2. -/
def filling (d : Device) : Device :=
  { ((inOpen d).modChan 6 fun x => { x with inm := { buffer := some 2, message := 1, fill := 1, total := 1, mode := .writing } }).modIn 1 9
      fun h => { h with openMark := true } with
    buffers :=
      [{ id := 2, channel := 6, opening := 4, message := 1, address := 0x7000, placed := 1, issued := 1, outstanding := 1,
         acceptedBytes := 0, failed := false }] }

theorem witness_BufferWriteReturnCounts :
    let s := made fun d => asking (.bufferWrite 1 2) 1 (filling d)
    s.engine = .running ∧ (∃ r, s.dev.request? 9 = some r ∧ r.access = .bufferWrite 1 2) ∧
      (∃ z, s.dev.buffers.find? (fun y => y.id == 2) = some z ∧ (s.dev.chan z.channel).opening = z.opening ∧
        (s.dev.chan z.channel).state = .opened) ∧ ∀ g ∈ (s.dev.port 1).inStaging, g.dest ≠ .buffer 2 :=
  ⟨rfl, ⟨_, rfl, rfl⟩, ⟨_, rfl, by decide +kernel, by decide +kernel⟩, by decide +kernel⟩

theorem witness_BufferWriteReturnCounts_aborting :
    let s := made fun d => asking (.bufferWrite 1 2) 1 ((filling d).modChan 6 fun x => { x with state := .aborting })
    let u := made fun d => asking (.bufferWrite 1 2) 1 ((filling d).modChan 6 fun x => { x with state := .faulted })
    (∃ r, s.dev.request? 9 = some r ∧ r.access = .bufferWrite 1 2) ∧
      (∃ z, s.dev.buffers.find? (fun y => y.id == 2) = some z ∧ (s.dev.chan z.channel).opening = z.opening ∧
        (s.dev.chan z.channel).state = .aborting ∧ z.failed = false) ∧
      (∃ r, u.dev.request? 9 = some r ∧ r.access = .bufferWrite 1 2) ∧
      ∃ z, u.dev.buffers.find? (fun y => y.id == 2) = some z ∧ (u.dev.chan z.channel).state = .faulted :=
  ⟨⟨_, rfl, rfl⟩, ⟨_, rfl, by decide +kernel, by decide +kernel, rfl⟩, ⟨_, rfl, rfl⟩, _, rfl, by decide +kernel⟩

theorem witness_CellTransfersComplete :
    let s := made fun d => d.modRelay fun u => { u with moves := [{ id := 3, port := 0, cell := 31, offset := 0, bytes := [1] }] }
    let k : CellCopy := { id := 3, offset := 0, bytes := [1] }
    let u := made fun d => port 3 .active (fun x => { x with outStaging := { x.outStaging with copies := [k] } }) d
    s.engine = .running ∧ (∃ m, s.dev.relay.moves.find? (fun x => x.id == 3) = some m) ∧
      s.dev.relay.moves.find? (fun x => x.id == 4) = none ∧ (u.dev.port 3).outStaging.copies.find? (fun x => x.id == 3) = some k ∧
      (∀ q : PortId, q < 3 → (u.dev.port q).outStaging.copies.find? (fun x => x.id == 3) = none) ∧
      ∀ q : PortId, (u.dev.port q).outStaging.copies.find? (fun x => x.id == 4) = none := by
  refine ⟨rfl, ⟨_, rfl⟩, ?_, ?_, ?_, ?_⟩ <;> decide +kernel

theorem witness_RecordWriteReturnAdvancesRing :
    (made writingNq).engine = .running ∧ (∃ q, (made writingNq).dev.request? 9 = some q ∧ q.access = .recordWrite 4 1) ∧
      ∃ q, (made fun d => asking (.recordWrite 0 1) 16 (ringSet 0 d)).dev.request? 9 = some q ∧ q.access = .recordWrite 0 1 :=
  ⟨rfl, ⟨_, rfl, rfl⟩, _, rfl, rfl⟩

/-! ## Witnesses: bytes the part sends -/

/-- Port 1 ACTIVE in OURS with a byte offered. -/
def offered (o : Offer) (f : Device → Device) : State :=
  made fun d => port 1 .active (fun x => { x with turn := .ours, tx := .offered o }) (f d)

theorem offered_offers (o : Offer) (f : Device → Device) : (offered o f).offers 1 o :=
  ⟨rfl, by simp [offered, made, port], by simp [offered, made, port]⟩

theorem witness_AcceptedByteCountsAsSent :
    (offered (.entrySelect 9) id).offers 1 (.entrySelect 9) ∧ (offered (.msgSelect 5 9) id).offers 1 (.msgSelect 5 9) ∧
      (offered (.msgRepeat 5 9 63) id).offers 1 (.msgRepeat 5 9 63) ∧ (offered (.msgData 5 9 7 63) id).offers 1 (.msgData 5 9 7 63) :=
  ⟨offered_offers _ _, offered_offers _ _, offered_offers _ _, offered_offers _ _⟩

/-- The DRAINING or ABORTING IN channel 6, its CLOSE deferred and its REVOKE offered. -/
def revoking (state : ChannelState) : State :=
  offered (.entryByte (.revoke 9)) fun d => deferring (.close .graceful 6) ((inOpen d).modChan 6 fun x => { x with state := state })

/-- The ABORTING OUT channel 5, its CLOSE deferred and its ABANDON offered. -/
def abandoning : State :=
  offered (.entryByte (.abandon 9)) fun d =>
    deferring (.close .abort 5) ((outOpen d).modChan 5 fun x => { x with state := .aborting, out := { x.out with phase := .started } })

theorem witness_AcceptedControlEntryActs_revoke :
    let s := revoking .draining
    (offered (.entryByte (.grant 9 1)) id).offers 1 (.entryByte (.grant 9 1)) ∧ s.offers 1 (.entryByte (.revoke 9)) ∧
      (s.dev.inHalf 1 9).owner = some 6 ∧ (s.dev.chan 6).kind = .inn ∧ (s.dev.chan 6).port = 1 ∧ (s.dev.chan 6).number = 9 ∧
      (s.dev.chan 6).state = .draining ∧ (s.dev.inHalf 1 9).openMark = false ∧ ((revoking .aborting).dev.chan 6).state = .aborting ∧
      ((revoking .faulted).dev.chan 6).state = .faulted ∧ ((revoking .opened).dev.chan 6).state = .opened ∧ ((offered (.entryByte (.revoke 9)) id).dev.inHalf 1 9).owner = none ∧
      s.defers (isClose 6) { work := .close .graceful 6, tag := 7, subject := 2 } [] [] := by
  refine ⟨offered_offers _ _, offered_offers _ _, ?_, ?_, ?_, ?_, ?_, ?_, ?_, ?_, ?_, ?_, defers_one rfl rfl⟩ <;> decide +kernel

theorem witness_AcceptedControlEntryActs_abandon :
    let s := abandoning
    s.offers 1 (.entryByte (.abandon 9)) ∧ (s.dev.outHalf 1 9).owner = some 5 ∧ (s.dev.chan 5).kind = .out ∧ (s.dev.chan 5).port = 1 ∧
      (s.dev.chan 5).number = 9 ∧ (s.dev.chan 5).state = .aborting ∧ (s.dev.chan 5).out.phase = .started ∧
      (∃ h rest, (s.dev.chan 5).held = h :: rest) ∧ ((offered (.entryByte (.abandon 9)) id).dev.outHalf 1 9).owner = none ∧
      s.defers (isClose 5) { work := .close .abort 5, tag := 7, subject := 2 } [] [] := by
  refine ⟨offered_offers _ _, ?_, ?_, ?_, ?_, ?_, ?_, ⟨_, _, rfl⟩, ?_, defers_one rfl rfl⟩ <;> decide +kernel

theorem witness_AcceptedEndCompletesMessage_out :
    let s := offered (.msgEnd 5 9 4) fun d => (outOpen d).modOutMsg 5 fun o => { o with phase := .started }
    s.offers 1 (.msgEnd 5 9 4) ∧ (s.dev.outHalf 1 9).owner = some 5 ∧ (s.dev.chan 5).port = 1 ∧ (s.dev.chan 5).number = 9 ∧
      (s.dev.chan 5).state = .opened ∧ (s.dev.chan 5).out.phase = .started ∧ .abandon 9 ∉ (s.dev.port 1).control ∧
      (s.dev.chan 5).kind = .out ∧ ∃ h rest, (s.dev.chan 5).held = h :: rest := by
  refine ⟨offered_offers _ _, ?_, ?_, ?_, ?_, ?_, ?_, ?_, _, _, rfl⟩ <;> decide +kernel

/-- The pair of channels 1 and 2 with one message queued and sending on port 2. -/
def forwarding : State :=
  made fun d =>
    port 2 .active (fun x => { x with turn := .ours, tx := .offered (.msgEnd 2 8 3) })
      (((pairOpen d).modPair 1 fun x => { x with spare := [], queue := [{ cell := 4, length := 3 }] }).modOutMsg 2
        fun o => { o with phase := .started, offset := 3 })

theorem witness_AcceptedEndCompletesMessage_relay :
    let s := forwarding
    s.offers 2 (.msgEnd 2 8 3) ∧ (s.dev.outHalf 2 8).owner = some 2 ∧ (s.dev.chan 2).port = 2 ∧ (s.dev.chan 2).number = 8 ∧
      (s.dev.chan 2).state = .opened ∧ (s.dev.chan 2).out.phase = .started ∧ .abandon 8 ∉ (s.dev.port 2).control ∧
      (s.dev.chan 2).kind = .relayOut ∧ (s.dev.chan 2).partner = 1 ∧ (s.dev.pair 1).map RelayPair.inbound = some 1 ∧
      (s.dev.pair 1).map RelayPair.outbound = some 2 ∧ (s.dev.pair 1).map RelayPair.queue = some [{ cell := 4, length := 3 }] ∧
      (s.dev.chan 1).state = .opened :=
  ⟨⟨by decide +kernel, by decide +kernel, by decide +kernel⟩, by decide +kernel⟩

/-- A QUIESCING port 1 with nothing left open, its PORT_DISABLE deferred. -/
def quiescing (f : Port → Port) : State := made fun d => deferring (.portDisable 1) (port 1 .quiescing f d)

theorem witness_ReturnEndsTransfer :
    let s := quiescing fun x => { x with turn := .ours, tx := .accepted (.entryByte (.revoke 9)) }
    let u := quiescing fun x => { x with turn := .theirs, rx := .accepted, lines := { x.lines with stb := true } }
    s.engine = .running ∧ (s.dev.port 1).turn = .ours ∧ (s.dev.port 1).tx = .accepted (.entryByte (.revoke 9)) ∧
      (s.dev.port 1).state = .quiescing ∧ (s.dev.port 1).rx = .idle ∧ (s.dev.port 1).control = [] ∧ s.nothingOpen 1 ∧
      (∀ n, (s.dev.inHalf 1 n).revokePending = false) ∧ (u.dev.port 1).lines.stb = true ∧ (u.dev.port 1).rx ≠ .idle ∧
      (u.dev.port 1).tx = .idle ∧ u.nothingOpen 1 ∧
      s.defers (isDisable 1) { work := .portDisable 1, tag := 7, subject := 2 } [] [] := by
  unfold State.nothingOpen
  refine ⟨rfl, ?_, ?_, ?_, ?_, ?_, ?_, ?_, ?_, ?_, ?_, ?_, defers_one rfl rfl⟩ <;> decide +kernel

/-! ## Witnesses: bytes the peer sends -/

/-- Port 1 ACTIVE in THEIRS, with a selection. -/
def heard (selection : Option LinkNumber) (f : Device → Device) : State :=
  made fun d => port 1 .active (fun x => { x with turn := .theirs, selection := selection }) (f d)

theorem heard_listens (n : Option LinkNumber) (f : Device → Device) (h : ((f (made id).dev).port 1).lines.stb = false)
    (g : ((f (made id).dev).port 1).rx = .idle) : (heard n f).listens 1 := by
  refine ⟨rfl, .inl ?_, ?_, ?_⟩ <;> simp only [heard, made, port, port_modPort_self]
  · exact h
  · exact g

/-- The outbound half of port 1, number 9 with a number of credits. -/
def credited (k : Nat) (d : Device) : Device := d.modOut 1 9 fun h => { h with credits := k }

theorem witness_PeerControlByteActs :
    (heard (some 9) (credited 254)).listens 1 ∧ ((heard (some 9) (credited 254)).dev.port 1).repeatPending = none ∧
      ((heard (some 9) (credited 254)).dev.port 1).selection = some 9 ∧
      ((heard (some 9) (credited 254)).dev.outHalf 1 9).credits + 1 ≤ 255 :=
  ⟨heard_listens _ _ (by decide +kernel) (by decide +kernel), by decide +kernel⟩

theorem witness_DecoderErrorBreaksPort :
    let s := heard (some 9) (credited 254)
    let u := heard none fun d => d.modPort 1 fun x => { x with repeatPending := some (3, 9) }
    s.listens 1 ∧ (s.dev.port 1).state = .active ∧ (s.dev.port 1).repeatPending = none ∧ (s.dev.port 1).selection = some 9 ∧
      255 < (s.dev.outHalf 1 9).credits + 2 ∧ (s.dev.inHalf 1 9).openMark = false ∧ (s.dev.inHalf 1 9).discard = false ∧
      (s.dev.inHalf 1 9).granted = 0 ∧ u.listens 1 ∧ (u.dev.port 1).repeatPending = some (3, 9) ∧
      ((heard none id).dev.port 1).repeatPending = none ∧ ((heard none id).dev.port 1).selection = none := by
  refine ⟨heard_listens _ _ (by decide +kernel) (by decide +kernel), ?_, ?_, ?_, ?_, ?_, ?_, ?_, heard_listens _ _ (by decide +kernel) (by decide +kernel), ?_⟩ <;> decide +kernel

/-- The pair of channels 1 and 2 with its inbound half on port 1, number 9, and cell 4 filling with a number of bytes. -/
def cellFilling (fill : Nat) (d : Device) : Device :=
  ((((pairOpen d).modPair 1 fun x => { x with spare := [], filling := some 4 }).modChan 1 fun x =>
      { x with port := 1, number := 9, inm := { x.inm with fill := fill, total := fill } }).modIn 1 9
    fun h => { h with owner := some 1, openMark := true })

/-- A run of a length pending on number 9. -/
def running (r : Nat) (d : Device) : Device := d.modPort 1 fun x => { x with repeatPending := some (r, 9) }

theorem witness_PeerDataByteIsPlaced_open :
    let s := heard (some 9) filling
    s.bringsUnit 1 9 1 ∧ (s.dev.inHalf 1 9).owner = some 6 ∧ (s.dev.chan 6).kind = .inn ∧ (s.dev.chan 6).port = 1 ∧
      (s.dev.chan 6).number = 9 ∧ (s.dev.inHalf 1 9).openMark = true ∧ (s.dev.chan 6).inm.mode = .writing ∧
      (s.dev.chan 6).inm.buffer = some 2 ∧ (∃ z, s.dev.buffers.find? (fun y => y.id == 2) = some z) ∧
      (s.dev.chan 6).inm.fill + 1 ≤ ((s.dev.chan 6).held.head?.map HostRecord.size).getD 0 ∧ (s.dev.port 1).inStaging = [] ∧
      s.dev.inboundInFlight 1 < 4 ∧ s.brings (.peerByteOffered 1 (wireByte false 7)) 1 (wireByte false 7) := by
  refine ⟨.inl ⟨by decide +kernel, by decide +kernel, rfl⟩, ?_, ?_, ?_, ?_, ?_, ?_, ?_, ⟨_, rfl⟩, ?_, ?_, ?_, .inl ⟨rfl,
    heard_listens _ _ (by decide +kernel) (by decide +kernel)⟩⟩ <;> decide +kernel

theorem witness_PeerDataByteIsPlaced_run :
    let s := heard (some 9) fun d => running 3 (filling d)
    s.bringsUnit 1 9 3 ∧ s.listens 1 ∧ (s.dev.chan 6).inm.fill + 3 ≤ ((s.dev.chan 6).held.head?.map HostRecord.size).getD 0 ∧
      (heard (some 9) fun d => running 63 (filling d)).bringsUnit 1 9 63 :=
  ⟨.inr ⟨by decide +kernel, by decide, by decide⟩, heard_listens _ _ (by decide +kernel) (by decide +kernel), by decide +kernel,
    .inr ⟨by decide +kernel, by decide, by decide⟩⟩

theorem witness_PeerDataByteIsPlaced_cell :
    let s := heard (some 9) fun d => running 63 (cellFilling 961 d)
    s.bringsUnit 1 9 63 ∧ s.listens 1 ∧ (s.dev.inHalf 1 9).owner = some 1 ∧ (s.dev.chan 1).kind = .relayIn ∧
      (s.dev.chan 1).port = 1 ∧ (s.dev.chan 1).number = 9 ∧ (s.dev.inHalf 1 9).openMark = true ∧
      (s.dev.chan 1).inm.mode = .writing ∧ (s.dev.chan 1).inm.fill + 63 ≤ 1024 ∧
      (s.dev.pair 1).map RelayPair.filling = some (some 4) ∧ (s.dev.port 1).inStaging = [] ∧ s.dev.inboundInFlight 1 < 4 :=
  ⟨.inr ⟨by decide +kernel, by decide, by decide⟩, heard_listens _ _ (by decide +kernel) (by decide +kernel), by decide +kernel⟩

theorem witness_PeerDataByteIsPlaced_withheld :
    let s := made fun d =>
      port 1 .active
        (fun x =>
          { x with turn := .asked, selection := some 9, rx := .withheld, lines := { x.lines with stb := true, byte := wireByte false 7 } })
        (filling d)
    let u := heard (some 9) fun d => (filling d).modPort 1 fun x =>
      { x with inStaging := List.replicate 512 { dest := .buffer 2, offset := 0, byte := 0 } }
    s.bringsUnit 1 9 1 ∧ s.brings (.withheldAccept 1) 1 (wireByte false 7) ∧ 1 ≤ 512 - (s.dev.port 1).inStaging.length ∧
      u.bringsUnit 1 9 1 ∧ 512 - (u.dev.port 1).inStaging.length < 1 ∧ (u.dev.inHalf 1 9).openMark = true ∧ u.listens 1 :=
  ⟨.inl ⟨by decide +kernel, by decide +kernel, rfl⟩,
    .inr ⟨rfl, rfl, .inr (by decide +kernel), by decide +kernel, by decide +kernel⟩, by decide +kernel,
    .inl ⟨by decide +kernel, by decide +kernel, rfl⟩, by decide +kernel, by decide +kernel,
    heard_listens _ _ (by decide +kernel) (by decide +kernel)⟩

/-- The IN channel 6 with its buffer full to one byte, a second record of 2 bytes held, and an overflow policy. -/
def overflowing (policy : OverflowPolicy) (d : Device) : Device :=
  ringSet 0
    (running 3
      ((filling d).modChan 6 fun x =>
        { x with
          overflow := policy, inm := { x.inm with fill := 3 },
          held := x.held ++ [{ address := 0x7100, size := 2, plain := false, tag := 0xC }] }))

theorem witness_PeerDataByteIsPlaced_overflow :
    let s := heard (some 9) (overflowing .chain)
    let u := heard (some 9) (overflowing .drop)
    let v := heard (some 9) (overflowing .truncate)
    let x := s.dev.chan 6
    s.bringsUnit 1 9 3 ∧ s.listens 1 ∧ x.inm.fill ≤ 4 ∧ 4 < x.inm.fill + 3 ∧ x.overflow = .chain ∧
      (s.dev.inHalf 1 9).granted + (s.dev.inHalf 1 9).inFlight + 2 ≤ x.held.length ∧ (s.dev.ring x.ring.castSucc).hasRoom ∧
      (∃ q next, x.held = q :: next :: [] ∧ q.size = 4 ∧ 3 ≤ (4 - x.inm.fill) + next.size) ∧ (u.dev.chan 6).overflow = .drop ∧
      (v.dev.chan 6).overflow = .truncate ∧ (v.dev.chan 6).overflow ≠ .chain ∧ u.bringsUnit 1 9 3 ∧ v.bringsUnit 1 9 3 := by
  refine ⟨.inr ⟨by decide +kernel, by decide, by decide⟩, heard_listens _ _ (by decide +kernel) (by decide +kernel), ?_, ?_, ?_,
    ?_, ⟨by decide +kernel, by decide +kernel⟩, ⟨_, _, rfl, rfl, by decide +kernel⟩, ?_, ?_, ?_, .inr ⟨by decide +kernel, by
    decide, by decide⟩, .inr ⟨by decide +kernel, by decide, by decide⟩⟩ <;> decide +kernel

theorem witness_PeerDataByteIsPlaced_cellOverflow :
    let s := heard (some 9) fun d => running 2 (cellFilling 1023 d)
    let u := heard (some 9) fun d => (running 2 (cellFilling 1024 d)).modChan 1 fun x =>
      { x with overflow := .truncate, inm := { x.inm with mode := .truncating } }
    s.bringsUnit 1 9 2 ∧ s.listens 1 ∧ (s.dev.chan 1).inm.mode = .writing ∧ (s.dev.chan 1).inm.fill ≤ 1024 ∧
      1024 < (s.dev.chan 1).inm.fill + 2 ∧ (s.dev.chan 1).overflow = .drop ∧ u.bringsUnit 1 9 2 ∧ u.listens 1 ∧
      (u.dev.chan 1).overflow ≠ .drop ∧ (u.dev.inHalf 1 9).openMark = true ∧ (u.dev.chan 1).inm.mode ≠ .writing := by
  refine ⟨.inr ⟨by decide +kernel, by decide, by decide⟩, heard_listens _ _ (by decide +kernel) (by decide +kernel), ?_, ?_, ?_,
    ?_, .inr ⟨by decide +kernel, by decide, by decide⟩, heard_listens _ _ (by decide +kernel) (by decide +kernel), ?_, ?_, ?_⟩ <;> decide +kernel

theorem witness_PeerDataByteIsPlaced_start :
    let s := heard (some 9) fun d => (inOpen d).modIn 1 9 fun h => { h with granted := 1 }
    let u := heard (some 9) fun d => d.modIn 1 9 fun h => { h with discard := true }
    let v := heard (some 9) fun d =>
      ((cellFilling 0 d).modPair 1 fun x => { x with spare := [4], filling := none }).modIn 1 9
        fun h => { h with openMark := false, granted := 1 }
    (s.dev.inHalf 1 9).owner = some 6 ∧ (s.dev.inHalf 1 9).openMark = false ∧ (s.dev.inHalf 1 9).discard = false ∧
      1 ≤ (s.dev.inHalf 1 9).granted ∧ (s.dev.port 1).repeatPending = none ∧ (s.dev.chan 6).state = .opened ∧
      (∃ q rest, (s.dev.chan 6).held = q :: rest ∧ 1 ≤ q.size) ∧ 1 ≤ 512 - (s.dev.port 1).inStaging.length ∧ s.listens 1 ∧
      (u.dev.inHalf 1 9).openMark = false ∧ (u.dev.inHalf 1 9).discard = true ∧ u.listens 1 ∧ v.listens 1 ∧
      (v.dev.inHalf 1 9).owner = some 1 ∧ (v.dev.inHalf 1 9).openMark = false ∧ (v.dev.inHalf 1 9).discard = false ∧
      1 ≤ (v.dev.inHalf 1 9).granted ∧ (v.dev.chan 1).state = .opened ∧ (v.dev.chan 1).kind = .relayIn ∧
      (v.dev.pair 1).map RelayPair.spare = some [4] := by
  refine ⟨?_, ?_, ?_, ?_, ?_, ?_, ⟨_, _, rfl, by decide⟩, ?_, heard_listens _ _ (by decide +kernel) (by decide +kernel), ?_, ?_,
    heard_listens _ _ (by decide +kernel) (by decide +kernel), heard_listens _ _ (by decide +kernel) (by decide +kernel), ?_⟩ <;> decide +kernel

theorem witness_PeerEndCompletesBuffer_cell :
    let s := heard (some 9) (cellFilling 5)
    let u := heard (some 9) fun d => (cellFilling 5 d).modChan 1 fun x => { x with inm := { x.inm with mode := .truncating } }
    let v := heard (some 9) fun d =>
      ((cellFilling 5 d).modChan 1 fun x => { x with inm := { x.inm with mode := .dropping } }).modPair 1 fun x =>
        { x with spare := [4], filling := none }
    s.listens 1 ∧ (s.dev.port 1).repeatPending = none ∧ (s.dev.port 1).selection = some 9 ∧ (s.dev.inHalf 1 9).openMark = true ∧
      (s.dev.inHalf 1 9).owner = some 1 ∧ (s.dev.chan 1).kind = .relayIn ∧ (s.dev.chan 1).state = .opened ∧ (s.dev.chan 1).port = 1 ∧
      (s.dev.pair 1).map RelayPair.inbound = some 1 ∧ (s.dev.pair 1).map RelayPair.cut = some false ∧
      (s.dev.pair 1).map RelayPair.filling = some (some 4) ∧ (s.dev.chan 1).inm.mode = .writing ∧ u.listens 1 ∧
      (u.dev.chan 1).inm.mode = .truncating ∧ v.listens 1 ∧ (v.dev.chan 1).inm.mode = .dropping ∧
      (v.dev.pair 1).map RelayPair.filling = some none := by
  refine ⟨heard_listens _ _ (by decide +kernel) (by decide +kernel), ?_, ?_, ?_, ?_, ?_, ?_, ?_, ?_, ?_, ?_, ?_, heard_listens _ _
    (by decide +kernel) (by decide +kernel), ?_, heard_listens _ _ (by decide +kernel) (by decide +kernel), ?_, ?_⟩ <;> decide +kernel

theorem witness_PeerEndCompletesBuffer :
    let s := heard (some 9) filling
    let u := heard (some 9) fun d => d.modIn 1 9 fun h => { h with discard := true }
    s.listens 1 ∧ (s.dev.port 1).repeatPending = none ∧ (s.dev.port 1).selection = some 9 ∧ (s.dev.inHalf 1 9).openMark = true ∧
      (s.dev.inHalf 1 9).owner = some 6 ∧ (s.dev.chan 6).kind = .inn ∧ (s.dev.chan 6).state = .opened ∧
      (∃ q rest, (s.dev.chan 6).held = q :: rest) ∧ u.listens 1 ∧ (u.dev.inHalf 1 9).openMark = false ∧
      (u.dev.inHalf 1 9).discard = true := by
  refine ⟨heard_listens _ _ (by decide +kernel) (by decide +kernel), ?_, ?_, ?_, ?_, ?_, ?_, ⟨_, _, rfl⟩, heard_listens _ _ (by
    decide +kernel) (by decide +kernel), ?_, ?_⟩ <;> decide +kernel

/-! ## Witnesses: engagement, breaks and turns -/

/-- Port 1 in a state with a change of its record. -/
def seen (state : PortState) (f : Port → Port) : State := made (port 1 state f)

theorem witness_EngiRiseEngages :
    (made id).engine = .running ∧ ((seen .engaging id).dev.port 1).state = .engaging ∧ ((seen .failed id).dev.port 1).state ≠ .engaging ∧
      ((seen .engaging id).dev.port 1).settings.role = .lead ∧ ((seen .engaging id).dev.port 1).lines.owni = false ∧
      ((seen .engaging fun x => { x with lines := { x.lines with owni := true } }).dev.port 1).lines.owni = true ∧
      ((seen .engaging fun x => { x with settings := { x.settings with role := .follow } }).dev.port 1).settings.role = .follow ∧
      ((seen .engaging fun x => { x with settings := { x.settings with role := .follow } }).dev.port 1).lines.stb = false := by
  decide +kernel

theorem witness_ActivePortBreaks :
    let s := seen .active fun x => { x with acceptTimer := .running 5, takeTimer := .running 5, turnWaitTimer := .running 5, turn := .ours }
    let u := seen .active fun x => { x with turn := .asked, lines := { x.lines with engi := true, owni := true } }
    s.engine = .running ∧ (s.dev.port 1).state = .active ∧ (s.dev.port 1).acceptTimer ≠ .stopped ∧
      (s.dev.port 1).takeTimer ≠ .stopped ∧ (s.dev.port 1).turnWaitTimer ≠ .stopped ∧ (s.dev.port 1).lines.owni = false ∧
      (s.dev.port 1).turn = .ours ∧ (u.dev.port 1).lines.engi = true ∧ (u.dev.port 1).lines.owni = true ∧
      (u.dev.port 1).turn = .asked ∧ (u.dev.port 1).rx = .idle ∧
      ((seen .active fun x => { x with repeatPending := some (3, 9) }).dev.port 1).repeatPending ≠ none ∧
      ((seen .active fun x => { x with rx := .accepted }).dev.port 1).rx ≠ .idle ∧
      parityGood { flag := true, par := false, data := 1 } = false := by decide +kernel

theorem witness_QuiescingPortEnds :
    let s := quiescing fun x =>
      { x with
        acceptTimer := .running 5, takeTimer := .running 5, turnWaitTimer := .running 5, drainTimer := .running 5,
        lines := { x.lines with engi := true } }
    s.engine = .running ∧ (s.dev.port 1).state = .quiescing ∧ (s.dev.port 1).acceptTimer ≠ .stopped ∧
      (s.dev.port 1).takeTimer ≠ .stopped ∧ (s.dev.port 1).turnWaitTimer ≠ .stopped ∧ (s.dev.port 1).drainTimer ≠ .stopped ∧
      (s.dev.port 1).lines.engi = true ∧ s.nothingOpen 1 ∧ (s.dev.ring 4).room ≠ 0 ∧
      s.defers (isDisable 1) { work := .portDisable 1, tag := 7, subject := 2 } [] [] := by
  unfold State.nothingOpen
  refine ⟨rfl, ?_, ?_, ?_, ?_, ?_, ?_, ?_, ?_, defers_one rfl rfl⟩ <;> decide +kernel

theorem witness_BrokenPortDecides :
    let s := seen .broken fun x => { x with recoverTimer := .running 5, peerReleased := true, retryCount := 2 }
    let u := seen .broken fun x => { x with lines := { x.lines with engi := true }, retryCount := 3 }
    (s.dev.port 1).state = .broken ∧ (s.dev.port 1).recoverTimer ≠ .stopped ∧ (s.dev.port 1).peerReleased = true ∧
      (s.dev.port 1).retryCount < (s.dev.port 1).settings.retries ∧ (u.dev.port 1).recoverTimer = .stopped ∧
      (u.dev.port 1).lines.engi = true ∧ (u.dev.port 1).settings.retries ≤ (u.dev.port 1).retryCount ∧
      (u.dev.port 1).peerReleased = false := by decide +kernel

theorem witness_TurnLinesMoveTurn :
    let s := seen .active fun x => { x with turn := .offered, takeTimer := .running 5, settleTimer := .running 5, hold := .running 5 }
    let u := seen .active fun x => { x with turn := .asked, lines := { x.lines with owni := true } }
    let v := seen .active fun x => { x with turn := .theirs, takeTimer := .running 5 }
    s.engine = .running ∧ (s.dev.port 1).lines.owni = false ∧ (s.dev.port 1).turn = .offered ∧ (s.dev.port 1).lines.stb = false ∧
      (s.dev.port 1).settleTimer ≠ .stopped ∧ (s.dev.port 1).hold = .running 5 ∧ (u.dev.port 1).lines.owni = true ∧
      (u.dev.port 1).turn = .asked ∧ (u.dev.port 1).rx = .idle ∧ (u.dev.port 1).repeatPending = none ∧
      (v.dev.port 1).turn = .theirs ∧ (v.dev.port 1).takeTimer ≠ .stopped := by decide +kernel

/-- Port 1 in OURS with the OUT channel 5 READY, in class 0, with a credit and its payload staged. -/
def working (f : Port → Port) : Device :=
  (made fun d =>
    port 1 .active
      (fun x =>
        f { x with
            turn := .ours, classes := x.classes.set 0 [5],
            outStaging := { x.outStaging with channel := some 5, segments := [{ offset := 0, bytes := [1, 1, 1, 2] }] } })
      (credited 1 ((outOpen d).modOutMsg 5 fun o => { o with phase := .ready, reserved := true }))).dev

theorem witness_TurnGoesOnInOrder :
    let d := working id
    let picked := working fun x => { x with pick := some (5, 0), selection := some 9 }
    let late := working fun x => { x with pick := some (5, 1), hold := .expired, lines := { x.lines with reqi := true } }
    let going := ((working fun x => { x with pick := some (5, 1), selection := some 9 }).modOutMsg 5 fun o => { o with phase := .started })
    (going.port 1).pick = some (5, 1) ∧ (going.port 1).selection = some (going.chan 5).number ∧
      (going.chan 5).out.phase = .started ∧ going.nextOffer 1 5 = some (.msgData 5 9 1 1, some (.plain 1)) ∧
      (d.port 1).turn = .ours ∧ (d.port 1).tx = .idle ∧ (d.port 1).build = none ∧ (d.port 1).headOffered = false ∧
      (d.port 1).selectSent = false ∧ (d.port 1).lines.reqi = false ∧ (d.port 1).control = [] ∧ (d.port 1).pick = none ∧
      (d.port 1).classes.get 0 = [] ++ 5 :: [] ∧ d.eligible 5 = true ∧ (picked.port 1).pick = some (5, 0) ∧
      picked.nextOffer 1 5 = some (.msgData 5 9 1 1, some (.plain 1)) ∧ (picked.port 1).selection = some (picked.chan 5).number ∧
      (picked.chan 5).out.phase = .ready ∧ (late.port 1).lines.reqi = true ∧ (late.port 1).hold = .expired ∧
      (late.port 1).pick = some (5, 1) := by decide +kernel

theorem witness_EncoderFormsUnits :
    let d := working id
    let e := d.modChan 5 fun x => { x with compress := true }
    (d.chan 5).compress = false ∧ d.stagedBytes 1 5 = 1 :: [1, 1, 2] ∧ (e.chan 5).compress = true ∧
      ((e.chan 5).held.head?.map HostRecord.plain).getD false = false ∧
      e.stagedBytes 1 5 = List.replicate 3 1 ++ [2] ∧ [(2 : Byte)].head? ≠ some 1 ∧ d.stagedBytes 1 4 = [] := by decide +kernel

/-! ## Witnesses: the laws -/

/-- A step that ends in a next state, from a state that meets the laws. -/
theorem witness_EngineAndRootLawsKept :
    EngineLaw (made outOpen) ∧ RootLaw (made outOpen) ∧ ∃ t, exec (.notifyChannel 5 3 false) (made outOpen) = .next t :=
  ⟨by unfold EngineLaw; decide +kernel, by unfold RootLaw; decide +kernel, _, rfl⟩

theorem pairLaw_of {d : Device}
    (h : ∀ i : ChannelId,
      (d.pair i).all fun x =>
        decide (x.inbound = i ∧ (d.chan i).kind = .relayIn ∧ (d.chan i).partner = x.outbound ∧ (d.chan i).state ≠ .closed ∧
          (d.chan x.outbound).kind = .relayOut ∧ (d.chan x.outbound).partner = i ∧ (d.chan x.outbound).state ≠ .closed))
    (g : ∀ c : ChannelId, (d.chan c).kind = .relayIn → (d.chan c).state ≠ .closed → (d.pair c).isSome)
    (k : ∀ c : ChannelId, (d.chan c).kind = .relayOut → (d.chan c).state ≠ .closed → (d.pair (d.chan c).partner).map RelayPair.outbound = some c) : PairLaw d := by
  refine ⟨fun i x e => ?_, fun c e f => Option.isSome_iff_exists.1 (g c e f), fun c e f => Option.map_eq_some_iff.1 (k c e f)⟩
  have := h i
  simpa [e] using this

theorem witness_KeyAndPairLawsKept :
    KeyLaw (closingPair 1 0).dev ∧ PairLaw (closingPair 1 0).dev ∧ ∃ t, exec (.closeGraceful 7 1 0) (closingPair 1 0) = .next t := by
  refine ⟨?_, pairLaw_of (by decide +kernel) (by decide +kernel) (by decide +kernel), _, rfl⟩
  unfold KeyLaw
  decide +kernel

end Sys2Proof.Tests
end

section
/-! SUPPORT. Updates of one block put together, and what inbound staging's writes and moves leave. -/

namespace Sys2Proof.LinkBytes

open Sys2Proof.Machine

/-! ## Updates of one block put together -/

variable (d : Device) (p q : PortId) (c : ChannelId) (n m : LinkNumber)

/-- Writing a place of a table twice. -/
theorem set_set {α : Type} {k : Nat} (v : Vector α k) (i : Fin k) (x y : α) : (v.set i x).set i y = v.set i y := by
  apply vector_ext_get
  intro j
  simp only [get_set]
  split <;> rfl

/-- Writing back what stands at a place of a table. -/
theorem set_get {α : Type} {k : Nat} (v : Vector α k) (i : Fin k) : v.set i (v.get i) = v := by
  apply vector_ext_get
  intro j
  simp only [get_set]
  split
  · next h => rw [h]
  · rfl

/-- Two changes of a port are one. -/
theorem modPort_modPort (f g : Port → Port) : (d.modPort p f).modPort p g = d.modPort p fun x => g (f x) := by
  have h : ((d.modPort p f).modPort p g).ports = (d.modPort p fun x => g (f x)).ports := by
    change (d.ports.set p _).set p (g ((d.modPort p f).port p)) = d.ports.set p _
    rw [port_modPort_self, set_set]
  exact congrArg (fun v => ({ d with ports := v } : Device)) h

/-- Two changes of a channel are one. -/
theorem modChan_modChan (f g : Channel → Channel) : (d.modChan c f).modChan c g = d.modChan c fun x => g (f x) := by
  have h : ((d.modChan c f).modChan c g).channels = (d.modChan c fun x => g (f x)).channels := by
    change (d.channels.set c _).set c (g ((d.modChan c f).chan c)) = d.channels.set c _
    rw [chan_modChan_self, set_set]
  exact congrArg (fun v => ({ d with channels := v } : Device)) h

/-- A change of a port that leaves its record leaves the blocks. -/
theorem modPort_eq_self {f : Port → Port} (h : f (d.port p) = d.port p) : d.modPort p f = d := by
  have : d.ports.set p (f (d.port p)) = d.ports := by rw [h]; exact set_get _ _
  exact congrArg (fun v => ({ d with ports := v } : Device)) this

/-- Changes of a port that agree on its record are the same. -/
theorem modPort_congr {f g : Port → Port} (h : f (d.port p) = g (d.port p)) : d.modPort p f = d.modPort p g := by
  unfold Device.modPort
  rw [h]

/-- A change of a port leaves the buffers. -/
theorem buffer?_modPort (f : Port → Port) (k : Nat) : (d.modPort p f).buffer? k = d.buffer? k := rfl

/-- A change of a port that keeps its Link Map keeps every half. -/
theorem inHalf_modPort {f : Port → Port} (h : (f (d.port p)).map = (d.port p).map) : (d.modPort p f).inHalf q n = d.inHalf q n := by
  unfold Device.inHalf Port.entry
  rw [port_modPort]
  split
  · next e => subst e; rw [h]
  · rfl

theorem outHalf_modPort {f : Port → Port} (h : (f (d.port p)).map = (d.port p).map) :
    (d.modPort p f).outHalf q n = d.outHalf q n := by
  unfold Device.outHalf Port.entry
  rw [port_modPort]
  split
  · next e => subst e; rw [h]
  · rfl

@[simp] theorem inHalf_modIn_self (f : InHalf → InHalf) : (d.modIn p n f).inHalf p n = f (d.inHalf p n) := by
  simp [Device.inHalf, Device.modIn]

@[simp] theorem outHalf_modOut_self (f : OutHalf → OutHalf) : (d.modOut p n f).outHalf p n = f (d.outHalf p n) := by
  simp [Device.outHalf, Device.modOut]

/-! ## What issuing inbound writes and moves does -/

/-- What the issue of one write or move leaves: staging of its port with bytes taken out, the buffers with bytes counted as issued, and the
requests and moves with some added (R113, R131). -/
structure Issued (e d : Device) (p : PortId) : Prop where
  cu : e.cu = d.cu
  channels : e.channels = d.channels
  rings : e.rings = d.rings
  lost : e.lost = d.lost
  pairs : e.relay.pairs = d.relay.pairs
  cells : e.relay.cells = d.relay.cells
  moves : ∀ m ∈ d.relay.moves, m ∈ e.relay.moves
  requests : ∀ r ∈ d.requests, r ∈ e.requests
  ports : ∃ l, e.ports = (d.modPort p fun x => { x with inStaging := l }).ports ∧ ∀ b ∈ l, b ∈ (d.port p).inStaging
  buffers : ∃ f : Buffer → Buffer, e.buffers = d.buffers.map f ∧
    ∀ z, (f z).id = z.id ∧ (f z).placed = z.placed ∧ (f z).address = z.address ∧ (f z).channel = z.channel

namespace Issued

variable {d p}

theorem self : Issued d d p :=
  ⟨rfl, rfl, rfl, rfl, rfl, rfl, fun _ h => h, fun _ h => h,
    ⟨(d.port p).inStaging, by rw [modPort_eq_self]; rfl, fun _ h => h⟩, ⟨id, by simp, fun _ => ⟨rfl, rfl, rfl, rfl⟩⟩⟩

theorem trans {f e : Device} (h : Issued f e p) (g : Issued e d p) : Issued f d p := by
  obtain ⟨l, hl, hl'⟩ := h.ports
  obtain ⟨m, hm, hm'⟩ := g.ports
  obtain ⟨u, hu, hu'⟩ := h.buffers
  obtain ⟨v, hv, hv'⟩ := g.buffers
  have port_e : e.port p = { d.port p with inStaging := m } := by
    have : e.port p = (d.modPort p fun x => { x with inStaging := m }).port p := congrArg (·.get p) hm
    rw [this, port_modPort_self]
  refine ⟨h.cu.trans g.cu, h.channels.trans g.channels, h.rings.trans g.rings, h.lost.trans g.lost, h.pairs.trans g.pairs,
    h.cells.trans g.cells, fun x hx => h.moves x (g.moves x hx), fun x hx => h.requests x (g.requests x hx), ⟨l, ?_, ?_⟩,
    ⟨u ∘ v, by rw [hu, hv, List.map_map], fun z => ?_⟩⟩
  · rw [hl]
    change e.ports.set p _ = d.ports.set p _
    rw [port_e, hm]
    exact set_set ..
  · intro b hb
    have := hl' b hb
    rw [port_e] at this
    exact hm' b this
  · obtain ⟨a1, a2, a3, a4⟩ := hu' (v z)
    obtain ⟨b1, b2, b3, b4⟩ := hv' z
    exact ⟨a1.trans b1, a2.trans b2, a3.trans b3, a4.trans b4⟩

end Issued

/-- The bytes left by a gather were staged before. -/
theorem gather_left_mem (t : Destination) (k o : Nat) (l : List StagedByte) : ∀ b ∈ (gather t k o l).2, b ∈ l := by
  induction l generalizing k o with
  | nil => cases k <;> simp [gather]
  | cons x l ih =>
    cases k with
    | zero => simp [gather]
    | succ k =>
      intro b hb
      unfold gather at hb
      split at hb
      · split at hb
        · exact List.mem_cons_of_mem _ (ih _ _ b hb)
        · exact hb
      · rcases List.mem_cons.mp hb with rfl | hb
        · exact List.mem_cons_self
        · exact List.mem_cons_of_mem _ (ih _ _ b hb)

theorem issueOne_issued : Issued (d.issueOne p) d p := by
  unfold Device.issueOne
  split
  · exact .self
  · split
    · exact .self
    · next b rest hs =>
      have staged : ∀ x ∈ (gather b.dest Config.transferBytes b.offset (b :: rest)).2, x ∈ (d.port p).inStaging := by
        rw [hs]
        exact gather_left_mem _ _ _ _
      have same : d.buffers = d.buffers.map id := by simp
      dsimp only
      split
      · split
        · exact ⟨rfl, rfl, rfl, rfl, rfl, rfl, fun _ h => h, fun _ h => h, ⟨_, rfl, staged⟩,
            ⟨id, same, fun _ => ⟨rfl, rfl, rfl, rfl⟩⟩⟩
        · refine ⟨rfl, rfl, rfl, rfl, rfl, rfl, fun _ h => h, fun _ h => List.mem_append_left _ h, ⟨_, rfl, staged⟩,
            ⟨_, rfl, fun z => ?_⟩⟩
          split <;> exact ⟨rfl, rfl, rfl, rfl⟩
      · exact ⟨rfl, rfl, rfl, rfl, rfl, rfl, fun _ h => List.mem_append_left _ h, fun _ h => h, ⟨_, rfl, staged⟩,
          ⟨id, same, fun _ => ⟨rfl, rfl, rfl, rfl⟩⟩⟩

theorem issueInbound_issued : Issued (d.issueInbound p) d p :=
  (issueOne_issued _ p).trans ((issueOne_issued _ p).trans ((issueOne_issued _ p).trans (issueOne_issued d p)))

/-- With nothing staged, nothing is issued. -/
theorem issueOne_empty (h : (d.port p).inStaging = []) : d.issueOne p = d := by
  unfold Device.issueOne
  rw [h]
  split <;> rfl

theorem issueInbound_empty (h : (d.port p).inStaging = []) : d.issueInbound p = d := by
  unfold Device.issueInbound
  simp only [issueOne_empty d p h]

/-- A change of a port that neither reads nor writes its inbound staging. -/
structure SparesStaging (f : Port → Port) : Prop where
  keeps : ∀ x, (f x).inStaging = x.inStaging
  comm : ∀ x l, f { x with inStaging := l } = { f x with inStaging := l }

/-- Issuing inbound bytes commutes with a change of the port that spares its inbound staging. -/
theorem issueOne_modPort {f : Port → Port} (h : SparesStaging f) : (d.modPort p f).issueOne p = (d.issueOne p).modPort p f := by
  have taken : ∀ l, (d.modPort p f).modPort p (fun x => { x with inStaging := l }) =
      (d.modPort p fun x => { x with inStaging := l }).modPort p f := fun l => by
    rw [modPort_modPort, modPort_modPort]
    exact modPort_congr d p (h.comm _ l).symm
  have flight : (d.modPort p f).inboundInFlight p = d.inboundInFlight p := rfl
  unfold Device.issueOne
  rw [flight, port_modPort_self, h.keeps]
  split
  · rfl
  · split
    · rfl
    · dsimp only
      rw [taken]
      split
      · simp only [buffer?_modPort]
        split <;> rfl
      · rfl

theorem issueInbound_modPort {f : Port → Port} (h : SparesStaging f) :
    (d.modPort p f).issueInbound p = (d.issueInbound p).modPort p f := by
  unfold Device.issueInbound
  simp only [issueOne_modPort _ p h]

end Sys2Proof.LinkBytes
end

section
/-! SUPPORT. What the work at the end of an event adds outside the steady part: requests and reservations only grow, and a port that does
not hold the turn keeps its selection and the outbound halves of its Link Map. -/

namespace Sys2Proof.LinkBytes

open Sys2Proof.Machine

/-- The work at the end of an event as it is seen by the requests, the reservations and a port that does not hold the turn. -/
structure Grows (e d : Device) : Prop where
  requests : ∀ r ∈ d.requests, r ∈ e.requests
  reserved : ∀ r, (d.ring r).reserved ≤ (e.ring r).reserved
  turnless : ∀ p, (d.port p).turn ≠ .ours →
    (e.port p).turn ≠ .ours ∧ (e.port p).selection = (d.port p).selection ∧ ∀ n, e.outHalf p n = d.outHalf p n

namespace Grows

variable {d e a : Device} {p : PortId} {r : RingId}

theorem self (d : Device) : Grows d d := ⟨fun _ h => h, fun _ => Nat.le_refl _, fun _ h => ⟨h, rfl, fun _ => rfl⟩⟩

theorem trans {f : Device} (h : Grows f e) (g : Grows e d) : Grows f d := by
  refine ⟨fun r hr => h.requests r (g.requests r hr), fun r => (g.reserved r).trans (h.reserved r), fun p hp => ?_⟩
  obtain ⟨g1, g2, g3⟩ := g.turnless p hp
  obtain ⟨h1, h2, h3⟩ := h.turnless p g1
  exact ⟨h1, h2.trans g2, fun n => (h3 n).trans (g3 n)⟩

theorem foldl {β : Type} {f : Device → β → Device} (hf : ∀ d b, Grows (f d b) d) (l : List β) (h : Grows d a) :
    Grows (l.foldl f d) a := by
  induction l generalizing d with
  | nil => exact h
  | cons b l ih => exact ih ((hf d b).trans h)

/-- A change that touches no port and no ring, and takes no request back. -/
theorem after (h : Grows d a) (hr : ∀ r ∈ d.requests, r ∈ e.requests) (hg : e.rings = d.rings) (hp : e.ports = d.ports) :
    Grows e a := by
  refine trans ⟨hr, fun r => ?_, fun p ht => ?_⟩ h
  · rw [Device.ring, Device.ring, hg]
  · have : e.port p = d.port p := congrArg (·.get p) hp
    refine ⟨by rw [this]; exact ht, by rw [this], fun n => ?_⟩
    rw [Device.outHalf, Device.outHalf, this]

theorem modRing {f : Ring → Ring} (hf : ∀ x, x.reserved ≤ (f x).reserved) (h : Grows d a) : Grows (d.modRing r f) a := by
  suffices g : Grows (d.modRing r f) d from g.trans h
  refine ⟨fun _ h => h, fun r' => ?_, fun _ h => ⟨h, rfl, fun _ => rfl⟩⟩
  rw [ring_modRing]
  split
  · next e => rw [← e]; exact hf _
  · exact Nat.le_refl _

theorem reserve {k : Nat} (h : Grows d a) : Grows (d.reserve r k) a := modRing (fun _ => Nat.le_add_right _ _) h

theorem unwait {q : Requester} (h : Grows d a) : Grows (d.unwait r q) a := modRing (fun _ => Nat.le_refl _) h

theorem waitFor {q : Requester} (h : Grows d a) : Grows (d.waitFor r q) a :=
  modRing (fun _ => by split <;> exact Nat.le_refl _) h

/-- A change of a port that keeps its turn unheld, its selection and its outbound halves. -/
theorem modPort {f : Port → Port}
    (hf : (d.port p).turn ≠ .ours → (f (d.port p)).turn ≠ .ours ∧ (f (d.port p)).selection = (d.port p).selection ∧
      ∀ n, ((f (d.port p)).entry n).outbound = ((d.port p).entry n).outbound)
    (h : Grows d a) : Grows (d.modPort p f) a := by
  suffices g : Grows (d.modPort p f) d from g.trans h
  refine ⟨fun _ h => h, fun _ => Nat.le_refl _, fun q hq => ?_⟩
  unfold Device.outHalf
  rw [port_modPort]
  split
  · next e => subst e; exact hf hq
  · exact ⟨hq, rfl, fun _ => rfl⟩

theorem queueGrant {n : LinkNumber} {k : Nat} (h : Grows d a) : Grows (d.queueGrant p n k) a := by
  unfold Device.queueGrant
  refine modPort (fun ht => ?_) (modPort (fun ht => ⟨ht, rfl, fun m => ?_⟩) h)
  · unfold Port.modUnoffered
    split <;> exact ⟨ht, rfl, fun _ => rfl⟩
  · rw [entry_modEntry]
    split
    · next e => rw [e]
    · rfl

theorem generate {n : LinkNumber} (h : Grows d a) : Grows (d.generate p n).1 a := by
  unfold Device.generate
  split
  · exact h
  · simp only
    repeat' split
    · exact h
    · exact queueGrant h
    · exact h
    · exact queueGrant (reserve h)

theorem serveWaiter {q : Requester} (h : Grows d a) : Grows (d.serveWaiter r q).1 a := by
  unfold Device.serveWaiter
  cases q with
  | outRecord c =>
    dsimp only
    split
    · exact h
    · exact after (unwait (reserve h)) (fun _ h => h) rfl rfl
  | commandUnit =>
    dsimp only
    split
    · exact h
    · exact after (unwait (reserve h)) (fun _ h => h) rfl rfl
  | inHalf p n =>
    dsimp only
    have g := generate (p := p) (n := n) h
    split
    · exact h
    · split
      · next e he => rw [he] at g; exact g
      · next e he => rw [he] at g; exact unwait g

theorem walk (l : List Requester) (h : Grows d a) : Grows (Device.walk r l d) a := by
  induction l generalizing d with
  | nil => exact h
  | cons q l ih =>
    have g := serveWaiter (r := r) (q := q) h
    unfold Device.walk
    split
    · next e he => rw [he] at g; exact ih g
    · next e he => rw [he] at g; exact g

theorem walkRing (h : Grows d a) : Grows (d.walkRing r) a := by
  unfold Device.walkRing
  refine modRing (fun _ => Nat.le_refl _) ?_
  split
  · exact walk _ h
  · exact h

/-- A port's transmission touches no request and no ring. -/
theorem transmit_frame (d : Device) (p : PortId) : (d.transmit p).requests = d.requests ∧ (d.transmit p).rings = d.rings := by
  have started : ∀ c, (d.startMessage p c).requests = d.requests ∧ (d.startMessage p c).rings = d.rings := fun c => by
    unfold Device.startMessage
    dsimp only
    split <;> exact ⟨rfl, rfl⟩
  have unit : ∀ c, (d.offerUnit p c).requests = d.requests ∧ (d.offerUnit p c).rings = d.rings := fun c => by
    unfold Device.offerUnit
    split
    · exact ⟨rfl, rfl⟩
    · exact started c
  have message : ∀ c, (d.sendMessage p c).requests = d.requests ∧ (d.sendMessage p c).rings = d.rings := fun c => by
    unfold Device.sendMessage
    dsimp only
    repeat' split
    · exact ⟨rfl, rfl⟩
    · exact unit c
    · exact ⟨rfl, rfl⟩
  have head : (d.offerHead p).requests = d.requests ∧ (d.offerHead p).rings = d.rings := by
    unfold Device.offerHead
    split
    · exact ⟨rfl, rfl⟩
    · dsimp only
      split <;> exact ⟨rfl, rfl⟩
  unfold Device.transmit Device.proceed
  dsimp only
  repeat' split
  all_goals first
    | exact ⟨rfl, rfl⟩
    | with_reducible exact unit _
    | with_reducible exact message _
    | with_reducible exact head

theorem transmit (h : Grows d a) : Grows (d.transmit p) a := by
  obtain ⟨requests, rings⟩ := transmit_frame d p
  refine trans ⟨fun r hr => by rw [requests]; exact hr, fun r => by rw [Device.ring, Device.ring, rings], fun q hq => ?_⟩ h
  have same : (d.transmit p).port q = d.port q := by
    by_cases e : q = p
    · subst e
      unfold Device.transmit
      rw [if_neg (by simp [hq])]
    · exact Device.Rests.transmit_other e
  exact ⟨by rw [same]; exact hq, by rw [same], fun n => by rw [Device.outHalf, Device.outHalf, same]⟩

theorem pickChannel (h : Grows d a) : Grows (d.pickChannel p) a := by
  unfold Device.pickChannel
  dsimp only
  repeat' split
  · exact modPort (fun ht => ⟨ht, rfl, fun _ => rfl⟩) h
  · exact h
  · exact h

theorem askForTurn (h : Grows d a) : Grows (d.askForTurn p) a := by
  unfold Device.askForTurn
  dsimp only
  split
  · exact modPort (fun _ => ⟨by simp, rfl, fun _ => rfl⟩) h
  · exact h

theorem restage (h : Grows d a) : Grows (d.restage p) a := by
  unfold Device.restage
  dsimp only
  split
  · exact h
  · exact modPort (fun ht => ⟨ht, rfl, fun _ => rfl⟩) h

theorem place {x : Access} {b : Address} {k : Nat} {l : List Byte} (h : Grows d a) : Grows (d.place x b k l) a :=
  after h (fun _ h => List.mem_append_left _ h) rfl rfl

theorem issueRead (h : Grows d a) : Grows (d.issueRead p) a := by
  unfold Device.issueRead
  dsimp only
  split
  · exact h
  · split
    · exact h
    · split
      · exact h
      · exact modPort (fun ht => ⟨ht, rfl, fun _ => rfl⟩) (place h)

theorem issueCopy (h : Grows d a) : Grows (d.issueCopy p) a := by
  unfold Device.issueCopy
  dsimp only
  split
  · exact h
  · next c _ =>
    split
    · exact h
    · have g : ∀ y, Grows (d.modPort p fun x => { x with outStaging := y }) a :=
        fun y => modPort (fun ht => ⟨ht, rfl, fun _ => rfl⟩) h
      exact after (g _) (fun _ h => h) rfl rfl

theorem issueOutbound (h : Grows d a) : Grows (d.issueOutbound p) a := issueCopy (issueRead h)

theorem service (h : Grows d a) : Grows (d.service p) a := by
  unfold Device.service
  split
  · exact issueOutbound (issueOutbound (issueOutbound (issueOutbound (restage (askForTurn (transmit (pickChannel
      (modPort (fun ht => ⟨ht, rfl, fun _ => rfl⟩) h))))))))
  · exact h

theorem issueRecord (h : Grows d a) : Grows (d.issueRecord r) a := by
  unfold Device.issueRecord
  dsimp only
  split
  · exact modRing (fun _ => Nat.le_refl _) (place h)
  · exact h

theorem requestSlot (h : Grows d a) : Grows d.requestSlot a := by
  unfold Device.requestSlot
  repeat' split
  · exact h
  · exact waitFor h
  · exact after (reserve h) (fun _ h => h) rfl rfl

theorem fetchCommands (h : Grows d a) : Grows d.fetchCommands a := by
  unfold Device.fetchCommands
  dsimp only
  split
  · exact h
  · exact after (place h) (fun _ h => h) rfl rfl

end Grows

/-- The work at the end of an event takes no request back, returns no reservation, and leaves the selection and the outbound halves of a
port that does not hold the turn. -/
theorem settle_grows (d : Device) : Grows d.settle d := by
  unfold Device.settle
  refine .fetchCommands (.requestSlot (.foldl (fun e r => .issueRecord (.self e)) _ (.foldl (fun e p => .service (.self e)) _ ?_)))
  exact .foldl (fun e r => .walkRing (.self e)) _ (.self d)

end Sys2Proof.LinkBytes
end

section
/-! SUPPORT. A byte of the peer, from its offer to the decoder (R43, R44, R59), and what SELECT and GRANT do. -/

namespace Sys2Proof.LinkBytes

open Sys2Proof.Machine

/-! ## The ten lines and the command byte -/

/-- A byte sent with its parity bit set by R40 has good parity. -/
theorem parityGood_wireByte (flag : Bool) (b : Byte) : parityGood (wireByte flag b) = true := by
  unfold parityGood wireByte
  generalize linesHigh b + bit flag = k
  rcases Nat.mod_two_eq_zero_or_one k with h | h <;> simp [bit, Nat.add_mod, h]

theorem linkCommand_select (m : LinkNumber) : linkCommand (BitVec.ofNat 8 (0 + m.val)) = .select m := by
  revert m
  decide

/-- A command byte of kind REPEAT, END or GRANT with a value of 0..63 (R41). -/
theorem linkCommand_values : ∀ v : Fin 64, linkCommand (BitVec.ofNat 8 (64 + v.val)) = .rep v.val ∧
    linkCommand (BitVec.ofNat 8 (128 + v.val)) = .finish v.val ∧ linkCommand (BitVec.ofNat 8 (192 + v.val)) = .grant v.val := by
  decide

theorem linkCommand_rep {v : Nat} (h : v < 64) : linkCommand (BitVec.ofNat 8 (64 + v)) = .rep v := (linkCommand_values ⟨v, h⟩).1

theorem linkCommand_finish {v : Nat} (h : v < 64) : linkCommand (BitVec.ofNat 8 (128 + v)) = .finish v :=
  (linkCommand_values ⟨v, h⟩).2.1

theorem linkCommand_grant {v : Nat} (h : v < 64) : linkCommand (BitVec.ofNat 8 (192 + v)) = .grant v :=
  (linkCommand_values ⟨v, h⟩).2.2

/-- A command byte of 64 or more is no SELECT (R41). -/
theorem linkCommand_not_select {v : Nat} (lo : 64 ≤ v) (hi : v < 256) (m : LinkNumber) :
    linkCommand (BitVec.ofNat 8 (0 + v)) ≠ .select m := by
  have kind : ((BitVec.ofNat 8 (0 + v)).extractLsb 7 6).toNat ≠ 0 := by
    simp only [BitVec.extractLsb_toNat, BitVec.toNat_ofNat, Nat.shiftRight_eq_div_pow]
    omega
  unfold linkCommand
  dsimp only
  split
  · next e => exact absurd e kind
  all_goals simp

/-! ## The offer and the acceptance -/

/-- The blocks as a byte of the peer is accepted under given levels of its lines, before the byte is judged (R59). -/
def heard (d : Device) (p : PortId) (lines : PeerLines) : Device := d.modPort p fun x => (x.under lines).received false

variable {s : State} {d : Device} {p : PortId} {n : LinkNumber} {w : WireByte}

@[simp] theorem heard_port (l : PeerLines) : (heard d p l).port p = ((d.port p).under l).received false := port_modPort_self ..

@[simp] theorem heard_chan (l : PeerLines) (c : ChannelId) : (heard d p l).chan c = d.chan c := rfl

@[simp] theorem heard_inHalf (l : PeerLines) (q : PortId) : (heard d p l).inHalf q n = d.inHalf q n := by
  unfold heard
  exact inHalf_modPort _ _ _ _ rfl

@[simp] theorem heard_outHalf (l : PeerLines) (q : PortId) : (heard d p l).outHalf q n = d.outHalf q n := by
  unfold heard
  exact outHalf_modPort _ _ _ _ rfl

/-- The offer of a byte on a port that listens is judged with the byte on the lines. -/
theorem exec_offered (h : s.listens p) (w : WireByte) :
    exec (.peerByteOffered p w) s =
      .next { s with dev := ((s.dev.modPort p fun x => x.under (x.lines.offering w)).peerByteStands p).settle } := by
  obtain ⟨running, -, strobe, -⟩ := h
  have : exec (.peerByteOffered p w) s = execPeerByteOffered p w s := by rfl
  rw [this, execPeerByteOffered, if_neg (by simpa [State.lines] using strobe)]
  exact congrArg Host.Outcome.next (event_eq (s := s.drive p _) running _)

/-- The room that an offered byte needs does not depend on the levels of the lines. -/
theorem roomNeeded_under (l : Port → PeerLines) : (d.modPort p fun x => x.under (l x)).roomNeeded p w = d.roomNeeded p w := by
  have half : ∀ q m, (d.modPort p fun x => x.under (l x)).inHalf q m = d.inHalf q m := fun q m => inHalf_modPort _ _ _ _ rfl
  have placed : ∀ c r, (d.modPort p fun x => x.under (l x)).placedOf c r = d.placedOf c r := fun c r => by
    unfold Device.placedOf Device.unpromised
    simp only [half, modPort_chan, modPort_ring]
  unfold Device.roomNeeded
  simp only [port_modPort_self, half, placed, modPort_chan]
  rfl

/-- The acceptance of the byte on the lines. -/
theorem acceptPeerByte_eq (l : PeerLines) :
    (d.modPort p fun x => x.under l).acceptPeerByte p = ((heard d p l).decode p l.byte).issueInbound p := by
  unfold Device.acceptPeerByte Device.countPort heard
  rw [modPort_modPort, modPort_modPort, port_modPort_self]
  rfl

/-- An offered byte of good parity with room for it is accepted. -/
theorem exec_accepts (h : s.listens p) (good : parityGood w = true) (room : s.dev.roomNeeded p w ≤ (s.dev.port p).stagingRoom) :
    exec (.peerByteOffered p w) s =
      .next { s with dev := (((heard s.dev p ((s.dev.port p).lines.offering w)).decode p w).issueInbound p).settle } := by
  have same : (s.dev.modPort p fun x => x.under (x.lines.offering w)) =
      s.dev.modPort p fun x => x.under ((s.dev.port p).lines.offering w) := modPort_congr _ _ rfl
  rw [exec_offered h w, same]
  obtain ⟨-, turn, -, quiet⟩ := h
  unfold Device.peerByteStands
  dsimp only
  rw [port_modPort_self, roomNeeded_under, if_neg, if_neg, if_neg, acceptPeerByte_eq]
  · rfl
  · exact Nat.not_lt.mpr room
  · simpa [Port.under, PeerLines.offering] using good
  · rcases turn with e | e <;> simp [Port.under, PeerLines.offering, Port.reads, e, quiet]

/-- A byte of the peer other than a data byte needs no staging room (R45). -/
theorem roomNeeded_command (b : Byte) : d.roomNeeded p (wireByte true b) = 0 := by
  simp [Device.roomNeeded, wireByte]

/-- A command byte on a port that listens is accepted. -/
theorem exec_command (h : s.listens p) (base v : Nat) :
    exec (.peerByteOffered p (commandByte base v)) s =
      .next
        { s with
          dev :=
            (((heard s.dev p ((s.dev.port p).lines.offering (commandByte base v))).decode p (commandByte base v)).issueInbound
              p).settle } :=
  exec_accepts h (parityGood_wireByte _ _) (by rw [commandByte, roomNeeded_command]; exact Nat.zero_le _)

/-! ## The decoder's checks in order (R44) -/

section Decode

variable {base v : Nat} (b : Byte)

theorem decode_orphan {r : Nat} (h : (d.port p).repeatPending = some (r, n)) :
    d.decode p (commandByte base v) = d.protocolError p .repeatOrphan := by
  simp [Device.decode, h, commandByte, wireByte]

theorem decode_select {m : LinkNumber} (h : (d.port p).repeatPending = none) (k : linkCommand (BitVec.ofNat 8 (base + v)) = .select m) :
    d.decode p (commandByte base v) = (d.modPort p fun y => { y with selection := some m }).countControl p := by
  simp [Device.decode, h, commandByte, wireByte, k]

theorem decode_unselected (h : (d.port p).repeatPending = none) (hs : (d.port p).selection = none)
    (k : ∀ m, linkCommand (BitVec.ofNat 8 (base + v)) ≠ .select m) :
    d.decode p (commandByte base v) = d.protocolError p .noSelect := by
  simp only [Device.decode, h, commandByte, wireByte, hs, if_true]

theorem decode_command {k : LinkCommand} (h : (d.port p).repeatPending = none) (hs : (d.port p).selection = some n)
    (hk : linkCommand (BitVec.ofNat 8 (base + v)) = k) (ne : ∀ m, k ≠ .select m) :
    d.decode p (commandByte base v) = d.decodeSelected p n k := by
  simp only [Device.decode, h, commandByte, wireByte, hs, if_true, hk]

theorem decode_data_unselected (h : (d.port p).repeatPending = none) (hs : (d.port p).selection = none) :
    d.decode p (wireByte false b) = d.protocolError p .noSelect := by
  simp [Device.decode, h, wireByte, hs]

theorem decode_data (h : (d.port p).repeatPending = none) (hs : (d.port p).selection = some n) :
    d.decode p (wireByte false b) = d.decodeData p n b := by
  simp [Device.decode, h, wireByte, hs]

end Decode

/-! ## SELECT and GRANT -/

/-- Setting the selection and counting a control byte spare inbound staging. -/
theorem selecting_spares (m : LinkNumber) : SparesStaging fun x => { x with selection := some m } := ⟨fun _ => rfl, fun _ _ => rfl⟩

/-- A change of an outbound half spares inbound staging. -/
theorem modOut_spares (n : LinkNumber) (f : OutHalf → OutHalf) :
    SparesStaging fun x => x.modEntry n fun e => { e with outbound := f e.outbound } := ⟨fun _ => rfl, fun _ _ => rfl⟩

/-- A byte heard and counted as a control byte. -/
theorem countControl_heard (l : PeerLines) : (heard d p l).countControl p = d.modPort p fun x => (x.under l).received true := by
  unfold heard Device.countControl Device.countPort
  rw [modPort_modPort]
  rfl

/-- An event whose blocks are a control byte heard and a further change of the port that is not in the steady part. -/
theorem control_becomes {f : Port → Port} (l : PeerLines) (spares : SparesStaging f) (hf : ∀ x, (f x).steady = x.steady) :
    s.becomes
      { s with dev := ((((s.dev.modPort p fun x => (x.under l).received true).modPort p f).issueInbound p).settle) }
      ((s.dev.modPort p fun x => (x.under l).received true).issueInbound p) := by
  refine ⟨⟨rfl, rfl, rfl, rfl, rfl, rfl⟩, ?_⟩
  rw [settle_steady, issueInbound_modPort _ _ spares, steady_modPort (hf _)]

/-- The record of a port of which some inbound bytes have been issued, but for its staging. -/
theorem issueInbound_port (d : Device) (p : PortId) : ∃ l, (d.issueInbound p).port p = { d.port p with inStaging := l } := by
  obtain ⟨l, hl, -⟩ := (issueInbound_issued d p).ports
  refine ⟨l, ?_⟩
  have : (d.issueInbound p).port p = (d.modPort p fun x => { x with inStaging := l }).port p := congrArg (·.get p) hl
  rw [this, port_modPort_self]

/-- Through the issue of inbound bytes and the work at the end of the event, a port that does not hold the turn keeps its selection and
its outbound halves. -/
theorem issued_settled_keeps (h : (d.port p).turn ≠ .ours) :
    ((d.issueInbound p).settle.port p).selection = (d.port p).selection ∧
      ∀ n, (d.issueInbound p).settle.outHalf p n = d.outHalf p n := by
  obtain ⟨l, hl⟩ := issueInbound_port d p
  obtain ⟨-, sel, out⟩ := (settle_grows (d.issueInbound p)).turnless p (by rw [hl]; exact h)
  refine ⟨by rw [sel, hl], fun n => ?_⟩
  rw [out n, Device.outHalf, hl]
  rfl

theorem turn_not_ours (h : s.listens p) : (s.dev.port p).turn ≠ .ours := by
  rcases h.2.1 with e | e <;> simp [e]

/-- A SELECT heard and judged: the byte counts as a control byte, and the selection is its number (R43). -/
theorem decode_heard_select {l : PeerLines} {m : LinkNumber} (norun : (d.port p).repeatPending = none) :
    (heard d p l).decode p (commandByte 0 m.val) =
      (d.modPort p fun x => (x.under l).received true).modPort p fun y => { y with selection := some m } := by
  rw [decode_select (by rw [heard_port]; exact norun) (linkCommand_select m), ← countControl_heard]
  unfold Device.countControl Device.countPort
  rw [modPort_modPort, modPort_modPort]

/-- A GRANT heard and judged: the byte counts as a control byte, and its value is added to the credits or, being 0, zeroes them (R48). -/
theorem decode_heard_grant {l : PeerLines} {v : Nat} (norun : (d.port p).repeatPending = none) (sel : (d.port p).selection = some n)
    (hv : v < 64) (sum : v = 0 ∨ (d.outHalf p n).credits + v ≤ 255) :
    (heard d p l).decode p (commandByte 192 v) =
      (d.modPort p fun x => (x.under l).received true).modOut p n
        fun h => { h with credits := if v = 0 then 0 else h.credits + v } := by
  have fits : ¬ (v ≠ 0 ∧ Config.creditLimit < ((heard d p l).outHalf p n).credits + v) := by
    rw [heard_outHalf, Config.creditLimit]
    omega
  rw [decode_command (by rw [heard_port]; exact norun) (by rw [heard_port]; exact sel) (linkCommand_grant hv) (by simp),
    ← countControl_heard]
  unfold Device.decodeSelected Device.decodeGrant
  dsimp only
  rw [if_neg fits]
  unfold Device.countControl Device.countPort Device.modOut
  rw [modPort_modPort, modPort_modPort]
  rfl

/-- Settles O47: the byte is accepted, since a command byte needs no room; SELECT sets the selection and GRANT the credits, neither of
which the work at the end of the event touches while the turn is the peer's. -/
theorem peerControlByteActs : Obligations.PeerControlByteActs := by
  intro p s listens norun
  have heardAs : ∀ w, (s.dev.modPort p fun x => (x.under (x.lines.offering w)).received true) =
      s.dev.modPort p fun x => (x.under ((s.dev.port p).lines.offering w)).received true := fun w => modPort_congr _ _ rfl
  have turn : ∀ l, ((s.dev.modPort p fun x => (x.under l).received true).port p).turn ≠ .ours := fun l => by
    rw [port_modPort_self]
    exact turn_not_ours listens
  refine ⟨fun m => ?_, fun n v sel hv sum => ?_⟩
  · refine ⟨_, exec_command listens 0 m.val, ?_, ?_⟩ <;> simp only [heardAs] <;> rw [decode_heard_select norun]
    · exact control_becomes _ (selecting_spares m) fun _ => rfl
    · rw [(issued_settled_keeps (by rw [port_modPort_self]; exact turn _)).1, port_modPort_self]
  · refine ⟨_, exec_command listens 192 v, ?_, ?_, ?_⟩ <;> simp only [heardAs] <;> rw [decode_heard_grant norun sel hv sum]
    · exact control_becomes _ (modOut_spares n fun h => { h with credits := if v = 0 then 0 else h.credits + v })
        fun x => steady_modEntry rfl
    · rw [(issued_settled_keeps (by rw [Device.modOut, port_modPort_self]; exact turn _)).1, Device.modOut, port_modPort_self,
        port_modPort_self]
      exact sel
    · rw [(issued_settled_keeps (by rw [Device.modOut, port_modPort_self]; exact turn _)).2, outHalf_modOut_self,
        outHalf_modPort _ _ _ _ rfl]

end Sys2Proof.LinkBytes
end

section
/-! SUPPORT. A turn of the part: the release, the order of work at a boundary, and the pick (R68, R70, R93). -/

namespace Sys2Proof.Turns

open Sys2Proof.Machine Sys2Proof.LinkBytes

variable {d : Device} {p : PortId} {c : ChannelId}

/-! ## The scheduler's choice -/

/-- A channel stands in the class lists exactly when it stands in one of the four. -/
theorem mem_classOrder (x : Port) (c : ChannelId) : c ∈ x.classOrder ↔ ∃ k, c ∈ x.classes.get k := by
  simp [Port.classOrder, Fin.exists_fin_succ]

/-- A candidate stands exactly when some listed channel is eligible (R93). -/
theorem candidate_isSome : (d.candidate p).isSome = true ↔ ∃ k, ∃ c ∈ (d.port p).classes.get k, d.eligible c = true := by
  simp only [Device.candidate, List.find?_isSome, mem_classOrder]
  constructor
  · rintro ⟨c, ⟨k, hk⟩, he⟩; exact ⟨k, c, hk, he⟩
  · rintro ⟨k, c, hk, he⟩; exact ⟨c, ⟨k, hk⟩, he⟩

/-- The part has work when its pending control list has an entry or some listed channel is eligible (R66). -/
theorem hasWork_iff :
    d.hasWork p = true ↔ (d.port p).control ≠ [] ∨ ∃ k, ∃ c ∈ (d.port p).classes.get k, d.eligible c = true := by
  simp only [Device.hasWork, Bool.or_eq_true, candidate_isSome, Bool.not_eq_true', List.isEmpty_eq_false_iff]

/-- The release is due when REQI is high and the hold timer has expired or, outside a pass, there is no work or TURN_BUDGET is reached
(R70). -/
theorem releaseDue_iff :
    d.releaseDue p = true ↔
      (d.port p).lines.reqi = true ∧
        ((d.port p).hold = .expired ∨
          (((d.port p).passBegun = false ∨ (d.port p).control = []) ∧
            (¬ ((d.port p).control ≠ [] ∨ ∃ k, ∃ c ∈ (d.port p).classes.get k, d.eligible c = true) ∨
              (d.port p).settings.turnBudget ≤ (d.port p).turnBytes))) := by
  rw [← hasWork_iff]
  simp only [Device.releaseDue, Bool.and_eq_true, Bool.or_eq_true, beq_iff_eq, Bool.not_eq_true', Bool.and_eq_false_iff,
    Bool.not_eq_false', decide_eq_true_eq, List.isEmpty_iff, Bool.not_eq_true]

/-- The first eligible channel in the order of the class lists is the candidate: class 0 first, each class from head to tail (R93). -/
theorem candidate_eq {k : Fin 4} {l m : List ChannelId} (hk : (d.port p).classes.get k = l ++ c :: m) (hc : d.eligible c = true)
    (hl : ∀ e ∈ l, d.eligible e = false) (hj : ∀ j, j < k → ∀ e ∈ (d.port p).classes.get j, d.eligible e = false) :
    d.candidate p = some c := by
  have here : ((d.port p).classes.get k).find? d.eligible = some c := by
    rw [hk, List.find?_append, List.find?_eq_none.mpr (by simpa using hl)]
    simp [hc]
  have above : ∀ j, j < k → ((d.port p).classes.get j).find? d.eligible = none := fun j h =>
    List.find?_eq_none.mpr (by simpa using hj j h)
  unfold Device.candidate Port.classOrder
  simp only [List.find?_append]
  match k, here, above with
  | 0, here, _ => simp [here]
  | 1, here, above => simp [here, above 0 (by decide)]
  | 2, here, above => simp [here, above 0 (by decide), above 1 (by decide)]
  | 3, here, above => simp [here, above 0 (by decide), above 1 (by decide), above 2 (by decide)]

/-- At a boundary of the part's turn with nothing pending and no pick, the candidate is picked (R93). -/
theorem pickChannel_candidate (turn : (d.port p).turn = .ours) (control : (d.port p).control = []) (pick : (d.port p).pick = none)
    (tx : ∀ o, (d.port p).tx ≠ .offered o) (build : (d.port p).build = none) (h : d.candidate p = some c) :
    d.pickChannel p = d.modPort p fun y => { y with pick := some (c, 0), selectSent := false } := by
  have boundary : (d.port p).atBoundary = true := by
    unfold Port.atBoundary
    rw [build]
    cases e : (d.port p).tx with
    | offered o => exact absurd e (tx o)
    | idle => rfl
    | accepted => rfl
  simp [Device.pickChannel, turn, control, pick, boundary, h]

/-! ## What is done next -/

/-- A port in its own turn with no byte under way and no unit or SELECT to follow up. -/
structure Free (d : Device) (p : PortId) : Prop where
  turn : (d.port p).turn = .ours
  tx : (d.port p).tx = .idle
  build : (d.port p).build = none
  head : (d.port p).headOffered = false
  select : (d.port p).selectSent = false

namespace Free

/-- A release that is due comes first (R68, R70). -/
theorem transmit_release (h : Free d p) (due : d.releaseDue p = true) : d.transmit p = d.modPort p Port.releaseTurn := by
  simp [Device.transmit, Device.proceed, h.turn, h.tx, h.build, h.head, h.select, due]

/-- With no pick, the pending control list is next. -/
theorem transmit_control (h : Free d p) (due : d.releaseDue p = false) (pick : (d.port p).pick = none) :
    d.transmit p = d.offerHead p := by
  unfold Device.transmit Device.proceed Device.offerHead
  cases control : (d.port p).control <;> simp [h.turn, h.tx, h.build, h.head, h.select, due, pick, control]

/-- A pick's message goes on. -/
theorem transmit_pick {k : Nat} (h : Free d p) (due : d.releaseDue p = false) (pick : (d.port p).pick = some (c, k)) :
    d.transmit p = d.sendMessage p c := by
  simp [Device.transmit, Device.proceed, h.turn, h.tx, h.build, h.head, h.select, due, pick]

end Free

/-- The release of a turn without a pick leaves the class lists alone. -/
theorem releaseTurn_unpicked {x : Port} (h : x.pick = none) :
    x.releaseTurn =
      { x with
        turn := .offered, selection := none, hold := .off, passBegun := false, takeTimer := .running x.settings.acceptLimit
        counters := { x.counters with turnsReleased := satAdd x.counters.turnsReleased 1 } } := by
  have : x.cutSlice = x := by rw [Port.cutSlice, h]
  rw [Port.releaseTurn, this]

/-- The release of a turn cuts the slice: a pick with a byte accepted moves to the tail of its class list, and one with none keeps its
place (R95). -/
theorem releaseTurn_picked {x : Port} {k : Nat} (h : x.pick = some (c, k)) :
    x.releaseTurn.turn = .offered ∧ x.releaseTurn.pick = none ∧
      ∀ j, x.releaseTurn.classes.get j =
        if k ≠ 0 ∧ c ∈ x.classes.get j then (x.classes.get j).filter (fun e => !(e == c)) ++ [c] else x.classes.get j := by
  have cut : x.cutSlice = if k = 0 then { x with pick := none, selectSent := false } else x.endSlice c := by
    rw [Port.cutSlice, h]
  unfold Port.releaseTurn
  rw [cut]
  by_cases hk : k = 0
  · simp [hk]
  · simp [hk, Port.endSlice, Port.moveToTail]

/-- A message whose next unit is not known waits (R100). -/
theorem sendMessage_waits (h : d.nextOffer p c = none) : d.sendMessage p c = d := by
  simp [Device.sendMessage, h]

/-- A message on another number than the selected one is preceded by its SELECT (R68). -/
theorem sendMessage_select {o : Offer} {u : Option CodedUnit} (h : d.nextOffer p c = some (o, u))
    (sel : (d.port p).selection ≠ some (d.chan c).number) : d.sendMessage p c = d.offer p (.msgSelect c (d.chan c).number) := by
  simp [Device.sendMessage, h, sel]

/-- A message on the selected number offers its next byte. -/
theorem sendMessage_unit {o : Offer} {u : Option CodedUnit} (h : d.nextOffer p c = some (o, u))
    (sel : (d.port p).selection = some (d.chan c).number) : d.sendMessage p c = d.offerUnit p c := by
  simp [Device.sendMessage, h, sel]

theorem offer_tx (e : Device) (o : Offer) : ((e.offer p o).port p).tx = .offered o := by
  rw [Device.offer, port_modPort_self]

/-- The unit offered is the next one, and the offer leaves every half and context as the start of the message, if one is due, does. -/
theorem offerUnit_spec {o : Offer} {u : Option CodedUnit} (h : d.nextOffer p c = some (o, u)) :
    ((d.offerUnit p c).port p).tx = .offered o ∧ (d.offerUnit p c).channels = (d.startMessage p c).channels ∧
      ((d.offerUnit p c).port p).map = ((d.startMessage p c).port p).map := by
  unfold Device.offerUnit
  rw [h]
  dsimp only
  refine ⟨offer_tx _ _, rfl, ?_⟩
  rw [Device.offer, port_modPort_self, port_modPort_self]

/-- The start of a READY message uses a credit and sets the open mark (R26, R97). -/
theorem startMessage_ready (h : (d.chan c).out.phase = .ready) :
    ((d.startMessage p c).chan c).out.phase = .started ∧
      (d.startMessage p c).outHalf p (d.chan c).number =
        { d.outHalf p (d.chan c).number with credits := (d.outHalf p (d.chan c).number).credits - 1, openMark := true } := by
  unfold Device.startMessage
  dsimp only
  rw [if_pos (by simpa using h)]
  exact ⟨by rw [Device.modOutMsg, chan_modChan_self],
    outHalf_modOut_self d p (d.chan c).number fun h => { h with credits := h.credits - 1, openMark := true }⟩

/-- A message that has started uses no credit for its next byte (R97). -/
theorem startMessage_started (h : (d.chan c).out.phase = .started) : d.startMessage p c = d := by
  simp [Device.startMessage, h]

/-- Settles O56: the part's next act at a boundary is read off the order of `proceed`; each of its alternatives is a lemma above. -/
theorem turnGoesOnInOrder : Obligations.TurnGoesOnInOrder := by
  intro d p turn
  refine ⟨fun tx build head select => ?_, fun control pick tx build k l c m hk hc hl hj =>
    pickChannel_candidate turn control pick tx build (candidate_eq hk hc hl hj)⟩
  have free : Free d p := ⟨turn, tx, build, head, select⟩
  dsimp only
  rw [← releaseDue_iff]
  refine ⟨fun due pick => ?_, fun c k due pick => ?_, fun due pick => ?_, fun c k due pick => ?_⟩
  · rw [free.transmit_release due]
    exact modPort_congr d p (releaseTurn_unpicked pick)
  · rw [free.transmit_release due, port_modPort_self]
    exact releaseTurn_picked pick
  · rw [free.transmit_control (by simpa using due) pick, Device.offerHead]
    refine ⟨fun control => by rw [control], fun e rest control => ?_⟩
    rw [control]
    dsimp only
    split <;> rfl
  · rw [free.transmit_pick (by simpa using due) pick]
    refine ⟨sendMessage_waits, fun o u next => ⟨sendMessage_select next, fun sel ready => ?_, fun sel started => ?_⟩⟩ <;>
      rw [sendMessage_unit next sel] <;> obtain ⟨tx, channels, map⟩ := offerUnit_spec next
    · obtain ⟨phase, half⟩ := startMessage_ready (p := p) ready
      refine ⟨tx, ?_, ?_⟩
      · rw [Device.chan, channels]
        exact phase
      · rw [← half, Device.outHalf, Device.outHalf, Port.entry, Port.entry, map]
    · rw [startMessage_started started] at channels map
      exact ⟨tx, channels, map⟩

end Sys2Proof.Turns
end

section
/-! SUPPORT. The quiesce of a port: what the revokes it asks for change (R34, R39). -/

namespace Sys2Proof.Quiesce

open Sys2Proof.Machine Sys2Proof.LinkBytes

variable {d e f : Device} {p q : PortId} {n m : LinkNumber} {c : ChannelId} {A B : LinkNumber → Bool}

/-- What revokes asked for the numbers `A` of a port change: the port's pending control list, which gains a REVOKE for every such number
with none pending; the revoke marks of these numbers; its inbound halves' credits in flight; and what is not steady in the rings. -/
structure Revoked (e d : Device) (p : PortId) (A : LinkNumber → Bool) : Prop where
  cu : e.cu = d.cu
  channels : e.channels = d.channels
  relay : e.relay = d.relay
  lost : e.lost = d.lost
  buffers : e.buffers = d.buffers
  rings : ∀ r, (e.ring r).steady = (d.ring r).steady
  others : ∀ q, q ≠ p → e.port q = d.port q
  port : ∃ ctl map, e.port p = { d.port p with control := ctl, map := map }
  out : ∀ m, e.outHalf p m = d.outHalf p m
  inn : ∀ m, ∃ k, e.inHalf p m = { d.inHalf p m with inFlight := k, revokePending := (d.inHalf p m).revokePending || A m }
  revokes : ∀ m, .revoke m ∈ (d.port p).control → .revoke m ∈ (e.port p).control
  queued : ∀ m, A m = true → (d.inHalf p m).revokePending = false → .revoke m ∈ (e.port p).control

namespace Revoked

theorem pending (h : Revoked e d p A) (m : LinkNumber) :
    (e.inHalf p m).revokePending = ((d.inHalf p m).revokePending || A m) := by
  obtain ⟨_, a⟩ := h.inn m
  rw [a]

theorem owner (h : Revoked e d p A) (m : LinkNumber) : (e.inHalf p m).owner = (d.inHalf p m).owner := by
  obtain ⟨_, a⟩ := h.inn m
  rw [a]

theorem up (h : Revoked e d p A) : (e.port p).up = (d.port p).up := by
  obtain ⟨_, _, a⟩ := h.port
  rw [a]
  rfl

theorem linesQuiet (h : Revoked e d p A) : (e.port p).linesQuiet = (d.port p).linesQuiet := by
  obtain ⟨_, _, a⟩ := h.port
  rw [a]
  rfl

/-- Every mark of a message stays. -/
theorem marked (h : Revoked e d p A) (m : LinkNumber) : ((e.port p).entry m).marked = ((d.port p).entry m).marked := by
  obtain ⟨_, a⟩ := h.inn m
  have b := h.out m
  unfold Device.inHalf at a
  unfold Device.outHalf at b
  unfold MapEntry.marked
  rw [a, b]

theorem trans (h : Revoked f e p A) (g : Revoked e d p B) : Revoked f d p fun m => B m || A m := by
  refine ⟨h.cu.trans g.cu, h.channels.trans g.channels, h.relay.trans g.relay, h.lost.trans g.lost, h.buffers.trans g.buffers,
    fun r => (h.rings r).trans (g.rings r), fun q hq => (h.others q hq).trans (g.others q hq), ?_,
    fun m => (h.out m).trans (g.out m), fun m => ?_, fun m hm => h.revokes m (g.revokes m hm), fun m asked none => ?_⟩
  · obtain ⟨_, _, a⟩ := h.port
    obtain ⟨_, _, b⟩ := g.port
    exact ⟨_, _, by rw [a, b]⟩
  · obtain ⟨_, a⟩ := h.inn m
    obtain ⟨_, b⟩ := g.inn m
    exact ⟨_, by rw [a, b, Bool.or_assoc]⟩
  · cases hB : B m with
    | true => exact h.revokes m (g.queued m hB none)
    | false => exact h.queued m (by simpa [hB] using asked) (by rw [g.pending, none, hB]; rfl)

/-- A change in which no revoke is asked for. -/
theorem ofNone (cu : e.cu = d.cu) (channels : e.channels = d.channels) (relay : e.relay = d.relay) (lost : e.lost = d.lost)
    (buffers : e.buffers = d.buffers) (rings : ∀ r, (e.ring r).steady = (d.ring r).steady)
    (others : ∀ q, q ≠ p → e.port q = d.port q) (port : ∃ ctl map, e.port p = { d.port p with control := ctl, map := map })
    (out : ∀ m, e.outHalf p m = d.outHalf p m) (inn : ∀ m, ∃ k, e.inHalf p m = { d.inHalf p m with inFlight := k })
    (revokes : ∀ m, .revoke m ∈ (d.port p).control → .revoke m ∈ (e.port p).control) : Revoked e d p fun _ => false :=
  ⟨cu, channels, relay, lost, buffers, rings, others, port, out, fun m => by simpa using inn m, revokes, fun _ h => by cases h⟩

theorem self (d : Device) (p : PortId) : Revoked d d p fun _ => false :=
  ofNone rfl rfl rfl rfl rfl (fun _ => rfl) (fun _ _ => rfl) ⟨_, _, rfl⟩ (fun _ => rfl) (fun _ => ⟨_, rfl⟩) fun _ h => h

theorem modRing {r : RingId} {g : Ring → Ring} (h : ∀ x, (g x).steady = x.steady) : Revoked (d.modRing r g) d p fun _ => false := by
  refine ofNone rfl rfl rfl rfl rfl (fun r' => ?_) (fun _ _ => rfl) ⟨_, _, rfl⟩ (fun _ => rfl) (fun _ => ⟨_, rfl⟩) fun _ h => h
  rw [ring_modRing]
  split
  · next e => rw [h, e]
  · rfl

theorem unwait (r : RingId) (x : Requester) : Revoked (d.unwait r x) d p fun _ => false := modRing fun _ => rfl

theorem releaseCredits (o : Option ChannelId) (k : Nat) : Revoked (d.releaseCredits o k) d p fun _ => false := by
  unfold Device.releaseCredits
  split
  · split
    · exact modRing fun _ => rfl
    · exact self d p
  · exact self d p

/-- The pending control list changes, and keeps its REVOKE entries. -/
theorem modControl {g : Port → Port} {l : List ControlEntry} (hl : g (d.port p) = { d.port p with control := l })
    (keeps : ∀ m, .revoke m ∈ (d.port p).control → .revoke m ∈ l) : Revoked (d.modPort p g) d p fun _ => false := by
  have map : (g (d.port p)).map = (d.port p).map := by rw [hl]
  refine ofNone rfl rfl rfl rfl rfl (fun _ => rfl) (fun q hq => Device.Rests.modPort_other hq)
    ⟨l, (d.port p).map, by rw [port_modPort_self, hl]⟩ (fun n => outHalf_modPort _ _ _ _ map)
    (fun n => ⟨_, inHalf_modPort _ _ _ _ map⟩) fun n hn => ?_
  rw [port_modPort_self, hl]
  exact keeps n hn

end Revoked

/-- Whether an entry is no GRANT for a number. -/
def notGrantFor (n : LinkNumber) : ControlEntry → Bool
  | .grant m _ => !(m == n)
  | _ => true

/-- A half's wait for slots given up (R145). -/
def waitGivenUp (d : Device) (p : PortId) (n : LinkNumber) : Device :=
  match (d.inHalf p n).owner with
  | some c => d.unwait (cqRing (d.chan c).ring) (.inHalf p n)
  | none => d

/-- A half's unsent GRANT withdrawn (R34). -/
def grantWithdrawn (d : Device) (p : PortId) (n : LinkNumber) : Device :=
  (((waitGivenUp d p n).modPort p fun x => x.modUnoffered (List.filter (notGrantFor n))).modIn p n
    fun x => { x with inFlight := x.inFlight - grantValue n (d.port p).unoffered }).releaseCredits (d.inHalf p n).owner
      (grantValue n (d.port p).unoffered)

/-- A revoke on a port that is up withdraws an unsent GRANT and is queued unless one is pending (R34). -/
theorem requestRevoke_eq (hu : (d.port p).up = true) (n : LinkNumber) :
    d.requestRevoke p n =
      if (d.inHalf p n).revokePending then grantWithdrawn d p n
      else
        ((grantWithdrawn d p n).modIn p n fun x => { x with revokePending := true }).modPort p
          fun x => { x with control := x.control ++ [.revoke n] } := by
  unfold Device.requestRevoke
  dsimp only
  rw [if_pos hu]
  rfl

/-- Reading an inbound half after changing one. -/
theorem inHalf_modIn (g : InHalf → InHalf) (m : LinkNumber) :
    (d.modIn p n g).inHalf p m = if n = m then g (d.inHalf p n) else d.inHalf p m := by
  unfold Device.inHalf Device.modIn
  rw [port_modPort_self, entry_modEntry]
  split <;> rfl

theorem outHalf_modIn (g : InHalf → InHalf) (m : LinkNumber) : (d.modIn p n g).outHalf p m = d.outHalf p m := by
  unfold Device.outHalf Device.modIn
  rw [port_modPort_self, entry_modEntry]
  split
  · next e => rw [e]
  · rfl

/-- Taking entries that are not being offered out of a list leaves its REVOKE entries, if the filter does. -/
theorem modUnoffered_revokes (x : Port) (n : LinkNumber) :
    ∃ l, x.modUnoffered (List.filter (notGrantFor n)) = { x with control := l } ∧
      ∀ m, ControlEntry.revoke m ∈ x.control → .revoke m ∈ l := by
  have keeps : ∀ (l : List ControlEntry) m, ControlEntry.revoke m ∈ l → .revoke m ∈ l.filter (notGrantFor n) :=
    fun l m hm => List.mem_filter.mpr ⟨hm, rfl⟩
  unfold Port.modUnoffered
  split
  · refine ⟨_, rfl, fun m hm => ?_⟩
    rw [← List.take_append_drop 1 x.control, List.mem_append] at hm
    exact List.mem_append.mpr (hm.imp id (keeps _ m))
  · exact ⟨_, rfl, keeps _⟩

theorem grantWithdrawn_revoked (d : Device) (p : PortId) (n : LinkNumber) : Revoked (grantWithdrawn d p n) d p fun _ => false := by
  have waited : Revoked (waitGivenUp d p n) d p fun _ => false := by
    unfold waitGivenUp
    split
    · exact .unwait _ _
    · exact .self d p
  obtain ⟨l, hl, keeps⟩ := modUnoffered_revokes ((waitGivenUp d p n).port p) n
  have flight : ∀ (a : Device) k, Revoked (a.modIn p n fun x => { x with inFlight := x.inFlight - k }) a p fun _ => false :=
    fun a k => .ofNone rfl rfl rfl rfl rfl (fun _ => rfl) (fun q hq => Device.Rests.modPort_other hq)
      ⟨(a.port p).control, _, by rw [Device.modIn, port_modPort_self]; rfl⟩ (fun m => outHalf_modIn _ m)
      (fun m => by
        rw [inHalf_modIn]
        split
        · next e => subst e; exact ⟨_, rfl⟩
        · exact ⟨_, rfl⟩)
      fun m hm => by rw [Device.modIn, port_modPort_self]; exact hm
  exact (Revoked.releaseCredits _ _).trans ((flight _ _).trans ((Revoked.modControl hl keeps).trans waited))

/-- A revoke asked for on a port that is up sets its half's mark and is queued unless it was pending (R34). -/
theorem requestRevoke_revoked (hu : (d.port p).up = true) (n : LinkNumber) :
    Revoked (d.requestRevoke p n) d p fun m => decide (m = n) := by
  have base := grantWithdrawn_revoked d p n
  rw [requestRevoke_eq hu]
  split
  · next pending =>
    exact { base with
      inn := fun m => by
        obtain ⟨k, hk⟩ := base.inn m
        refine ⟨k, hk.trans ?_⟩
        by_cases e : m = n
        · subst e; simp [pending]
        · simp [e]
      queued := fun m hm none => by
        rw [of_decide_eq_true hm, pending] at none
        cases none }
  · have marks : Revoked (((grantWithdrawn d p n).modIn p n fun x => { x with revokePending := true }).modPort p
        fun x => { x with control := x.control ++ [.revoke n] }) (grantWithdrawn d p n) p fun m => decide (m = n) := by
      refine ⟨rfl, rfl, rfl, rfl, rfl, fun _ => rfl,
        fun q hq => by rw [Device.Rests.modPort_other hq, Device.modIn, Device.Rests.modPort_other hq],
        ⟨_, _, by rw [port_modPort_self, Device.modIn, port_modPort_self]; rfl⟩,
        fun m => by rw [outHalf_modPort _ _ _ _ rfl, outHalf_modIn], fun m => ?_, fun m hm => ?_, fun m hm _ => ?_⟩
      · rw [inHalf_modPort _ _ _ _ rfl, inHalf_modIn]
        by_cases e : n = m
        · subst e; exact ⟨((grantWithdrawn d p n).inHalf p n).inFlight, by simp⟩
        · exact ⟨((grantWithdrawn d p n).inHalf p m).inFlight, by simp [e, Ne.symm e]⟩
      · rw [port_modPort_self, Device.modIn, port_modPort_self]
        exact List.mem_append_left _ hm
      · rw [port_modPort_self, of_decide_eq_true hm]
        exact List.mem_append_right _ List.mem_cons_self
    simpa using marks.trans base

/-- The revokes of a quiesce: every owned inbound half is asked for, and no other (R39). -/
theorem revokeOwned_revoked (hu : (d.port p).up = true) : Revoked (d.revokeOwned p) d p fun m => (d.inHalf p m).owner.isSome := by
  have fold : ∀ (l : List LinkNumber) (e : Device) (B : LinkNumber → Bool), Revoked e d p B →
      Revoked (l.foldl (fun e n => if (e.inHalf p n).owner.isSome then e.requestRevoke p n else e) e) d p
        fun m => B m || (decide (m ∈ l) && (d.inHalf p m).owner.isSome) := by
    intro l
    induction l with
    | nil => intro e B h; simpa using h
    | cons n l ih =>
      intro e B h
      rw [List.foldl_cons, h.owner n]
      cases owned : (d.inHalf p n).owner.isSome with
      | true =>
        rw [if_pos rfl]
        convert ih _ _ ((requestRevoke_revoked (h.up.trans hu) n).trans h) using 2 with m
        by_cases e : m = n
        · subst e; simp [owned]
        · simp [e]
      | false =>
        rw [if_neg (by simp)]
        convert ih e B h using 2 with m
        by_cases e : m = n
        · subst e; simp [owned]
        · simp [e]
  have all := fold linkNumbers d _ (.self d p)
  have every : ∀ m, m ∈ linkNumbers := List.mem_finRange
  unfold Device.revokeOwned
  simpa only [every, decide_true, Bool.false_or, Bool.true_and] using all

end Sys2Proof.Quiesce
end

section
/-! SUPPORT. A tear-down of a port with nothing open, and the graceful PORT_DISABLE (R60, R74, R77, R78). -/

namespace Sys2Proof.Quiesce

open Sys2Proof.Machine Sys2Proof.LinkBytes

variable {d e f : Device} {p q : PortId} {n m : LinkNumber} {c : ChannelId}

/-! ## Emptying staging -/

/-- What the emptying of staging keeps in relay cells depends on the Relay Unit alone. -/
theorem keepQueued_relay (l : List StagedByte) (h : e.relay = d.relay) :
    (l.foldl Device.keepQueued e).relay = (l.foldl Device.keepQueued d).relay := by
  induction l generalizing e d with
  | nil => exact h
  | cons b l ih =>
    refine ih ?_
    have pair : ∀ i, e.pair i = d.pair i := fun i => by rw [Device.pair, Device.pair, h]
    unfold Device.keepQueued
    simp only [pair]
    split
    · split
      · simp only [modRelay_relay, h]
      · exact h
    · exact h

/-- Emptying staging does the same where the Relay Unit, the buffers and the staged bytes are the same. -/
theorem emptyStaging_same (relay : e.relay = d.relay) (buffers : e.buffers = d.buffers)
    (staged : (e.port p).inStaging = (d.port p).inStaging) :
    (e.emptyStaging p).relay = (d.emptyStaging p).relay ∧ (e.emptyStaging p).buffers = (d.emptyStaging p).buffers := by
  have cells := keepQueued_relay (d.port p).inStaging relay
  have same : ∀ a : Device, ∀ l : List StagedByte, (l.foldl Device.keepQueued a).buffers = a.buffers := fun a l => by
    rw [keepQueued_eq]
  unfold Device.emptyStaging
  simp only [modPort_relay, modPort_buffers, staged, cells, same, buffers, and_self]

/-- Emptying staging leaves the channels, the count of identities, the lost count and the requests. -/
theorem emptyStaging_frame (d : Device) (p : PortId) :
    (d.emptyStaging p).channels = d.channels ∧ (d.emptyStaging p).serial = d.serial ∧ (d.emptyStaging p).lost = d.lost := by
  unfold Device.emptyStaging
  rw [keepQueued_eq]
  exact ⟨rfl, rfl, rfl⟩

/-- The port records once a port's staging has been emptied. -/
theorem emptyStaging_port (d : Device) (p q : PortId) :
    (d.emptyStaging p).port q =
      if q = p then { d.port p with inStaging := [], outStaging := OutStaging.empty } else d.port q := by
  have ports := (emptyStaging_eq d p).1
  have : (d.emptyStaging p).port q =
      (d.modPort p fun x => { x with inStaging := [], outStaging := OutStaging.empty }).port q := congrArg (·.get q) ports
  rw [this, port_modPort]
  rcases eq_or_ne q p with rfl | h
  · simp
  · simp [h, h.symm]

/-! ## A tear-down with nothing open -/

/-- With no channel DRAINING or ABORTING, no pair is done closing. -/
theorem pairDone_calm (calm : ∀ c, (d.chan c).state ≠ .draining ∧ (d.chan c).state ≠ .aborting) (x : RelayPair) :
    d.pairDone x = false := by
  obtain ⟨draining, aborting⟩ := calm x.inbound
  unfold Device.pairDone
  dsimp only
  split
  · next h => exact absurd h draining
  · next h => exact absurd h aborting
  · rfl

/-- With no channel DRAINING or ABORTING, none is done closing. -/
theorem closeDone_calm (calm : ∀ c, (d.chan c).state ≠ .draining ∧ (d.chan c).state ≠ .aborting) (c : ChannelId) :
    d.closeDone c = false := by
  obtain ⟨draining, aborting⟩ := calm c
  unfold Device.closeDone
  dsimp only
  split
  · next h => exact absurd h draining
  · next h => exact absurd h aborting
  · next h => exact absurd h draining
  · next h => exact absurd h aborting
  · rfl
  · split
    · exact pairDone_calm calm _
    · rfl
  · split
    · exact pairDone_calm calm _
    · rfl
  · rfl

/-- A channel that is not closing has nothing to complete when its link is gone. -/
theorem closeOwner_calm (calm : ∀ c, (d.chan c).state ≠ .draining ∧ (d.chan c).state ≠ .aborting) (c : ChannelId) :
    d.closeOwner c = d := by
  have live : ((d.chan c).state == .draining) = false := by simpa using (calm c).1
  unfold Device.closeOwner
  dsimp only
  rw [live]
  simp only [Bool.false_and, Bool.false_eq_true, if_false, Device.tryClose, closeDone_calm calm c]

/-- An entry with no mark has no loss to report (R23). -/
theorem reportLoss_unmarked (h : ((d.port p).entry n).marked = false) : Device.reportLoss p d n = d := by
  obtain ⟨⟨out, inn⟩, -⟩ :
      (((d.port p).entry n).outbound.openMark = false ∧ ((d.port p).entry n).inbound.openMark = false) ∧ _ := by
    simpa [MapEntry.marked] using h
  simp [Device.reportLoss, Device.inHalf, Device.outHalf, out, inn]

/-- An entry whose inbound half has no owner, with no channel closing, completes no close. -/
theorem closeAfterLoss_unowned (calm : ∀ c, (d.chan c).state ≠ .draining ∧ (d.chan c).state ≠ .aborting)
    (h : (d.inHalf p n).owner = none) : Device.closeAfterLoss p d n = d := by
  unfold Device.closeAfterLoss
  simp only [h]
  split
  · exact closeOwner_calm calm _
  · rfl

/-- The tear-down of a port with no mark set and no inbound half owned, while no channel is closing: the link is dropped, staging emptied
and the Link Map cleared, and nothing else happens (R74). -/
theorem tearDown_unowned (final : PortState) (marks : ∀ n, ((d.port p).entry n).marked = false)
    (owners : ∀ n, (d.inHalf p n).owner = none) (calm : ∀ c, (d.chan c).state ≠ .draining ∧ (d.chan c).state ≠ .aborting) :
    d.tearDown p final =
      ((((d.modPort p fun x => x.dropLink final).emptyStaging p).modPort p Port.clearMap).unwaitPort p) := by
  let d1 := (d.modPort p fun x => x.dropLink final).emptyStaging p
  have entry : ∀ n, (d1.port p).entry n = (d.port p).entry n := fun n => by
    rw [emptyStaging_port, if_pos rfl, port_modPort_self]
    rfl
  have chan : ∀ c, d1.chan c = d.chan c := fun c => by
    rw [Device.chan, (emptyStaging_frame _ p).1]
    rfl
  have losses : linkNumbers.foldl (Device.reportLoss p) d1 = d1 :=
    List.foldl_fixed' (fun n => reportLoss_unmarked (by rw [entry]; exact marks n)) _
  have credits : d1.returnCredits p = d1 :=
    List.foldl_fixed' (fun n => by rw [Device.inHalf, entry, show ((d.port p).entry n).inbound.owner = none from owners n]; rfl) _
  have closes : linkNumbers.foldl (Device.closeAfterLoss p) ((d1.modPort p Port.clearMap).unwaitPort p) =
      (d1.modPort p Port.clearMap).unwaitPort p := by
    refine List.foldl_fixed' (fun n => closeAfterLoss_unowned (fun c => ?_) ?_) _
    · rw [show ((d1.modPort p Port.clearMap).unwaitPort p).chan c = d1.chan c from rfl, chan]
      exact calm c
    · have : ((d1.modPort p Port.clearMap).unwaitPort p).inHalf p n = (((d1.port p).entry n).clear).inbound := by
        rw [show ((d1.modPort p Port.clearMap).unwaitPort p).inHalf p n = (d1.modPort p Port.clearMap).inHalf p n from rfl,
          Device.inHalf, port_modPort_self]
        simp [Port.clearMap, Port.entry]
      rw [this, entry]
      exact owners n
  unfold Device.tearDown
  dsimp only
  rw [losses, credits, closes]

/-! ## The graceful PORT_DISABLE -/

/-- The port record as the port enters QUIESCING (R77). -/
def quiescing (tag : Half) (x : Port) : Port :=
  { x with state := .quiescing, drainTimer := .startMs x.settings.drainLimit, pendingDisable := some tag }

/-- The blocks as a port enters QUIESCING, before the revokes are asked for. -/
def enters (d : Device) (p : PortId) (tag : Half) (subject : Byte) : Device :=
  ((d.defer (.portDisable p) tag subject).modPort p (quiescing tag)).unwaitPort p

theorem exec_disable {s : State} {tag : Half} {port : Byte} (take : s.canTake (.portDisableGraceful tag port 0))
    (hp : port.toNat = p.val) (active : (s.dev.port p).state = .active) :
    exec (.portDisableGraceful tag port 0) s =
      .next { s with dev := ((((enters s.dev.afterTake p tag port).revokeOwned p).withdrawPick p).checkQuiesce p).settle } := by
  have dispatch : exec (.portDisableGraceful tag port 0) s = execPortDisableGraceful tag port 0 s := by rfl
  have state : (s.dev.afterTake.port p).state = .active := active
  rw [dispatch, execPortDisableGraceful, take_eq take, inRange_some hp]
  simp only [if_true, state]
  rfl

/-- The withdrawal of a pick changes the scheduler's state of the port alone. -/
theorem withdrawPick_eq (d : Device) (p : PortId) :
    ∃ k b, d.withdrawPick p = d.modPort p fun x => { x with pick := k, selectSent := b } := by
  unfold Device.withdrawPick
  split
  · split
    · exact ⟨(d.port p).pick, (d.port p).selectSent, (modPort_eq_self d p rfl).symm⟩
    · exact ⟨none, false, rfl⟩
  · exact ⟨(d.port p).pick, (d.port p).selectSent, (modPort_eq_self d p rfl).symm⟩

/-- A port with a byte under way, a mark set or a revoke pending does not end its quiesce (R78). -/
theorem checkQuiesce_waits (h : (d.port p).linesQuiet = false ∨
    ∃ n, ((d.port p).entry n).marked = true ∨ (d.inHalf p n).revokePending = true) : d.checkQuiesce p = d := by
  have waits : (d.port p).quiesceDone = false := by
    unfold Port.quiesceDone
    rcases h with quiet | ⟨n, h⟩
    · simp [quiet]
    · have : (linkNumbers.all fun n => !((d.port p).entry n).marked && !((d.port p).entry n).inbound.revokePending) = false := by
        refine List.all_eq_false.mpr ⟨n, List.mem_finRange n, ?_⟩
        rcases h with h | h
        · simp [h]
        · simp [show ((d.port p).entry n).inbound.revokePending = true from h]
      simp [this]
  simp [Device.checkQuiesce, waits]

/-! ## What is read off the steady part of a port -/

/-- The steady part of a port holds its inbound halves but for the credits in flight. -/
theorem inHalf_of_steady (h : e.steady = d.steady) (p : PortId) (n : LinkNumber) :
    { e.inHalf p n with inFlight := 0 } = { d.inHalf p n with inFlight := 0 } := by
  have := congrArg (fun x : Port => (x.entry n).inbound) (port_of_steady h p)
  simpa [Port.steady, Port.entry, MapEntry.steady, Device.inHalf] using this

/-- The steady part of a port holds the REVOKE entries of its pending control list. -/
theorem revoke_mem_of_steady (h : e.steady = d.steady) (hm : .revoke n ∈ (d.port p).control) : .revoke n ∈ (e.port p).control := by
  have control : (e.port p).control.filter (fun x => !x.isGrant) = (d.port p).control.filter fun x => !x.isGrant :=
    congrArg Port.control (port_of_steady h p)
  have : ControlEntry.revoke n ∈ (e.port p).control.filter fun x => !x.isGrant := by
    rw [control]
    exact List.mem_filter.mpr ⟨hm, rfl⟩
  exact List.mem_of_mem_filter this

section Enters

variable {s : State} {tag : Half} {subject : Byte}

theorem enters_port (d : Device) (p : PortId) (tag : Half) (subject : Byte) :
    (enters d p tag subject).port p = quiescing tag (d.port p) := by
  have : (enters d p tag subject).port p = ((d.defer (.portDisable p) tag subject).modPort p (quiescing tag)).port p := rfl
  rw [this, port_modPort_self]
  rfl

theorem enters_other (hq : q ≠ p) : (enters d p tag subject).port q = d.port q :=
  Device.Rests.modPort_other hq

theorem enters_inHalf (n : LinkNumber) : (enters d p tag subject).inHalf p n = d.inHalf p n := by
  rw [Device.inHalf, enters_port]
  rfl

theorem enters_ring (r : RingId) : ((enters d p tag subject).ring r).steady = (d.ring r).steady := by
  simp only [enters, Device.unwaitPort, Device.ring, get_map]
  rfl

/-- The quiesce that a port enters and does not end at once leaves, up to the work at the end of the event, what its revokes leave. -/
theorem quiesce_waits (h : (d.port p).linesQuiet = false ∨
      ∃ n, (d.inHalf p n).owner.isSome = true ∨ ((d.port p).entry n).marked = true) :
    ((((enters d p tag subject).revokeOwned p).withdrawPick p).checkQuiesce p).settle.steady =
      ((enters d p tag subject).revokeOwned p).steady := by
  have revoked := revokeOwned_revoked (d := enters d p tag subject) (p := p) (by rw [enters_port]; rfl)
  obtain ⟨k, b, withdrawn⟩ := withdrawPick_eq ((enters d p tag subject).revokeOwned p) p
  have maps : ∀ x : Port, ({ x with pick := k, selectSent := b } : Port).map = x.map := fun _ => rfl
  have steadies : ∀ x : Port, ({ x with pick := k, selectSent := b } : Port).steady = x.steady := fun _ => rfl
  have waits : (((enters d p tag subject).revokeOwned p).withdrawPick p).checkQuiesce p =
      ((enters d p tag subject).revokeOwned p).withdrawPick p := by
    have lines : ∀ x : Port, ({ x with pick := k, selectSent := b } : Port).linesQuiet = x.linesQuiet := fun _ => rfl
    have entries : ∀ x : Port, ({ x with pick := k, selectSent := b } : Port).entry = x.entry := fun _ => rfl
    have linesIn : (quiescing tag (d.port p)).linesQuiet = (d.port p).linesQuiet := rfl
    have entriesIn : (quiescing tag (d.port p)).entry = (d.port p).entry := rfl
    apply checkQuiesce_waits
    rw [withdrawn, port_modPort_self, lines, revoked.linesQuiet, enters_port, linesIn]
    refine h.imp_right fun ⟨n, hn⟩ => ⟨n, ?_⟩
    rw [inHalf_modPort _ _ _ _ (maps _), revoked.pending, enters_inHalf, entries, revoked.marked, enters_port, entriesIn]
    rcases hn with owned | marked
    · exact .inr (by rw [owned, Bool.or_true])
    · exact .inl marked
  rw [waits, settle_steady, withdrawn, steady_modPort (steadies _)]

end Enters

/-- A graceful PORT_DISABLE that finds something to wait for makes the port QUIESCING. -/
theorem disable_quiesces {s : State} {tag : Half} {subject : Byte}
    (h : (s.dev.port p).linesQuiet = false ∨
      ∃ n, (s.dev.inHalf p n).owner.isSome = true ∨ ((s.dev.port p).entry n).marked = true)
    (he : e = ((((enters s.dev.afterTake p tag subject).revokeOwned p).withdrawPick p).checkQuiesce p).settle) :
    (e.port p).state = .quiescing ∧ (e.port p).drainTimer = .running ((s.dev.port p).settings.drainLimit * 1000) ∧
      (e.port p).pendingDisable = some tag ∧
      e.cu.deferred = s.dev.cu.deferred ++ [{ work := .portDisable p, tag := tag, subject := subject }] ∧
      (∀ n, (e.inHalf p n).revokePending = ((s.dev.inHalf p n).revokePending || (s.dev.inHalf p n).owner.isSome)) ∧
      (∀ n, (s.dev.inHalf p n).owner.isSome = true → (s.dev.inHalf p n).revokePending = false → .revoke n ∈ (e.port p).control) ∧
      (e.ring 4).queue = (s.dev.ring 4).queue ∧ (∀ c, (e.chan c).steady = (s.dev.chan c).steady) ∧
      ∀ q, q ≠ p → (e.port q).steady = (s.dev.port q).steady := by
  have revoked := revokeOwned_revoked (d := enters s.dev.afterTake p tag subject) (p := p) (by rw [enters_port]; rfl)
  have steady := (congrArg Device.steady he).trans (quiesce_waits h)
  have half : ∀ n, (enters s.dev.afterTake p tag subject).inHalf p n = s.dev.inHalf p n := enters_inHalf
  have port := port_of_steady steady p
  obtain ⟨ctl, map, hp⟩ := revoked.port
  rw [hp, enters_port] at port
  refine ⟨congrArg Port.state port, congrArg Port.drainTimer port, congrArg Port.pendingDisable port, ?_, fun n => ?_,
    fun n owned none => ?_, ?_, fun c => ?_, fun q hq => ?_⟩
  · have cu := congrArg CommandUnit.deferred (cu_of_steady steady)
    rw [revoked.cu] at cu
    exact cu
  · have := congrArg InHalf.revokePending (inHalf_of_steady steady p n)
    dsimp only at this
    rw [this, revoked.pending, half]
  · exact revoke_mem_of_steady steady (revoked.queued n (by rw [half]; exact owned) (by rw [half]; exact none))
  · have := (ring_of_steady steady 4).trans ((revoked.rings 4).trans (enters_ring 4))
    have queue := congrArg Ring.queue this
    exact queue
  · rw [chan_of_steady steady c, Device.chan, revoked.channels]
    rfl
  · rw [port_of_steady steady q, revoked.others q hq, enters_other hq]
    rfl

/-! ## A PORT_DISABLE that ends at once -/

/-- The blocks after a tear-down with nothing open, as they stand against those in which the port's record is dropped. -/
theorem dropped_steady {W : Device} {old : List Deferred} {k : Option (ChannelId × Nat)} {b : Bool} {tag : Half}
    (port : W.port p = { quiescing tag (d.port p) with pick := k, selectSent := b }) (others : ∀ q, q ≠ p → W.port q = d.port q)
    (cu : { W.cu with deferred := old } = d.afterTake.cu) (channels : W.channels = d.channels)
    (rings : ∀ r, (W.ring r).steady = (d.ring r).steady) (relay : W.relay = d.relay) (lost : W.lost = d.lost)
    (buffers : W.buffers = d.buffers) :
    (((((W.modPort p fun x => x.dropLink .disabled).emptyStaging p).modPort p Port.clearMap).unwaitPort p).withDeferred old).steady =
      (((d.emptyStaging p).modPort p fun x => x.dropped .disabled).afterTake).steady := by
  have staged : ((W.modPort p fun x => x.dropLink .disabled).port p).inStaging = (d.port p).inStaging := by
    rw [port_modPort_self, port]
    rfl
  obtain ⟨relays, kept⟩ := emptyStaging_same (e := W.modPort p fun x => x.dropLink .disabled) (d := d) (p := p) relay buffers staged
  obtain ⟨channelsE, -, lostE⟩ := emptyStaging_frame (W.modPort p fun x => x.dropLink .disabled) p
  obtain ⟨channelsF, -, lostF⟩ := emptyStaging_frame d p
  obtain ⟨-, cuE, ringsE⟩ := emptyStaging_eq (W.modPort p fun x => x.dropLink .disabled) p
  obtain ⟨-, cuF, ringsF⟩ := emptyStaging_eq d p
  have portE := emptyStaging_port (W.modPort p fun x => x.dropLink .disabled) p
  have portF := emptyStaging_port d p
  generalize (W.modPort p fun x => x.dropLink .disabled).emptyStaging p = E at *
  generalize d.emptyStaging p = F at *
  rw [modPort_channels, channels] at channelsE
  rw [modPort_lost, lost] at lostE
  rw [modPort_cu] at cuE
  refine steady_ext ?_ (fun c => ?_) (fun q => ?_) (fun r => ?_) relays (lostE.trans lostF.symm) kept
  · have left : { E.cu with deferred := old } = d.afterTake.cu := by rw [cuE]; exact cu
    have right : d.afterTake.cu = F.afterTake.cu := by
      unfold Device.afterTake
      rw [cuF]
    exact congrArg CommandUnit.steady (left.trans right)
  · have : E.chan c = F.chan c := by rw [Device.chan, Device.chan, channelsE, channelsF]
    exact congrArg Channel.steady this
  · have left : (((E.modPort p Port.clearMap).unwaitPort p).withDeferred old).port q = (E.modPort p Port.clearMap).port q := rfl
    have right : ((F.modPort p fun x => x.dropped .disabled).afterTake).port q = (F.modPort p fun x => x.dropped .disabled).port q := rfl
    rw [left, right, port_modPort, port_modPort]
    by_cases h : p = q
    · rw [if_pos h, if_pos h, portE, portF, if_pos rfl, if_pos rfl, port_modPort_self, port]
      rfl
    · rw [if_neg h, if_neg h, portE, portF, if_neg (Ne.symm h), if_neg (Ne.symm h), Device.Rests.modPort_other (Ne.symm h),
        others q (Ne.symm h)]
  · have unwaited : ((E.unwaitPort p).ring r).steady = (E.ring r).steady := by
      simp only [Device.unwaitPort, Device.ring, get_map]
      rfl
    have kept : E.ring r = W.ring r := by rw [Device.ring, ringsE]; rfl
    have same : F.ring r = d.ring r := by rw [Device.ring, ringsF]; rfl
    exact unwaited.trans ((congrArg Ring.steady kept).trans ((rings r).trans (congrArg Ring.steady same).symm))

/-- A take takes no identity. -/
theorem afterTake_serial (d : Device) : d.afterTake.serial = d.serial := rfl

theorem withDeferred_serial (d : Device) (l : List Deferred) : (d.withDeferred l).serial = d.serial := rfl

theorem unwaitPort_cu (d : Device) (p : PortId) : (d.unwaitPort p).cu = d.cu := rfl

theorem unwaitPort_serial (d : Device) (p : PortId) : (d.unwaitPort p).serial = d.serial := rfl

/-- With no inbound half owned, no revoke is asked for. -/
theorem revokeOwned_unowned (h : ∀ n, (d.inHalf p n).owner = none) : d.revokeOwned p = d :=
  List.foldl_fixed' (fun n => by rw [h n]; rfl) _

/-- A QUIESCING port with no byte under way, nothing pending and no mark set ends its quiesce (R78). -/
theorem checkQuiesce_ends (state : (d.port p).state = .quiescing) (quiet : (d.port p).linesQuiet = true) (control : (d.port p).control = [])
    (marks : ∀ n, ((d.port p).entry n).marked = false) (revokes : ∀ n, (d.inHalf p n).revokePending = false) :
    d.checkQuiesce p = (d.tearDown p .disabled).completeDisable p .ok 0 := by
  have done : (d.port p).quiesceDone = true := by
    have all : ∀ n, ((d.port p).entry n).inbound.revokePending = false := revokes
    simp [Port.quiesceDone, state, quiet, control, marks, all]
  rw [Device.checkQuiesce, if_pos done]

/-- A graceful PORT_DISABLE that finds nothing to wait for makes the port DISABLED and completes. -/
theorem disable_ends {s : State} {tag : Half} {subject : Byte} (quiet : (s.dev.port p).linesQuiet = true)
    (control : (s.dev.port p).control = []) (opened : s.nothingOpen p)
    (unowned : ∀ n, (s.dev.inHalf p n).owner = none ∧ (s.dev.inHalf p n).revokePending = false)
    (sole : ∀ x ∈ s.dev.cu.deferred, isDisable p x.work = false)
    (barrier : ∀ x, s.dev.cu.deferred.head? = some x → x.work ≠ .barrier) :
    ((((enters s.dev.afterTake p tag subject).revokeOwned p).withdrawPick p).checkQuiesce p).steady =
      (((s.dev.emptyStaging p).modPort p fun x => x.dropped .disabled).answered subject tag .ok 0).steady := by
  obtain ⟨marks, calm, -⟩ := opened
  let D := enters s.dev.afterTake p tag subject
  have half : ∀ n, D.inHalf p n = s.dev.inHalf p n := enters_inHalf
  rw [revokeOwned_unowned fun n => by rw [half]; exact (unowned n).1]
  obtain ⟨k, b, withdrawn⟩ := withdrawPick_eq D p
  let W := D.modPort p fun x => { x with pick := k, selectSent := b }
  have port : W.port p = { quiescing tag (s.dev.port p) with pick := k, selectSent := b } := by
    rw [port_modPort_self, enters_port]
    rfl
  have halfW : ∀ n, W.inHalf p n = s.dev.inHalf p n := fun n => by rw [Device.inHalf, port]; rfl
  have marksW : ∀ n, ((W.port p).entry n).marked = false := fun n => by rw [port]; exact marks n
  have ended : (D.withdrawPick p).checkQuiesce p = (W.tearDown p .disabled).completeDisable p .ok 0 := by
    rw [withdrawn]
    exact checkQuiesce_ends (by rw [port]; rfl) (by rw [port]; exact quiet) (by rw [port]; exact control) marksW
      fun n => by rw [halfW]; exact (unowned n).2
  rw [ended, tearDown_unowned .disabled marksW (fun n => by rw [halfW]; exact (unowned n).1) calm]
  have deferred : ((((W.modPort p fun x => x.dropLink .disabled).emptyStaging p).modPort p Port.clearMap).unwaitPort p).cu.deferred =
      s.dev.cu.deferred ++ { work := .portDisable p, tag := tag, subject := subject } :: [] := by
    rw [unwaitPort_cu, modPort_cu, (emptyStaging_eq _ p).2.1]
    rfl
  rw [Device.completeDisable, completeDeferred_eq _ [] deferred sole (by simp [isDisable]) (by simpa using barrier), List.append_nil]
  have others : ∀ q, q ≠ p → W.port q = s.dev.port q := fun q hq => by
    rw [Device.Rests.modPort_other hq, enters_other hq]
    rfl
  have steady := dropped_steady (W := W) (old := s.dev.cu.deferred) port others rfl rfl enters_ring rfl rfl rfl
  have serial : (((((W.modPort p fun x => x.dropLink .disabled).emptyStaging p).modPort p Port.clearMap).unwaitPort p).withDeferred
      s.dev.cu.deferred).serial = (((s.dev.emptyStaging p).modPort p fun x => x.dropped .disabled).afterTake).serial := by
    rw [withDeferred_serial, unwaitPort_serial, modPort_serial, (emptyStaging_frame _ _).2.1, afterTake_serial,
      modPort_serial (s.dev.emptyStaging p),
      (emptyStaging_frame _ _).2.1]
    rfl
  unfold Device.answered
  exact noticed_congr _ steady serial

/-- Settles O34: the port enters QUIESCING and its revokes are asked for; then either something is left to wait for, or the quiesce ends in
the same event. -/
theorem gracefulDisableQuiescesPort : Obligations.GracefulDisableQuiescesPort := by
  intro tag port p s take hp active
  obtain ⟨e, he⟩ : ∃ e,
      e = ((((enters s.dev.afterTake p tag port).revokeOwned p).withdrawPick p).checkQuiesce p).settle := ⟨_, rfl⟩
  rw [exec_disable take hp active, ← he]
  refine ⟨_, rfl, fun waits => ?_, fun quiet control opened unowned sole barrier => ?_⟩
  · exact ⟨⟨rfl, rfl, rfl, rfl, rfl, rfl⟩, disable_quiesces waits he⟩
  · refine ⟨⟨rfl, rfl, rfl, rfl, rfl, rfl⟩, ?_⟩
    dsimp only
    rw [he, settle_steady, disable_ends quiet control opened unowned sole barrier]

end Sys2Proof.Quiesce
end

section
/-! SUPPORT. What a tear-down does to the owners of inbound halves: no FAULTED one waits for its revoke afterwards (R38). -/

namespace Sys2Proof.Breaks

open Sys2Proof.Machine Sys2Proof.LinkBytes

variable {d e f : Device} {p q : PortId} {n m : LinkNumber} {c : ChannelId}

/-! ## The bonds between channels and inbound halves -/

/-- The state and revoke of every channel, and the owner of every inbound half. -/
def bonds (d : Device) : Vector (ChannelState × RevokeState) 64 × Vector (Vector (Option ChannelId) 64) 4 :=
  (d.channels.map fun x => (x.state, x.revoke), d.ports.map fun x => x.map.map fun e => e.inbound.owner)

theorem bonds_of_eq (channels : e.channels = d.channels) (ports : e.ports = d.ports) : bonds e = bonds d := by
  rw [bonds, bonds, channels, ports]

theorem chan_of_bonds (h : bonds e = bonds d) (c : ChannelId) :
    (e.chan c).state = (d.chan c).state ∧ (e.chan c).revoke = (d.chan c).revoke := by
  have := congrArg (fun b => b.1.get c) h
  simpa [bonds, Device.chan] using this

theorem owner_of_bonds (h : bonds e = bonds d) (p : PortId) (n : LinkNumber) : (e.inHalf p n).owner = (d.inHalf p n).owner := by
  have := congrArg (fun b => (b.2.get p).get n) h
  simpa [bonds, Device.inHalf, Device.port, Port.entry] using this

/-- The steady part of the blocks holds the bonds. -/
theorem bonds_of_steady (h : e.steady = d.steady) : bonds e = bonds d := by
  refine Prod.ext (vector_ext_get fun c => ?_) (vector_ext_get fun p => vector_ext_get fun n => ?_)
  · have := congrArg (fun x : Channel => (x.state, x.revoke)) (chan_of_steady h c)
    simpa [bonds, Channel.steady, Device.chan] using this
  · have := congrArg (fun x : Port => (x.entry n).inbound.owner) (port_of_steady h p)
    simpa [bonds, Port.steady, Port.entry, MapEntry.steady, Device.port] using this

@[simp] theorem bonds_modChan {g : Channel → Channel} (hs : (g (d.chan c)).state = (d.chan c).state)
    (hr : (g (d.chan c)).revoke = (d.chan c).revoke) : bonds (d.modChan c g) = bonds d := by
  refine Prod.ext (map_set_eq _ _ _ _ ?_) rfl
  exact Prod.ext hs hr

/-- A change of a port that keeps the owners of its inbound halves. -/
theorem bonds_modPort {g : Port → Port} (h : ∀ n, ((g (d.port p)).entry n).inbound.owner = ((d.port p).entry n).inbound.owner) :
    bonds (d.modPort p g) = bonds d := by
  refine Prod.ext rfl (map_set_eq _ _ _ _ (vector_ext_get fun n => ?_))
  simpa [Port.entry, Device.port] using h n

@[simp] theorem bonds_modPort_map {g : Port → Port} (h : (g (d.port p)).map = (d.port p).map) : bonds (d.modPort p g) = bonds d :=
  bonds_modPort fun n => by rw [Port.entry, h]; rfl

@[simp] theorem bonds_modRing (r : RingId) (g : Ring → Ring) : bonds (d.modRing r g) = bonds d := rfl

@[simp] theorem bonds_modRelay (g : RelayUnit → RelayUnit) : bonds (d.modRelay g) = bonds d := rfl

@[simp] theorem bonds_modCu (g : CommandUnit → CommandUnit) : bonds (d.modCu g) = bonds d := rfl

@[simp] theorem bonds_modOutMsg (g : OutMessage → OutMessage) : bonds (d.modOutMsg c g) = bonds d := bonds_modChan rfl rfl

@[simp] theorem bonds_modInMsg (g : InMessage → InMessage) : bonds (d.modInMsg c g) = bonds d := bonds_modChan rfl rfl

@[simp] theorem bonds_countChan (g : ChannelCounters → ChannelCounters) : bonds (d.countChan c g) = bonds d := bonds_modChan rfl rfl

@[simp] theorem bonds_countRelay (g : RelayCounters → RelayCounters) : bonds (d.countRelay c g) = bonds d := rfl

@[simp] theorem bonds_countPort (g : PortCounters → PortCounters) : bonds (d.countPort p g) = bonds d := bonds_modPort_map rfl

@[simp] theorem bonds_modPair (g : RelayPair → RelayPair) : bonds (d.modPair c g) = bonds d := rfl

/-- A fold of changes that keep the bonds keeps them. -/
theorem bonds_foldl {β : Type} {g : Device → β → Device} (h : ∀ d b, bonds (g d b) = bonds d) (l : List β) (d : Device) :
    bonds (l.foldl g d) = bonds d := foldl_keeps bonds g h l d

@[simp] theorem bonds_post (r : RingId) (b : RecordBody) : bonds (d.post r b) = bonds d := rfl

@[simp] theorem bonds_commandDone (s : Byte) (t : Half) (r : Result) (k : Nat) : bonds (d.commandDone s t r k) = bonds d := rfl

@[simp] theorem bonds_asyncNotice (b : NoticeBody) : bonds (d.asyncNotice b) = bonds d := by
  unfold Device.asyncNotice
  split <;> rfl

@[simp] theorem bonds_completeDeferred (s : DeferredWork → Bool) (r : Result) (k : Nat) : bonds (d.completeDeferred s r k) = bonds d := by
  unfold Device.completeDeferred
  split
  · rfl
  · unfold Device.weighBarriers
    exact bonds_foldl (g := fun e (b : Deferred) => e.commandDone b.subject b.tag .ok 0) (fun _ _ => rfl) _ _

@[simp] theorem bonds_fetchRecords : bonds (d.fetchRecords c) = bonds d := by
  unfold Device.fetchRecords
  dsimp only
  split
  · exact bonds_modChan rfl rfl
  · rfl

@[simp] theorem bonds_startNext : bonds (d.startNext c) = bonds d := by
  unfold Device.startNext
  dsimp only
  repeat' split
  · exact bonds_modOutMsg _
  · exact bonds_modOutMsg _
  · rfl

@[simp] theorem bonds_unstage : bonds (d.unstage c) = bonds d := bonds_modPort_map (by split <;> rfl)

@[simp] theorem bonds_completeSend (s : Status) (k : Nat) : bonds (d.completeSend c s k) = bonds d := by
  unfold Device.completeSend
  dsimp only
  split
  · rfl
  · simp [Device.postCompletion]

/-! ## Relayed messages -/

@[simp] theorem bonds_returnCell (k : CellId) : bonds (d.returnCell c k) = bonds d := by
  unfold Device.returnCell Device.runPairGenerator
  rw [bonds_of_steady (runGenerator_steady _ _ _), bonds_modPair]

@[simp] theorem bonds_cancelCell (k : CellId) : bonds (d.cancelCell c k) = bonds d := by
  unfold Device.cancelCell
  rw [bonds_modRelay, bonds_modPort_map rfl]

@[simp] theorem bonds_issueInbound : bonds (d.issueInbound p) = bonds d := by
  have issued := issueInbound_issued d p
  obtain ⟨l, ports, -⟩ := issued.ports
  rw [bonds_of_eq (d := d.modPort p fun x => { x with inStaging := l }) issued.channels ports, bonds_modPort_map rfl]

@[simp] theorem bonds_refreshPhase : bonds (d.refreshPhase c) = bonds d := by
  unfold Device.refreshPhase
  split
  · rfl
  · exact bonds_modOutMsg _

@[simp] theorem bonds_giveUpCell (k : CellId) : bonds (d.giveUpCell c k) = bonds d := by simp [Device.giveUpCell]

@[simp] theorem bonds_popQueue : bonds (d.popQueue c) = bonds d := by
  unfold Device.popQueue
  split
  · rfl
  · split
    · rfl
    · simp

@[simp] theorem bonds_giveUpHead : bonds (d.giveUpHead c) = bonds d := by
  unfold Device.giveUpHead
  split
  · rfl
  · simp

@[simp] theorem bonds_giveUpFilling : bonds (d.giveUpFilling c) = bonds d := by
  unfold Device.giveUpFilling
  split
  · rfl
  · simp

@[simp] theorem bonds_relayInboundLost : bonds (d.relayInboundLost c) = bonds d := by simp [Device.relayInboundLost]

@[simp] theorem bonds_setBack : bonds (d.setBack c) = bonds d := by simp [Device.setBack]

@[simp] theorem bonds_relayOutboundLost : bonds (d.relayOutboundLost c) = bonds d := by
  unfold Device.relayOutboundLost
  dsimp only
  split <;> simp

@[simp] theorem bonds_cutPair : bonds (d.cutPair c) = bonds d := by
  unfold Device.cutPair
  split
  · rfl
  · unfold Device.returnEntries
    rw [bonds_foldl fun _ _ => bonds_giveUpCell _]
    simp

/-! ## Losses -/

@[simp] theorem bonds_cutInbound (s : Status) : bonds (d.cutInbound c s) = bonds d := by
  have dropped : bonds (d.dropMessage c) = bonds d := by
    unfold Device.dropMessage Device.dropStaged
    refine Prod.ext rfl (map_set_eq _ _ _ _ ?_)
    rfl
  have posted : ∀ (a : Device) k b, bonds (a.postInbound c s k b) = bonds a := fun a k b => by
    unfold Device.postInbound
    dsimp only
    split
    · rfl
    · simp [Device.postCompletion]
  simp [Device.cutInbound, Device.endInbound, posted, dropped]

@[simp] theorem bonds_inboundLost : bonds (d.inboundLost c) = bonds d := by
  unfold Device.inboundLost
  split <;> simp

@[simp] theorem bonds_discardReads : bonds (d.discardReads c) = bonds d := rfl

@[simp] theorem bonds_outboundLost : bonds (d.outboundLost c) = bonds d := by
  unfold Device.outboundLost
  dsimp only
  repeat' split
  all_goals simp

@[simp] theorem bonds_reportLoss : bonds (Device.reportLoss p d n) = bonds d := by
  unfold Device.reportLoss
  dsimp only
  repeat' split
  all_goals simp

/-- The bonds as the closes of a tear-down begin: the link dropped, the losses reported and the map cleared (R74). -/
theorem bonds_beforeCloses (d : Device) (p : PortId) (final : PortState) :
    bonds ((((linkNumbers.foldl (Device.reportLoss p) ((d.modPort p fun x => x.dropLink final).emptyStaging p)).returnCredits p).modPort p
      Port.clearMap).unwaitPort p) = bonds d := by
  have emptied : bonds ((d.modPort p fun x => x.dropLink final).emptyStaging p) = bonds d := by
    have ports := (emptyStaging_eq (d.modPort p fun x => x.dropLink final) p).1
    have channels := (Quiesce.emptyStaging_frame (d.modPort p fun x => x.dropLink final) p).1
    rw [bonds_of_eq (d := (d.modPort p fun x => x.dropLink final).modPort p
      fun x => { x with inStaging := [], outStaging := OutStaging.empty }) channels ports, bonds_modPort_map rfl, bonds_modPort_map rfl]
  have credited : ∀ a : Device, bonds (a.returnCredits p) = bonds a :=
    bonds_foldl (fun a n => bonds_of_steady (releaseCredits_steady _ _ _)) _
  have cleared : ∀ a : Device, bonds ((a.modPort p Port.clearMap).unwaitPort p) = bonds a :=
    fun a => bonds_modPort (d := a) (p := p) (g := Port.clearMap) fun n => by simp [Port.clearMap, Port.entry, MapEntry.clear]
  rw [cleared, credited, bonds_foldl (fun _ _ => bonds_reportLoss), emptied]

/-! ## Closes -/

/-- No channel begins to wait for the revoke of a fault, and an inbound half loses only an owner that does not. -/
structure Calms (e d : Device) : Prop where
  calm : ∀ c, (d.chan c).faultWaits = false → (e.chan c).faultWaits = false
  owned : ∀ p n c, (d.inHalf p n).owner = some c → (e.inHalf p n).owner = some c ∨ (e.chan c).faultWaits = false

namespace Calms

theorem trans (h : Calms f e) (g : Calms e d) : Calms f d := by
  refine ⟨fun c hc => h.calm c (g.calm c hc), fun p n c hc => ?_⟩
  rcases g.owned p n c hc with own | calm
  · exact h.owned p n c own
  · exact .inr (h.calm c calm)

theorem ofBonds (h : bonds e = bonds d) : Calms e d := by
  refine ⟨fun c hc => ?_, fun p n c hc => .inl (by rw [owner_of_bonds h]; exact hc)⟩
  obtain ⟨state, revoke⟩ := chan_of_bonds h c
  rw [Channel.faultWaits, state, revoke]
  exact hc

theorem self (d : Device) : Calms d d := ofBonds rfl

end Calms

/-- Reading an inbound half of any port after changing one. -/
theorem inHalf_modIn_any (g : InHalf → InHalf) (q : PortId) (m : LinkNumber) :
    (d.modIn p n g).inHalf q m = if p = q ∧ n = m then g (d.inHalf p n) else d.inHalf q m := by
  by_cases h : p = q
  · subst h
    rw [Quiesce.inHalf_modIn]
    simp
  · rw [if_neg (by simp [h]), Device.inHalf, Device.modIn, Device.Rests.modPort_other (Ne.symm h)]
    rfl

/-- A channel cleared is CLOSED, and its half is the only one that may lose an owner (R16). -/
theorem contextCleared_calms : Calms (d.contextCleared c) d := by
  have closed : ((d.contextCleared c).chan c).faultWaits = false := by
    unfold Device.contextCleared
    rw [chan_modChan_self]
    rfl
  have other : ∀ e, e ≠ c → (d.contextCleared c).chan e = d.chan e := fun e he => by
    unfold Device.contextCleared
    rw [chan_modChan, if_neg (Ne.symm he)]
    split <;> rfl
  have owner : ∀ p n, ((d.contextCleared c).inHalf p n).owner = (d.inHalf p n).owner ∨ (d.inHalf p n).owner = some c := fun p n => by
    have unread : (d.contextCleared c).inHalf p n =
        (if (d.chan c).isOutbound then
          d.modOut (d.chan c).port (d.chan c).number fun h => if h.owner = some c then { h with owner := none } else h
        else
          d.modIn (d.chan c).port (d.chan c).number fun h => if h.owner = some c then { h with owner := none } else h).inHalf p n := rfl
    rw [unread]
    split
    · left
      unfold Device.modOut Device.inHalf
      rw [port_modPort]
      split
      · next e =>
        rw [entry_modEntry, e]
        split
        · next e => rw [e]
        · rfl
      · rfl
    · rw [inHalf_modIn_any]
      split
      · next e =>
        rw [e.1, e.2]
        by_cases own : (d.inHalf p n).owner = some c
        · exact .inr own
        · exact .inl (by rw [if_neg own])
      · exact .inl rfl
  refine ⟨fun e he => ?_, fun p n e he => ?_⟩
  · by_cases h : e = c
    · rw [h]; exact closed
    · rw [other e h]; exact he
  · rcases owner p n with same | own
    · exact .inl (same.trans he)
    · have : e = c := by rw [he] at own; exact Option.some.inj own
      rw [this]
      exact .inr closed

namespace Calms

theorem clearContext (h : Calms d f) : Calms (d.clearContext c) f :=
  ((ofBonds (bonds_of_steady (clearContext_steady d c))).trans contextCleared_calms).trans h

theorem tryClose (h : Calms d f) : Calms (d.tryClose c) f := by
  have completed : ∀ (a : Device) s r k, Calms a f → Calms (a.completeDeferred s r k) f :=
    fun a s r k ha => (ofBonds (bonds_completeDeferred s r k)).trans ha
  have relayed : ∀ (a : Device) g, Calms a f → Calms (a.modRelay g) f := fun a g ha => (ofBonds (bonds_modRelay g)).trans ha
  unfold Device.tryClose Device.finishPair Device.finishChannel Device.setPair
  repeat' split
  · exact relayed _ _ (relayed _ _ (clearContext (clearContext (completed _ _ _ _ h))))
  · exact h
  · exact clearContext (completed _ _ _ _ h)
  · exact h

theorem closeOwner (h : Calms d f) : Calms (d.closeOwner c) f := by
  unfold Device.closeOwner
  dsimp only
  repeat' split
  · exact tryClose ((ofBonds (bonds_completeSend _ _)).trans h)
  · exact tryClose ((ofBonds bonds_cutPair).trans h)
  · exact tryClose h

/-- The revoke of a channel whose port is gone is over, and no other channel changes (R38). -/
theorem loseRevoke : Calms (d.modChan c Channel.loseRevoke) d ∧ ((d.modChan c Channel.loseRevoke).chan c).faultWaits = false := by
  have ended : ∀ x : Channel, x.loseRevoke.faultWaits = false := fun x => by
    unfold Channel.loseRevoke Channel.faultWaits
    split
    · simp
    · next h =>
      by_cases faulted : x.state = .faulted <;> by_cases waiting : x.revoke = .waiting <;> simp_all
  have self : ((d.modChan c Channel.loseRevoke).chan c).faultWaits = false := by rw [chan_modChan_self]; exact ended _
  refine ⟨⟨fun e he => ?_, fun p n e he => .inl he⟩, self⟩
  rw [chan_modChan]
  split
  · exact ended _
  · exact he

theorem closeAfterLoss (h : Calms d f) : Calms (Device.closeAfterLoss p d n) f := by
  have outbound : ∀ e : Device, Calms e f → Calms (match (e.outHalf p n).owner with | some c => e.closeOwner c | none => e) f := by
    intro e he
    split
    · exact closeOwner he
    · exact he
  unfold Device.closeAfterLoss
  dsimp only
  apply outbound
  split
  · exact closeOwner (loseRevoke.1.trans h)
  · exact h

end Calms

/-- The owner of an entry's inbound half waits for no revoke once the closes of the entry have been decided. -/
theorem closeAfterLoss_calm (h : (d.inHalf p n).owner = some c) : ((Device.closeAfterLoss p d n).chan c).faultWaits = false := by
  have outbound : ∀ e : Device, (e.chan c).faultWaits = false →
      ((match (e.outHalf p n).owner with | some c => e.closeOwner c | none => e).chan c).faultWaits = false := by
    intro e he
    split
    · exact (Calms.closeOwner (.self e)).calm c he
    · exact he
  unfold Device.closeAfterLoss
  rw [h]
  exact outbound _ ((Calms.closeOwner (.self _)).calm c Calms.loseRevoke.2)

/-- No owner of an inbound half waits for the revoke of a fault once its port is down (R38). -/
theorem tearDown_calm {final : PortState} (h : (d.inHalf p n).owner = some c) :
    ((d.tearDown p final).chan c).faultWaits = false := by
  have fold : ∀ (l : List LinkNumber) (e : Device), n ∈ l → (e.inHalf p n).owner = some c →
      ((l.foldl (Device.closeAfterLoss p) e).chan c).faultWaits = false := by
    intro l
    have rest : ∀ (l : List LinkNumber) (e : Device), Calms (l.foldl (Device.closeAfterLoss p) e) e := by
      intro l
      induction l with
      | nil => exact .self
      | cons m l ih => exact fun e => (ih _).trans (.closeAfterLoss (.self e))
    induction l with
    | nil => intro e hn; cases hn
    | cons m l ih =>
      intro e hn own
      rw [List.foldl_cons]
      by_cases here : n = m
      · subst here
        exact (rest l _).calm c (closeAfterLoss_calm own)
      · rcases (Calms.closeAfterLoss (p := p) (n := m) (.self e)).owned p n c own with own | calm
        · exact ih _ (List.mem_of_ne_of_mem here hn) own
        · exact (rest l _).calm c calm
  unfold Device.tearDown
  refine fold linkNumbers _ (List.mem_finRange n) ?_
  rw [owner_of_bonds (bonds_beforeCloses d p final)]
  exact h

end Sys2Proof.Breaks
end

section
/-! SUPPORT. A break of an ACTIVE port, and the decoder's errors (R44, R49, R74). -/

namespace Sys2Proof.Breaks

open Sys2Proof.Machine Sys2Proof.LinkBytes

variable {s : State} {d e f : Device} {p q : PortId} {n m : LinkNumber} {c : ChannelId} {lines : PeerLines} {why : BreakCause}

/-- The blocks as a break is noted: the cause kept, the break counted and its notice posted or lost (R74). -/
def noted (d : Device) (p : PortId) (why : BreakCause) : Device :=
  ((d.modPort p fun y => { y with lastBreak := why }).countPort p
    fun k => { k with breaks := satAdd k.breaks 1 }).asyncNotice (.portEvent p (.broke why))

/-- The record of a port with its break noted. -/
def counted (why : BreakCause) (x : Port) : Port :=
  { x with lastBreak := why, counters := { x.counters with breaks := satAdd x.counters.breaks 1 } }

/-- The record of a port as RECOVER starts on it (R75). -/
def recovering (x : Port) : Port := { x with recoverTimer := .startMs x.settings.recover, peerReleased := !x.lines.engi }

theorem breakPort_active (h : (d.port p).state = .active) (why : BreakCause) :
    d.breakPort p why = ((noted d p why).tearDown p .broken).modPort p recovering := by
  unfold Device.breakPort
  simp only [h]
  rfl

/-- Noting a break changes the port's cause and break counter, posts on NQ, and leaves the rest. -/
theorem noted_follows (d : Device) (p : PortId) (why : BreakCause) : (noted d p why).Follows (d.modPort p (counted why)) := by
  have : (d.modPort p fun y => { y with lastBreak := why }).countPort p (fun k => { k with breaks := satAdd k.breaks 1 }) =
      d.modPort p (counted why) := by
    unfold Device.countPort
    rw [modPort_modPort]
    rfl
  unfold noted
  rw [this]
  exact .asyncNotice (.self _)

theorem bonds_noted (d : Device) (p : PortId) (why : BreakCause) : bonds (noted d p why) = bonds d := by
  unfold noted
  rw [bonds_asyncNotice, bonds_countPort, bonds_modPort_map rfl]

/-- An asynchronous notice with room for it is posted at the tail of NQ, with the lost count (R149, R150). -/
theorem asyncNotice_posted {b : NoticeBody} (room : (d.ring 4).room ≠ 0) :
    ((d.asyncNotice b).ring 4).queue = (d.ring 4).queue ++ [{ order := d.serial, body := .notice b d.lost }] := by
  have reserved : (d.reserve nqRing 1).ring 4 = { d.ring 4 with reserved := (d.ring 4).reserved + 1 } := ring_modRing_self d 4 _
  have posted := congrArg Ring.queue (ring_modRing_self (d.reserve nqRing 1) 4 fun x =>
    { x with queue := x.queue ++ [{ order := d.serial, body := .notice b d.lost }] })
  unfold Device.asyncNotice
  rw [if_neg (show (d.ring nqRing).room ≠ 0 from room)]
  rw [reserved] at posted
  exact posted

/-- The drop of a port's link keeps what it keeps of the port's own fields. -/
theorem dropLink_own (x : Port) (final : PortState) : (x.dropLink final).own = (x.own.dropLink final).own := rfl

/-- A break of an ACTIVE port, as the state after the event shows it. The blocks before the break are those before the event but for the
port's record, which keeps its settings, its count of retries and breaks and the owners of its halves. -/
theorem broke_of {t : State} {g : Port → Port} (registers : s.sameRegisters t)
    (ht : t.dev = (((s.dev.modPort p g).breakPort p why).issueInbound p).settle) (state : (g (s.dev.port p)).state = .active)
    (settings : (g (s.dev.port p)).settings = (s.dev.port p).settings)
    (retries : (g (s.dev.port p)).retryCount = (s.dev.port p).retryCount)
    (breaks : (g (s.dev.port p)).counters.breaks = (s.dev.port p).counters.breaks)
    (map : (g (s.dev.port p)).map = (s.dev.port p).map) : s.Broke t p (g (s.dev.port p)).lines why := by
  obtain ⟨d, hd⟩ : ∃ d, d = s.dev.modPort p g := ⟨_, rfl⟩
  have port : d.port p = g (s.dev.port p) := by rw [hd, port_modPort_self]
  have others : ∀ q, q ≠ p → d.port q = s.dev.port q := fun q hq => by rw [hd, Device.Rests.modPort_other hq]
  have owners : ∀ n, (d.inHalf p n).owner = (s.dev.inHalf p n).owner := fun n => by rw [hd, inHalf_modPort _ _ _ _ map]
  have cu : d.cu = s.dev.cu := by rw [hd]; rfl
  have ring : d.ring 4 = s.dev.ring 4 := by rw [hd]; rfl
  have lost : d.lost = s.dev.lost := by rw [hd]; rfl
  have follows := noted_follows d p why
  have torn := tearDown_spec (noted d p why) p (final := .broken) (by decide)
  have calm : ∀ n c, (d.inHalf p n).owner = some c → (((noted d p why).tearDown p .broken).chan c).faultWaits = false :=
    fun n c h => tearDown_calm (by rw [owner_of_bonds (bonds_noted d p why)]; exact h)
  rw [← hd, breakPort_active (by rw [port]; exact state)] at ht
  obtain ⟨e, he⟩ : ∃ e, e = (noted d p why).tearDown p .broken := ⟨_, rfl⟩
  rw [← he] at ht torn calm
  have own : (e.port p).own = ((counted why (g (s.dev.port p))).dropLink .broken).own := by
    rw [torn.own, dropLink_own, follows.own p, port_modPort_self, port, ← dropLink_own]
  have empty : (e.modPort p recovering).issueInbound p = e.modPort p recovering :=
    issueInbound_empty _ _ (by rw [port_modPort_self]; exact torn.down.quiet.staging.1)
  rw [empty] at ht
  have final : (e.port p).state = .broken := congrArg Port.state own
  have record : t.dev.port p = recovering (e.port p) := by
    rw [ht, settle_port_down _ _ (by rw [port_modPort_self, recovering, Port.up, final]; rfl), port_modPort_self]
  have settled := settle_follows (e.modPort p recovering)
  rw [← ht] at settled
  have kept : (e.port p).settings = (s.dev.port p).settings := (congrArg Port.settings own).trans settings
  refine ⟨⟨registers, ?_, ?_, fun q hq => ?_, ?_, fun n c hc => ?_⟩, ?_, ?_, ?_, ?_, ?_, ?_, fun room => ?_⟩
  · rw [record]
    exact ⟨⟨torn.down.quiet.turn, torn.down.quiet.timers, torn.down.quiet.framing, torn.down.quiet.settled, torn.down.quiet.pick,
      torn.down.quiet.staging⟩, ⟨torn.down.map.control, torn.down.map.map⟩⟩
  · rw [record]
    exact ⟨kept, (congrArg Port.retryCount own).trans retries, congrArg Port.pendingDisable own⟩
  · rw [settled.own q, Device.Rests.modPort_other hq, torn.others q hq, follows.own q, Device.Rests.modPort_other hq, others q hq]
  · rw [← cu]
    exact ⟨settled.held.trans (torn.held.trans follows.held), settled.taken.trans (torn.taken.trans follows.taken),
      settled.fetch.trans (torn.fetch.trans follows.fetch), settled.producer.trans (torn.producer.trans follows.producer),
      settled.base.trans (torn.base.trans follows.base), settled.size.trans (torn.size.trans follows.size)⟩
  · have bound : bonds t.dev = bonds (e.modPort p recovering) := by
      rw [ht]
      exact bonds_of_steady (settle_steady _)
    obtain ⟨same, revoke⟩ := chan_of_bonds bound c
    rw [Channel.faultWaits, same, revoke]
    exact calm n c (by rw [owners]; exact hc)
  · rw [record]
    exact final
  · rw [record]
    exact congrArg Port.lastBreak own
  · rw [record, ← breaks]
    exact congrArg (fun x : Port => x.counters.breaks) own
  · rw [record, ← kept]
    rfl
  · have lines : (e.port p).lines = (g (s.dev.port p)).lines := by
      have h := congrArg Port.lines own
      exact h
    rw [record, ← lines]
    rfl
  · rw [record]
    have lines := congrArg Port.lines own
    exact lines
  · have posted : ((noted d p why).ring 4).queue =
        (s.dev.ring 4).queue ++ [{ order := d.serial, body := .notice (.portEvent p (.broke why)) s.dev.lost }] := by
      rw [← ring, ← lost]
      exact asyncNotice_posted (by rw [← ring] at room; exact room)
    obtain ⟨l, hl⟩ := torn.queue
    obtain ⟨m, hm⟩ := settled.queue
    refine ⟨d.serial, l ++ m, ?_⟩
    rw [hm, modPort_ring, hl, posted]
    simp

/-! ## The decoder's errors -/

/-- A byte of good parity for which no staging room is asked, and which the decoder refuses, breaks an ACTIVE port (R49). -/
theorem refused_breaks {w : WireByte} {sub : SubCode} (h : s.listens p) (active : (s.dev.port p).state = .active)
    (good : parityGood w = true) (room : s.dev.roomNeeded p w = 0)
    (refused : (heard s.dev p ((s.dev.port p).lines.offering w)).decode p w =
      (heard s.dev p ((s.dev.port p).lines.offering w)).protocolError p sub) :
    ∃ t, exec (.peerByteOffered p w) s = .next t ∧ s.Broke t p ((s.dev.port p).lines.offering w) (.protocol sub) := by
  refine ⟨_, exec_accepts h good (by rw [room]; exact Nat.zero_le _), ?_⟩
  exact broke_of (g := fun x => (x.under ((s.dev.port p).lines.offering w)).received false) ⟨rfl, rfl, rfl, rfl, rfl, rfl⟩
    (by rw [refused, Device.protocolError, heard]) active rfl rfl rfl rfl

/-- The same of a command byte. -/
theorem command_breaks {base v : Nat} {sub : SubCode} (h : s.listens p) (active : (s.dev.port p).state = .active)
    (refused : ∀ l, (heard s.dev p l).decode p (commandByte base v) = (heard s.dev p l).protocolError p sub) :
    ∃ t, exec (.peerByteOffered p (commandByte base v)) s = .next t ∧
      s.Broke t p ((s.dev.port p).lines.offering (commandByte base v)) (.protocol sub) :=
  refused_breaks h active (by rw [commandByte]; exact parityGood_wireByte _ _) (by rw [commandByte, roomNeeded_command]) (refused _)

/-- With no mark set and no credit granted, a start is refused (R32). -/
theorem startIfNone_refused (opened : (d.inHalf p n).openMark = false) (discard : (d.inHalf p n).discard = false)
    (granted : (d.inHalf p n).granted = 0) : d.startIfNone p n = none := by
  simp [Device.startIfNone, InHalf.busy, opened, discard, Device.peerStart, granted]

/-- A data byte that could only start a message, where no credit is granted, asks for no room (R45). -/
theorem roomNeeded_refused {b : Byte} (run : (d.port p).repeatPending = none)
    (h : ∀ n, (d.port p).selection = some n → (d.inHalf p n).openMark = false ∧ (d.inHalf p n).granted = 0) :
    d.roomNeeded p (wireByte false b) = 0 := by
  unfold Device.roomNeeded
  simp only [wireByte, run, Bool.false_eq_true, if_false]
  cases sel : (d.port p).selection with
  | none => rfl
  | some n =>
    obtain ⟨opened, granted⟩ := h n sel
    cases owner : (d.inHalf p n).owner <;> simp [owner, opened, granted]

/-- Settles O48: each check of R44 is read off the decoder's order, and its error breaks the port. -/
theorem decoderErrorBreaksPort : Obligations.DecoderErrorBreaksPort := by
  intro p s listens active
  refine ⟨fun r n v _ run => ?_, fun run unselected => ⟨fun v lo hi => ?_, fun b => ?_⟩, fun n run sel => ?_⟩
  · exact command_breaks listens active fun l => decode_orphan (by rw [heard_port]; exact run)
  · exact command_breaks listens active fun l =>
      decode_unselected (by rw [heard_port]; exact run) (by rw [heard_port]; exact unselected) (linkCommand_not_select lo hi)
  · exact refused_breaks listens active (parityGood_wireByte _ _)
      (roomNeeded_refused run fun n sel => by rw [unselected] at sel; cases sel)
      (decode_data_unselected b (by rw [heard_port]; exact run) (by rw [heard_port]; exact unselected))
  · have judged : ∀ {base v : Nat} {k : LinkCommand} (l : PeerLines), linkCommand (BitVec.ofNat 8 (base + v)) = k →
        (∀ m, k ≠ .select m) → (heard s.dev p l).decode p (commandByte base v) = (heard s.dev p l).decodeSelected p n k :=
      fun l hk ne => decode_command (by rw [heard_port]; exact run) (by rw [heard_port]; exact sel) hk ne
    refine ⟨fun v small => ?_, fun v big hv => ?_, fun v hv some sum => ?_, fun opened discard =>
      ⟨?_, fun granted => ⟨?_, fun v two hv => ?_,
      fun b => ?_⟩⟩⟩
    · refine command_breaks listens active fun l => ?_
      rw [judged l (linkCommand_rep (by omega)) (by simp), Device.decodeSelected, if_pos small]
    · refine command_breaks listens active fun l => ?_
      rw [judged l (linkCommand_finish hv) (by simp), Device.decodeSelected, if_pos big]
    · refine command_breaks listens active fun l => ?_
      rw [judged l (linkCommand_grant hv) (by simp), Device.decodeSelected, Device.decodeGrant,
        if_pos ⟨some, by rw [heard_outHalf]; exact sum⟩]
    · refine command_breaks listens active fun l => ?_
      rw [judged l (linkCommand_finish (by omega)) (by simp)]
      simp [Device.decodeSelected, Device.decodeEnd, InHalf.busy, opened, discard]
    · refine command_breaks listens active fun l => ?_
      rw [judged l (linkCommand_finish (by omega)) (by simp)]
      simp [Device.decodeSelected, Device.decodeEnd, startIfNone_refused, opened, discard, granted]
    · refine command_breaks listens active fun l => ?_
      rw [judged l (linkCommand_rep hv) (by simp), Device.decodeSelected, if_neg (by omega)]
      simp [Device.decodeRepeat, startIfNone_refused, opened, discard, granted]
    · refine refused_breaks listens active (parityGood_wireByte _ _) (roomNeeded_refused run fun m hm => ?_) ?_
      · rw [sel] at hm
        cases hm
        exact ⟨opened, granted⟩
      · rw [decode_data b (by rw [heard_port]; exact run) (by rw [heard_port]; exact sel)]
        simp [Device.decodeData, startIfNone_refused, opened, discard, granted]

end Sys2Proof.Breaks
end

section
/-! SUPPORT. Runs of expanded bytes: what staging a run, counting a run and the first overflow write (R112, R114 to R117). -/

namespace Sys2Proof.Placing

open Sys2Proof.Machine Sys2Proof.LinkBytes

/-! ## Staged runs -/

/-- The total after `n` more expanded bytes, which holds at its maximum (R110). -/
def totalAfter (t n : Nat) : Nat := if n = 0 then t else min (t + n) totalMax

theorem totalAfter_add (t m n : Nat) : totalAfter (totalAfter t m) n = totalAfter t (m + n) := by
  unfold totalAfter
  split_ifs <;> omega

theorem totalAfter_pos {n : Nat} (t : Nat) (h : 1 ≤ n) : totalAfter t n = min (t + n) 4294967295 := if_neg (by omega)

/-- The staged bytes of a run of equal bytes for one destination, from an offset on. -/
def stagedRun (t : Destination) (b : Byte) : Nat → Nat → List StagedByte
  | _, 0 => []
  | o, n + 1 => { dest := t, offset := o, byte := b } :: stagedRun t b (o + 1) n

theorem stagedRun_add (t : Destination) (b : Byte) (o m n : Nat) :
    stagedRun t b o m ++ stagedRun t b (o + m) n = stagedRun t b o (m + n) := by
  induction m generalizing o with
  | zero => simp [stagedRun]
  | succ m ih =>
    have next := ih (o + 1)
    rw [Nat.add_right_comm] at next
    rw [Nat.add_right_comm m 1 n]
    simp [stagedRun, ← next, Nat.add_assoc]

/-- A whole run is gathered at once, if it fits one transfer (R113, R131). -/
theorem gather_stagedRun (t : Destination) (b : Byte) (o n k : Nat) (h : n ≤ k) :
    gather t k o (stagedRun t b o n) = (List.replicate n b, []) := by
  induction n generalizing o k with
  | zero => cases k <;> rfl
  | succ n ih =>
    obtain ⟨k, rfl⟩ := Nat.exists_eq_add_of_le' (Nat.le_trans (Nat.succ_pos n) h)
    simp [stagedRun, gather, ih (o + 1) k (by omega), List.replicate_succ]

/-- A buffer with `n` bytes more placed for it, if it is the destination. -/
def fillOf (t : Destination) (n : Nat) (z : Buffer) : Buffer :=
  if t = .buffer z.id then { z with placed := z.placed + n } else z

@[simp] theorem fillOf_id (t : Destination) (n : Nat) (z : Buffer) : (fillOf t n z).id = z.id := by
  unfold fillOf; split <;> rfl

theorem fillOf_cell (i : ChannelId) (k : CellId) (n : Nat) : fillOf (.cell i k) n = id := by
  funext z
  simp [fillOf]

theorem fillOf_zero (t : Destination) : fillOf t 0 = id := by
  funext z
  simp [fillOf]

theorem fillOf_fillOf (t : Destination) (m n : Nat) : fillOf t n ∘ fillOf t m = fillOf t (m + n) := by
  funext z
  by_cases h : t = .buffer z.id <;> simp [fillOf, h, Nat.add_assoc]

/-- A port record with more bytes staged. -/
def withStaged (l : List StagedByte) (y : Port) : Port := { y with inStaging := y.inStaging ++ l }

/-- A context with `n` expanded bytes placed and counted for its open message. -/
def grown (n : Nat) (x : Channel) : Channel :=
  { x with inm := { x.inm with fill := x.inm.fill + n, total := totalAfter x.inm.total n } }

theorem grown_fill (n : Nat) (x : Channel) : (grown n x).inm.fill = x.inm.fill + n := rfl

/-- The blocks with a run of equal bytes staged at an offset of a destination, and placed and counted for a channel. -/
def stageAt (d : Device) (p : PortId) (c : ChannelId) (t : Destination) (b : Byte) (o n : Nat) : Device :=
  { (d.modPort p (withStaged (stagedRun t b o n))).modChan c (grown n) with buffers := d.buffers.map (fillOf t n) }

/-- The blocks with a run of equal bytes staged at offset fill of a channel's destination (R112). -/
def stageRun (d : Device) (c : ChannelId) (t : Destination) (b : Byte) (n : Nat) : Device :=
  stageAt d (d.chan c).port c t b (d.chan c).inm.fill n

/-- The blocks with a run of bytes counted in a channel's total alone. -/
def countRun (d : Device) (c : ChannelId) (n : Nat) : Device := d.modInMsg c fun m => { m with total := totalAfter m.total n }

variable {d : Device} {c : ChannelId} {t : Destination} {b : Byte} {n : Nat}

@[simp] theorem chan_stageRun : (stageRun d c t b n).chan c = grown n (d.chan c) := chan_modChan_self (d.modPort _ _) c _

@[simp] theorem port_stageRun : (stageRun d c t b n).port (d.chan c).port =
    withStaged (stagedRun t b (d.chan c).inm.fill n) (d.port (d.chan c).port) :=
  port_modPort_self d _ _

@[simp] theorem buffers_stageRun : (stageRun d c t b n).buffers = d.buffers.map (fillOf t n) := rfl

@[simp] theorem relay_stageRun : (stageRun d c t b n).relay = d.relay := rfl

@[simp] theorem ring_stageRun (r : RingId) : (stageRun d c t b n).ring r = d.ring r := rfl

theorem inHalf_stageRun (p : PortId) (m : LinkNumber) : (stageRun d c t b n).inHalf p m = d.inHalf p m :=
  inHalf_modPort d (d.chan c).port p m (f := withStaged _) rfl

@[simp] theorem chan_countRun : (countRun d c n).chan c =
    { d.chan c with inm := { (d.chan c).inm with total := totalAfter (d.chan c).inm.total n } } := by
  unfold countRun Device.modInMsg
  rw [chan_modChan_self]

theorem stageRun_zero : stageRun d c t b 0 = d := by
  have port : withStaged (stagedRun t b (d.chan c).inm.fill 0) (d.port (d.chan c).port) = d.port (d.chan c).port := by
    simp [withStaged, stagedRun]
  have channels : d.channels.set c (grown 0 (d.chan c)) = d.channels := set_get _ _
  unfold stageRun stageAt
  rw [modPort_eq_self _ _ port, fillOf_zero, List.map_id]
  exact congrArg (fun w => ({ d with channels := w } : Device)) channels

theorem stageAt_add (p : PortId) (o m n : Nat) : stageAt (stageAt d p c t b o m) p c t b (o + m) n = stageAt d p c t b o (m + n) := by
  have run : (fun x => withStaged (stagedRun t b (o + m) n) (withStaged (stagedRun t b o m) x)) =
      withStaged (stagedRun t b o (m + n)) := by
    funext x
    simp [withStaged, List.append_assoc, stagedRun_add]
  have grow : (fun x => grown n (grown m x)) = grown (m + n) := by
    funext x
    simp [grown, Nat.add_assoc, totalAfter_add]
  have ports := congrArg Device.ports (modPort_modPort d p (withStaged (stagedRun t b o m)) (withStaged (stagedRun t b (o + m) n)))
  have channels := congrArg Device.channels (modChan_modChan d c (grown m) (grown n))
  rw [run] at ports
  rw [grow] at channels
  have buffers : (d.buffers.map (fillOf t m)).map (fillOf t n) = d.buffers.map (fillOf t (m + n)) := by
    rw [List.map_map, fillOf_fillOf]
  have all := congr (congr (congrArg (fun u v w => ({ d with ports := u, channels := v, buffers := w } : Device)) ports) channels) buffers
  exact all

theorem stageRun_add (m n : Nat) : stageRun (stageRun d c t b m) c t b n = stageRun d c t b (m + n) := by
  have next : stageRun (stageRun d c t b m) c t b n =
      stageAt (stageRun d c t b m) (d.chan c).port c t b ((d.chan c).inm.fill + m) n := by
    rw [stageRun, chan_stageRun]
    rfl
  rw [next]
  exact stageAt_add ..

theorem countRun_zero : countRun d c 0 = d := by
  have channels : d.channels.set c (d.chan c) = d.channels := set_get _ _
  exact congrArg (fun v => ({ d with channels := v } : Device)) channels

theorem countTotal_eq : d.countTotal c = countRun d c 1 := rfl

theorem countRun_add (m n : Nat) : countRun (countRun d c m) c n = countRun d c (m + n) := by
  unfold countRun Device.modInMsg
  rw [modChan_modChan]
  simp only [totalAfter_add]

/-! ## A run placed byte by byte -/

/-- Where an expanded byte of a channel's open message goes (R112, R131). -/
def destination (d : Device) (c : ChannelId) : Option Destination :=
  if (d.chan c).kind == .relayIn then ((d.pair c).bind RelayPair.filling).map (Destination.cell c)
  else (d.chan c).inm.buffer.map Destination.buffer

theorem destination_stageRun : destination (stageRun d c t b n) c = destination d c := by
  have pair : (stageRun d c t b n).pair c = d.pair c := rfl
  unfold destination
  rw [chan_stageRun, pair]
  rfl

theorem stageByte_eq (h : destination d c = some t) (b : Byte) : d.stageByte c b = stageRun d c t b 1 := by
  unfold destination at h
  unfold Device.stageByte
  dsimp only
  rw [h]
  dsimp only
  cases t with
  | buffer k =>
    have fill : fillOf (.buffer k) 1 = fun z => if z.id == k then { z with placed := z.placed + 1 } else z := by
      funext z
      by_cases e : z.id = k
      · simp [fillOf, e]
      · simp [fillOf, e, Ne.symm e]
    unfold stageRun stageAt
    rw [fill]
    dsimp only
    unfold Device.countTotal Device.modInMsg
    rw [modChan_modChan]
    rfl
  | cell i k =>
    unfold stageRun stageAt
    rw [fillOf_cell, List.map_id]
    dsimp only
    unfold Device.countTotal Device.modInMsg
    rw [modChan_modChan]
    rfl

theorem capacity_stageRun : ((stageRun d c t b n).chan c).capacity = (d.chan c).capacity := by
  rw [chan_stageRun]
  rfl

theorem placeRun_add (m n : Nat) : Device.placeRun c b (m + n) d = Device.placeRun c b n (Device.placeRun c b m d) := by
  induction m generalizing d with
  | zero => rw [Nat.zero_add]; rfl
  | succ m ih => rw [Nat.add_right_comm]; exact ih

/-- A run that the buffer or the cell has room for is staged whole (R112, R117). -/
theorem placeRun_fits (writing : (d.chan c).inm.mode = .writing) (dest : destination d c = some t)
    (fits : (d.chan c).inm.fill + n ≤ (d.chan c).capacity) : Device.placeRun c b n d = stageRun d c t b n := by
  induction n generalizing d with
  | zero => exact stageRun_zero.symm
  | succ n ih =>
    have first : d.placeByte c b = stageRun d c t b 1 := by
      unfold Device.placeByte
      simp only [writing, beq_self_eq_true, if_true]
      rw [if_pos (by omega), stageByte_eq dest]
    change Device.placeRun c b n (d.placeByte c b) = _
    rw [first, ih (by rw [chan_stageRun]; exact writing) (by rw [destination_stageRun]; exact dest)
      (by rw [capacity_stageRun, chan_stageRun, grown_fill]; omega), stageRun_add, Nat.add_comm]

/-- Past an overflow only the total grows (R114, R115). -/
theorem placeRun_past (past : (d.chan c).inm.mode ≠ .writing) : Device.placeRun c b n d = countRun d c n := by
  induction n generalizing d with
  | zero => exact countRun_zero.symm
  | succ n ih =>
    have first : d.placeByte c b = countRun d c 1 := by
      unfold Device.placeByte
      dsimp only
      rw [if_neg (by simpa using past), countTotal_eq]
    change Device.placeRun c b n (d.placeByte c b) = _
    rw [first, ih (by rw [chan_countRun]; exact past), countRun_add, Nat.add_comm]

end Sys2Proof.Placing
end

section
/-! SUPPORT. A data byte of the peer from its acceptance to the channel it is for, and what its event leaves (R45, R46, R59, R113). -/

namespace Sys2Proof.Placing

open Sys2Proof.Machine Sys2Proof.LinkBytes Sys2Proof.Quiesce

variable {s : State} {d e E : Device} {p : PortId} {n : LinkNumber} {c : ChannelId} {b : Byte} {r : Nat}

/-! ## The blocks at the end of the event -/

/-- The blocks at the end of an event that judged a byte, against the blocks as the judgement left them. -/
structure Ended (e E : Device) (p : PortId) : Prop where
  steady : ∃ m, e.steady = m.steady ∧ Issued m E p
  reserved : ∀ r, (E.ring r).reserved ≤ (e.ring r).reserved
  requests : ∀ q ∈ (E.issueInbound p).requests, q ∈ e.requests
  moves : e.relay.moves = (E.issueInbound p).relay.moves

theorem ended (E : Device) (p : PortId) : Ended (E.issueInbound p).settle E p := by
  have grows := settle_grows (E.issueInbound p)
  have issued := issueInbound_issued E p
  refine ⟨⟨_, settle_steady _, issued⟩, fun r => ?_, grows.requests, ?_⟩
  · have h := grows.reserved r
    rw [Device.ring, issued.rings] at h
    exact h
  · rw [relay_of_steady (settle_steady _)]

namespace Ended

theorem chan (h : Ended e E p) (c : ChannelId) : (e.chan c).steady = (E.chan c).steady := by
  obtain ⟨m, steady, issued⟩ := h.steady
  rw [chan_of_steady steady, Device.chan, issued.channels]
  rfl

theorem port (h : Ended e E p) :
    ∃ l, (e.port p).steady = { E.port p with inStaging := l }.steady ∧ ∀ x ∈ l, x ∈ (E.port p).inStaging := by
  obtain ⟨m, steady, issued⟩ := h.steady
  obtain ⟨l, hl, sub⟩ := issued.ports
  have port : m.port p = { E.port p with inStaging := l } := by
    have : m.port p = (E.modPort p fun x => { x with inStaging := l }).port p := congrArg (·.get p) hl
    rw [this, port_modPort_self]
  exact ⟨l, by rw [port_of_steady steady, port], sub⟩

theorem own (h : Ended e E p) : (e.port p).own = (E.port p).own := by
  obtain ⟨l, hl, -⟩ := h.port
  rw [← own_steady, hl, own_steady]
  rfl

theorem staged (h : Ended e E p) : ∀ x ∈ (e.port p).inStaging, x ∈ (E.port p).inStaging := by
  obtain ⟨l, hl, sub⟩ := h.port
  have : (e.port p).inStaging = l := congrArg Port.inStaging hl
  rw [this]
  exact sub

theorem inHalf (h : Ended e E p) (n : LinkNumber) : { e.inHalf p n with inFlight := 0 } = { E.inHalf p n with inFlight := 0 } := by
  obtain ⟨m, steady, issued⟩ := h.steady
  obtain ⟨l, hl, -⟩ := issued.ports
  have half : m.inHalf p n = E.inHalf p n := by
    have : m.inHalf p n = (E.modPort p fun x => { x with inStaging := l }).inHalf p n :=
      congrArg (fun v => ((Vector.get v p).entry n).inbound) hl
    rw [this]
    exact inHalf_modPort _ _ _ _ rfl
  rw [inHalf_of_steady steady, half]

theorem ring (h : Ended e E p) (r : RingId) : (e.ring r).steady = (E.ring r).steady := by
  obtain ⟨m, steady, issued⟩ := h.steady
  rw [ring_of_steady steady, Device.ring, issued.rings]
  rfl

theorem queue (h : Ended e E p) (r : RingId) : (e.ring r).queue = (E.ring r).queue := by
  have := congrArg Ring.queue (h.ring r)
  exact this

theorem pairs (h : Ended e E p) : e.relay.pairs = E.relay.pairs := by
  obtain ⟨m, steady, issued⟩ := h.steady
  rw [relay_of_steady steady, issued.pairs]

theorem cells (h : Ended e E p) : e.relay.cells = E.relay.cells := by
  obtain ⟨m, steady, issued⟩ := h.steady
  rw [relay_of_steady steady, issued.cells]

theorem buffers (h : Ended e E p) : ∃ f : Buffer → Buffer, e.buffers = E.buffers.map f ∧
    ∀ z, (f z).id = z.id ∧ (f z).placed = z.placed ∧ (f z).address = z.address ∧ (f z).channel = z.channel := by
  obtain ⟨m, steady, issued⟩ := h.steady
  rw [buffers_of_steady steady]
  exact issued.buffers

end Ended

/-- Looking up an identity among buffers that a change has gone through. -/
theorem find_map {f : Buffer → Buffer} (h : ∀ z, (f z).id = z.id) (l : List Buffer) (k : Nat) :
    (l.map f).find? (fun y => y.id == k) = (l.find? fun y => y.id == k).map f := by
  rw [List.find?_map]
  congr 2
  funext z
  simp [h]

theorem Ended.placed (h : Ended e E p) (k : Nat) :
    (e.buffers.find? fun y => y.id == k).map Buffer.placed = (E.buffers.find? fun y => y.id == k).map Buffer.placed := by
  obtain ⟨f, hf, keeps⟩ := h.buffers
  rw [hf, find_map fun z => (keeps z).1, Option.map_map]
  congr 1
  funext z
  exact (keeps z).2.1

/-! ## The byte accepted and judged -/

/-- The blocks as a data byte of the peer is accepted, with no REPEAT left pending (R46, R59). -/
def unitHeard (d : Device) (p : PortId) (l : PeerLines) : Device :=
  d.modPort p fun x => { (x.under l).received false with repeatPending := none }

/-- The same, with the byte counted for the owner of the half it is for (R19). -/
def taken (d : Device) (p : PortId) (c : ChannelId) (l : PeerLines) : Device := (unitHeard d p l).countWire (some c)

variable {l : PeerLines}

theorem heard_clear : (heard d p l).modPort p (fun y => { y with repeatPending := none }) = unitHeard d p l := by
  unfold heard unitHeard
  rw [modPort_modPort]

theorem heard_eq_unitHeard (h : (d.port p).repeatPending = none) : heard d p l = unitHeard d p l := by
  unfold heard unitHeard
  apply modPort_congr
  dsimp only
  rw [← h]
  rfl

theorem inHalf_unitHeard : (unitHeard d p l).inHalf p n = d.inHalf p n := by
  unfold unitHeard
  exact inHalf_modPort _ _ _ _ rfl

theorem chan_taken : (taken d p c l).chan c =
    { d.chan c with
      counters := { (d.chan c).counters with wireBytes := satAdd (d.chan c).counters.wireBytes 1 } } := by
  unfold taken Device.countWire Device.countChan
  dsimp only
  rw [chan_modChan_self]
  rfl

theorem port_unitHeard : (unitHeard d p l).port p = { ((d.port p).under l).received false with repeatPending := none } := by
  unfold unitHeard
  rw [port_modPort_self]

theorem port_taken : (taken d p c l).port p = (unitHeard d p l).port p := rfl

/-- A data byte on a number with a message open brings its unit to the number's half (R45, R46). -/
theorem decode_unit (unit : s.bringsUnit p n r) (busy : (s.dev.inHalf p n).busy = true) (l : PeerLines) (b : Byte) :
    (heard s.dev p l).decode p (wireByte false b) = (unitHeard s.dev p l).takeExpanded p n b r := by
  rcases unit with ⟨norun, sel, rfl⟩ | ⟨run, -, -⟩
  · rw [decode_data b (by rw [heard_port]; exact norun) (by rw [heard_port]; exact sel), Device.decodeData,
      Device.startIfNone, heard_inHalf, if_pos busy, heard_eq_unitHeard norun]
  · have pending : ((heard s.dev p l).port p).repeatPending = some (r, n) := by rw [heard_port]; exact run
    simp only [Device.decode, pending, wireByte, Bool.false_eq_true, if_false, heard_clear]

/-- Under the open mark the unit is placed for the owner (R45). -/
theorem decode_open (unit : s.bringsUnit p n r) (opened : (s.dev.inHalf p n).openMark = true)
    (owner : (s.dev.inHalf p n).owner = some c) (l : PeerLines) (b : Byte) :
    (heard s.dev p l).decode p (wireByte false b) = Device.placeRun c b r (taken s.dev p c l) := by
  rw [decode_unit unit (by simp [InHalf.busy, opened]), Device.takeExpanded, inHalf_unitHeard, opened, owner]
  rfl

/-- The number of expanded bytes is at least one. -/
theorem unit_pos (unit : s.bringsUnit p n r) : 1 ≤ r := by
  rcases unit with ⟨-, -, rfl⟩ | ⟨-, h, -⟩
  · exact Nat.le_refl _
  · exact h

theorem unit_lt (unit : s.bringsUnit p n r) : r < 64 := by
  rcases unit with ⟨-, -, rfl⟩ | ⟨-, -, h⟩
  · decide
  · exact h

/-! ## The room the byte asks for -/

theorem roomNeeded_open (unit : s.bringsUnit p n r) (opened : (s.dev.inHalf p n).openMark = true)
    (owner : (s.dev.inHalf p n).owner = some c) : s.dev.roomNeeded p (wireByte false b) = s.dev.placedOf c r := by
  unfold Device.roomNeeded
  rcases unit with ⟨norun, sel, rfl⟩ | ⟨run, -, -⟩
  · simp [wireByte, norun, sel, opened, owner]
  · simp [wireByte, run, opened, owner]

theorem roomNeeded_discard (unit : s.bringsUnit p n r) (opened : (s.dev.inHalf p n).openMark = false)
    (discard : (s.dev.inHalf p n).discard = true) : s.dev.roomNeeded p (wireByte false b) = 0 := by
  unfold Device.roomNeeded
  rcases unit with ⟨norun, sel, rfl⟩ | ⟨run, -, -⟩
  · cases owner : (s.dev.inHalf p n).owner <;> simp [wireByte, norun, sel, owner, opened, discard]
  · cases owner : (s.dev.inHalf p n).owner <;> simp [wireByte, run, owner, opened, discard]

/-! ## The event -/

/-- The event that finds room for a byte accepts it, whether it was withheld before or not (R59). -/
theorem exec_brings {i : Instr} {w : WireByte} (brings : s.brings i p w) (good : parityGood w = true)
    (room : s.dev.roomNeeded p w ≤ (s.dev.port p).stagingRoom) :
    ∃ l, exec i s = .next { s with dev := (((heard s.dev p l).decode p w).issueInbound p).settle } := by
  rcases brings with ⟨rfl, listens⟩ | ⟨rfl, running, turn, withheld, byte⟩
  · exact ⟨_, exec_accepts listens good room⟩
  · have accepts : s.dev.acceptWithheld p = ((heard s.dev p (s.dev.port p).lines).decode p w).issueInbound p := by
      have reads : (s.dev.port p).reads = true := by rcases turn with h | h <;> simp [Port.reads, h]
      have own : (s.dev.modPort p fun x => x.under (s.dev.port p).lines) = s.dev := modPort_eq_self _ _ rfl
      have eq := acceptPeerByte_eq (d := s.dev) (p := p) (s.dev.port p).lines
      rw [own] at eq
      unfold Device.acceptWithheld
      dsimp only
      rw [byte, if_pos (by simp [withheld, reads, room]), eq, byte]
    refine ⟨(s.dev.port p).lines, ?_⟩
    rw [← accepts]
    exact congrArg Host.Outcome.next (event_eq running _)

/-- What the acceptance of a unit for a channel leaves, from the blocks as its bytes were placed. -/
theorem took {inm : InMessage} (own : (E.port p).own = ((unitHeard s.dev p l).port p).own)
    (counters : (E.chan c).counters = ((taken s.dev p c l).chan c).counters) (message : (E.chan c).inm = inm) :
    s.tookUnit { s with dev := (E.issueInbound p).settle } p c inm := by
  have h := ended E p
  generalize (E.issueInbound p).settle = e at h ⊢
  have chan := h.chan c
  have port := h.own.trans own
  rw [port_unitHeard] at port
  rw [chan_taken] at counters
  refine ⟨⟨rfl, rfl, rfl, rfl, rfl, rfl⟩, ?_, ?_, ?_, ?_, ?_⟩
  · exact (congrArg Channel.inm chan).trans message
  · exact (congrArg (fun x : Channel => x.counters.wireBytes) chan).trans (congrArg ChannelCounters.wireBytes counters)
  · have x := congrArg Port.rx port
    exact x
  · have x := congrArg (fun x : Port => x.counters.wireReceived) port
    exact x
  · have x := congrArg Port.repeatPending port
    exact x

end Sys2Proof.Placing
end

section
/-! SUPPORT. A unit with room for it: staged and, with staging empty before, written or moved at once; withheld without room; counted past
an overflow; dropped under the discard mark (R45, R59, R112, R113, R117, R131). -/

namespace Sys2Proof.Placing

open Sys2Proof.Machine Sys2Proof.LinkBytes Sys2Proof.Quiesce

variable {s : State} {d e E : Device} {p : PortId} {n : LinkNumber} {c : ChannelId} {b : Byte} {r k o m : Nat}

/-! ## A staged run written or moved at once -/

/-- The first of the writes and moves issued at an event stands among what the event leaves. -/
theorem issueInbound_later (E : Device) (p : PortId) : Issued (E.issueInbound p) (E.issueOne p) p := by
  unfold Device.issueInbound
  exact (issueOne_issued _ p).trans ((issueOne_issued _ p).trans (issueOne_issued (E.issueOne p) p))

/-- A run staged alone goes into one write, if fewer than four transfers are in flight (R113). -/
theorem issueInbound_writes {z : Buffer} (staged : (E.port p).inStaging = stagedRun (.buffer k) b o (m + 1)) (small : m + 1 ≤ 256)
    (flight : E.inboundInFlight p < 4) (found : E.buffer? k = some z) :
    ∃ q ∈ (E.issueInbound p).requests, q.access = .bufferWrite p k ∧ q.address = z.address + BitVec.ofNat 64 o ∧
      q.data = List.replicate (m + 1) b := by
  have whole := gather_stagedRun (.buffer k) b o (m + 1) Config.transferBytes small
  have first : ∃ q ∈ (E.issueOne p).requests, q.access = .bufferWrite p k ∧ q.address = z.address + BitVec.ofNat 64 o ∧
      q.data = List.replicate (m + 1) b := by
    unfold stagedRun at staged whole
    unfold Device.issueOne
    rw [if_neg (by rw [Config.writesInFlight]; omega), staged]
    dsimp only
    rw [whole]
    dsimp only
    rw [buffer?_modPort, found]
    exact ⟨_, List.mem_append_right _ (List.mem_singleton_self _), rfl, rfl, rfl⟩
  obtain ⟨q, hq, facts⟩ := first
  exact ⟨q, (issueInbound_later E p).requests q hq, facts⟩

/-- A run staged alone for a cell goes into one move (R131). -/
theorem issueInbound_moves {i : ChannelId} {j : CellId} (staged : (E.port p).inStaging = stagedRun (.cell i j) b o (m + 1))
    (small : m + 1 ≤ 256) (flight : E.inboundInFlight p < 4) :
    ∃ q ∈ (E.issueInbound p).relay.moves, q.port = p ∧ q.cell = j ∧ q.offset = o ∧ q.bytes = List.replicate (m + 1) b := by
  have whole := gather_stagedRun (.cell i j) b o (m + 1) Config.transferBytes small
  have first : ∃ q ∈ (E.issueOne p).relay.moves, q.port = p ∧ q.cell = j ∧ q.offset = o ∧ q.bytes = List.replicate (m + 1) b := by
    unfold stagedRun at staged whole
    unfold Device.issueOne
    rw [if_neg (by rw [Config.writesInFlight]; omega), staged]
    dsimp only
    rw [whole]
    refine ⟨{ id := E.serial, port := p, cell := j, offset := o, bytes := List.replicate (m + 1) b }, ?_, rfl, rfl, rfl, rfl⟩
    exact List.mem_append_right _ (List.mem_singleton_self _)
  obtain ⟨q, hq, facts⟩ := first
  exact ⟨q, (issueInbound_later E p).moves q hq, facts⟩

/-! ## A unit placed -/

theorem destination_buffer (kind : (d.chan c).kind = .inn) (buffer : (d.chan c).inm.buffer = some k) :
    destination d c = some (.buffer k) := by
  simp [destination, kind, buffer]

theorem destination_cell {y : RelayPair} {j : CellId} (kind : (d.chan c).kind = .relayIn) (pair : d.pair c = some y)
    (filling : y.filling = some j) : destination d c = some (.cell c j) := by
  simp [destination, kind, pair, filling]

theorem destination_taken (l : PeerLines) : destination (taken d p c l) c = destination d c := by
  have pair : (taken d p c l).pair c = d.pair c := rfl
  unfold destination
  rw [chan_taken, pair]

theorem capacity_taken (l : PeerLines) : ((taken d p c l).chan c).capacity = (d.chan c).capacity := by
  rw [chan_taken]
  rfl

theorem capacity_eq (x : Channel) :
    (if x.kind = .relayIn then 1024 else (x.held.head?.map HostRecord.size).getD 0) = x.capacity := by
  simp [Channel.capacity, Config.cellBytes]

/-- A unit that fits asks for as much staging room as it has bytes, and one past an overflow for none (R112, R117). -/
theorem placedOf_fits (writing : (d.chan c).inm.mode = .writing) (fits : (d.chan c).inm.fill + r ≤ (d.chan c).capacity) :
    d.placedOf c r = r := by
  unfold Device.placedOf
  simp only [writing, beq_self_eq_true, if_true]
  exact if_pos (by omega)

theorem placedOf_past (past : (d.chan c).inm.mode ≠ .writing) : d.placedOf c r = 0 := by
  unfold Device.placedOf
  exact if_neg (by simpa using past)

/-- What a staged run leaves of a channel's counters and its port's own fields. -/
theorem took_stageRun {l : PeerLines} {t : Destination} (port : (s.dev.chan c).port = p) :
    s.tookUnit { s with dev := ((stageRun (taken s.dev p c l) c t b r).issueInbound p).settle } p c
      { (s.dev.chan c).inm with fill := (s.dev.chan c).inm.fill + r, total := totalAfter (s.dev.chan c).inm.total r } := by
  subst port
  refine took (l := l) ?_ ?_ ?_
  · have h := port_stageRun (d := taken s.dev (s.dev.chan c).port c l) (c := c) (t := t) (b := b) (n := r)
    rw [chan_taken] at h
    rw [h, port_taken]
    rfl
  · rw [chan_stageRun]
    rfl
  · rw [chan_stageRun, chan_taken]
    rfl

/-- The staging of a port with nothing staged, after a run. -/
theorem staged_stageRun {l : PeerLines} {t : Destination} (port : (s.dev.chan c).port = p) (empty : (s.dev.port p).inStaging = []) :
    ((stageRun (taken s.dev p c l) c t b r).port p).inStaging = stagedRun t b (s.dev.chan c).inm.fill r := by
  subst port
  have h := port_stageRun (d := taken s.dev (s.dev.chan c).port c l) (c := c) (t := t) (b := b) (n := r)
  rw [chan_taken] at h
  rw [h, port_taken, port_unitHeard]
  have : (((s.dev.port (s.dev.chan c).port).under l).received false).inStaging = [] := empty
  simp only [withStaged, this, List.nil_append]

/-- A unit for which there is room in the buffer or cell and in staging is staged as its event judges it (R112, R117). -/
theorem exec_places {i : Instr} {t : Destination} (unit : s.bringsUnit p n r) (owner : (s.dev.inHalf p n).owner = some c)
    (opened : (s.dev.inHalf p n).openMark = true) (writing : (s.dev.chan c).inm.mode = .writing)
    (fits : (s.dev.chan c).inm.fill + r ≤ (s.dev.chan c).capacity) (room : r ≤ 512 - (s.dev.port p).inStaging.length)
    (brings : s.brings i p (wireByte false b)) (dest : destination s.dev c = some t) :
    ∃ l, exec i s = .next { s with dev := ((stageRun (taken s.dev p c l) c t b r).issueInbound p).settle } := by
  obtain ⟨l, hl⟩ := exec_brings brings (parityGood_wireByte _ _)
    (by rw [roomNeeded_open unit opened owner, placedOf_fits writing fits]; exact room)
  refine ⟨l, ?_⟩
  rw [hl, decode_open unit opened owner, placeRun_fits (by rw [chan_taken]; exact writing) ((destination_taken l).trans dest)
    (by rw [capacity_taken, chan_taken]; exact fits)]

/-- A unit placed in a host buffer (R112, R113). -/
theorem places_in_buffer {i : Instr} {z : Buffer} (unit : s.bringsUnit p n r) (owner : (s.dev.inHalf p n).owner = some c)
    (port : (s.dev.chan c).port = p) (opened : (s.dev.inHalf p n).openMark = true) (writing : (s.dev.chan c).inm.mode = .writing)
    (fits : (s.dev.chan c).inm.fill + r ≤ (s.dev.chan c).capacity) (room : r ≤ 512 - (s.dev.port p).inStaging.length)
    (brings : s.brings i p (wireByte false b)) (kind : (s.dev.chan c).kind = .inn) (buffer : (s.dev.chan c).inm.buffer = some k)
    (found : s.dev.buffers.find? (fun y => y.id == k) = some z) :
    ∃ t, exec i s = .next t ∧
      s.tookUnit t p c
        { (s.dev.chan c).inm with fill := (s.dev.chan c).inm.fill + r, total := min ((s.dev.chan c).inm.total + r) 4294967295 } ∧
      (t.dev.buffers.find? fun y => y.id == k).map Buffer.placed = some (z.placed + r) ∧
      ((s.dev.port p).inStaging = [] → s.dev.inboundInFlight p < 4 →
        ∃ q ∈ t.dev.requests,
          q.access = .bufferWrite p k ∧ q.address = z.address + BitVec.ofNat 64 (s.dev.chan c).inm.fill ∧
            q.data = List.replicate r b) := by
  obtain ⟨l, hl⟩ := exec_places unit owner opened writing fits room brings (destination_buffer kind buffer)
  obtain ⟨m, rfl⟩ := Nat.exists_eq_add_of_le' (unit_pos unit)
  have small := unit_lt unit
  have id : z.id = k := by simpa using List.find?_some found
  have after : (stageRun (taken s.dev p c l) c (.buffer k) b (m + 1)).buffer? k = some { z with placed := z.placed + (m + 1) } := by
    rw [Device.buffer?, buffers_stageRun, find_map (fillOf_id _ _)]
    have : (taken s.dev p c l).buffers.find? (fun y => y.id == k) = some z := found
    rw [this, Option.map_some, fillOf, if_pos (by rw [id])]
  have atEnd := ended (stageRun (taken s.dev p c l) c (.buffer k) b (m + 1)) p
  refine ⟨_, hl, ?_, ?_, fun empty flight => ?_⟩
  · rw [← totalAfter_pos _ (unit_pos unit)]
    exact took_stageRun port
  · rw [atEnd.placed k]
    have placed := congrArg (Option.map Buffer.placed) after
    exact placed
  · obtain ⟨q, hq, facts⟩ := issueInbound_writes (staged_stageRun port empty) (by omega) flight after
    exact ⟨q, atEnd.requests q hq, facts⟩

/-- A unit placed in the filling cell (R131). -/
theorem places_in_cell {i : Instr} {y : RelayPair} {j : CellId} (unit : s.bringsUnit p n r)
    (owner : (s.dev.inHalf p n).owner = some c) (port : (s.dev.chan c).port = p) (opened : (s.dev.inHalf p n).openMark = true)
    (writing : (s.dev.chan c).inm.mode = .writing) (fits : (s.dev.chan c).inm.fill + r ≤ (s.dev.chan c).capacity)
    (room : r ≤ 512 - (s.dev.port p).inStaging.length) (brings : s.brings i p (wireByte false b))
    (kind : (s.dev.chan c).kind = .relayIn) (pair : s.dev.pair c = some y) (filling : y.filling = some j) :
    ∃ t, exec i s = .next t ∧
      s.tookUnit t p c
        { (s.dev.chan c).inm with fill := (s.dev.chan c).inm.fill + r, total := min ((s.dev.chan c).inm.total + r) 4294967295 } ∧
      t.dev.pair c = some y ∧
      ((s.dev.port p).inStaging = [] → s.dev.inboundInFlight p < 4 →
        ∃ q ∈ t.dev.relay.moves,
          q.port = p ∧ q.cell = j ∧ q.offset = (s.dev.chan c).inm.fill ∧ q.bytes = List.replicate r b) := by
  obtain ⟨l, hl⟩ := exec_places unit owner opened writing fits room brings (destination_cell kind pair filling)
  obtain ⟨m, rfl⟩ := Nat.exists_eq_add_of_le' (unit_pos unit)
  have small := unit_lt unit
  refine ⟨_, hl, ?_, ?_, fun empty flight => ?_⟩
  · rw [← totalAfter_pos _ (unit_pos unit)]
    exact took_stageRun port
  · rw [Device.pair, (ended _ p).pairs]
    exact pair
  · rw [(ended _ p).moves]
    exact issueInbound_moves (staged_stageRun port empty) (by omega) flight

/-! ## A unit withheld, counted alone, or dropped -/

/-- Without room in staging, the byte's acceptance is withheld and counted (R59). -/
theorem withheld_becomes {w : WireByte} (listens : s.listens p) (good : parityGood w = true)
    (room : (s.dev.port p).stagingRoom < s.dev.roomNeeded p w) :
    ∃ t, exec (.peerByteOffered p w) s = .next t ∧
      s.becomes t
        (s.dev.modPort p fun y =>
          { y.under (y.lines.offering w) with
            rx := .withheld, counters := { y.counters with withheld := satAdd y.counters.withheld 1 } }) := by
  refine ⟨_, exec_offered listens w, ⟨rfl, rfl, rfl, rfl, rfl, rfl⟩, ?_⟩
  obtain ⟨-, turn, -, quiet⟩ := listens
  have stands : (s.dev.modPort p fun x => x.under (x.lines.offering w)).peerByteStands p =
      s.dev.modPort p fun y =>
        { y.under (y.lines.offering w) with
          rx := .withheld, counters := { y.counters with withheld := satAdd y.counters.withheld 1 } } := by
    unfold Device.peerByteStands
    dsimp only
    rw [port_modPort_self, roomNeeded_under, if_neg, if_neg, if_pos]
    · unfold Device.countPort
      rw [modPort_modPort, modPort_modPort]
      rfl
    · exact room
    · simpa [Port.under, PeerLines.offering] using good
    · rcases turn with e | e <;> simp [Port.under, PeerLines.offering, Port.reads, e, quiet]
  rw [settle_steady, stands]

/-- The record of a port as a data byte offered to it is heard. -/
theorem unitHeard_offering (w : WireByte) :
    unitHeard d p ((d.port p).lines.offering w) =
      d.modPort p fun y => { (y.under (y.lines.offering w)).received false with repeatPending := none } := by
  unfold unitHeard
  exact modPort_congr _ _ rfl

/-- Past an overflow, only the total grows (R114, R115). -/
theorem past_becomes (unit : s.bringsUnit p n r) (owner : (s.dev.inHalf p n).owner = some c)
    (opened : (s.dev.inHalf p n).openMark = true) (past : (s.dev.chan c).inm.mode ≠ .writing) (listens : s.listens p) :
    ∃ t, exec (.peerByteOffered p (wireByte false b)) s = .next t ∧
      s.becomes t
        (((s.dev.modPort p fun y =>
            { (y.under (y.lines.offering (wireByte false b))).received false with repeatPending := none }).modChan c fun y =>
          { y with
            inm := { y.inm with total := min ((s.dev.chan c).inm.total + r) 4294967295 }
            counters := { y.counters with wireBytes := satAdd y.counters.wireBytes 1 } }).issueInbound p) := by
  refine ⟨_, exec_accepts listens (parityGood_wireByte _ _)
    (by rw [roomNeeded_open unit opened owner, placedOf_past past]; exact Nat.zero_le _), ⟨rfl, rfl, rfl, rfl, rfl, rfl⟩, ?_⟩
  rw [settle_steady, decode_open unit opened owner, placeRun_past (by rw [chan_taken]; exact past), ← unitHeard_offering,
    ← totalAfter_pos _ (unit_pos unit)]
  unfold countRun taken Device.countWire Device.countChan Device.modInMsg
  dsimp only
  rw [modChan_modChan]
  rfl

/-- Under the discard mark the byte is dropped and counted (R45). -/
theorem discard_becomes (unit : s.bringsUnit p n r) (opened : (s.dev.inHalf p n).openMark = false)
    (discard : (s.dev.inHalf p n).discard = true) (listens : s.listens p) :
    ∃ t, exec (.peerByteOffered p (wireByte false b)) s = .next t ∧
      s.becomes t
        ((s.dev.modPort p fun y =>
          { y.under (y.lines.offering (wireByte false b)) with
            rx := .accepted, repeatPending := none
            counters :=
              { ((y.under (y.lines.offering (wireByte false b))).received false).counters with
                discarded := satAdd y.counters.discarded 1 } }).issueInbound p) := by
  refine ⟨_, exec_accepts listens (parityGood_wireByte _ _)
    (by rw [roomNeeded_discard unit opened discard]; exact Nat.zero_le _), ⟨rfl, rfl, rfl, rfl, rfl, rfl⟩, ?_⟩
  rw [settle_steady, decode_unit unit (by simp [InHalf.busy, discard]), Device.takeExpanded, inHalf_unitHeard, opened]
  unfold Device.countDiscarded Device.countPort unitHeard
  dsimp only
  rw [if_neg (by decide), modPort_modPort]
  exact congrArg (fun e : Device => (e.issueInbound p).steady) (modPort_congr _ _ rfl)

end Sys2Proof.Placing
end

section
/-! SUPPORT. The overflow of a buffer or of a cell under the policies DROP and TRUNCATE (R114, R115, R131). -/

namespace Sys2Proof.Placing

open Sys2Proof.Machine Sys2Proof.LinkBytes Sys2Proof.Quiesce

variable {s : State} {d e E X : Device} {p : PortId} {n : LinkNumber} {c : ChannelId} {t : Destination} {b : Byte} {r k m : Nat}
  {l : PeerLines}

/-! ## A run up to the overflow -/

/-- The bytes a buffer or a cell still has room for. -/
def spaceLeft (d : Device) (c : ChannelId) : Nat := (d.chan c).capacity - (d.chan c).inm.fill

/-- The blocks as the bytes up to an overflow have been staged. -/
def filled (d : Device) (c : ChannelId) (t : Destination) (b : Byte) : Device := stageRun d c t b (spaceLeft d c)

theorem chan_filled : (filled d c t b).chan c = grown (spaceLeft d c) (d.chan c) := chan_stageRun

/-- A run that passes the capacity is staged up to it, and goes on with the overflow (R114). -/
theorem placeRun_overflows (writing : (d.chan c).inm.mode = .writing) (dest : destination d c = some t)
    (under : (d.chan c).inm.fill ≤ (d.chan c).capacity) (beyond : (d.chan c).capacity < (d.chan c).inm.fill + r) :
    Device.placeRun c b r d = Device.placeRun c b (r - spaceLeft d c - 1) ((filled d c t b).placeByte c b) := by
  have split : r = spaceLeft d c + (r - spaceLeft d c - 1 + 1) := by unfold spaceLeft; omega
  have fits : (d.chan c).inm.fill + spaceLeft d c ≤ (d.chan c).capacity := by unfold spaceLeft; omega
  calc Device.placeRun c b r d = Device.placeRun c b (spaceLeft d c + (r - spaceLeft d c - 1 + 1)) d := by rw [← split]
    _ = Device.placeRun c b (r - spaceLeft d c - 1 + 1) (filled d c t b) := by rw [placeRun_add, placeRun_fits writing dest fits, filled]
    _ = _ := rfl

/-- A byte for a full buffer or cell is the overflow (R114, R131). -/
theorem placeByte_full (writing : (d.chan c).inm.mode = .writing) (full : (d.chan c).capacity ≤ (d.chan c).inm.fill) :
    d.placeByte c b = if (d.chan c).kind == .relayIn then d.overflowCell c else d.overflowBuffer c b := by
  unfold Device.placeByte
  simp only [writing, beq_self_eq_true, if_true]
  exact if_neg (by omega)

/-- The overflow of a run whose buffer or cell has been filled. -/
theorem placeByte_filled (writing : (d.chan c).inm.mode = .writing) :
    (filled d c t b).placeByte c b =
      if (d.chan c).kind == .relayIn then (filled d c t b).overflowCell c else (filled d c t b).overflowBuffer c b := by
  have full := placeByte_full (d := filled d c t b) (c := c) (b := b)
  rw [chan_filled] at full
  refine full writing ?_
  rw [grown_fill]
  have same : (grown (spaceLeft d c) (d.chan c)).capacity = (d.chan c).capacity := rfl
  rw [same, spaceLeft]
  omega

/-- A run whose overflow leaves the mode WRITING: from then on only the total grows. -/
theorem placeRun_leaves (writing : (d.chan c).inm.mode = .writing) (dest : destination d c = some t)
    (under : (d.chan c).inm.fill ≤ (d.chan c).capacity) (beyond : (d.chan c).capacity < (d.chan c).inm.fill + r)
    (first : (filled d c t b).placeByte c b = countRun X c 1) (past : (X.chan c).inm.mode ≠ .writing) :
    Device.placeRun c b r d = countRun X c (r - spaceLeft d c) := by
  rw [placeRun_overflows writing dest under beyond, first, placeRun_past (by rw [chan_countRun]; exact past), countRun_add]
  congr 1
  unfold spaceLeft
  omega

theorem chan_setMode (mode : InMode) : (d.setMode c mode).chan c =
    { d.chan c with inm := { (d.chan c).inm with mode := mode } } := by
  unfold Device.setMode Device.modInMsg
  rw [chan_modChan_self]

theorem filled_own (port : (d.chan c).port = p) : ((filled d c t b).port p).own = (d.port p).own := by
  subst port
  rw [filled, port_stageRun]
  rfl

/-- What an overflow leaves that keeps the port's own fields and the channel but for its mode. -/
theorem took_overflow {mode : InMode} (own : (X.port p).own = ((unitHeard s.dev p l).port p).own)
    (counters : (X.chan c).counters = ((taken s.dev p c l).chan c).counters)
    (inm : (X.chan c).inm = { ((filled (taken s.dev p c l) c t b).chan c).inm with mode := mode })
    (under : (s.dev.chan c).inm.fill ≤ (s.dev.chan c).capacity)
    (beyond : (s.dev.chan c).capacity < (s.dev.chan c).inm.fill + r) :
    s.tookUnit { s with dev := ((countRun X c (r - spaceLeft (taken s.dev p c l) c)).issueInbound p).settle } p c
      { (s.dev.chan c).inm with
        fill := (s.dev.chan c).capacity, total := min ((s.dev.chan c).inm.total + r) 4294967295, mode := mode } := by
  have space : spaceLeft (taken s.dev p c l) c = (s.dev.chan c).capacity - (s.dev.chan c).inm.fill := by
    rw [spaceLeft, capacity_taken, chan_taken]
  rw [chan_filled, space, chan_taken] at inm
  rw [space]
  refine took (l := l) own (by rw [chan_countRun]; exact counters) ?_
  rw [chan_countRun, inm]
  dsimp only [grown]
  rw [totalAfter_add, Nat.add_sub_of_le under,
    show (s.dev.chan c).capacity - (s.dev.chan c).inm.fill + (r - ((s.dev.chan c).capacity - (s.dev.chan c).inm.fill)) = r by omega,
    totalAfter_pos _ (by omega)]

end Sys2Proof.Placing
end

section
/-! SUPPORT. What the first overflow leaves under TRUNCATE and under DROP, for a host buffer and for a cell (R114, R115, R131). -/

namespace Sys2Proof.Placing

open Sys2Proof.Machine Sys2Proof.LinkBytes Sys2Proof.Quiesce

variable {s : State} {d e E X : Device} {p : PortId} {n : LinkNumber} {c : ChannelId} {t : Destination} {b : Byte} {r k m : Nat}
  {l : PeerLines}

/-! ## The unit that passes the capacity -/

/-- A unit of the peer passes the capacity of an open message's buffer or cell. -/
structure Overflows (s : State) (p : PortId) (n : LinkNumber) (r : Nat) (c : ChannelId) : Prop where
  unit : s.bringsUnit p n r
  owner : (s.dev.inHalf p n).owner = some c
  port : (s.dev.chan c).port = p
  number : (s.dev.chan c).number = n
  opened : (s.dev.inHalf p n).openMark = true
  writing : (s.dev.chan c).inm.mode = .writing
  under : (s.dev.chan c).inm.fill ≤ (s.dev.chan c).capacity
  beyond : (s.dev.chan c).capacity < (s.dev.chan c).inm.fill + r
  listens : s.listens p

/-- A channel's overflow goes on in the next record: CHAIN, with a record that no credit stands behind, and a slot (R116). -/
def Chains (d : Device) (c : ChannelId) : Prop :=
  (d.chan c).overflow = .chain ∧ 1 ≤ d.unpromised c ∧ 1 ≤ (d.ring (cqRing (d.chan c).ring)).room

theorem unpromised_taken : (taken d p c l).unpromised c = d.unpromised c := by
  have half : ∀ q m, (taken d p c l).inHalf q m = d.inHalf q m := fun q m => by
    have : (taken d p c l).inHalf q m = (unitHeard d p l).inHalf q m := rfl
    rw [this]
    exact inHalf_modPort _ _ _ _ rfl
  unfold Device.unpromised
  rw [chan_taken]
  dsimp only
  rw [half]

theorem unpromised_filled : (filled d c t b).unpromised c = d.unpromised c := by
  unfold Device.unpromised
  rw [chan_filled]
  have half : ∀ q m, (filled d c t b).inHalf q m = d.inHalf q m := inHalf_stageRun
  dsimp only
  rw [half]
  rfl

theorem chains_filled_taken : Chains (filled (taken d p c l) c t b) c ↔ Chains d c := by
  unfold Chains
  rw [chan_filled, unpromised_filled, unpromised_taken, chan_taken]
  rfl

/-- The room of a ring in the terms of R144. -/
theorem room_pos (x : Ring) : 1 ≤ x.room ↔ x.hasRoom := by
  have same : x.unconsumed = x.filled := rfl
  unfold Ring.room Ring.hasRoom
  rw [same]
  cases x.isSet
  · simp
  · simp only [if_true, true_and]
    omega

/-- The condition of CHAIN in the terms of the half's credits (R116). -/
theorem chains_iff (h : Overflows s p n r c) : Chains s.dev c ↔
    (s.dev.chan c).overflow = .chain ∧ (s.dev.inHalf p n).granted + (s.dev.inHalf p n).inFlight + 2 ≤ (s.dev.chan c).held.length ∧
      (s.dev.ring (s.dev.chan c).ring.castSucc).hasRoom := by
  unfold Chains Device.unpromised
  dsimp only
  rw [room_pos, h.port, h.number, cqRing]
  refine and_congr_right fun _ => and_congr_left fun _ => ?_
  omega

theorem chainPlaces_zero (l : List Nat) (k : Nat) : chainPlaces l 0 k = 0 := by cases l <;> rfl

/-- A unit that overflows and does not chain asks for the room of the bytes up to the capacity (R117). -/
theorem placedOf_stays (h : Overflows s p n r c) (stays : (s.dev.chan c).kind ≠ .inn ∨ ¬ Chains s.dev c) :
    s.dev.placedOf c r = spaceLeft s.dev c := by
  have beyond := h.beyond
  have under := h.under
  unfold Device.placedOf spaceLeft
  simp only [h.writing, beq_self_eq_true, if_true]
  rw [if_neg (by omega)]
  split
  · next e =>
    simp only [Bool.and_eq_true, beq_iff_eq] at e
    rcases stays with kind | stays
    · exact absurd e.1 kind
    · have none : min (s.dev.unpromised c) (s.dev.ring (cqRing (s.dev.chan c).ring)).room = 0 := by
        by_contra some
        exact stays ⟨e.2, by omega, by omega⟩
      rw [none, chainPlaces_zero]
      rfl
  · rfl

theorem exec_overflows (h : Overflows s p n r c) (room : s.dev.placedOf c r ≤ 512 - (s.dev.port p).inStaging.length) :
    ∃ l, exec (.peerByteOffered p (wireByte false b)) s =
      .next { s with dev := ((Device.placeRun c b r (taken s.dev p c l)).issueInbound p).settle } := by
  refine ⟨(s.dev.port p).lines.offering (wireByte false b), ?_⟩
  rw [exec_accepts h.listens (parityGood_wireByte _ _) (by rw [roomNeeded_open h.unit h.opened h.owner]; exact room),
    decode_open h.unit h.opened h.owner]

/-- An overflow that leaves the mode WRITING, in one event. -/
theorem exec_leaves {X : PeerLines → Device} (h : Overflows s p n r c) (dest : destination s.dev c = some t)
    (stays : (s.dev.chan c).kind ≠ .inn ∨ ¬ Chains s.dev c) (room : spaceLeft s.dev c ≤ 512 - (s.dev.port p).inStaging.length)
    (first : ∀ l, (filled (taken s.dev p c l) c t b).placeByte c b = countRun (X l) c 1)
    (past : ∀ l, ((X l).chan c).inm.mode ≠ .writing) :
    ∃ l, exec (.peerByteOffered p (wireByte false b)) s =
      .next { s with dev := ((countRun (X l) c (r - spaceLeft (taken s.dev p c l) c)).issueInbound p).settle } := by
  obtain ⟨l, hl⟩ := exec_overflows h (by rw [placedOf_stays h stays]; exact room)
  refine ⟨l, ?_⟩
  rw [hl, placeRun_leaves (by rw [chan_taken]; exact h.writing) ((destination_taken l).trans dest)
    (by rw [capacity_taken, chan_taken]; exact h.under) (by rw [capacity_taken, chan_taken]; exact h.beyond) (first l) (past l)]

/-! ## TRUNCATE -/

theorem overflowCell_truncates (policy : (d.chan c).overflow ≠ .drop) : d.overflowCell c = countRun (d.setMode c .truncating) c 1 := by
  unfold Device.overflowCell
  cases e : (d.chan c).overflow
  case drop => exact absurd e policy
  all_goals rfl

theorem overflowBuffer_truncates (policy : (d.chan c).overflow ≠ .drop) (stays : ¬ Chains d c) :
    d.overflowBuffer c b = countRun (d.setMode c .truncating) c 1 := by
  unfold Device.overflowBuffer
  dsimp only
  cases e : (d.chan c).overflow
  case drop => exact absurd e policy
  case truncate => rfl
  case chain =>
    dsimp only
    rw [if_neg fun both => stays ⟨e, both.1, both.2⟩]
    rfl

/-- An overflow that goes on counting: the buffer or cell is filled, and the mode TRUNCATING (R115). -/
theorem truncates (h : Overflows s p n r c) (dest : destination s.dev c = some t) (policy : (s.dev.chan c).overflow ≠ .drop)
    (stays : (s.dev.chan c).kind = .relayIn ∨ ¬ Chains s.dev c) (room : spaceLeft s.dev c ≤ 512 - (s.dev.port p).inStaging.length) :
    ∃ u, exec (.peerByteOffered p (wireByte false b)) s = .next u ∧
      s.tookUnit u p c { (s.dev.chan c).inm with
        fill := (s.dev.chan c).capacity, total := min ((s.dev.chan c).inm.total + r) 4294967295, mode := .truncating } ∧
      (∀ k, (u.dev.buffers.find? fun y => y.id == k).map Buffer.placed =
        ((s.dev.buffers.find? fun y => y.id == k).map (fillOf t (spaceLeft s.dev c))).map Buffer.placed) ∧
      u.dev.pair c = s.dev.pair c := by
  have first : ∀ l, (filled (taken s.dev p c l) c t b).placeByte c b =
      countRun ((filled (taken s.dev p c l) c t b).setMode c .truncating) c 1 := fun l => by
    have same : (filled (taken s.dev p c l) c t b).chan c = grown _ ((taken s.dev p c l).chan c) := chan_filled
    have policy' : ((filled (taken s.dev p c l) c t b).chan c).overflow ≠ .drop := by rw [same, chan_taken]; exact policy
    rw [placeByte_filled (by rw [chan_taken]; exact h.writing), chan_taken]
    dsimp only
    by_cases kind : (s.dev.chan c).kind = .relayIn
    · rw [if_pos (by simp [kind]), overflowCell_truncates policy']
    · rw [if_neg (by simp [kind]),
        overflowBuffer_truncates policy' fun x => stays.resolve_left kind (chains_filled_taken.mp x)]
  obtain ⟨l, hl⟩ := exec_leaves h dest (stays.imp_left fun kind => by simp [kind]) room first
    fun l => by rw [chan_setMode]; simp
  have space : spaceLeft (taken s.dev p c l) c = spaceLeft s.dev c := by rw [spaceLeft, capacity_taken, chan_taken]; rfl
  have atEnd := ended (countRun ((filled (taken s.dev p c l) c t b).setMode c .truncating) c (r - spaceLeft (taken s.dev p c l) c)) p
  refine ⟨_, hl, took_overflow (t := t) (b := b) (l := l) ?_ ?_ ?_ h.under h.beyond, fun k => ?_, ?_⟩
  · have own := filled_own (d := taken s.dev p c l) (t := t) (b := b) (p := p) (c := c) (by rw [chan_taken]; exact h.port)
    exact own
  · rw [chan_setMode, chan_filled]
    rfl
  · rw [chan_setMode]
  · rw [atEnd.placed k]
    have : (countRun ((filled (taken s.dev p c l) c t b).setMode c .truncating) c (r - spaceLeft (taken s.dev p c l) c)).buffers =
        s.dev.buffers.map (fillOf t (spaceLeft (taken s.dev p c l) c)) := rfl
    rw [this, find_map (fillOf_id _ _), space]
  · rw [Device.pair, atEnd.pairs]
    rfl

/-! ## DROP for a host buffer -/

/-- The blocks as an overflow under DROP leaves the staged bytes of the buffer behind (R114). -/
def droppedAt (d : Device) (c : ChannelId) : Device :=
  (d.setMode c .dropping).dropStaged (d.chan c).port fun z => (d.chan c).inm.buffer == some z.id

theorem overflowBuffer_drops (policy : (d.chan c).overflow = .drop) : d.overflowBuffer c b = countRun (droppedAt d c) c 1 := by
  unfold Device.overflowBuffer
  dsimp only
  rw [policy]
  rfl

theorem chan_droppedAt : (droppedAt d c).chan c = { d.chan c with inm := { (d.chan c).inm with mode := .dropping } } := chan_setMode _

/-- A staged byte that is for none of some buffers. -/
def notFor (ids : List Nat) (x : StagedByte) : Bool := match x.dest with | .buffer k => !ids.contains k | _ => true

/-- The staging of a port of which the bytes for some buffers have been dropped. -/
theorem dropStaged_port (sel : Buffer → Bool) : (d.dropStaged p sel).port p =
    { d.port p with inStaging := (d.port p).inStaging.filter (notFor ((d.buffers.filter sel).map Buffer.id)) } := by
  have port := port_modPort_self d p fun x =>
    { x with inStaging := x.inStaging.filter (notFor ((d.buffers.filter sel).map Buffer.id)) }
  exact port

/-- A buffer for which no more bytes are waited for than were issued, if it is among those dropped. -/
def dropFrom (sel : Buffer → Bool) (z : Buffer) : Buffer := if sel z then { z with placed := z.issued } else z

theorem dropFrom_id (sel : Buffer → Bool) (z : Buffer) : (dropFrom sel z).id = z.id := by
  unfold dropFrom
  split <;> rfl

/-- The bytes staged for a buffer dropped are gone. -/
theorem dropStaged_gone {sel : Buffer → Bool} {z : Buffer} (mem : z ∈ d.buffers) (chosen : sel z = true) :
    ∀ x ∈ ((d.dropStaged p sel).port p).inStaging, x.dest ≠ .buffer z.id := by
  intro x hx e
  rw [dropStaged_port] at hx
  have keep := (List.mem_filter.mp hx).2
  unfold notFor at keep
  rw [e] at keep
  have : z.id ∈ (d.buffers.filter sel).map Buffer.id := List.mem_map_of_mem (List.mem_filter.mpr ⟨mem, chosen⟩)
  simp only [Bool.not_eq_true', List.contains_eq_mem, decide_eq_false_iff_not] at keep
  exact keep this

/-- DROP: the buffer is filled, its staged bytes are dropped, and what was placed for it is what was issued (R114). -/
theorem drops {z : Buffer} (h : Overflows s p n r c) (kind : (s.dev.chan c).kind = .inn) (buffer : (s.dev.chan c).inm.buffer = some k)
    (found : s.dev.buffers.find? (fun y => y.id == k) = some z) (policy : (s.dev.chan c).overflow = .drop)
    (room : spaceLeft s.dev c ≤ 512 - (s.dev.port p).inStaging.length) :
    ∃ u, exec (.peerByteOffered p (wireByte false b)) s = .next u ∧
      s.tookUnit u p c { (s.dev.chan c).inm with
        fill := (s.dev.chan c).capacity, total := min ((s.dev.chan c).inm.total + r) 4294967295, mode := .dropping } ∧
      (u.dev.buffers.find? fun y => y.id == k).map Buffer.placed = some z.issued ∧
      ∀ y ∈ (u.dev.port p).inStaging, y.dest ≠ .buffer k := by
  have dest := destination_buffer kind buffer
  have stays : ¬ Chains s.dev c := fun x => by have := x.1; rw [policy] at this; cases this
  have chan : ∀ l, (filled (taken s.dev p c l) c (.buffer k) b).chan c = grown _ ((taken s.dev p c l).chan c) := fun l => chan_filled
  have first : ∀ l, (filled (taken s.dev p c l) c (.buffer k) b).placeByte c b =
      countRun (droppedAt (filled (taken s.dev p c l) c (.buffer k) b) c) c 1 := fun l => by
    rw [placeByte_filled (by rw [chan_taken]; exact h.writing), chan_taken, if_neg (by simp [kind]),
      overflowBuffer_drops (by rw [chan l, chan_taken]; exact policy)]
  obtain ⟨l, hl⟩ := exec_leaves h dest (.inr stays) room first fun l => by rw [chan_droppedAt]; simp
  obtain ⟨F, hF⟩ : ∃ F, F = filled (taken s.dev p c l) c (.buffer k) b := ⟨_, rfl⟩
  rw [← hF] at hl
  have chanF : F.chan c = grown (spaceLeft (taken s.dev p c l) c) ((taken s.dev p c l).chan c) := by rw [hF]; exact chan_filled
  have portF : (F.chan c).port = p := by rw [chanF, chan_taken]; exact h.port
  have bufferF : (F.chan c).inm.buffer = some k := by rw [chanF, chan_taken]; exact buffer
  have ownF : (F.port p).own = ((taken s.dev p c l).port p).own := by
    rw [hF]
    exact filled_own (by rw [chan_taken]; exact h.port)
  have id : z.id = k := by simpa using List.find?_some found
  have foundF : F.buffers.find? (fun y => y.id == k) = some (fillOf (.buffer k) (spaceLeft (taken s.dev p c l) c) z) := by
    have : F.buffers = s.dev.buffers.map (fillOf (.buffer k) (spaceLeft (taken s.dev p c l) c)) := by rw [hF]; rfl
    rw [this, find_map (fillOf_id _ _), found]
    rfl
  have portD : (droppedAt F c).port p = ((F.setMode c .dropping).dropStaged p fun z => (F.chan c).inm.buffer == some z.id).port p := by
    rw [droppedAt, portF]
  have atEnd := ended (countRun (droppedAt F c) c (r - spaceLeft (taken s.dev p c l) c)) p
  refine ⟨_, hl, took_overflow (t := .buffer k) (b := b) (l := l) ?_ ?_ ?_ h.under h.beyond, ?_, fun y hy => ?_⟩
  · rw [portD, dropStaged_port]
    exact ownF
  · rw [chan_droppedAt, chanF]
    rfl
  · rw [chan_droppedAt, hF]
  · rw [atEnd.placed k]
    have : (countRun (droppedAt F c) c (r - spaceLeft (taken s.dev p c l) c)).buffers =
        F.buffers.map (dropFrom fun z => (F.chan c).inm.buffer == some z.id) := rfl
    rw [this, find_map (dropFrom_id _), foundF, bufferF]
    simp [fillOf, dropFrom, id]
  · dsimp only at hy
    have staged := atEnd.staged y hy
    have mem := List.mem_of_find?_eq_some foundF
    have port : (countRun (droppedAt F c) c (r - spaceLeft (taken s.dev p c l) c)).port p = (droppedAt F c).port p := rfl
    rw [port, portD] at staged
    have gone := dropStaged_gone (d := F.setMode c .dropping) (p := p) (sel := fun z => (F.chan c).inm.buffer == some z.id) mem
      (by rw [bufferF, fillOf_id, id]; simp) y staged
    rw [fillOf_id, id] at gone
    exact gone

end Sys2Proof.Placing
end

section
/-! SUPPORT. The overflow of a cell under DROP, which gives the filling cell up (R131). -/

namespace Sys2Proof.Placing

open Sys2Proof.Machine Sys2Proof.LinkBytes Sys2Proof.Quiesce

variable {s : State} {d e E : Device} {p : PortId} {n : LinkNumber} {c : ChannelId} {b : Byte} {r : Nat} {j : CellId}
  {y : RelayPair} {l : PeerLines}

/-- The blocks as a filling cell has gone back to spare with its staged bytes and moves cancelled, before the generator runs. -/
def cellGone (d : Device) (c : ChannelId) (j : CellId) : Device :=
  ((d.cancelCell c j).modPair c fun x => { x with filling := none }).modPair c fun x => { x with spare := x.spare ++ [j] }

theorem giveUpFilling_steady (pair : d.pair c = some y) (filling : y.filling = some j) :
    (d.giveUpFilling c).steady = (cellGone d c j).steady := by
  have cell : (d.pair c).bind RelayPair.filling = some j := by rw [pair]; exact filling
  unfold Device.giveUpFilling
  rw [cell]
  exact runGenerator_steady _ _ _

theorem pair_modPair (g : RelayPair → RelayPair) : (d.modPair c g).pair c = (d.pair c).map g :=
  get_set_self d.relay.pairs c _

theorem pair_cellGone (pair : d.pair c = some y) :
    (cellGone d c j).pair c = some { y with filling := none, spare := y.spare ++ [j] } := by
  have same : (d.cancelCell c j).pair c = d.pair c := rfl
  rw [cellGone, pair_modPair, pair_modPair, same, pair]
  rfl

/-- The staging of a port whose bytes for a cell have been dropped. -/
theorem port_cellGone (port : (d.chan c).port = p) : (cellGone d c j).port p =
    { d.port p with inStaging := (d.port p).inStaging.filter fun x => !(x.dest == .cell c j) } := by
  subst port
  have h := port_modPort_self d (d.chan c).port fun x => { x with inStaging := x.inStaging.filter fun b => !(b.dest == .cell c j) }
  exact h

/-- A filling cell given up leaves the message state and the counters of its channel. -/
theorem giveUpFilling_chan (pair : d.pair c = some y) (filling : y.filling = some j) :
    ((d.giveUpFilling c).chan c).inm = (d.chan c).inm ∧ ((d.giveUpFilling c).chan c).counters = (d.chan c).counters := by
  have chan := chan_of_steady (giveUpFilling_steady pair filling) c
  have inm := congrArg Channel.inm chan
  have counters := congrArg Channel.counters chan
  exact ⟨inm, counters⟩

theorem giveUpFilling_pair (pair : d.pair c = some y) (filling : y.filling = some j) :
    (d.giveUpFilling c).pair c = some { y with filling := none, spare := y.spare ++ [j] } := by
  rw [Device.pair, relay_of_steady (giveUpFilling_steady pair filling)]
  exact pair_cellGone pair

theorem giveUpFilling_own (pair : d.pair c = some y) (filling : y.filling = some j) (port : (d.chan c).port = p) :
    ((d.giveUpFilling c).port p).own = (d.port p).own := by
  rw [own_of_steady (giveUpFilling_steady pair filling), port_cellGone port]
  rfl

/-- No byte for a cell given up stays staged. -/
theorem giveUpFilling_staged (pair : d.pair c = some y) (filling : y.filling = some j) (port : (d.chan c).port = p) :
    ∀ z ∈ ((d.giveUpFilling c).port p).inStaging, z.dest ≠ .cell c j := by
  have steady := port_of_steady (giveUpFilling_steady pair filling) p
  rw [port_cellGone port] at steady
  have staging : ((d.giveUpFilling c).port p).inStaging = (d.port p).inStaging.filter fun x => !(x.dest == .cell c j) :=
    congrArg Port.inStaging steady
  intro z hz
  rw [staging] at hz
  simpa using (List.mem_filter.mp hz).2

theorem overflowCell_drops (policy : (d.chan c).overflow = .drop) :
    d.overflowCell c = countRun ((d.setMode c .dropping).giveUpFilling c) c 1 := by
  unfold Device.overflowCell
  rw [policy]
  rfl

/-- The blocks as an overflow under DROP has filled a cell, before it is given up. -/
def cellFull (d : Device) (c : ChannelId) (j : CellId) (b : Byte) : Device := (filled d c (.cell c j) b).setMode c .dropping

theorem chan_cellFull : (cellFull d c j b).chan c =
    { (filled d c (.cell c j) b).chan c with inm := { ((filled d c (.cell c j) b).chan c).inm with mode := .dropping } } :=
  chan_setMode _

/-- DROP on a cell: the cell is given up, with its staged bytes, and goes back to spare (R131). -/
theorem drops_cell (h : Overflows s p n r c) (kind : (s.dev.chan c).kind = .relayIn) (pair : s.dev.pair c = some y)
    (filling : y.filling = some j) (policy : (s.dev.chan c).overflow = .drop)
    (room : spaceLeft s.dev c ≤ 512 - (s.dev.port p).inStaging.length) :
    ∃ u, exec (.peerByteOffered p (wireByte false b)) s = .next u ∧
      s.tookUnit u p c { (s.dev.chan c).inm with
        fill := (s.dev.chan c).capacity, total := min ((s.dev.chan c).inm.total + r) 4294967295, mode := .dropping } ∧
      u.dev.pair c = some { y with filling := none, spare := y.spare ++ [j] } ∧
      ∀ z ∈ (u.dev.port p).inStaging, z.dest ≠ .cell c j := by
  have dest := destination_cell kind pair filling
  have pairF : ∀ l, (cellFull (taken s.dev p c l) c j b).pair c = some y := fun l => by rw [← pair]; rfl
  have first : ∀ l, (filled (taken s.dev p c l) c (.cell c j) b).placeByte c b =
      countRun ((cellFull (taken s.dev p c l) c j b).giveUpFilling c) c 1 := fun l => by
    rw [placeByte_filled (by rw [chan_taken]; exact h.writing), chan_taken, if_pos (by simp [kind]),
      overflowCell_drops (by rw [chan_filled, chan_taken]; exact policy), cellFull]
  obtain ⟨l, hl⟩ := exec_leaves h dest (.inl (by simp [kind])) room first fun l => by
    rw [(giveUpFilling_chan (pairF l) filling).1, chan_cellFull]
    simp
  obtain ⟨inm, counters⟩ := giveUpFilling_chan (pairF l) filling
  have portF : ((cellFull (taken s.dev p c l) c j b).chan c).port = p := by
    rw [chan_cellFull, chan_filled, chan_taken]
    exact h.port
  have atEnd := ended (countRun ((cellFull (taken s.dev p c l) c j b).giveUpFilling c) c (r - spaceLeft (taken s.dev p c l) c)) p
  refine ⟨_, hl, took_overflow (t := .cell c j) (b := b) (l := l) ?_ ?_ ?_ h.under h.beyond, ?_, fun z hz => ?_⟩
  · rw [giveUpFilling_own (pairF l) filling portF]
    have own := filled_own (d := taken s.dev p c l) (t := .cell c j) (b := b) (p := p) (c := c) (by rw [chan_taken]; exact h.port)
    exact own
  · rw [counters, chan_cellFull, chan_filled]
    rfl
  · rw [inm, chan_cellFull]
  · have last := giveUpFilling_pair (pairF l) filling
    dsimp only
    rw [Device.pair, atEnd.pairs]
    exact last
  · dsimp only at hz
    exact giveUpFilling_staged (pairF l) filling portF z (atEnd.staged z hz)

end Sys2Proof.Placing
end

section
/-! SUPPORT. The overflow under CHAIN: the full buffer completes with the continued flag, and the message goes on in the next record's
(R116). -/

namespace Sys2Proof.Placing

open Sys2Proof.Machine Sys2Proof.LinkBytes Sys2Proof.Quiesce

variable {s : State} {d e E : Device} {p : PortId} {n : LinkNumber} {c : ChannelId} {b : Byte} {r k : Nat}
  {y : RelayPair} {l : PeerLines} {q next : HostRecord} {rest : List HostRecord}

/-- A record fetch changes nothing of the blocks but for a request and the channel's mark of it. -/
theorem fetchRecords_eq (d : Device) (c : ChannelId) : ∃ k l f,
    d.fetchRecords c = ({ d with serial := k, requests := l } : Device).modChan c fun x => { x with fetchBusy := f } := by
  unfold Device.fetchRecords
  dsimp only
  split
  · exact ⟨_, _, true, rfl⟩
  · refine ⟨d.serial, d.requests, (d.chan c).fetchBusy, ?_⟩
    have channels : d.channels.set c (d.chan c) = d.channels := set_get _ _
    exact congrArg (fun v => ({ d with channels := v } : Device)) channels.symm

/-- The blocks as a full buffer has been completed and the next record's taken. -/
def chained (d : Device) (c : ChannelId) : Device :=
  ((d.reserve (cqRing (d.chan c).ring) 1).postInbound c .delivered (d.chan c).capacity true).takeBuffer c (d.chan c).inm.message

/-- The completion a chain step posts for the full buffer (R116). -/
def chainCompletion (d : Device) (c : ChannelId) (q : HostRecord) : Completion :=
  { channel := c, status := .delivered, tag := q.tag, length := (d.chan c).capacity, total := sat16 (d.chan c).inm.total,
    continued := true, restarted := false, buffer := (d.chan c).inm.buffer }

/-- What a chain step leaves: the record retired, its completion posted in a slot of its own, and the next record's buffer taken. -/
structure ChainStep (e d : Device) (c : ChannelId) (q next : HostRecord) (rest : List HostRecord) (id : Nat) : Prop where
  chan : ∃ f, e.chan c =
    { d.chan c with
      held := next :: rest, retire := ((d.chan c).retire + 1) % (d.chan c).size, fetchBusy := f
      inm := { (d.chan c).inm with buffer := some id, fill := 0 } }
  ports : e.ports = d.ports
  buffers : ∃ z, e.buffers = d.buffers ++ [z] ∧ z.id = id ∧ z.address = next.address ∧ z.channel = c ∧ z.placed = 0
  ring : e.ring (cqRing (d.chan c).ring) =
    { d.ring (cqRing (d.chan c).ring) with
      reserved := (d.ring (cqRing (d.chan c).ring)).reserved + 1
      queue := (d.ring (cqRing (d.chan c).ring)).queue ++ [{ order := d.serial, body := .completion (chainCompletion d c q) }] }

/-- The blocks after the completion of a chain step, before the next record is fetched and taken. -/
def chainPosted (d : Device) (c : ChannelId) (q next : HostRecord) (rest : List HostRecord) : Device :=
  ((d.reserve (cqRing (d.chan c).ring) 1).postCompletion (chainCompletion d c q)).modChan c fun y =>
    { y with held := next :: rest, retire := ringAdvance y.size y.retire 1 }

theorem chan_chainPosted : (chainPosted d c q next rest).chan c =
    { d.chan c with held := next :: rest, retire := ((d.chan c).retire + 1) % (d.chan c).size } := by
  unfold chainPosted
  rw [chan_modChan_self]
  rfl

theorem ring_chainPosted : (chainPosted d c q next rest).ring (cqRing (d.chan c).ring) =
    { d.ring (cqRing (d.chan c).ring) with
      reserved := (d.ring (cqRing (d.chan c).ring)).reserved + 1
      queue := (d.ring (cqRing (d.chan c).ring)).queue ++ [{ order := d.serial, body := .completion (chainCompletion d c q) }] } := by
  have posted : (chainPosted d c q next rest).ring (cqRing (d.chan c).ring) =
      (((d.reserve (cqRing (d.chan c).ring) 1).modRing (cqRing (d.chan c).ring)
        fun x => { x with queue := x.queue ++ [{ order := d.serial, body := .completion (chainCompletion d c q) }] }).ring
          (cqRing (d.chan c).ring)) := rfl
  rw [posted, ring_modRing_self, Device.reserve, ring_modRing_self]

theorem chained_eq (held : (d.chan c).held = q :: next :: rest) :
    chained d c = ((chainPosted d c q next rest).fetchRecords c).takeBuffer c (d.chan c).inm.message := by
  have same : (d.reserve (cqRing (d.chan c).ring) 1).chan c = d.chan c := rfl
  unfold chained Device.postInbound
  dsimp only
  rw [same, held]
  rfl

/-- The buffer taken from a record for a message (R111). -/
def bufferFrom (d : Device) (c : ChannelId) (m : Nat) (q : HostRecord) : Buffer :=
  { id := d.serial, channel := c, opening := (d.chan c).opening, message := m, address := q.address, placed := 0, issued := 0,
    outstanding := 0, acceptedBytes := 0, failed := false }

/-- The blocks with a buffer taken from a record. -/
def withBuffer (d : Device) (c : ChannelId) (m : Nat) (q : HostRecord) : Device :=
  ({ d with buffers := d.buffers ++ [bufferFrom d c m q], serial := d.serial + 1 } : Device).modInMsg c
    fun x => { x with buffer := some d.serial, message := m, fill := 0 }

theorem takeBuffer_eq (held : (d.chan c).held = q :: rest) (m : Nat) : d.takeBuffer c m = withBuffer d c m q := by
  unfold Device.takeBuffer
  rw [held]
  rfl

theorem chan_withBuffer (m : Nat) : (withBuffer d c m q).chan c =
    { d.chan c with inm := { (d.chan c).inm with buffer := some d.serial, message := m, fill := 0 } } := by
  unfold withBuffer Device.modInMsg
  rw [chan_modChan_self]
  rfl

theorem chained_step (held : (d.chan c).held = q :: next :: rest) : ∃ id, ChainStep (chained d c) d c q next rest id := by
  rw [chained_eq held]
  obtain ⟨P, hP⟩ : ∃ P, P = chainPosted d c q next rest := ⟨_, rfl⟩
  have chanP : P.chan c = { d.chan c with held := next :: rest, retire := ((d.chan c).retire + 1) % (d.chan c).size } := by
    rw [hP, chan_chainPosted]
  have ringP := ring_chainPosted (d := d) (c := c) (q := q) (next := next) (rest := rest)
  have portsP : P.ports = d.ports := by rw [hP]; rfl
  have buffersP : P.buffers = d.buffers := by rw [hP]; rfl
  rw [← hP] at ringP ⊢
  obtain ⟨k, l, f, hf⟩ := fetchRecords_eq P c
  obtain ⟨F, hF⟩ : ∃ F, F = P.fetchRecords c := ⟨_, rfl⟩
  have chanF : F.chan c = { P.chan c with fetchBusy := f } := by
    rw [hF, hf, chan_modChan_self]
    rfl
  have heldF : (F.chan c).held = next :: rest := by rw [chanF, chanP]
  have portsF : F.ports = d.ports := by rw [hF, hf, ← portsP]; rfl
  have buffersF : F.buffers = d.buffers := by rw [hF, hf, ← buffersP]; rfl
  have ringF : F.rings = P.rings := by rw [hF, hf]; rfl
  rw [← hF, takeBuffer_eq heldF]
  refine ⟨F.serial, ⟨f, ?_⟩, portsF, ⟨_, congrArg (· ++ _) buffersF, rfl, rfl, rfl, rfl⟩, ?_⟩
  · rw [chan_withBuffer, chanF, chanP]
  · rw [← ringP]
    exact congrArg (fun v => Vector.get v _) ringF

/-! ## The run goes on in the next buffer -/

theorem capacity_inn {x : Channel} (kind : x.kind = .inn) (held : x.held = q :: rest) : x.capacity = q.size := by
  simp [Channel.capacity, kind, held]

theorem overflowBuffer_chains (chains : Chains d c) : d.overflowBuffer c b = (chained d c).stageByte c b := by
  obtain ⟨policy, record, slot⟩ := chains
  unfold Device.overflowBuffer
  dsimp only
  rw [policy]
  dsimp only
  rw [if_pos ⟨record, slot⟩]
  rfl

/-- A unit that chains asks for the room of all its bytes, if the next buffer takes the rest (R117). -/
theorem placedOf_chains (h : Overflows s p n r c) (kind : (s.dev.chan c).kind = .inn) (chains : Chains s.dev c)
    (held : (s.dev.chan c).held = q :: next :: rest) (fits : r ≤ spaceLeft s.dev c + next.size) : s.dev.placedOf c r = r := by
  obtain ⟨policy, record, slot⟩ := chains
  have beyond := h.beyond
  have under := h.under
  obtain ⟨steps, hs⟩ : ∃ steps, min (s.dev.unpromised c) (s.dev.ring (cqRing (s.dev.chan c).ring)).room = steps + 1 :=
    Nat.exists_eq_add_of_le' (Nat.le_min.mpr ⟨record, slot⟩)
  obtain ⟨j, hj⟩ : ∃ j, r - ((s.dev.chan c).capacity - (s.dev.chan c).inm.fill) = j + 1 :=
    Nat.exists_eq_add_of_le' (by omega)
  unfold spaceLeft at fits
  unfold Device.placedOf
  simp only [h.writing, beq_self_eq_true, if_true]
  rw [if_neg (by omega), if_pos (by simp [kind, policy]), held, hs, hj]
  simp only [List.tail_cons, List.map_cons, chainPlaces]
  rw [if_pos (by omega)]
  omega

/-- A run that chains: what is over after the chain step is staged for the next buffer (R116, R117). -/
theorem placeRun_chains {t : Destination} {id : Nat} (writing : (d.chan c).inm.mode = .writing) (dest : destination d c = some t)
    (under : (d.chan c).inm.fill ≤ (d.chan c).capacity) (beyond : (d.chan c).capacity < (d.chan c).inm.fill + r)
    (kind : (d.chan c).kind = .inn) (chains : Chains (filled d c t b) c)
    (step : ChainStep (chained (filled d c t b) c) (filled d c t b) c q next rest id) (fits : r ≤ spaceLeft d c + next.size) :
    Device.placeRun c b r d = stageRun (chained (filled d c t b) c) c (.buffer id) b (r - spaceLeft d c) := by
  obtain ⟨f, hf⟩ := step.chan
  rw [chan_filled] at hf
  have kindQ : ((chained (filled d c t b) c).chan c).kind = .inn := by rw [hf]; exact kind
  have writingQ : ((chained (filled d c t b) c).chan c).inm.mode = .writing := by rw [hf]; exact writing
  have destQ : destination (chained (filled d c t b) c) c = some (.buffer id) := destination_buffer kindQ (by rw [hf])
  have room : ((chained (filled d c t b) c).chan c).inm.fill + (r - spaceLeft d c) ≤ ((chained (filled d c t b) c).chan c).capacity := by
    rw [capacity_inn kindQ (by rw [hf]), hf]
    dsimp only
    omega
  have more : 1 ≤ r - spaceLeft d c := by unfold spaceLeft; omega
  have first : (filled d c t b).placeByte c b = (chained (filled d c t b) c).placeByte c b := by
    rw [placeByte_filled writing, if_neg (by simp [kind]), overflowBuffer_chains chains, Device.placeByte]
    simp only [writingQ, beq_self_eq_true, if_true]
    rw [if_pos (by omega)]
  rw [placeRun_overflows writing dest under beyond, first, ← placeRun_fits writingQ destQ room]
  obtain ⟨m, hm⟩ := Nat.exists_eq_add_of_le' more
  rw [hm]
  rfl

/-- CHAIN: the full buffer's completion is posted with the continued flag in a slot of its own, its record is retired, and the rest of the
unit goes to the next record's buffer (R116). -/
theorem chains_on (h : Overflows s p n r c) (kind : (s.dev.chan c).kind = .inn) (buffer : (s.dev.chan c).inm.buffer = some k)
    (chains : Chains s.dev c) (room : r ≤ 512 - (s.dev.port p).inStaging.length)
    (held : (s.dev.chan c).held = q :: next :: rest) (fits : r ≤ spaceLeft s.dev c + next.size) :
    ∃ t id, exec (.peerByteOffered p (wireByte false b)) s = .next t ∧
      s.tookUnit t p c { (s.dev.chan c).inm with
        buffer := some id, fill := r - spaceLeft s.dev c, total := min ((s.dev.chan c).inm.total + r) 4294967295 } ∧
      (t.dev.chan c).held = next :: rest ∧ (t.dev.chan c).retire = ((s.dev.chan c).retire + 1) % (s.dev.chan c).size ∧
      (∃ y ∈ t.dev.buffers, y.id = id ∧ y.address = next.address ∧ y.channel = c ∧ y.placed = r - spaceLeft s.dev c) ∧
      (t.dev.ring (s.dev.chan c).ring.castSucc).queue = (s.dev.ring (s.dev.chan c).ring.castSucc).queue ++
        [{ order := s.dev.serial
           body :=
            .completion
              { channel := c, status := .delivered, tag := q.tag, length := q.size,
                total := min ((s.dev.chan c).inm.total + spaceLeft s.dev c) 65535, continued := true, restarted := false,
                buffer := some k } }] ∧
      (s.dev.ring (s.dev.chan c).ring.castSucc).reserved + 1 ≤ (t.dev.ring (s.dev.chan c).ring.castSucc).reserved := by
  obtain ⟨l, hl⟩ := exec_overflows h (by rw [placedOf_chains h kind chains held fits]; exact room) (b := b)
  have under := h.under
  have beyond := h.beyond
  have space : spaceLeft (taken s.dev p c l) c = spaceLeft s.dev c := by rw [spaceLeft, capacity_taken, chan_taken]; rfl
  obtain ⟨F, hF⟩ : ∃ F, F = filled (taken s.dev p c l) c (.buffer k) b := ⟨_, rfl⟩
  have chanF : F.chan c = grown (spaceLeft s.dev c) ((taken s.dev p c l).chan c) := by rw [hF, chan_filled, space]
  have ownF : (F.port p).own = ((taken s.dev p c l).port p).own := by
    rw [hF]
    exact filled_own (by rw [chan_taken]; exact h.port)
  have heldF : (F.chan c).held = q :: next :: rest := by rw [chanF, chan_taken]; exact held
  obtain ⟨id, step⟩ := chained_step heldF
  have run := placeRun_chains (q := q) (next := next) (rest := rest) (id := id) (b := b) (t := .buffer k) (r := r)
    (d := taken s.dev p c l) (c := c) (by rw [chan_taken]; exact h.writing) ((destination_taken l).trans (destination_buffer kind buffer))
    (by rw [capacity_taken, chan_taken]; exact under) (by rw [capacity_taken, chan_taken]; exact beyond)
    (by rw [chan_taken]; exact kind) (chains_filled_taken.mpr chains) (by rw [← hF]; exact step) (by rw [space]; exact fits)
  rw [run, ← hF, space] at hl
  obtain ⟨f, chanQ⟩ := step.chan
  rw [chanF, chan_taken] at chanQ
  have ringF : (F.chan c).ring = (s.dev.chan c).ring := by rw [chanF, chan_taken]; rfl
  have ringQ := step.ring
  rw [ringF, cqRing] at ringQ
  have atEnd := ended (stageRun (chained F c) c (.buffer id) b (r - spaceLeft s.dev c)) p
  have chan := atEnd.chan c
  rw [chan_stageRun, chanQ] at chan
  have old : F.ring (s.dev.chan c).ring.castSucc = s.dev.ring (s.dev.chan c).ring.castSucc := by rw [hF]; rfl
  have serial : F.serial = s.dev.serial := by rw [hF]; rfl
  have completion : chainCompletion F c q =
      { channel := c, status := .delivered, tag := q.tag, length := q.size,
        total := min ((s.dev.chan c).inm.total + spaceLeft s.dev c) 65535, continued := true, restarted := false,
        buffer := some k } := by
    have capacity : (F.chan c).capacity = q.size := capacity_inn (by rw [chanF, chan_taken]; exact kind) heldF
    have total : sat16 (F.chan c).inm.total = min ((s.dev.chan c).inm.total + spaceLeft s.dev c) 65535 := by
      rw [chanF, chan_taken]
      dsimp only [grown, sat16, totalAfter, totalMax]
      split <;> omega
    have same : (F.chan c).inm.buffer = some k := by rw [chanF, chan_taken]; exact buffer
    rw [chainCompletion, capacity, total, same]
  rw [old, serial, completion] at ringQ
  have tookE : s.tookUnit { s with dev := ((stageRun (chained F c) c (.buffer id) b (r - spaceLeft s.dev c)).issueInbound p).settle } p c
      { (s.dev.chan c).inm with
        buffer := some id, fill := r - spaceLeft s.dev c, total := min ((s.dev.chan c).inm.total + r) 4294967295 } := by
    refine took (l := l) ?_ ?_ ?_
    · have portQ : (chained F c).port p = F.port p := congrArg (·.get p) step.ports
      have portC : ((chained F c).chan c).port = p := by rw [chanQ]; exact h.port
      have staged := port_stageRun (d := chained F c) (c := c) (t := .buffer id) (b := b) (n := r - spaceLeft s.dev c)
      rw [portC, portQ] at staged
      rw [staged]
      exact ownF
    · rw [chan_stageRun, chanQ, chan_taken]
      rfl
    · rw [chan_stageRun, chanQ]
      dsimp only [grown]
      rw [totalAfter_add, Nat.zero_add,
        show spaceLeft s.dev c + (r - spaceLeft s.dev c) = r by unfold spaceLeft; omega, totalAfter_pos _ (unit_pos h.unit)]
  generalize ((stageRun (chained F c) c (.buffer id) b (r - spaceLeft s.dev c)).issueInbound p).settle = e at hl tookE atEnd chan
  have heldE : (e.chan c).held = next :: rest := congrArg Channel.held chan
  have retireE : (e.chan c).retire = ((s.dev.chan c).retire + 1) % (s.dev.chan c).size := congrArg Channel.retire chan
  refine ⟨_, id, hl, tookE, heldE, retireE, ?_, ?_, ?_⟩
  · obtain ⟨z, buffersQ, zid, zaddress, zchannel, zplaced⟩ := step.buffers
    obtain ⟨g, hg, keeps⟩ := atEnd.buffers
    obtain ⟨gid, gplaced, gaddress, gchannel⟩ := keeps (fillOf (.buffer id) (r - spaceLeft s.dev c) z)
    have fill : fillOf (.buffer id) (r - spaceLeft s.dev c) z = { z with placed := z.placed + (r - spaceLeft s.dev c) } := by
      rw [fillOf, if_pos (by rw [zid])]
    rw [fill] at gid gplaced gaddress gchannel
    refine ⟨g { z with placed := z.placed + (r - spaceLeft s.dev c) }, ?_, gid.trans zid, gaddress.trans zaddress,
      gchannel.trans zchannel, by rw [gplaced, zplaced, Nat.zero_add]⟩
    dsimp only
    rw [hg, buffers_stageRun, buffersQ, ← fill]
    exact List.mem_map_of_mem (List.mem_map_of_mem (List.mem_append_right _ (List.mem_singleton_self _)))
  · dsimp only
    rw [atEnd.queue, ring_stageRun, ringQ]
  · have grows := atEnd.reserved (s.dev.chan c).ring.castSucc
    rw [ring_stageRun, ringQ] at grows
    exact grows

end Sys2Proof.Placing
end

section
/-! SUPPORT. A data byte that starts a message (R32, R111, R130), and where a data byte of the peer goes, case by case. -/

namespace Sys2Proof.Placing

open Sys2Proof.Machine Sys2Proof.LinkBytes Sys2Proof.Quiesce

variable {s : State} {d e E : Device} {p : PortId} {n : LinkNumber} {c : ChannelId} {b : Byte} {r k : Nat} {j : CellId}
  {y : RelayPair} {l : PeerLines} {q : HostRecord} {rest : List HostRecord} {t : Destination}

/-! ## The start -/

/-- A half with a credit used by the start of a message. -/
def used (h : InHalf) : InHalf := { h with granted := h.granted - 1, openMark := true }

/-- The blocks as a data byte that starts a message is accepted: the credit used and the open mark set (R32). -/
def begun (d : Device) (p : PortId) (n : LinkNumber) (l : PeerLines) : Device := (unitHeard d p l).modIn p n used

/-- The blocks with a buffer or a cell taken for the message, and its first byte counted (R111, R130). -/
def started (d : Device) (c : ChannelId) : Device :=
  (if (d.chan c).kind == .relayIn then d.startCell c else d.startBuffer c).countWire (some c)

theorem inHalf_begun : (begun d p n l).inHalf p n = used (d.inHalf p n) := by
  unfold begun
  rw [inHalf_modIn_self, inHalf_unitHeard]

theorem own_begun : ((begun d p n l).port p).own = ((unitHeard d p l).port p).own := by
  unfold begun Device.modIn
  rw [port_modPort_self]
  rfl

/-- The start of a message touches no port. -/
theorem startCell_ports (d : Device) (c : ChannelId) : (d.startCell c).ports = d.ports := by
  unfold Device.startCell
  split
  · rfl
  · split <;> rfl

theorem startBuffer_ports (d : Device) (c : ChannelId) : (d.startBuffer c).ports = d.ports := by
  unfold Device.startBuffer Device.takeBuffer
  split <;> rfl

theorem started_ports (d : Device) (c : ChannelId) : (started d c).ports = d.ports := by
  unfold started
  split
  · exact startCell_ports d c
  · exact startBuffer_ports d c

/-- A data byte of the peer starts a message on a half: no mark is set, a credit is granted, and the owner is OPEN. -/
structure Starts (s : State) (p : PortId) (n : LinkNumber) (r : Nat) (c : ChannelId) : Prop where
  unit : s.bringsUnit p n r
  owner : (s.dev.inHalf p n).owner = some c
  port : (s.dev.chan c).port = p
  closed : (s.dev.inHalf p n).openMark = false
  kept : (s.dev.inHalf p n).discard = false
  granted : 1 ≤ (s.dev.inHalf p n).granted
  norun : (s.dev.port p).repeatPending = none
  state : (s.dev.chan c).state = .opened
  room : 1 ≤ 512 - (s.dev.port p).inStaging.length
  listens : s.listens p

theorem Starts.selection (h : Starts s p n r c) : (s.dev.port p).selection = some n ∧ r = 1 := by
  rcases h.unit with ⟨-, sel, one⟩ | ⟨run, -, -⟩
  · exact ⟨sel, one⟩
  · have := h.norun
    rw [run] at this
    cases this

theorem roomNeeded_starts (h : Starts s p n r c) : s.dev.roomNeeded p (wireByte false b) = 1 := by
  have some := h.granted
  have credit : ¬ (s.dev.inHalf p n).granted = 0 := by omega
  unfold Device.roomNeeded
  simp [wireByte, h.norun, h.selection.1, h.owner, h.closed, h.kept, h.state, credit]

theorem decode_starts (h : Starts s p n r c) (l : PeerLines) :
    (heard s.dev p l).decode p (wireByte false b) = Device.placeRun c b 1 (started (begun s.dev p n l) c) := by
  have some := h.granted
  have half : ((unitHeard s.dev p l).inHalf p n) = s.dev.inHalf p n := inHalf_unitHeard
  have start : (unitHeard s.dev p l).startIfNone p n =
      .some (if ((begun s.dev p n l).chan c).kind == .relayIn then (begun s.dev p n l).startCell c
        else (begun s.dev p n l).startBuffer c) := by
    have opened : ((unitHeard s.dev p l).chan c).state = .opened := h.state
    unfold Device.startIfNone Device.peerStart
    dsimp only
    rw [half, if_neg (by simp [InHalf.busy, h.closed, h.kept]), if_neg (by omega), h.owner]
    dsimp only
    rw [opened]
    rfl
  have ports : ∀ e : Device, e.ports = (begun s.dev p n l).ports → e.inHalf p n = used (s.dev.inHalf p n) := fun e h => by
    rw [← inHalf_begun (l := l), Device.inHalf, Device.port, h]
    rfl
  rw [decode_data b (by rw [heard_port]; exact h.norun) (by rw [heard_port]; exact h.selection.1), Device.decodeData,
    heard_eq_unitHeard h.norun, start]
  dsimp only
  rw [Device.takeExpanded, ports _ (by split; exacts [startCell_ports _ c, startBuffer_ports _ c])]
  dsimp only [used]
  rw [h.owner]
  rfl

/-- What a start and its first byte leave, from the blocks as a buffer or cell has been taken (R111, R112, R130). -/
theorem exec_starts {inm : InMessage} {dest : PeerLines → Destination} (h : Starts s p n r c)
    (empty : inm.fill = 0) (zero : inm.total = 0) (writing : inm.mode = .writing)
    (chan : ∀ l, (started (begun s.dev p n l) c).chan c =
      { s.dev.chan c with
        inm := inm
        counters := { (s.dev.chan c).counters with wireBytes := satAdd (s.dev.chan c).counters.wireBytes 1 } })
    (goes : ∀ l, destination (started (begun s.dev p n l) c) c = some (dest l)) (size : 1 ≤ (s.dev.chan c).capacity) :
    ∃ l t, exec (.peerByteOffered p (wireByte false b)) s = .next t ∧
      Ended t.dev (stageRun (started (begun s.dev p n l) c) c (dest l) b 1) p ∧
      ((t.dev.inHalf p n).granted = (s.dev.inHalf p n).granted - 1 ∧ (t.dev.inHalf p n).openMark = true) ∧
      s.tookUnit t p c { inm with fill := 1, total := 1 } := by
  have capacity : ∀ l, ((started (begun s.dev p n l) c).chan c).capacity = (s.dev.chan c).capacity := fun l => by
    rw [chan l]
    rfl
  have run : ∀ l, Device.placeRun c b 1 (started (begun s.dev p n l) c) = stageRun (started (begun s.dev p n l) c) c (dest l) b 1 :=
    fun l => placeRun_fits (by rw [chan l]; exact writing) (goes l)
      (by rw [capacity l, chan l]; dsimp only; rw [empty, Nat.zero_add]; exact size)
  obtain ⟨l, hl⟩ : ∃ l, l = (s.dev.port p).lines.offering (wireByte false b) := ⟨_, rfl⟩
  have event := exec_accepts h.listens (parityGood_wireByte false b) (by rw [roomNeeded_starts h]; exact h.room)
  rw [← hl, decode_starts h, run l] at event
  have atEnd := ended (stageRun (started (begun s.dev p n l) c) c (dest l) b 1) p
  have half := atEnd.inHalf n
  have same : (started (begun s.dev p n l) c).inHalf p n = used (s.dev.inHalf p n) := by
    rw [← inHalf_begun (l := l), Device.inHalf, Device.port, started_ports]
    rfl
  rw [inHalf_stageRun, same] at half
  have tookE : s.tookUnit
      { s with dev := ((stageRun (started (begun s.dev p n l) c) c (dest l) b 1).issueInbound p).settle } p c
      { inm with fill := 1, total := 1 } := by
    refine took (l := l) ?_ ?_ ?_
    · have portC : ((started (begun s.dev p n l) c).chan c).port = p := by rw [chan l]; exact h.port
      have staged := port_stageRun (d := started (begun s.dev p n l) c) (c := c) (t := dest l) (b := b) (n := 1)
      have ports : (started (begun s.dev p n l) c).port p = (begun s.dev p n l).port p := by
        rw [Device.port, started_ports]
        rfl
      rw [portC, ports] at staged
      rw [staged]
      exact own_begun
    · rw [chan_stageRun, chan l, chan_taken]
      rfl
    · rw [chan_stageRun, chan l]
      dsimp only [grown]
      rw [empty, zero]
      rfl
  generalize ((stageRun (started (begun s.dev p n l) c) c (dest l) b 1).issueInbound p).settle = e at event atEnd half tookE
  have granted : (e.inHalf p n).granted = (s.dev.inHalf p n).granted - 1 := congrArg InHalf.granted half
  have opened : (e.inHalf p n).openMark = true := congrArg InHalf.openMark half
  exact ⟨l, _, event, atEnd, ⟨granted, opened⟩, tookE⟩

theorem fillOf_buffer (z : Buffer) (m : Nat) : fillOf (.buffer z.id) m z = { z with placed := z.placed + m } := if_pos rfl

/-- A start takes the head supply record's buffer (R111). -/
theorem starts_buffer (h : Starts s p n r c) (kind : (s.dev.chan c).kind = .inn) (held : (s.dev.chan c).held = q :: rest)
    (size : 1 ≤ q.size) :
    ∃ t k m, exec (.peerByteOffered p (wireByte false b)) s = .next t ∧
      ((t.dev.inHalf p n).granted = (s.dev.inHalf p n).granted - 1 ∧ (t.dev.inHalf p n).openMark = true) ∧
      s.tookUnit t p c { buffer := some k, message := m, fill := 1, total := 1, mode := .writing } ∧
      ∃ z ∈ t.dev.buffers, z.id = k ∧ z.address = q.address ∧ z.channel = c ∧ z.placed = 1 := by
  have clearedChan : ∀ l, ((begun s.dev p n l).modInMsg c fun _ => InMessage.cleared).chan c =
      { s.dev.chan c with inm := InMessage.cleared } := fun l => by
    unfold Device.modInMsg
    rw [chan_modChan_self]
    rfl
  have eq : ∀ l, started (begun s.dev p n l) c =
      (withBuffer ((begun s.dev p n l).modInMsg c fun _ => InMessage.cleared) c s.dev.serial q).countWire (some c) := fun l => by
    have kindB : ((begun s.dev p n l).chan c).kind = .inn := kind
    rw [started, if_neg (by rw [kindB]; decide), Device.startBuffer, takeBuffer_eq (by rw [clearedChan l]; exact held)]
    rfl
  have chan : ∀ l, (started (begun s.dev p n l) c).chan c =
      { s.dev.chan c with
        inm := { InMessage.cleared with buffer := some s.dev.serial, message := s.dev.serial }
        counters := { (s.dev.chan c).counters with wireBytes := satAdd (s.dev.chan c).counters.wireBytes 1 } } := fun l => by
    rw [eq l, Device.countWire]
    dsimp only
    rw [Device.countChan, chan_modChan_self, chan_withBuffer, clearedChan l]
    rfl
  obtain ⟨l, t, event, atEnd, half, took⟩ := exec_starts (dest := fun _ => .buffer s.dev.serial) (b := b) h rfl rfl rfl chan
    (fun l => destination_buffer (by rw [chan l]; exact kind) (by rw [chan l])) (by rw [capacity_inn kind held]; exact size)
  obtain ⟨f, hf, keeps⟩ := atEnd.buffers
  obtain ⟨fid, fplaced, faddress, fchannel⟩ := keeps
    { bufferFrom ((begun s.dev p n l).modInMsg c fun _ => InMessage.cleared) c s.dev.serial q with placed := 1 }
  refine ⟨t, _, _, event, half, took, _, ?_, fid, faddress, fchannel, fplaced⟩
  rw [hf, buffers_stageRun, eq l]
  refine List.mem_map_of_mem (List.mem_map.mpr ⟨bufferFrom ((begun s.dev p n l).modInMsg c fun _ => InMessage.cleared) c s.dev.serial q,
    List.mem_append_right _ (List.mem_singleton_self _), ?_⟩)
  exact fillOf_buffer (bufferFrom ((begun s.dev p n l).modInMsg c fun _ => InMessage.cleared) c s.dev.serial q) 1

/-- A start on a RELAY_IN half makes the head spare cell, with nothing in it, the filling cell (R130). -/
theorem starts_cell {spare : List CellId} (h : Starts s p n r c) (kind : (s.dev.chan c).kind = .relayIn) (pair : s.dev.pair c = some y)
    (cell : y.spare = j :: spare) :
    ∃ t, exec (.peerByteOffered p (wireByte false b)) s = .next t ∧
      ((t.dev.inHalf p n).granted = (s.dev.inHalf p n).granted - 1 ∧ (t.dev.inHalf p n).openMark = true) ∧
      s.tookUnit t p c { InMessage.cleared with fill := 1, total := 1 } ∧
      t.dev.pair c = some { y with spare := spare, filling := some j } ∧ t.dev.relay.cells.get j = [] := by
  have eq : ∀ l, started (begun s.dev p n l) c =
      ((((begun s.dev p n l).modPair c fun y => { y with spare := spare, filling := some j }).modRelay
        fun r => { r with cells := r.cells.set j [] }).modInMsg c fun _ => InMessage.cleared).countWire (some c) := fun l => by
    have kindB : ((begun s.dev p n l).chan c).kind = .relayIn := kind
    have pairB : (begun s.dev p n l).pair c = some y := pair
    rw [started, if_pos (by rw [kindB]; decide), Device.startCell, pairB]
    dsimp only
    rw [cell]
  have chan : ∀ l, (started (begun s.dev p n l) c).chan c =
      { s.dev.chan c with
        inm := InMessage.cleared
        counters := { (s.dev.chan c).counters with wireBytes := satAdd (s.dev.chan c).counters.wireBytes 1 } } := fun l => by
    rw [eq l, Device.countWire]
    dsimp only
    rw [Device.countChan, chan_modChan_self, Device.modInMsg, chan_modChan_self]
    rfl
  have pairE : ∀ l, (started (begun s.dev p n l) c).pair c = some { y with spare := spare, filling := some j } := fun l => by
    have same : (started (begun s.dev p n l) c).pair c =
        ((begun s.dev p n l).modPair c fun y => { y with spare := spare, filling := some j }).pair c := by rw [eq l]; rfl
    have pairB : (begun s.dev p n l).pair c = some y := pair
    rw [same, pair_modPair, pairB]
    rfl
  obtain ⟨l, t, event, atEnd, half, took⟩ := exec_starts (dest := fun _ => .cell c j) (b := b) h rfl rfl rfl chan
    (fun l => destination_cell (by rw [chan l]; exact kind) (pairE l) rfl) (by simp [Channel.capacity, kind, Config.cellBytes])
  refine ⟨t, event, half, took, ?_, ?_⟩
  · rw [Device.pair, atEnd.pairs]
    exact pairE l
  · rw [atEnd.cells, relay_stageRun, eq l]
    exact get_set_self _ _ _

/-! ## Where a data byte goes -/

/-- Settles O49: the byte is accepted with room for the unit it brings, and judged once; the unit is then staged, overflows, is only
counted, starts a message, or is dropped, by the marks of its half and the mode of its owner. -/
theorem peerDataByteIsPlaced : Obligations.PeerDataByteIsPlaced := by
  intro p n b r s unit
  refine ⟨fun c owner port number => ?_, fun closed discard listens => discard_becomes unit closed discard listens⟩
  dsimp only
  rw [capacity_eq]
  refine ⟨fun i opened writing fits room brings => ⟨fun k z kind buffer found => ?_, fun k y kind pair filling => ?_⟩,
    fun opened writing fits room listens => ?_, fun opened writing under beyond listens => ?_,
    fun opened past listens => past_becomes unit owner opened past listens,
    fun closed kept granted norun state room listens => ?_⟩
  · exact places_in_buffer unit owner port opened writing fits room brings kind buffer found
  · exact places_in_cell unit owner port opened writing fits room brings kind pair filling
  · exact withheld_becomes listens (parityGood_wireByte _ _)
      (by rw [roomNeeded_open unit opened owner, placedOf_fits writing fits]; exact room)
  · have h : Overflows s p n r c := ⟨unit, owner, port, number, opened, writing, under, beyond, listens⟩
    refine ⟨fun k z kind buffer found => ⟨fun policy room => drops h kind buffer found policy room, fun policy stays room => ?_,
      fun q next rest chains room held fits => ?_⟩, fun k y kind pair filling room => ?_⟩
    · have id : z.id = k := by simpa using List.find?_some found
      obtain ⟨t, event, took, placed, -⟩ := truncates (b := b) h (destination_buffer kind buffer) policy
        (.inr fun x => stays ((chains_iff h).mp x)) room
      refine ⟨t, event, took, ?_⟩
      rw [placed k, found]
      simp [fillOf, id, spaceLeft]
    · have size : (s.dev.chan c).capacity = q.size := capacity_inn kind held
      exact chains_on h kind buffer ((chains_iff h).mpr chains) room held fits
    · have full : (s.dev.chan c).capacity = 1024 := by simp [Channel.capacity, kind, Config.cellBytes]
      have dest := destination_cell kind pair filling
      rw [← full]
      refine ⟨fun policy => drops_cell h kind pair filling policy room, fun policy => ?_⟩
      obtain ⟨t, event, took, -, same⟩ := truncates (b := b) h dest policy (.inl kind) room
      exact ⟨t, event, took, same.trans pair⟩
  · have h : Starts s p n r c := ⟨unit, owner, port, closed, kept, granted, norun, state, room, listens⟩
    exact ⟨fun q rest kind held size => starts_buffer h kind held size,
      fun y k rest kind pair spare => starts_cell h kind pair spare⟩

end Sys2Proof.Placing
end

section
/-! SUPPORT. The runs the encoder finds at the head of staged payload, and the units it forms of them (R52, R53). -/

namespace Sys2Proof.Encoding

open Sys2Proof.Machine

variable {d : Device} {p : PortId} {c : ChannelId}

/-! ## Runs -/

/-- The run at the head of equal bytes that another byte, or nothing, follows is all of them. -/
theorem runLength_replicate_append {b : Byte} {rest : List Byte} (other : rest.head? ≠ some b) (run : Nat) :
    runLength b (List.replicate run b ++ rest) = run := by
  induction run with
  | zero =>
    cases rest with
    | nil => rfl
    | cons x rest =>
      have differs : x ≠ b := by simpa using other
      simp [runLength, differs]
  | succ run ih => simp [List.replicate_succ, runLength, ih]

/-- The unit formed of a run at the head of staged payload: none until the run is known, then REPEAT from three bytes on (R53). -/
theorem compressedUnit_run {b : Byte} {run left : Nat} {rest : List Byte} (begun : 1 ≤ run) (other : rest.head? ≠ some b) :
    compressedUnit (List.replicate run b ++ rest) left =
      if rest ≠ [] ∨ run = 63 ∨ run = left then some (if 3 ≤ run then .rep run b else .plain b) else none := by
  have whole := runLength_replicate_append other run
  have ended : run < (List.replicate run b ++ rest).length ↔ rest ≠ [] := by
    rw [List.length_append, List.length_replicate, Nat.lt_add_right_iff_pos, List.length_pos_iff]
  obtain ⟨k, rfl⟩ := Nat.exists_eq_add_of_le' begun
  rw [List.replicate_succ, List.cons_append] at whole ended ⊢
  simp only [compressedUnit, whole, ended, Config.longestRun, Config.shortestRun]

/-! ## The form of a message -/

/-- A message is coded in plain form if its channel does not compress or its record asks for it (R52). -/
theorem plainForm_plain (h : (d.chan c).compress = false ∨
    ((d.chan c).kind = .out ∧ ((d.chan c).held.head?.map HostRecord.plain).getD false = true)) : d.plainForm c = true := by
  rcases h with off | ⟨kind, plain⟩
  · simp [Device.plainForm, off]
  · simp [Device.plainForm, kind, plain]

/-- A message of a channel that compresses is coded in compressed form, unless its record is for a host's OUT channel and asks for plain
form (R52). -/
theorem plainForm_compressed (on : (d.chan c).compress = true)
    (h : (d.chan c).kind = .relayOut ∨ ((d.chan c).held.head?.map HostRecord.plain).getD false = false) : d.plainForm c = false := by
  rcases h with kind | coded
  · simp [Device.plainForm, on, kind]
  · simp [Device.plainForm, on, coded]

theorem nextUnit_plain (h : d.plainForm c = true) : d.nextUnit p c = (d.stagedBytes p c).head?.map CodedUnit.plain :=
  if_pos h

theorem nextUnit_compressed (h : d.plainForm c = false) :
    d.nextUnit p c = compressedUnit (d.stagedBytes p c) (d.messageLength c - (d.chan c).out.offset) :=
  if_neg (by rw [h]; exact Bool.false_ne_true)

/-- With nothing staged at the offset neither form has a unit. -/
theorem nextUnit_unstaged (h : d.stagedBytes p c = []) : d.nextUnit p c = none := by
  cases form : d.plainForm c with
  | true => rw [nextUnit_plain form, h]; rfl
  | false => rw [nextUnit_compressed form, h]; rfl

/-- Settles O57: the form of the message decides whether the unit is the first staged byte or the run at the head of the staged bytes. -/
theorem encoderFormsUnits : Obligations.EncoderFormsUnits := by
  intro d p c
  refine ⟨nextUnit_unstaged, fun form b rest staged => ?_, fun on coded b run rest begun other staged => ?_⟩
  · rw [nextUnit_plain (plainForm_plain form), staged]
    rfl
  · rw [nextUnit_compressed (plainForm_compressed on coded), staged]
    exact compressedUnit_run begun other

end Sys2Proof.Encoding
end

section
/-! SUPPORT. The breaks of an ACTIVE port by its timers, by the lines its peer drives, and by a byte of even parity (R58, R59, R67,
R71 to R73). -/

namespace Sys2Proof.Breaks

open Sys2Proof.Machine Sys2Proof.LinkBytes

variable {s : State} {d : Device} {p : PortId} {why : BreakCause} {i : Instr}

/-! ## A break at an event -/

/-- A change of a port that leaves what the break of the port reads of its record, the lines excepted. -/
structure SparesBreak (g : Port → Port) : Prop where
  state : ∀ x, (g x).state = x.state := by intro; rfl
  settings : ∀ x, (g x).settings = x.settings := by intro; rfl
  retries : ∀ x, (g x).retryCount = x.retryCount := by intro; rfl
  breaks : ∀ x, (g x).counters.breaks = x.counters.breaks := by intro; rfl
  map : ∀ x, (g x).map = x.map := by intro; rfl

/-- A break leaves no byte in inbound staging to issue. -/
theorem issueInbound_breakPort (active : (d.port p).state = .active) : (d.breakPort p why).issueInbound p = d.breakPort p why := by
  rw [breakPort_active active]
  have torn := tearDown_spec (noted d p why) p (final := .broken) (by decide)
  obtain ⟨e, he⟩ : ∃ e, e = (noted d p why).tearDown p .broken := ⟨_, rfl⟩
  rw [← he] at torn ⊢
  exact issueInbound_empty _ _ (by rw [port_modPort_self]; exact torn.down.quiet.staging.1)

/-- An event that changes an ACTIVE port's record and then breaks the port. -/
theorem breaks_at {g : Port → Port} (spares : SparesBreak g) (active : (s.dev.port p).state = .active)
    (event : exec i s = .next { s with dev := ((s.dev.modPort p g).breakPort p why).settle }) :
    ∃ t, exec i s = .next t ∧ s.Broke t p (g (s.dev.port p)).lines why := by
  have state : (g (s.dev.port p)).state = .active := (spares.state _).trans active
  refine ⟨_, event, broke_of ⟨rfl, rfl, rfl, rfl, rfl, rfl⟩ ?_ state (spares.settings _) (spares.retries _) (spares.breaks _)
    (spares.map _)⟩
  rw [issueInbound_breakPort (by rw [port_modPort_self]; exact state)]

/-- The expiry of a timer that runs breaks an ACTIVE port, if that is what its expiry does. -/
theorem expiry_breaks (timer : Port → Timer) (stop : Port → Port) (spares : SparesBreak stop)
    (lines : (stop (s.dev.port p)).lines = (s.dev.port p).lines) (running : s.engine = .running)
    (active : (s.dev.port p).state = .active) (runs : timer (s.dev.port p) ≠ .stopped)
    (event : exec i s = .next (s.event fun d => d.expire p timer stop fun e => e.breakPort p why)) :
    ∃ t, exec i s = .next t ∧ s.Broke t p (s.dev.port p).lines why := by
  have on : (timer (s.dev.port p)).isRunning = true := by
    cases h : timer (s.dev.port p) with
    | stopped => exact absurd h runs
    | running k => rfl
  rw [← lines]
  refine breaks_at spares active ?_
  rw [event, event_eq running, Device.expire, if_pos on]

/-! ## A break by a line -/

/-- The blocks with other levels on a port's lines. -/
def driven (d : Device) (p : PortId) (l : PeerLines) : Device := d.modPort p fun x => x.under l

@[simp] theorem port_driven (l : PeerLines) : (driven d p l).port p = (d.port p).under l := port_modPort_self _ _ _

/-- A change of the lines of an ACTIVE port breaks the port, if that is what follows it. -/
theorem drive_breaks {f : PeerLines → PeerLines} {follow : Device → Device} (running : s.engine = .running)
    (active : (s.dev.port p).state = .active) (event : exec i s = .next ((s.drive p f).event follow))
    (broken : follow (driven s.dev p (f (s.dev.port p).lines)) = (driven s.dev p (f (s.dev.port p).lines)).breakPort p why) :
    ∃ t, exec i s = .next t ∧ s.Broke t p (f (s.dev.port p).lines) why := by
  have levels : (s.drive p f).dev = driven s.dev p (f (s.dev.port p).lines) :=
    modPort_congr s.dev p (f := fun x => { x with lines := f x.lines }) rfl
  refine breaks_at (g := fun x => x.under (f (s.dev.port p).lines)) {} active ?_
  rw [event, event_eq (show (s.drive p f).engine = .running from running), levels, broken]
  rfl

/-! What an edge of a line is: the level changed, and then what follows at the port. -/

theorem exec_engiFall (high : (s.dev.port p).lines.engi = true) :
    exec (.engiFall p) s = .next ((s.drive p fun l => { l with engi := false }).event fun d => d.engageLost p) := if_pos high

theorem exec_owniRise (low : (s.dev.port p).lines.owni = false) :
    exec (.owniRise p) s = .next ((s.drive p fun l => { l with owni := true }).event fun d => d.peerTakes p) :=
  if_neg (Bool.eq_false_iff.mp low)

theorem exec_owniFall (high : (s.dev.port p).lines.owni = true) :
    exec (.owniFall p) s = .next ((s.drive p fun l => { l with owni := false }).event fun d => d.peerReleases p) := if_pos high

theorem exec_peerByteOffered (low : (s.dev.port p).lines.stb = false) (w : WireByte) :
    exec (.peerByteOffered p w) s = .next ((s.drive p fun l => l.offering w).event fun d => d.peerByteStands p) :=
  if_neg (Bool.eq_false_iff.mp low)

/-- ENGI fallen breaks an ACTIVE port, abruptly if a byte is under way (R73). -/
theorem engageLost_active (active : (d.port p).state = .active) :
    d.engageLost p = d.breakPort p (if (d.port p).tx = .idle ∧ (d.port p).rx = .idle then .peerLeft else .abrupt) := by
  unfold Device.engageLost
  simp [active, Port.linesQuiet]

/-- OWNI risen in OURS (R72). -/
theorem peerTakes_ours (turn : (d.port p).turn = .ours) : d.peerTakes p = d.breakPort p (.protocol .collision) := by
  simp [Device.peerTakes, turn]

/-- OWNI fallen in THEIRS, or in ASKED with a byte of the peer not returned (R67, R72). -/
theorem peerReleases_unasked (h : (d.port p).turn = .theirs ∨ ((d.port p).turn = .asked ∧ (d.port p).rx ≠ .idle)) :
    d.peerReleases p = d.breakPort p (.protocol .unaskedRelease) := by
  rcases h with turn | ⟨turn, under⟩
  · simp [Device.peerReleases, turn]
  · simp [Device.peerReleases, turn, under]

/-- OWNI fallen in ASKED with a REPEAT left over (R46, R67). -/
theorem peerReleases_orphan (turn : (d.port p).turn = .asked) (quiet : (d.port p).rx = .idle)
    (run : (d.port p).repeatPending ≠ none) : d.peerReleases p = d.breakPort p (.protocol .repeatOrphan) := by
  simp [Device.peerReleases, turn, quiet, Option.isSome_iff_ne_none.mpr run]

/-- A byte of even parity that stands offered (R59). -/
theorem peerByteStands_odd (turn : (d.port p).turn = .theirs ∨ (d.port p).turn = .asked) (strobe : (d.port p).lines.stb = true)
    (quiet : (d.port p).rx = .idle) (bad : parityGood (d.port p).lines.byte = false) :
    d.peerByteStands p = d.breakPort p .parity := by
  have reads : (d.port p).reads = true := by rcases turn with e | e <;> simp [Port.reads, e]
  simp [Device.peerByteStands, reads, strobe, quiet, bad]

/-! ## The events -/

/-- Settles O52: each event breaks the port by the case of its own meaning that the port's record selects. -/
theorem activePortBreaks : Obligations.ActivePortBreaks := by
  intro p s running active
  refine ⟨fun runs => ?_, fun runs => ?_, fun runs => ?_, fun high => ?_, fun low turn => ?_, fun high left => ?_,
    fun high turn quiet run => ?_, fun w listens bad => ?_⟩
  · exact expiry_breaks Port.acceptTimer (fun x => { x with acceptTimer := .stopped }) {} rfl running active runs rfl
  · exact expiry_breaks Port.takeTimer (fun x => { x with takeTimer := .stopped }) {} rfl running active runs rfl
  · exact expiry_breaks Port.turnWaitTimer (fun x => { x with turnWaitTimer := .stopped }) {} rfl running active runs rfl
  · refine drive_breaks running active (exec_engiFall high) ?_
    rw [engageLost_active (by rw [port_driven]; exact active), port_driven]
    rfl
  · refine drive_breaks running active (exec_owniRise low) ?_
    exact peerTakes_ours (by rw [port_driven]; exact turn)
  · refine drive_breaks running active (exec_owniFall high) ?_
    exact peerReleases_unasked (by rw [port_driven]; exact left)
  · refine drive_breaks running active (exec_owniFall high) ?_
    exact peerReleases_orphan (by rw [port_driven]; exact turn) (by rw [port_driven]; exact quiet) (by rw [port_driven]; exact run)
  · obtain ⟨-, turn, strobe, quiet⟩ := listens
    refine drive_breaks running active (exec_peerByteOffered strobe w) ?_
    exact peerByteStands_odd (by rw [port_driven]; exact turn) (by rw [port_driven]; rfl) (by rw [port_driven]; exact quiet)
      (by rw [port_driven]; exact bad)

end Sys2Proof.Breaks
end

section
/-! SUPPORT. Emptying a port's staging beside other changes, and the tear-down of a port with nothing open (R60, R74). -/

namespace Sys2Proof.TakenDown

open Sys2Proof.Machine Sys2Proof.LinkBytes Sys2Proof.Quiesce

variable {d e : Device} {p : PortId} {n : LinkNumber} {c : ChannelId} {b : NoticeBody} {final : PortState}

/-! ## Emptying staging beside other changes -/

/-- The record of a port with its staging emptied. -/
def unstaged (x : Port) : Port := { x with inStaging := [], outStaging := OutStaging.empty }

/-- The blocks with a port's staging emptied, and a Relay Unit and buffers written. -/
def emptied (d : Device) (p : PortId) (u : RelayUnit) (l : List Buffer) : Device :=
  { d.modPort p unstaged with relay := u, buffers := l }

/-- The emptying of staging writes one Relay Unit and one list of buffers into all blocks that agree on what it reads. -/
theorem emptyStaging_form (d : Device) (p : PortId) :
    ∃ u l, ∀ e : Device, e.relay = d.relay → e.buffers = d.buffers → (e.port p).inStaging = (d.port p).inStaging →
      e.emptyStaging p = emptied e p u l := by
  refine ⟨(d.emptyStaging p).relay, (d.emptyStaging p).buffers, fun e relay buffers staged => ?_⟩
  obtain ⟨cells, kept⟩ := emptyStaging_same relay buffers staged
  rw [← cells, ← kept]
  unfold Device.emptyStaging
  rw [keepQueued_eq]
  rfl

/-- Emptying staging commutes with a change of the port that spares its staging. -/
theorem emptyStaging_modPort {g : Port → Port} (keeps : (g (d.port p)).inStaging = (d.port p).inStaging)
    (comm : unstaged (g (d.port p)) = g (unstaged (d.port p))) :
    (d.modPort p g).emptyStaging p = (d.emptyStaging p).modPort p g := by
  obtain ⟨u, l, form⟩ := emptyStaging_form d p
  have ports : (d.modPort p g).modPort p unstaged = (d.modPort p unstaged).modPort p g := by
    rw [modPort_modPort, modPort_modPort]
    exact modPort_congr d p comm
  rw [form d rfl rfl rfl, form (d.modPort p g) rfl rfl (by rw [port_modPort_self]; exact keeps), emptied, ports]
  rfl

/-- Emptying staging commutes with a notice. -/
theorem emptyStaging_noticed (d : Device) (p : PortId) (b : NoticeBody) :
    (d.noticed b).emptyStaging p = (d.emptyStaging p).noticed b := by
  obtain ⟨u, l, form⟩ := emptyStaging_form d p
  rw [form d rfl rfl rfl, form (d.noticed b) rfl rfl rfl]
  rfl

theorem emptyStaging_asyncNotice (d : Device) (p : PortId) (b : NoticeBody) :
    (d.asyncNotice b).emptyStaging p = (d.emptyStaging p).asyncNotice b := by
  obtain ⟨u, l, form⟩ := emptyStaging_form d p
  have room : ((emptied d p u l).ring nqRing).room = (d.ring nqRing).room := rfl
  rw [form d rfl rfl rfl]
  unfold Device.asyncNotice
  rw [room]
  split
  · exact form _ rfl rfl rfl
  · exact form _ rfl rfl rfl

/-- Emptying staging commutes with the take of a command. -/
theorem emptyStaging_afterTake (d : Device) (p : PortId) : d.afterTake.emptyStaging p = (d.emptyStaging p).afterTake := by
  obtain ⟨u, l, form⟩ := emptyStaging_form d p
  rw [form d rfl rfl rfl, form d.afterTake rfl rfl rfl]
  rfl

theorem emptyStaging_withDeferred (d : Device) (p : PortId) (l : List Deferred) :
    (d.withDeferred l).emptyStaging p = (d.emptyStaging p).withDeferred l := by
  obtain ⟨u, k, form⟩ := emptyStaging_form d p
  rw [form d rfl rfl rfl, form (d.withDeferred l) rfl rfl rfl]
  rfl

/-- A change of a port commutes with an asynchronous notice. -/
theorem asyncNotice_modPort (d : Device) (p : PortId) (g : Port → Port) (b : NoticeBody) :
    (d.modPort p g).asyncNotice b = (d.asyncNotice b).modPort p g := by
  have room : ((d.modPort p g).ring nqRing).room = (d.ring nqRing).room := rfl
  unfold Device.asyncNotice
  rw [room]
  split <;> rfl

/-! ## The steady part under changes of a port -/

/-- Changes of a port that agree on the steady part of its record. -/
theorem steady_modPort_eq {f g : Port → Port} (h : (f (d.port p)).steady = (g (d.port p)).steady) :
    (d.modPort p f).steady = (d.modPort p g).steady := by
  refine steady_ext rfl (fun _ => rfl) (fun q => ?_) (fun _ => rfl) rfl rfl rfl
  rw [port_modPort, port_modPort]
  split
  · exact h
  · rfl

/-- A waiting list without a port's halves has the same steady part. -/
theorem unwaitPort_steady (d : Device) (p : PortId) : (d.unwaitPort p).steady = d.steady := by
  refine steady_ext rfl (fun _ => rfl) (fun _ => rfl) (fun r => ?_) rfl rfl rfl
  simp only [Device.unwaitPort, Device.ring, get_map]
  rfl

theorem returnCredits_steady (d : Device) (p : PortId) : (d.returnCredits p).steady = d.steady :=
  foldl_keeps Device.steady _ (fun _ _ => releaseCredits_steady _ _ _) _ _

/-- What a cleared Link Map leaves of a port's steady part is read off that steady part. -/
theorem clearMap_steady (x : Port) : x.clearMap.steady = x.steady.clearMap.steady := by
  simp only [Port.clearMap, Port.steady, Port.mk.injEq, turn_steady_steady, tx_steady_steady, true_and, and_true]
  refine vector_ext_get fun n => ?_
  simp only [get_map]
  rfl

/-! ## A tear-down with nothing open -/

/-- Nothing is open on a port of the blocks, and no channel waits for its link. -/
structure Unopened (d : Device) (p : PortId) : Prop where
  marks : ∀ n, ((d.port p).entry n).marked = false
  closing : ∀ c, (d.chan c).state ≠ .draining ∧ (d.chan c).state ≠ .aborting
  faults : ∀ n, ((d.inHalf p n).owner.any fun c => (d.chan c).faultWaits) = false

theorem nothingOpen_iff {s : State} : s.nothingOpen p ↔ Unopened s.dev p :=
  ⟨fun ⟨marks, closing, faults⟩ => ⟨marks, closing, faults⟩, fun h => ⟨h.marks, h.closing, h.faults⟩⟩

/-- The channels and the port's Link Map say whether something is open. -/
theorem Unopened.of_eq (h : Unopened d p) (channels : e.channels = d.channels) (map : (e.port p).map = (d.port p).map) :
    Unopened e p := by
  have chan : ∀ c, e.chan c = d.chan c := fun c => by rw [Device.chan, channels]; rfl
  have entry : ∀ n, (e.port p).entry n = (d.port p).entry n := fun n => by rw [Port.entry, map]; rfl
  refine ⟨fun n => by rw [entry]; exact h.marks n, fun c => by rw [chan]; exact h.closing c, fun n => ?_⟩
  simp only [Device.inHalf, entry, chan]
  exact h.faults n

/-- A channel that neither closes nor waits for the revoke of a fault loses no revoke. -/
theorem loseRevoke_calm {x : Channel} (closing : x.state ≠ .draining ∧ x.state ≠ .aborting) (fault : x.faultWaits = false) :
    x.loseRevoke = x := by
  refine if_neg fun ⟨waiting, state⟩ => ?_
  rcases state with state | state | state
  · exact closing.1 state
  · exact closing.2 state
  · simp [Channel.faultWaits, state, waiting] at fault

/-- With nothing open, no close is completed for an entry. -/
theorem closeAfterLoss_unopened (h : Unopened d p) (n : LinkNumber) : Device.closeAfterLoss p d n = d := by
  have outbound : (match (d.outHalf p n).owner with | some c => d.closeOwner c | none => d) = d := by
    split
    · exact closeOwner_calm h.closing _
    · rfl
  unfold Device.closeAfterLoss
  cases owner : (d.inHalf p n).owner with
  | none => exact outbound
  | some c =>
    have calm : (d.chan c).faultWaits = false := by simpa [owner] using h.faults n
    have kept : d.modChan c Channel.loseRevoke = d := by
      have : d.channels.set c (d.chan c).loseRevoke = d.channels := by
        rw [loseRevoke_calm (h.closing c) calm]
        exact set_get _ _
      exact congrArg (fun v => ({ d with channels := v } : Device)) this
    dsimp only
    rw [kept, closeOwner_calm h.closing]
    exact outbound

/-- Returning reservations changes rings alone. -/
theorem returnCredits_rings (d : Device) (p : PortId) : ∃ v, d.returnCredits p = { d with rings := v } := by
  have fold : ∀ (l : List LinkNumber) (a : Device), (∃ v, a = { d with rings := v }) →
      ∃ v, l.foldl (fun e n => e.releaseCredits (e.inHalf p n).owner ((e.inHalf p n).granted + (e.inHalf p n).inFlight)) a =
        { d with rings := v } := by
    intro l
    induction l with
    | nil => exact fun _ h => h
    | cons n l ih =>
      rintro a ⟨v, rfl⟩
      refine ih _ ?_
      dsimp only
      unfold Device.releaseCredits
      split
      · split <;> exact ⟨_, rfl⟩
      · exact ⟨_, rfl⟩
  exact fold _ d ⟨_, rfl⟩

/-- The tear-down of a port with nothing open reports no loss and completes no close (R74). -/
theorem tearDown_unopened (final : PortState) (h : Unopened d p) :
    d.tearDown p final =
      (((((d.modPort p fun x => x.dropLink final).emptyStaging p).returnCredits p).modPort p Port.clearMap).unwaitPort p) := by
  obtain ⟨a, ha⟩ : ∃ a, a = (d.modPort p fun x => x.dropLink final).emptyStaging p := ⟨_, rfl⟩
  have channels : a.channels = d.channels := by rw [ha, (emptyStaging_frame _ _).1]; rfl
  have map : (a.port p).map = (d.port p).map := by rw [ha, emptyStaging_port, if_pos rfl, port_modPort_self]; rfl
  have first := h.of_eq channels map
  have losses : linkNumbers.foldl (Device.reportLoss p) a = a :=
    List.foldl_fixed' (fun n => reportLoss_unmarked (first.marks n)) _
  obtain ⟨v, credits⟩ := returnCredits_rings a p
  have last : Unopened ((({ a with rings := v } : Device).modPort p Port.clearMap).unwaitPort p) p := by
    have entry : ∀ n, (((({ a with rings := v } : Device).modPort p Port.clearMap).unwaitPort p).port p).entry n =
        ((a.port p).entry n).clear := fun n => by
      have : ((({ a with rings := v } : Device).modPort p Port.clearMap).unwaitPort p).port p =
          (({ a with rings := v } : Device).modPort p Port.clearMap).port p := rfl
      rw [this, port_modPort_self]
      simp [Port.clearMap, Port.entry, Device.port]
    have chan : ∀ c, ((({ a with rings := v } : Device).modPort p Port.clearMap).unwaitPort p).chan c = a.chan c := fun c => rfl
    refine ⟨fun n => by rw [entry]; rfl, fun c => by rw [chan]; exact first.closing c, fun n => ?_⟩
    simp only [Device.inHalf, entry, chan]
    exact first.faults n
  have closes := List.foldl_fixed' (fun n => closeAfterLoss_unopened last n) linkNumbers
  unfold Device.tearDown
  dsimp only
  rw [← ha, losses, credits, closes]

/-- What it leaves: the port's record dropped and its staging emptied, and nothing else that is steady. -/
theorem tearDown_steady (final : PortState) (h : Unopened d p) :
    (d.tearDown p final).steady = ((d.emptyStaging p).modPort p fun x => x.dropped final).steady := by
  have drop : (d.modPort p fun x => x.dropLink final).emptyStaging p = (d.emptyStaging p).modPort p fun x => x.dropLink final :=
    emptyStaging_modPort rfl rfl
  rw [tearDown_unopened final h, unwaitPort_steady, drop,
    steady_modPort_congr p Port.clearMap Port.clearMap (returnCredits_steady _ _)
      fun x y same => by rw [clearMap_steady, same, ← clearMap_steady],
    modPort_modPort]
  refine steady_modPort_eq ?_
  rw [emptyStaging_port, if_pos rfl]
  rfl

theorem tearDown_cu (final : PortState) (h : Unopened d p) : (d.tearDown p final).cu = d.cu := by
  obtain ⟨v, credits⟩ := returnCredits_rings ((d.modPort p fun x => x.dropLink final).emptyStaging p) p
  rw [tearDown_unopened final h, unwaitPort_cu, modPort_cu, credits]
  exact (emptyStaging_eq _ p).2.1

theorem tearDown_serial (final : PortState) (h : Unopened d p) : (d.tearDown p final).serial = d.serial := by
  obtain ⟨v, credits⟩ := returnCredits_rings ((d.modPort p fun x => x.dropLink final).emptyStaging p) p
  rw [tearDown_unopened final h, unwaitPort_serial, modPort_serial, credits]
  exact (emptyStaging_frame _ p).2.1

end Sys2Proof.TakenDown
end

section
/-! SUPPORT. What the state shows of a port taken down: PORT_DISABLE ABRUPT, the ends of a quiesce, and the returns of bytes (R58, R59,
R74, R78 to R81). -/

namespace Sys2Proof.TakenDown

open Sys2Proof.Machine Sys2Proof.LinkBytes Sys2Proof.Quiesce Sys2Proof.Breaks

variable {s t : State} {d e : Device} {p : PortId} {b : NoticeBody} {final : PortState} {g : Port → Port}

/-! ## What a port that went down shows -/

/-- The fields of its own that a port keeps as its link drops. -/
theorem dropLink_reads {x y : Port} (h : y.own = (x.dropLink final).own) :
    y.state = final ∧ y.lastBreak = x.lastBreak ∧ y.counters.breaks = x.counters.breaks ∧ y.recoverTimer = .stopped ∧
      y.lines = x.lines ∧ y.settings = x.settings ∧ y.retryCount = x.retryCount ∧ y.pendingDisable = none := by
  have reads : ∀ {α : Type} (f : Port → α), f y.own = f (x.dropLink final).own := fun f => congrArg f h
  exact ⟨reads Port.state, reads Port.lastBreak, reads fun z => z.counters.breaks, reads Port.recoverTimer, reads Port.lines,
    reads Port.settings, reads Port.retryCount, reads Port.pendingDisable⟩

/-- A tear-down at an event: bookkeeping and a change of the port's own record before it, and bookkeeping after it. -/
structure TakesDown (s t : State) (p : PortId) (g : Port → Port) (d : Device) (final : PortState) : Prop where
  registers : s.sameRegisters t
  low : final ≠ .active ∧ final ≠ .quiescing
  before : d.Follows (s.dev.modPort p g)
  owners : bonds d = bonds s.dev
  after : t.dev.Follows (d.tearDown p final)
  bound : bonds t.dev = bonds (d.tearDown p final)

namespace TakesDown

theorem torn (h : TakesDown s t p g d final) : t.dev.TornDown d p final := (tearDown_spec d p h.low).follows h.low h.after

/-- The port's own fields are those before the event, changed and dropped. -/
theorem own (h : TakesDown s t p g d final) : (t.dev.port p).own = ((g (s.dev.port p)).dropLink final).own := by
  rw [h.torn.own, dropLink_own, h.before.own p, port_modPort_self, ← dropLink_own]

theorem wentDown (h : TakesDown s t p g d final) (settings : (g (s.dev.port p)).settings = (s.dev.port p).settings)
    (retries : (g (s.dev.port p)).retryCount = (s.dev.port p).retryCount) : s.WentDown t p := by
  obtain ⟨-, -, -, -, -, kept, tries, pending⟩ := dropLink_reads h.own
  have torn := h.torn
  refine ⟨h.registers, torn.down, ⟨kept.trans settings, tries.trans retries, pending⟩, fun q hq => ?_,
    ⟨torn.held.trans h.before.held, torn.taken.trans h.before.taken, torn.fetch.trans h.before.fetch,
      torn.producer.trans h.before.producer, torn.base.trans h.before.base, torn.size.trans h.before.size⟩, fun n c own => ?_⟩
  · rw [torn.others q hq, h.before.own q, Device.Rests.modPort_other hq]
  · obtain ⟨state, revoke⟩ := chan_of_bonds h.bound c
    rw [Channel.faultWaits, state, revoke]
    exact tearDown_calm (by rw [owner_of_bonds h.owners]; exact own)

/-- NQ's write queue only gains records after what was posted before the tear-down. -/
theorem queue (h : TakesDown s t p g d final) : ∃ l, (t.dev.ring 4).queue = (d.ring 4).queue ++ l := h.torn.queue

end TakesDown

/-- A notice stands at the tail of NQ's write queue. -/
theorem noticed_queue (d : Device) (b : NoticeBody) :
    ((d.noticed b).ring 4).queue = (d.ring 4).queue ++ [{ order := d.serial, body := .notice b d.lost }] :=
  congrArg Ring.queue (ring_modRing_self d 4 fun x => { x with queue := x.queue ++ [{ order := d.serial, body := .notice b d.lost }] })

/-- The steady part of the blocks holds NQ's write queue. -/
theorem queue_of_steady (h : e.steady = d.steady) : (e.ring 4).queue = (d.ring 4).queue := by
  have queue := congrArg Ring.queue (ring_of_steady h 4)
  exact queue

/-! ## The end of a tear-down with nothing open -/

/-- The same deferred list keeps blocks equal in their steady part. -/
theorem withDeferred_congr (l : List Deferred) (h : e.steady = d.steady) : (e.withDeferred l).steady = (d.withDeferred l).steady := by
  refine steady_ext ?_ (chan_of_steady (d := e) (e := d) h) (port_of_steady (d := e) (e := d) h) (ring_of_steady (d := e) (e := d) h)
    (relay_of_steady (d := e) (e := d) h) (lost_of_steady (d := e) (e := d) h) (buffers_of_steady (d := e) (e := d) h)
  have cu := cu_of_steady h
  exact congrArg (fun x : CommandUnit => { x with deferred := l }) cu

theorem dropped_serial (d : Device) (p : PortId) :
    ((d.emptyStaging p).modPort p fun x => x.dropped .disabled).serial = d.serial := (emptyStaging_frame d p).2.1

/-- A notice after the tear-down of a port with nothing open. -/
theorem tearDown_noticed (h : Unopened d p) (b : NoticeBody) :
    ((d.tearDown p .disabled).noticed b).steady = (((d.emptyStaging p).modPort p fun x => x.dropped .disabled).noticed b).steady :=
  noticed_congr b (tearDown_steady .disabled h) (by rw [tearDown_serial .disabled h, dropped_serial])

/-- The end of a quiesce with nothing open: the port is DISABLED and its PORT_DISABLE completes (R78, R79, R80). -/
theorem disable_completes {r : Result} {k : Nat} {f : Deferred} {before after : List Deferred} (h : Unopened d p)
    (list : d.cu.deferred = before ++ f :: after) (first : ∀ x ∈ before, isDisable p x.work = false)
    (own : isDisable p f.work = true) (free : ∀ x, (before ++ after).head? = some x → x.work ≠ .barrier) :
    ((d.tearDown p .disabled).completeDisable p r k).steady =
      ((((d.emptyStaging p).modPort p fun x => x.dropped .disabled).withDeferred (before ++ after)).noticed
        (.commandDone f.subject r f.tag k)).steady := by
  unfold Device.completeDisable
  rw [completeDeferred_eq before after (by rw [tearDown_cu .disabled h]; exact list) first own free]
  refine noticed_congr _ (withDeferred_congr _ (tearDown_steady .disabled h)) ?_
  rw [withDeferred_serial, withDeferred_serial, tearDown_serial .disabled h, dropped_serial]

/-! ## PORT_DISABLE ABRUPT (R81) -/

/-- The blocks as an abrupt PORT_DISABLE takes the port down: the graceful one of a QUIESCING port has completed SUPERSEDED. -/
def superseded (d : Device) (p : PortId) : Device :=
  if (d.port p).state = .quiescing then d.completeDisable p .superseded 0 else d

theorem superseded_follows (d : Device) (p : PortId) : (superseded d p).Follows d := by
  unfold superseded
  split
  · exact .completeDisable (.self d)
  · exact .self d

theorem bonds_superseded (d : Device) (p : PortId) : bonds (superseded d p) = bonds d := by
  unfold superseded
  split
  · exact bonds_completeDeferred _ _ _
  · rfl

/-- An abrupt PORT_DISABLE of an engaged port. -/
theorem exec_abrupt {tag : Half} {port : Byte} (take : s.canTake (.portDisableAbrupt tag port)) (hp : port.toNat = p.val)
    (up : (s.dev.port p).up = true) :
    exec (.portDisableAbrupt tag port) s =
      .next { s with dev := (((superseded s.dev.afterTake p).tearDown p .disabled).commandDone port tag .ok 0).settle } := by
  have dispatch : exec (.portDisableAbrupt tag port) s = execPortDisableAbrupt tag port s := by rfl
  have port_eq : s.dev.afterTake.port p = s.dev.port p := rfl
  have engaged : (s.dev.port p).state = .active ∨ (s.dev.port p).state = .quiescing := by simpa [Port.up] using up
  rw [dispatch, execPortDisableAbrupt, take_eq take, inRange_some hp, superseded, port_eq]
  rcases engaged with state | state
  · simp only [port_eq, state, reduceCtorEq, if_false]
  · simp only [port_eq, state, if_true]

/-- Settles O35: the tear-down's own lemmas say what an abrupt PORT_DISABLE leaves of any port, and `tearDown_noticed` what it leaves where
nothing is open. -/
theorem abruptDisableTakesPortDown : Obligations.AbruptDisableTakesPortDown := by
  intro tag port p s take hp up
  obtain ⟨d, hd⟩ : ∃ d, d = superseded s.dev.afterTake p := ⟨_, rfl⟩
  have same : s.dev.afterTake.modPort p id = s.dev.afterTake := modPort_eq_self _ _ rfl
  have before : d.Follows s.dev.afterTake := by rw [hd]; exact superseded_follows _ _
  rw [exec_abrupt take hp up, ← hd]
  obtain ⟨t, ht⟩ : ∃ t : State, t = { s with dev := ((d.tearDown p .disabled).commandDone port tag .ok 0).settle } := ⟨_, rfl⟩
  have dev : t.dev = ((d.tearDown p .disabled).commandDone port tag .ok 0).settle := by rw [ht]
  have registers : s.sameRegisters t := by rw [ht]; exact ⟨rfl, rfl, rfl, rfl, rfl, rfl⟩
  have down : TakesDown { s with dev := s.dev.afterTake } t p id d .disabled :=
    ⟨registers, by decide, by rw [same]; exact before, by rw [hd]; exact bonds_superseded _ _,
      by rw [dev]; exact (settle_follows _).trans (.commandDone (.self _)),
      by rw [dev, bonds_of_steady (settle_steady _), bonds_commandDone]⟩
  obtain ⟨state, last, breaks, recover, -⟩ := dropLink_reads down.own
  rw [← ht]
  refine ⟨t, rfl, down.wentDown rfl rfl, state, last, breaks, recover, ?_, fun active opened => ?_, fun quiescing f early late defers => ?_⟩
  · obtain ⟨l, hl⟩ := before.queue
    obtain ⟨m, hm⟩ := (tearDown_spec d p (final := .disabled) (by decide)).queue
    refine ⟨l ++ m, (d.tearDown p .disabled).serial, (d.tearDown p .disabled).lost, ?_⟩
    rw [dev, queue_of_steady (settle_steady _), commandDone_eq, noticed_queue, hm, hl]
    simp [Device.ring, Device.afterTake]
  · have start : d = s.dev.afterTake := by
      rw [hd]
      exact if_neg (by rw [show s.dev.afterTake.port p = s.dev.port p from rfl, active]; simp)
    have unopened : Unopened d p := by
      rw [start]
      exact (nothingOpen_iff.mp opened).of_eq rfl rfl
    refine ⟨registers, ?_⟩
    rw [dev, settle_steady, commandDone_eq, tearDown_noticed unopened, start, emptyStaging_afterTake]
    rfl
  · obtain ⟨list, own, first, free⟩ := defers
    have start : d = (s.dev.afterTake.withDeferred (early ++ late)).noticed (.commandDone f.subject .superseded f.tag 0) := by
      rw [hd]
      refine (if_pos quiescing).trans ?_
      exact completeDeferred_eq early late list first own free
    refine ⟨?_, fun opened => ⟨registers, ?_⟩⟩
    · obtain ⟨l, hl⟩ := down.queue
      refine ⟨s.dev.serial, l, ?_⟩
      rw [hl, start, noticed_queue, List.append_assoc]
      rfl
    · have unopened : Unopened d p := by
        rw [start]
        exact (nothingOpen_iff.mp opened).of_eq rfl rfl
      rw [dev, settle_steady, commandDone_eq, tearDown_noticed unopened, start, emptyStaging_noticed, emptyStaging_noticed,
        emptyStaging_withDeferred, emptyStaging_withDeferred, emptyStaging_afterTake]
      rfl

end Sys2Proof.TakenDown
end

section
/-! SUPPORT. What the events of a port are to a RUNNING part, and the ends of a quiesce: by the return of a byte, by a break and by
DRAIN_LIMIT (R58, R59, R74, R78 to R80). -/

namespace Sys2Proof.TakenDown

open Sys2Proof.Machine Sys2Proof.LinkBytes Sys2Proof.Quiesce Sys2Proof.Breaks

variable {s : State} {d : Device} {p : PortId} {i : Instr} {why : BreakCause} {g : Port → Port}

/-! ## The events of a port -/

theorem isRunning_iff {x : Timer} : x.isRunning = true ↔ x ≠ .stopped := by
  cases x <;> simp [Timer.isRunning]

/-- The expiry of a timer that runs: the timer stops, and what the expiry does follows. -/
theorem expiry_event {timer : Port → Timer} {stop : Port → Port} {follow : Device → Device} (running : s.engine = .running)
    (runs : timer (s.dev.port p) ≠ .stopped) (event : exec i s = .next (s.event fun d => d.expire p timer stop follow)) :
    exec i s = .next { s with dev := (follow (s.dev.modPort p stop)).settle } := by
  rw [event, event_eq running, Device.expire, if_pos (isRunning_iff.mpr runs)]

/-- An edge of a line: the level changes, and what the edge does follows. -/
theorem edge_event {f : PeerLines → PeerLines} {follow : Device → Device} (running : s.engine = .running)
    (event : exec i s = .next ((s.drive p f).event follow)) :
    exec i s = .next { s with dev := (follow (driven s.dev p (f (s.dev.port p).lines))).settle } := by
  have levels : (s.drive p f).dev = driven s.dev p (f (s.dev.port p).lines) :=
    modPort_congr s.dev p (f := fun x => { x with lines := f x.lines }) rfl
  rw [event, event_eq (show (s.drive p f).engine = .running from running), levels]
  rfl

/-! ## The return of a byte (R58, R59, R78) -/

/-- The record of a port as a byte of the part has returned. -/
def returned (x : Port) : Port := { x with tx := .idle, acceptTimer := .stopped }

/-- The record of a port as the peer's byte has returned. -/
def peerReturned (x : Port) : Port := { x with rx := .idle }

/-- The return of a byte of the part. -/
theorem exec_byteReturned {o : Offer} (running : s.engine = .running) (turn : (s.dev.port p).turn = .ours)
    (tx : (s.dev.port p).tx = .accepted o) :
    exec (.byteReturned p) s =
      .next { s with dev := ((s.dev.modPort p returned).checkQuiesce p).settle } := by
  have dispatch : exec (.byteReturned p) s = execByteReturned p s := by rfl
  rw [dispatch, execByteReturned, event_eq running]
  simp only [turn, tx]
  rfl

/-- The return of a byte of the peer: with no byte taken or withheld the level alone changes. -/
theorem exec_peerByteReturned (running : s.engine = .running) (strobe : (s.dev.port p).lines.stb = true) :
    exec (.peerByteReturned p) s =
      .next { s with
        dev := (if (s.dev.port p).rx = .idle then driven s.dev p { (s.dev.port p).lines with stb := false }
          else ((driven s.dev p { (s.dev.port p).lines with stb := false }).modPort p peerReturned).checkQuiesce p).settle } := by
  have dispatch : exec (.peerByteReturned p) s = execPeerByteReturned p s := by rfl
  have edge : exec (.peerByteReturned p) s =
      .next ((s.drive p fun l => { l with stb := false }).event fun d =>
        if (d.port p).rx == .idle then d else (d.modPort p peerReturned).checkQuiesce p) := by
    rw [dispatch, execPeerByteReturned]
    exact if_pos strobe
  have rx : ((driven s.dev p { (s.dev.port p).lines with stb := false }).port p).rx = (s.dev.port p).rx := by rw [port_driven]; rfl
  rw [edge_event running edge]
  simp only [rx, beq_iff_eq]

/-- A port that is not QUIESCING has no quiesce to end. -/
theorem checkQuiesce_other (h : (d.port p).state ≠ .quiescing) : d.checkQuiesce p = d := by
  simp [Device.checkQuiesce, Port.quiesceDone, h]

/-- A change of a port that spares its staging and shows nothing once the link is dropped. -/
structure Hidden (g : Port → Port) : Prop where
  staged : ∀ x, (g x).inStaging = x.inStaging := by intro; rfl
  comm : ∀ x, unstaged (g x) = g (unstaged x) := by intro; rfl
  dropped : ∀ x, (g x).dropped .disabled = x.dropped .disabled := by intro; rfl

/-- Such a change shows nothing after the tear-down. -/
theorem Hidden.dropped_modPort (h : Hidden g) :
    (((d.modPort p g).emptyStaging p).modPort p fun x => x.dropped .disabled) =
      (d.emptyStaging p).modPort p fun x => x.dropped .disabled := by
  rw [emptyStaging_modPort (h.staged _) (h.comm _), modPort_modPort]
  exact modPort_congr _ p (h.dropped _)

/-- A QUIESCING port with no byte under way, nothing pending and nothing open ends its quiesce (R78). -/
theorem quiesce_ends {f : Deferred} {before after : List Deferred} (state : (d.port p).state = .quiescing)
    (quiet : (d.port p).linesQuiet = true) (control : (d.port p).control = []) (h : Unopened d p)
    (revokes : ∀ n, (d.inHalf p n).revokePending = false) (defers : s.defers (isDisable p) f before after) (cu : d.cu = s.dev.cu) :
    (d.checkQuiesce p).steady =
      ((((d.emptyStaging p).modPort p fun x => x.dropped .disabled).withDeferred (before ++ after)).noticed
        (.commandDone f.subject .ok f.tag 0)).steady := by
  obtain ⟨list, own, first, free⟩ := defers
  rw [checkQuiesce_ends state quiet control h.marks revokes]
  exact disable_completes h (by rw [cu]; exact list) first own free

/-- Settles O46: a return ends the transfer, and `checkQuiesce` then finds either a port that is not QUIESCING or a quiesce that is done. -/
theorem returnEndsTransfer : Obligations.ReturnEndsTransfer := by
  intro p s running
  refine ⟨fun o turn tx => ?_, fun strobe => ?_⟩
  · rw [exec_byteReturned running turn tx]
    refine ⟨_, rfl, fun state => ⟨⟨rfl, rfl, rfl, rfl, rfl, rfl⟩, ?_⟩,
      fun state rx ⟨control, opened, revokes⟩ f before after defers => ⟨⟨rfl, rfl, rfl, rfl, rfl, rfl⟩, ?_⟩⟩
    · rw [settle_steady, checkQuiesce_other (by rw [port_modPort_self]; exact state)]
      exact steady_modPort_eq rfl
    · have hidden : Hidden returned := {}
      have unopened : Unopened (s.dev.modPort p returned) p :=
        (nothingOpen_iff.mp opened).of_eq rfl (by rw [port_modPort_self]; rfl)
      rw [settle_steady, quiesce_ends (s := s) (by rw [port_modPort_self]; exact state)
        (by rw [port_modPort_self]; simp [Port.linesQuiet, returned, rx]) (by rw [port_modPort_self]; exact control) unopened
        (fun n => by rw [inHalf_modPort _ _ _ _ rfl]; exact revokes n) defers rfl,
        hidden.dropped_modPort]
  · rw [exec_peerByteReturned running strobe]
    have low : driven s.dev p { (s.dev.port p).lines with stb := false } =
        s.dev.modPort p fun y => y.under { y.lines with stb := false } := modPort_congr _ _ rfl
    rw [low]
    refine ⟨_, rfl, fun state => ⟨⟨rfl, rfl, rfl, rfl, rfl, rfl⟩, ?_⟩,
      fun state rx tx ⟨control, opened, revokes⟩ f before after defers => ⟨⟨rfl, rfl, rfl, rfl, rfl, rfl⟩, ?_⟩⟩
    · rw [settle_steady]
      split
      · next rx => exact steady_modPort_eq (by simp only [Port.under, rx])
      · rw [checkQuiesce_other (by rw [port_modPort_self, port_modPort_self]; exact state), modPort_modPort]
        rfl
    · have map : ((s.dev.modPort p fun y => y.under { y.lines with stb := false }).port p).map = (s.dev.port p).map := by
        rw [port_modPort_self]
        rfl
      have hidden : Hidden peerReturned := {}
      have unopened : Unopened ((s.dev.modPort p fun y => y.under { y.lines with stb := false }).modPort p peerReturned) p :=
        (nothingOpen_iff.mp opened).of_eq rfl (by rw [port_modPort_self]; exact map)
      rw [if_neg rx, settle_steady, quiesce_ends (s := s) (by rw [port_modPort_self, port_modPort_self]; exact state)
        (by rw [port_modPort_self, port_modPort_self]; simp [Port.linesQuiet, Port.under, peerReturned, tx])
        (by rw [port_modPort_self, port_modPort_self]; exact control) unopened
        (fun n => by rw [inHalf_modPort _ _ _ _ rfl, inHalf_modPort _ _ _ _ rfl]; exact revokes n) defers rfl,
        hidden.dropped_modPort]

/-! ## A QUIESCING port that breaks, and DRAIN_LIMIT (R79, R80) -/

theorem breakPort_quiescing (h : (d.port p).state = .quiescing) (why : BreakCause) :
    d.breakPort p why = ((noted d p why).tearDown p .disabled).completeDisable p .ok 2 := by
  unfold Device.breakPort
  simp only [h]
  rfl

/-- Noting a break is its notice posted or lost, and a change of the port's record. -/
theorem noted_eq (d : Device) (p : PortId) (why : BreakCause) :
    noted d p why = (d.asyncNotice (.portEvent p (.broke why))).modPort p (counted why) := by
  have : (d.modPort p fun y => { y with lastBreak := why }).countPort p (fun k => { k with breaks := satAdd k.breaks 1 }) =
      d.modPort p (counted why) := by
    unfold Device.countPort
    rw [modPort_modPort]
    rfl
  rw [noted, this, asyncNotice_modPort]

/-- A notice changes NQ, the lost count and the count of identities alone. -/
theorem asyncNotice_frame (d : Device) (b : NoticeBody) :
    (d.asyncNotice b).cu = d.cu ∧ (d.asyncNotice b).channels = d.channels ∧ (d.asyncNotice b).ports = d.ports := by
  unfold Device.asyncNotice
  split <;> exact ⟨rfl, rfl, rfl⟩

/-- A change of a port that leaves what a break and its tear-down read of the record, the lines excepted. -/
structure SparesDrop (g : Port → Port) : Prop extends SparesBreak g where
  staged : ∀ x, (g x).inStaging = x.inStaging := by intro; rfl
  comm : ∀ x, unstaged (g x) = g (unstaged x) := by intro; rfl
  dropped : ∀ x why, (counted why (g x)).dropped .disabled = ((counted why x).under (g x).lines).dropped .disabled := by intros; rfl

/-- An event that changes a QUIESCING port's record and then breaks the port (R80). -/
theorem quiescing_breaks (spares : SparesDrop g) (quiescing : (s.dev.port p).state = .quiescing)
    (event : exec i s = .next { s with dev := ((s.dev.modPort p g).breakPort p why).settle }) :
    ∃ t, exec i s = .next t ∧ s.WentDown t p ∧ (t.dev.port p).state = .disabled ∧ (t.dev.port p).lastBreak = why ∧
      (t.dev.port p).counters.breaks = satAdd (s.dev.port p).counters.breaks 1 ∧ (t.dev.port p).recoverTimer = .stopped ∧
      (t.dev.port p).lines = (g (s.dev.port p)).lines ∧
      ((s.dev.ring 4).room ≠ 0 → s.nextNotice t (.portEvent p (.broke why))) ∧
      ∀ e before after, s.nothingOpen p → s.defers (isDisable p) e before after →
        ∃ d, s.dev.told (.portEvent p (.broke why)) d ∧
          s.becomes t
            ((((d.emptyStaging p).modPort p fun y => ((counted why y).under (g (s.dev.port p)).lines).dropped .disabled).withDeferred
              (before ++ after)).noticed (.commandDone e.subject .ok e.tag 2)) := by
  obtain ⟨a, ha⟩ : ∃ a, a = s.dev.asyncNotice (.portEvent p (.broke why)) := ⟨_, rfl⟩
  obtain ⟨cu, channels, ports⟩ := asyncNotice_frame s.dev (.portEvent p (.broke why))
  rw [← ha] at cu channels ports
  have port : a.port p = s.dev.port p := congrArg (·.get p) ports
  obtain ⟨d, hd⟩ : ∃ d, d = noted (s.dev.modPort p g) p why := ⟨_, rfl⟩
  have start : d = a.modPort p fun x => counted why (g x) := by
    rw [hd, noted_eq, asyncNotice_modPort, ← ha, modPort_modPort]
  rw [breakPort_quiescing (by rw [port_modPort_self, spares.state]; exact quiescing), ← hd] at event
  obtain ⟨t, ht⟩ : ∃ t : State, t = { s with dev := ((d.tearDown p .disabled).completeDisable p .ok 2).settle } := ⟨_, rfl⟩
  have dev : t.dev = ((d.tearDown p .disabled).completeDisable p .ok 2).settle := by rw [ht]
  have registers : s.sameRegisters t := by rw [ht]; exact ⟨rfl, rfl, rfl, rfl, rfl, rfl⟩
  have twice : (s.dev.modPort p g).modPort p (counted why) = s.dev.modPort p fun x => counted why (g x) := modPort_modPort _ _ _ _
  have down : TakesDown s t p (fun x => counted why (g x)) d .disabled :=
    ⟨registers, by decide, by rw [hd, ← twice]; exact noted_follows _ _ _,
      by rw [hd, bonds_noted]; exact bonds_modPort_map (spares.map _),
      by rw [dev]; exact (settle_follows _).trans (.completeDisable (.self _)),
      by rw [dev, bonds_of_steady (settle_steady _)]; exact bonds_completeDeferred _ _ _⟩
  obtain ⟨state, last, breaks, recover, lines, -⟩ := dropLink_reads down.own
  refine ⟨t, event.trans (by rw [ht]), down.wentDown (spares.settings _) (spares.retries _), state, last, ?_, recover, lines,
    fun room => ?_, fun f before after opened defers => ⟨a, ?_, registers, ?_⟩⟩
  · exact breaks.trans (congrArg (satAdd · 1) (spares.breaks _))
  · obtain ⟨l, hl⟩ := down.queue
    refine ⟨s.dev.serial, l, ?_⟩
    have posted : (d.ring 4).queue = (a.ring 4).queue := by rw [start]; rfl
    rw [hl, posted, ha, asyncNotice_posted room, List.append_assoc]
    rfl
  · rw [ha]
    exact asyncNotice_told _ _
  · obtain ⟨list, own, first, free⟩ := defers
    have unopened : Unopened d p := by
      refine (nothingOpen_iff.mp opened).of_eq ?_ ?_
      · rw [start]; exact channels
      · rw [start, port_modPort_self, port]; exact spares.map _
    have record : ((d.emptyStaging p).modPort p fun x => x.dropped .disabled) =
        (a.emptyStaging p).modPort p fun y => ((counted why y).under (g (s.dev.port p)).lines).dropped .disabled := by
      have emptied : (a.emptyStaging p).port p = unstaged (s.dev.port p) := by rw [emptyStaging_port, if_pos rfl, port]; rfl
      have comm : unstaged (counted why (g (a.port p))) = counted why (g (unstaged (a.port p))) := by rw [← spares.comm]; rfl
      rw [start, emptyStaging_modPort (g := fun x => counted why (g x)) (spares.staged _) comm, modPort_modPort]
      refine modPort_congr _ p ?_
      rw [emptied, spares.dropped, ← spares.comm]
      rfl
    rw [dev, settle_steady, disable_completes unopened (by rw [start]; exact (congrArg CommandUnit.deferred cu).trans list) first own free,
      record]

/-- The record of a port as its drain timer stops. -/
def drainStopped (x : Port) : Port := { x with drainTimer := .stopped }

/-- DRAIN_LIMIT expired on a QUIESCING port (R79). -/
theorem drain_expires (running : s.engine = .running) (runs : (s.dev.port p).drainTimer ≠ .stopped) :
    ∃ t, exec (.drainLimitExpiry p) s = .next t ∧ s.WentDown t p ∧ (t.dev.port p).state = .disabled ∧
      (t.dev.port p).lastBreak = (s.dev.port p).lastBreak ∧ (t.dev.port p).counters.breaks = (s.dev.port p).counters.breaks ∧
      (t.dev.port p).recoverTimer = .stopped ∧
      ∀ e before after, s.nothingOpen p → s.defers (isDisable p) e before after →
        s.becomes t
          ((((s.dev.emptyStaging p).modPort p fun y => y.dropped .disabled).withDeferred (before ++ after)).noticed
            (.commandDone e.subject .ok e.tag 1)) := by
  have hidden : Hidden drainStopped := {}
  obtain ⟨d, hd⟩ : ∃ d, d = s.dev.modPort p drainStopped := ⟨_, rfl⟩
  obtain ⟨t, ht⟩ : ∃ t : State, t = { s with dev := ((d.tearDown p .disabled).completeDisable p .ok 1).settle } := ⟨_, rfl⟩
  have dev : t.dev = ((d.tearDown p .disabled).completeDisable p .ok 1).settle := by rw [ht]
  have registers : s.sameRegisters t := by rw [ht]; exact ⟨rfl, rfl, rfl, rfl, rfl, rfl⟩
  have down : TakesDown s t p drainStopped d .disabled :=
    ⟨registers, by decide, by rw [hd]; exact .self _, by rw [hd]; exact bonds_modPort_map rfl,
      by rw [dev]; exact (settle_follows _).trans (.completeDisable (.self _)),
      by rw [dev, bonds_of_steady (settle_steady _)]; exact bonds_completeDeferred _ _ _⟩
  obtain ⟨state, last, breaks, recover, -⟩ := dropLink_reads down.own
  have event := expiry_event (i := .drainLimitExpiry p) (timer := Port.drainTimer) (stop := drainStopped)
    (follow := fun e => (e.tearDown p .disabled).completeDisable p .ok 1) running runs rfl
  refine ⟨t, event.trans (by rw [ht, hd]), down.wentDown rfl rfl, state, last, breaks, recover,
    fun f before after opened ⟨list, own, first, free⟩ => ⟨registers, ?_⟩⟩
  have unopened : Unopened d p := by
    rw [hd]
    exact (nothingOpen_iff.mp opened).of_eq rfl (by rw [port_modPort_self]; rfl)
  rw [dev, settle_steady, disable_completes unopened (by rw [hd]; exact list) first own free, hd,
    hidden.dropped_modPort]

/-- ENGI fallen breaks a QUIESCING port, abruptly if a byte is under way (R73). -/
theorem engageLost_quiescing (h : (d.port p).state = .quiescing) :
    d.engageLost p = d.breakPort p (if (d.port p).tx = .idle ∧ (d.port p).rx = .idle then .peerLeft else .abrupt) := by
  unfold Device.engageLost
  simp [h, Port.linesQuiet]

/-- Settles O53: each of the four events breaks the port by `quiescing_breaks`, and DRAIN_LIMIT takes it down without a break. -/
theorem quiescingPortEnds : Obligations.QuiescingPortEnds := by
  intro p s running quiescing
  refine ⟨fun i lines why cases => ?_, drain_expires running⟩
  rcases cases with ⟨rfl, runs, rfl, rfl⟩ | ⟨rfl, runs, rfl, rfl⟩ | ⟨rfl, runs, rfl, rfl⟩ | ⟨rfl, high, rfl, rfl⟩
  · exact quiescing_breaks (g := fun x => { x with acceptTimer := .stopped }) {} quiescing
      (expiry_event (timer := Port.acceptTimer) (follow := fun e => e.breakPort p .timeoutAccept) running runs rfl)
  · exact quiescing_breaks (g := fun x => { x with takeTimer := .stopped }) {} quiescing
      (expiry_event (timer := Port.takeTimer) (follow := fun e => e.breakPort p .timeoutTake) running runs rfl)
  · exact quiescing_breaks (g := fun x => { x with turnWaitTimer := .stopped }) {} quiescing
      (expiry_event (timer := Port.turnWaitTimer) (follow := fun e => e.breakPort p .turnStarved) running runs rfl)
  · refine quiescing_breaks (g := fun x => x.under { (s.dev.port p).lines with engi := false }) {} quiescing ?_
    rw [edge_event running (exec_engiFall high), engageLost_quiescing (by rw [port_driven]; exact quiescing), port_driven]
    rfl

end Sys2Proof.TakenDown
end

section
/-! SUPPORT. The commands on ports that are down, the engagement of a port, and the decision of a BROKEN one (R62 to R64, R75, R77, R81). -/

namespace Sys2Proof.Engaging

open Sys2Proof.Machine Sys2Proof.LinkBytes Sys2Proof.Quiesce Sys2Proof.Breaks Sys2Proof.TakenDown

variable {s t : State} {d e : Device} {p : PortId} {i : Instr}

/-! ## Takes and events -/

/-- A take of the head command leaves what the command makes of the blocks without it. -/
theorem take_answers {f : Device → Device} (take : s.canTake i) (h : f s.dev.afterTake = d) : s.becomes (s.take i f) d := by
  rw [← h]
  exact take_becomes take f

/-- The work at the end of an event leaves what blocks of the same steady part hold. -/
theorem becomes_settle (h : e.steady = d.steady) : s.becomes { s with dev := e.settle } d := by
  refine ⟨⟨rfl, rfl, rfl, rfl, rfl, rfl⟩, ?_⟩
  dsimp only
  rw [settle_steady, h]

/-! ## PORT_SETUP (R62) -/

theorem readRole_eq (b : Byte) : readRole b = if b.toNat ≤ 1 then some (if b = 0 then .lead else .follow) else none := by
  unfold readRole
  split
  · next h =>
    have : b = 0 := BitVec.eq_of_toNat_eq h
    subst this
    decide
  · next h =>
    have : b = 1 := BitVec.eq_of_toNat_eq h
    subst this
    decide
  · next zero one =>
    refine (if_neg fun low => ?_).symm
    have small : b.toNat = 0 ∨ b.toNat = 1 := by omega
    exact small.elim zero one

/-- The nine settings are read exactly when every one is in its range. -/
theorem readSettings_eq (role : Byte) (slice budget hold accept turnWait : Half) (recover retries : Byte) (drain : Half) :
    readSettings role slice budget hold accept turnWait recover retries drain =
      if role.toNat ≤ 1 ∧ (16 ≤ slice.toNat ∧ slice.toNat ≤ 1024) ∧ (64 ≤ budget.toNat ∧ budget.toNat ≤ 8192) ∧
          1 ≤ accept.toNat ∧ 1 ≤ turnWait.toNat ∧ 1 ≤ recover.toNat ∧ retries.toNat ≤ 15 ∧ 1 ≤ drain.toNat then
        some
          { role := if role = 0 then .lead else .follow, slice := slice.toNat, turnBudget := budget.toNat,
            holdLimit := hold.toNat, acceptLimit := accept.toNat, turnWait := turnWait.toNat, recover := recover.toNat,
            drainLimit := drain.toNat, retries := retries.toNat }
      else none := by
  have widths := And.intro accept.isLt (And.intro turnWait.isLt (And.intro recover.isLt drain.isLt))
  have ranges : (between 16 1024 slice.toNat && between 64 8192 budget.toNat && between 1 65535 accept.toNat &&
      between 1 65535 turnWait.toNat && between 1 255 recover.toNat && between 0 15 retries.toNat &&
      between 1 65535 drain.toNat) = true ↔ (16 ≤ slice.toNat ∧ slice.toNat ≤ 1024) ∧ (64 ≤ budget.toNat ∧ budget.toNat ≤ 8192) ∧
          1 ≤ accept.toNat ∧ 1 ≤ turnWait.toNat ∧ 1 ≤ recover.toNat ∧ retries.toNat ≤ 15 ∧ 1 ≤ drain.toNat := by
    simp only [between, Bool.and_eq_true, decide_eq_true_eq]
    omega
  unfold readSettings
  simp only [readRole_eq, ranges]
  by_cases named : role.toNat ≤ 1
  · simp only [named, if_true, true_and]
    rfl
  · simp only [named, if_false, false_and]
    rfl

/-- Settles O31: the checks are read off the command's meaning in its order. -/
theorem portSetupDecidedInOrder : Obligations.PortSetupDecidedInOrder := by
  intro tag port role slice budget hold accept turnWait recover retries drain s take
  refine ⟨_, rfl, fun big => take_answers take ?_, fun p hp => ?_⟩
  · simp only [inRange_none big]
    rfl
  · have record : s.dev.afterTake.port p = s.dev.port p := rfl
    refine ⟨fun bad => take_answers take ?_, fun good state => take_answers take ?_, fun good state => take_answers take ?_,
      fun good state => take_answers take ?_⟩
    · simp only [inRange_some hp, readSettings_eq, if_neg bad]
      rfl
    · simp only [inRange_some hp, readSettings_eq, if_pos good, record, state]
      rfl
    · rcases state with state | state | state <;>
        (simp only [inRange_some hp, readSettings_eq, if_pos good, record, state]; rfl)
    · rcases state with state | state <;>
        (simp only [inRange_some hp, readSettings_eq, if_pos good, record, state]; rfl)

/-! ## PORT_DISABLE of a port that is not engaged (R77, R81) -/

/-- Settles O33: each check comes before the ones after it, and a port that is not engaged is in one of four states. -/
theorem portDisableOfDownPort : Obligations.PortDisableOfDownPort := by
  intro tag port mode s
  have record : ∀ p, s.dev.afterTake.port p = s.dev.port p := fun _ => rfl
  have down : ∀ p, (s.dev.port p).up = false →
      (s.dev.port p).state = .disabled ∨ (s.dev.port p).state = .engaging ∨ (s.dev.port p).state = .broken ∨
        (s.dev.port p).state = .failed := fun p h => by
    cases state : (s.dev.port p).state <;> simp [Port.up, state] at h ⊢
  refine ⟨fun take => ⟨_, rfl, fun big => take_answers take ?_, fun p hp =>
      ⟨fun mode => take_answers take ?_, fun mode state => take_answers take ?_, fun mode low => take_answers take ?_⟩⟩,
    fun take => ⟨_, rfl, fun big => take_answers take ?_, fun p hp low => take_answers take ?_⟩⟩
  · simp only [inRange_none big]
    rfl
  · simp only [inRange_some hp, if_neg mode]
    rfl
  · simp only [inRange_some hp, if_pos mode, record, state]
    rfl
  · rcases down p low with state | state | state | state <;>
      (simp only [inRange_some hp, if_pos mode, record, state]; rfl)
  · simp only [inRange_none big]
    rfl
  · rcases down p low with state | state | state | state <;>
      (simp only [inRange_some hp, record, state]; rfl)

/-! ## The engagement (R64) -/

/-- The blocks as a port has become ACTIVE, with its notice told and its record as the engagement leaves it. -/
def activated (d : Device) (p : PortId) : Device :=
  ((d.asyncNotice (.portEvent p .active)).emptyStaging p).modPort p Port.engaged

/-- The turn and the timers that an engaged port starts with, by its role and by OWNI (R64, R72). -/
def startTurn (d : Device) (p : PortId) : Device :=
  if (d.port p).settings.role = .lead then
    let held := d.modPort p fun y => { y with turn := .ours, settleTimer := .running y.settings.acceptLimit }.sightRequest
    if (d.port p).lines.owni then held.breakPort p (.protocol .collision) else held
  else if (d.port p).lines.owni then (d.modPort p Port.settle).enterTheirs p
  else (d.modPort p fun y => { y with takeTimer := .running y.settings.acceptLimit }).enterTheirs p

/-- An engagement: the port becomes ACTIVE, the generator runs for its halves, and its first turn starts. -/
theorem engage_eq (d : Device) (p : PortId) : d.engage p = startTurn ((activated d p).runGenerators p) p := by
  let linked : Port → Port := fun x => ({ x.dropLink .active with turnBytes := 0 } : Port).clearMap
  have record : (((d.modPort p linked).emptyStaging p).countPort p fun k =>
      { k with engagements := satAdd k.engagements 1 }).asyncNotice (.portEvent p .active) = activated d p := by
    have emptied : ((d.emptyStaging p).asyncNotice (.portEvent p .active)).port p = unstaged (d.port p) := by
      have ports := (asyncNotice_frame (d.emptyStaging p) (.portEvent p .active)).2.2
      have same : ((d.emptyStaging p).asyncNotice (.portEvent p .active)).port p = (d.emptyStaging p).port p :=
        congrArg (·.get p) ports
      rw [same, emptyStaging_port, if_pos rfl]
      rfl
    have comm : ∀ x, unstaged (linked x) = linked (unstaged x) := fun _ => rfl
    rw [emptyStaging_modPort (d := d) (p := p) (g := linked) rfl (comm _), Device.countPort, modPort_modPort, asyncNotice_modPort, activated,
      emptyStaging_asyncNotice]
    refine modPort_congr _ p ?_
    rw [emptied]
    rfl
  rw [← record]
  unfold Device.engage startTurn
  dsimp only
  generalize Device.runGenerators _ p = a
  cases (a.port p).settings.role <;> rfl

/-- The generator leaves the steady part of an activated port's blocks. -/
theorem runGenerators_steady (d : Device) (p : PortId) : (d.runGenerators p).steady = d.steady :=
  foldl_keeps Device.steady _ (fun _ _ => runGenerator_steady _ _ _) _ _

/-- The port's own record as it has become ACTIVE. -/
theorem activated_port (d : Device) (p : PortId) : (activated d p).port p = (d.port p).engaged := by
  have ports := (asyncNotice_frame d (.portEvent p .active)).2.2
  have same : (d.asyncNotice (.portEvent p .active)).port p = d.port p := congrArg (·.get p) ports
  rw [activated, port_modPort_self, emptyStaging_port, if_pos rfl, same]
  rfl

/-- A first sight of REQI is not steady. -/
theorem sightRequest_steady (x : Port) : x.sightRequest.steady = x.steady := by
  unfold Port.sightRequest
  split <;> rfl

/-- With STB low, nothing stands offered at the entry into THEIRS (R59). -/
theorem enterTheirs_low (low : (d.port p).lines.stb = false) :
    d.enterTheirs p = d.modPort p fun x => { x with turn := .theirs, selection := none } := by
  unfold Device.enterTheirs Device.peerByteStands
  simp [low]

/-- The record of a LEAD as it enters OURS at engagement. -/
def leading (x : Port) : Port := { x with turn := .ours, settleTimer := .running x.settings.acceptLimit }

/-- The record of a FOLLOW as it enters THEIRS at engagement, settled by OWNI high, with its take timer running else. -/
def following (x : Port) : Port :=
  if x.lines.owni then { x.settle with turn := .theirs, selection := none }
  else { x with takeTimer := .running x.settings.acceptLimit, turn := .theirs, selection := none }

/-- A LEAD with OWNI low enters OURS with its settle timer running (R64). -/
theorem startTurn_lead (lead : (d.port p).settings.role = .lead) (low : (d.port p).lines.owni = false) :
    startTurn d p = d.modPort p fun x => (leading x).sightRequest := by
  simp only [startTurn, lead, low, Bool.false_eq_true, if_false, if_true]
  rfl

/-- A LEAD that finds OWNI high breaks with COLLISION (R64, R72). -/
theorem startTurn_collision (lead : (d.port p).settings.role = .lead) (high : (d.port p).lines.owni = true) :
    startTurn d p = (d.modPort p fun x => (leading x).sightRequest).breakPort p (.protocol .collision) := by
  simp only [startTurn, lead, high, if_true]
  rfl

/-- A FOLLOW with STB low enters THEIRS (R64). -/
theorem startTurn_follow (follow : (d.port p).settings.role = .follow) (strobe : (d.port p).lines.stb = false) :
    startTurn d p = d.modPort p following := by
  cases owni : (d.port p).lines.owni with
  | true =>
    have low : ((d.modPort p Port.settle).port p).lines.stb = false := by rw [port_modPort_self]; exact strobe
    simp only [startTurn, follow, owni, reduceCtorEq, if_false, if_true]
    rw [enterTheirs_low low, modPort_modPort]
    exact modPort_congr d p (by rw [following, if_pos owni])
  | false =>
    have low : ((d.modPort p fun x => { x with takeTimer := .running x.settings.acceptLimit }).port p).lines.stb = false := by
      rw [port_modPort_self]
      exact strobe
    simp only [startTurn, follow, owni, reduceCtorEq, Bool.false_eq_true, if_false]
    rw [enterTheirs_low low, modPort_modPort]
    exact modPort_congr d p (by rw [following, if_neg (by rw [owni]; decide)])

/-- A break of an ACTIVE port, as its own fields show it (R74, R75). -/
theorem breakPort_own (active : (d.port p).state = .active) (why : BreakCause) :
    ((d.breakPort p why).port p).own = (recovering ((counted why (d.port p)).dropLink .broken)).own := by
  have torn := (tearDown_spec (noted d p why) p (final := .broken) (by decide)).own
  rw [dropLink_own, (noted_follows d p why).own p, port_modPort_self, ← dropLink_own] at torn
  have read : ∀ x : Port, (recovering x).own = (recovering x.own).own := fun x => by
    simp [recovering, Port.own, Port.reset]
  rw [breakPort_active active, port_modPort_self, read, torn, ← read]

/-- The blocks `a` stand in their steady part as an activation leaves them. -/
theorem reads_of_activated {a : Device} (h : a.steady = (activated d p).steady) :
    (a.port p).state = .active ∧ (a.port p).settings = (d.port p).settings ∧ (a.port p).lines = (d.port p).lines ∧
      (a.port p).counters.engagements = satAdd (d.port p).counters.engagements 1 := by
  have own := own_of_steady h p
  rw [activated_port] at own
  have reads : ∀ {α : Type} (f : Port → α), f (a.port p).own = f (d.port p).engaged.own := fun f => congrArg f own
  exact ⟨reads Port.state, reads Port.settings, reads Port.lines, reads fun x => x.counters.engagements⟩

/-- A change that is read off the steady part of the port's record, after the activation. -/
theorem activated_modPort {a : Device} {f g h : Port → Port} (steady : a.steady = (activated d p).steady)
    (reads : ∀ x, (f x).steady = h x.steady) (same : ∀ x : Port, (g x).steady = h x.engaged.steady) :
    (a.modPort p f).steady = (((d.asyncNotice (.portEvent p .active)).emptyStaging p).modPort p g).steady := by
  refine (steady_modPort_congr p f f steady fun x y e => by rw [reads, reads, e]).trans ?_
  rw [activated, modPort_modPort]
  exact steady_modPort_eq (by rw [reads, same])

/-- The engagement of a port, as the state after its event shows it. -/
theorem engage_engages (s : State) (d : Device) (p : PortId) : s.engages { s with dev := (d.engage p).settle } d p := by
  obtain ⟨t, ht⟩ : ∃ t : State, t = { s with dev := (d.engage p).settle } := ⟨_, rfl⟩
  have dev : t.dev = (d.engage p).settle := by rw [ht]
  have registers : s.sameRegisters t := by rw [ht]; exact ⟨rfl, rfl, rfl, rfl, rfl, rfl⟩
  rw [← ht]
  have told := asyncNotice_told d (.portEvent p .active)
  rw [engage_eq] at dev
  have steady := runGenerators_steady (activated d p) p
  obtain ⟨a, ha⟩ : ∃ a, a = (activated d p).runGenerators p := ⟨_, rfl⟩
  rw [← ha] at dev steady
  obtain ⟨state, settings, lines, engagements⟩ := reads_of_activated steady
  refine ⟨fun lead low => ⟨_, told, registers, ?_⟩, fun lead high => ?_, fun follow strobe => ⟨_, told, registers, ?_⟩⟩
  · rw [dev, settle_steady, startTurn_lead (by rw [settings]; exact lead) (by rw [lines]; exact low)]
    exact activated_modPort (h := leading) steady (fun x => sightRequest_steady _) fun x => rfl
  · have kept : ∀ x : Port, x.sightRequest.own = x.own := fun x => by
      unfold Port.sightRequest
      split <;> rfl
    have broken := startTurn_collision (d := a) (p := p) (by rw [settings]; exact lead) (by rw [lines]; exact high)
    obtain ⟨b, hb⟩ : ∃ b, b = a.modPort p fun x => (leading x).sightRequest := ⟨_, rfl⟩
    have own : (b.port p).own = (leading (a.port p)).own := by rw [hb, port_modPort_self, kept]
    have active : (b.port p).state = .active := (congrArg Port.state own).trans state
    have read : ∀ x : Port, (recovering ((counted (.protocol .collision) x).dropLink .broken)).own =
        (recovering ((counted (.protocol .collision) x.own).dropLink .broken)).own := fun _ => rfl
    have last := own_of_steady (settle_steady (b.breakPort p (.protocol .collision))) p
    rw [breakPort_own active, read, own] at last
    rw [broken, ← hb] at dev
    rw [← dev] at last
    have reads : ∀ {α : Type} (f : Port → α), f (t.dev.port p).own = f _ := fun f => congrArg f last
    exact ⟨reads Port.state, reads Port.lastBreak, (reads fun x => x.counters.engagements).trans engagements⟩
  · rw [dev, settle_steady, startTurn_follow (by rw [settings]; exact follow) (by rw [lines]; exact strobe)]
    cases owni : (d.port p).lines.owni with
    | true =>
      have settles : a.modPort p following = a.modPort p fun x => { x.settle with turn := .theirs, selection := none } :=
        modPort_congr a p (if_pos (by rw [lines]; exact owni))
      rw [settles]
      exact activated_modPort (h := fun z => { z with turn := .theirs, settled := true, retryCount := 0 }) steady (fun _ => rfl)
        fun _ => rfl
    | false =>
      have waits : a.modPort p following =
          a.modPort p fun x => { x with takeTimer := .running x.settings.acceptLimit, turn := .theirs, selection := none } :=
        modPort_congr a p (if_neg (by rw [lines, owni]; decide))
      rw [waits]
      exact activated_modPort (h := fun z => { z with turn := .theirs }) steady (fun _ => rfl) fun _ => rfl

/-! ## ENGI rises, and PORT_ENABLE (R63, R64) -/

/-- ENGI high on a port that is not ENGAGING changes nothing. -/
theorem engageIfWaiting_other (h : (d.port p).state ≠ .engaging) : d.engageIfWaiting p = d := by
  simp [Device.engageIfWaiting, h]

theorem engageIfWaiting_waiting (h : (d.port p).state = .engaging) : d.engageIfWaiting p = d.engage p := by
  simp [Device.engageIfWaiting, h]

/-- Settles O51: both events raise ENGI, and then a port that is ENGAGING engages. -/
theorem engiRiseEngages : Obligations.EngiRiseEngages := by
  intro p i s running rises
  obtain ⟨d, hd⟩ : ∃ d, d = s.dev.modPort p fun x => x.under { x.lines with engi := true } := ⟨_, rfl⟩
  have event : exec i s = .next { s with dev := (d.engageIfWaiting p).settle } := by
    have edge : exec i s = .next ((s.drive p fun l => { l with engi := true }).event fun d => d.engageIfWaiting p) := by
      rcases rises with rfl | rfl <;> rfl
    have levels : driven s.dev p { (s.dev.port p).lines with engi := true } = d := by
      rw [hd]
      exact modPort_congr _ _ rfl
    rw [edge_event running edge, levels]
  have state : (d.port p).state = (s.dev.port p).state := by rw [hd, port_modPort_self]; rfl
  dsimp only
  rw [event, ← hd]
  refine ⟨_, rfl, fun waiting => ?_, fun other => ?_⟩
  · rw [engageIfWaiting_waiting (state.trans waiting)]
    exact engage_engages s d p
  · rw [engageIfWaiting_other (by rw [state]; exact other)]
    exact becomes_settle rfl

/-- The entry into ENGAGING, and the engagement at once with ENGI high (R63, R75; entry 7). -/
theorem enterEngaging_eq (d : Device) (p : PortId) (f : Port → Port) :
    d.enterEngaging p f =
      if (f (d.port p)).lines.engi then (d.modPort p fun x => { (f x) with state := .engaging, settled := false }).engage p
      else d.modPort p fun x => { (f x) with state := .engaging, settled := false } := by
  unfold Device.enterEngaging
  dsimp only
  rw [port_modPort_self]

/-- Settles O32: the checks are read off the command's meaning in its order, and ENGI decides whether the port engages at once. -/
theorem portEnableStartsEngaging : Obligations.PortEnableStartsEngaging := by
  intro tag port s take
  have record : ∀ p, s.dev.afterTake.port p = s.dev.port p := fun _ => rfl
  refine ⟨_, rfl, fun big => take_answers take ?_, fun p hp => ⟨fun state => take_answers take ?_,
    fun state => take_answers take ?_, fun state => ?_⟩⟩
  · simp only [inRange_none big]
    rfl
  · simp only [inRange_some hp, record, state]
    rfl
  · rcases state with state | state | state <;>
      (simp only [inRange_some hp, record, state]; rfl)
  · have ok : (s.dev.port p).state.downResult = .ok := by rcases state with state | state <;> rw [state] <;> rfl
    have taken : (s.dev.afterTake.commandDone port tag .ok 0).port p = s.dev.port p := rfl
    refine ⟨fun low => take_answers take ?_, fun high => ?_⟩
    · simp only [inRange_some hp, record, ok, if_true, Device.enablePort, enterEngaging_eq, taken, low, Bool.false_eq_true, if_false]
      rfl
    · rw [take_eq take]
      simp only [inRange_some hp, record, ok, if_true, Device.enablePort, enterEngaging_eq, taken, high]
      exact engage_engages s _ p

/-! ## A BROKEN port (R75) -/

/-- A BROKEN port does not decide while RECOVER runs or its peer holds ENGI. -/
theorem decideRetry_waits (h : (d.port p).recoverTimer ≠ .stopped ∨ (d.port p).peerReleased = false) : d.decideRetry p = d := by
  unfold Device.decideRetry
  rcases h with runs | holds
  · simp [isRunning_iff.mpr runs]
  · simp [holds]

/-- The conditions of a BROKEN port's decision. -/
structure Decides (x : Port) : Prop where
  broken : x.state = .broken
  recovered : x.recoverTimer = .stopped
  released : x.peerReleased = true

/-- The record of a BROKEN port as it tries again. -/
def retried (x : Port) : Port := { x with state := .engaging, settled := false, retryCount := x.retryCount + 1 }

/-- Below RETRIES the port tries again, and engages at once with ENGI high. -/
theorem Decides.retries (h : Decides (d.port p)) (fewer : (d.port p).retryCount < (d.port p).settings.retries) :
    d.decideRetry p = if (d.port p).lines.engi then (d.modPort p retried).engage p else d.modPort p retried := by
  have enters : d.decideRetry p = d.enterEngaging p fun y => { y with retryCount := y.retryCount + 1 } := by
    simp [Device.decideRetry, h.broken, h.recovered, h.released, fewer, Timer.isRunning]
  rw [enters, enterEngaging_eq]
  rfl

/-- At RETRIES the port fails. -/
theorem Decides.fails (h : Decides (d.port p)) (enough : (d.port p).settings.retries ≤ (d.port p).retryCount) :
    d.decideRetry p = (d.modPort p fun y => { y with state := .failed }).asyncNotice (.portEvent p .failed) := by
  simp [Device.decideRetry, h.broken, h.recovered, h.released, Nat.not_lt.mpr enough, Timer.isRunning]

/-- The record of a port as RECOVER stops. -/
def recovered (x : Port) : Port := { x with recoverTimer := .stopped }

/-- The record of a BROKEN port as its peer releases. -/
def released (x : Port) : Port := { x.under { x.lines with engi := false } with peerReleased := true }

/-- ENGI falls on a BROKEN port. -/
theorem exec_engiFall_broken (running : s.engine = .running) (broken : (s.dev.port p).state = .broken)
    (high : (s.dev.port p).lines.engi = true) :
    exec (.engiFall p) s = .next { s with dev := ((s.dev.modPort p released).decideRetry p).settle } := by
  have state : ((driven s.dev p { (s.dev.port p).lines with engi := false }).port p).state = .broken := by
    rw [port_driven]
    exact broken
  have change : (driven s.dev p { (s.dev.port p).lines with engi := false }).modPort p (fun x => { x with peerReleased := true }) =
      s.dev.modPort p released := by
    rw [driven, modPort_modPort]
    exact modPort_congr _ _ rfl
  rw [edge_event running (exec_engiFall high), Device.engageLost, state]
  dsimp only
  rw [change]

/-- Settles O54: the second of the two events finds the conditions met, and the retry count decides. -/
theorem brokenPortDecides : Obligations.BrokenPortDecides := by
  intro p s running broken
  refine ⟨fun runs => ?_, fun high => ?_⟩
  · have event := expiry_event (i := .recoverExpiry p) (timer := Port.recoverTimer) (stop := recovered)
      (follow := fun e => e.decideRetry p) running runs rfl
    have port : (s.dev.modPort p recovered).port p = recovered (s.dev.port p) := port_modPort_self _ _ _
    rw [event]
    refine ⟨_, rfl, fun holds => ?_, fun peer fewer => ?_, fun peer enough => ?_⟩
    · rw [decideRetry_waits (.inr (by rw [port]; exact holds))]
      exact becomes_settle rfl
    · have decides : Decides ((s.dev.modPort p recovered).port p) := by rw [port]; exact ⟨broken, rfl, peer⟩
      have lines : ((s.dev.modPort p recovered).port p).lines = (s.dev.port p).lines := by rw [port]; rfl
      rw [decides.retries (by rw [port]; exact fewer), lines, modPort_modPort]
      refine ⟨fun low => ?_, fun up => ?_⟩
      · rw [if_neg (by rw [low]; decide)]
        exact becomes_settle rfl
      · rw [if_pos up]
        exact engage_engages s (s.dev.modPort p fun x => retried (recovered x)) p
    · have decides : Decides ((s.dev.modPort p recovered).port p) := by rw [port]; exact ⟨broken, rfl, peer⟩
      rw [decides.fails (by rw [port]; exact enough), modPort_modPort]
      exact ⟨_, asyncNotice_told _ _, becomes_settle rfl⟩
  · have port : (s.dev.modPort p released).port p = released (s.dev.port p) := port_modPort_self _ _ _
    rw [exec_engiFall_broken running broken high]
    refine ⟨_, rfl, fun runs => ?_, fun stopped fewer => ?_, fun stopped enough => ?_⟩
    · rw [decideRetry_waits (.inl (by rw [port]; exact runs))]
      exact becomes_settle rfl
    · have decides : Decides ((s.dev.modPort p released).port p) := by rw [port]; exact ⟨broken, stopped, rfl⟩
      rw [decides.retries (by rw [port]; exact fewer), if_neg (by rw [port]; exact Bool.false_ne_true), modPort_modPort]
      exact becomes_settle rfl
    · have decides : Decides ((s.dev.modPort p released).port p) := by rw [port]; exact ⟨broken, stopped, rfl⟩
      rw [decides.fails (by rw [port]; exact enough), modPort_modPort]
      exact ⟨_, asyncNotice_told _ _, becomes_settle rfl⟩

end Sys2Proof.Engaging
end

section
/-! SUPPORT. The turn lines and their timers, and what the work at the end of an event leaves of the hold timer (R65, R67, R69, R71). -/

namespace Sys2Proof.TurnLines

open Sys2Proof.Machine Sys2Proof.LinkBytes Sys2Proof.Breaks Sys2Proof.TakenDown Sys2Proof.Engaging

/-! ## The hold timer at the end of an event -/

/-- A port that has the turn afterwards had it before, with the same hold timer. -/
def KeepsHold (p : PortId) (e d : Device) : Prop :=
  (e.port p).turn = .ours → (d.port p).turn = .ours ∧ (e.port p).hold = (d.port p).hold

namespace KeepsHold

variable {d e f a : Device} {p q : PortId} {n : LinkNumber} {c : ChannelId} {r : RingId}

theorem self (d : Device) : KeepsHold p d d := fun h => ⟨h, rfl⟩

theorem trans (h : KeepsHold p f e) (g : KeepsHold p e d) : KeepsHold p f d := fun ours => by
  obtain ⟨turn, hold⟩ := h ours
  obtain ⟨turn', hold'⟩ := g turn
  exact ⟨turn', hold.trans hold'⟩

/-- A change that leaves the port's record. -/
theorem after (h : KeepsHold p d a) (same : e.port p = d.port p) : KeepsHold p e a :=
  trans (fun ours => by rw [same] at ours ⊢; exact ⟨ours, rfl⟩) h

theorem foldl {β : Type} {g : Device → β → Device} (hg : ∀ d b, KeepsHold p (g d b) d) (l : List β) (h : KeepsHold p d a) :
    KeepsHold p (l.foldl g d) a := by
  induction l generalizing d with
  | nil => exact h
  | cons b l ih => exact ih ((hg d b).trans h)

/-- A change of a port that gives no turn and leaves the hold timer of a turn that goes on. -/
theorem modPort {g : Port → Port}
    (hg : (g (d.port q)).turn = .ours → (d.port q).turn = .ours ∧ (g (d.port q)).hold = (d.port q).hold) (h : KeepsHold p d a) :
    KeepsHold p (d.modPort q g) a := by
  refine trans (fun ours => ?_) h
  rw [port_modPort] at ours ⊢
  split at ours
  · next same =>
    subst same
    rw [if_pos rfl]
    exact hg ours
  · next other =>
    rw [if_neg other]
    exact ⟨ours, rfl⟩

/-- A change of a port that leaves its turn and its hold timer. -/
theorem modPort_same {g : Port → Port} (turn : ∀ x, (g x).turn = x.turn) (hold : ∀ x, (g x).hold = x.hold) (h : KeepsHold p d a) :
    KeepsHold p (d.modPort q g) a := modPort (fun ours => ⟨(turn _).symm.trans ours, hold _⟩) h

/-! ### The waiting lists -/

theorem queueGrant {k : Nat} (h : KeepsHold p d a) : KeepsHold p (d.queueGrant q n k) a := by
  refine modPort_same (fun x => ?_) (fun x => ?_) (modPort_same (fun _ => rfl) (fun _ => rfl) h) <;>
    (unfold Port.modUnoffered; split <;> rfl)

theorem generate (h : KeepsHold p d a) : KeepsHold p (d.generate q n).1 a := by
  unfold Device.generate
  split
  · exact h
  · dsimp only
    repeat' split
    · exact h
    · exact queueGrant h
    · exact h
    · exact queueGrant (after h rfl)

theorem serveWaiter {x : Requester} (h : KeepsHold p d a) : KeepsHold p (d.serveWaiter r x).1 a := by
  unfold Device.serveWaiter
  cases x with
  | outRecord c =>
    dsimp only
    split <;> exact after h rfl
  | commandUnit =>
    dsimp only
    split <;> exact after h rfl
  | inHalf q n =>
    dsimp only
    have granted := generate (q := q) (n := n) h
    split
    · exact h
    · split
      · next e he => rw [he] at granted; exact granted
      · next e he => rw [he] at granted; exact after granted rfl

theorem walk (l : List Requester) (h : KeepsHold p d a) : KeepsHold p (Device.walk r l d) a := by
  induction l generalizing d with
  | nil => exact h
  | cons x l ih =>
    have served := serveWaiter (r := r) (x := x) h
    unfold Device.walk
    split
    · next e he => rw [he] at served; exact ih served
    · next e he => rw [he] at served; exact served

theorem walkRing (h : KeepsHold p d a) : KeepsHold p (d.walkRing r) a := by
  unfold Device.walkRing
  refine after (d := if (d.ring r).gained then Device.walk r (d.ring r).waiting d else d) ?_ rfl
  split
  · exact walk _ h
  · exact h

/-! ### The port's own work -/

theorem offer {o : Offer} (h : KeepsHold p d a) : KeepsHold p (d.offer q o) a := modPort_same (fun _ => rfl) (fun _ => rfl) h

theorem offerUnit (h : KeepsHold p d a) : KeepsHold p (d.offerUnit q c) a := by
  have started : KeepsHold p (d.startMessage q c) a := by
    unfold Device.startMessage
    dsimp only
    split
    · exact after (modPort_same (q := q) (g := fun x => x.modEntry (d.chan c).number fun e =>
        { e with outbound := { e.outbound with credits := e.outbound.credits - 1, openMark := true } })
        (fun _ => rfl) (fun _ => rfl) h) rfl
    · exact h
  unfold Device.offerUnit
  split
  · exact h
  · exact offer (modPort_same (fun _ => rfl) (fun _ => rfl) started)

theorem sendMessage (h : KeepsHold p d a) : KeepsHold p (d.sendMessage q c) a := by
  unfold Device.sendMessage
  dsimp only
  repeat' split
  · exact h
  · exact offerUnit h
  · exact offer h

theorem offerHead (h : KeepsHold p d a) : KeepsHold p (d.offerHead q) a := by
  unfold Device.offerHead
  split
  · exact h
  · dsimp only
    split <;> exact offer (modPort_same (fun _ => rfl) (fun _ => rfl) h)

/-- A turn released is a turn no longer had. -/
theorem release (h : KeepsHold p d a) : KeepsHold p (d.modPort q Port.releaseTurn) a :=
  modPort (fun ours => by simp [Port.releaseTurn] at ours) h

theorem transmit (h : KeepsHold p d a) : KeepsHold p (d.transmit q) a := by
  unfold Device.transmit Device.proceed
  dsimp only
  repeat' split
  all_goals first
    | with_reducible exact h
    | with_reducible exact offer h
    | with_reducible exact offerUnit h
    | with_reducible exact sendMessage h
    | with_reducible exact offerHead h
    | with_reducible exact release h

theorem pickChannel (h : KeepsHold p d a) : KeepsHold p (d.pickChannel q) a := by
  unfold Device.pickChannel
  dsimp only
  repeat' split
  · exact modPort_same (fun _ => rfl) (fun _ => rfl) h
  · exact h
  · exact h

theorem askForTurn (h : KeepsHold p d a) : KeepsHold p (d.askForTurn q) a := by
  unfold Device.askForTurn
  dsimp only
  split
  · exact modPort (fun ours => by simp at ours) h
  · exact h

theorem restage (h : KeepsHold p d a) : KeepsHold p (d.restage q) a := by
  unfold Device.restage
  dsimp only
  split
  · exact h
  · exact modPort_same (fun _ => rfl) (fun _ => rfl) h

theorem issueRead (h : KeepsHold p d a) : KeepsHold p (d.issueRead q) a := by
  unfold Device.issueRead
  dsimp only
  repeat' split
  · exact h
  · exact h
  · exact h
  · exact modPort_same (fun _ => rfl) (fun _ => rfl) (after h rfl)

theorem issueCopy (h : KeepsHold p d a) : KeepsHold p (d.issueCopy q) a := by
  unfold Device.issueCopy
  dsimp only
  repeat' split
  · exact h
  · exact h
  · have staged : ∀ y, KeepsHold p (d.modPort q fun x => { x with outStaging := y }) a :=
      fun y => modPort_same (fun _ => rfl) (fun _ => rfl) h
    exact after (staged _) rfl

theorem issueOutbound (h : KeepsHold p d a) : KeepsHold p (d.issueOutbound q) a := issueCopy (issueRead h)

theorem service (h : KeepsHold p d a) : KeepsHold p (d.service q) a := by
  unfold Device.service
  split
  · exact issueOutbound (issueOutbound (issueOutbound (issueOutbound (restage (askForTurn (transmit (pickChannel
      (modPort_same (fun _ => rfl) (fun _ => rfl) h))))))))
  · exact h

/-! ### Record writes and commands -/

theorem issueRecord (h : KeepsHold p d a) : KeepsHold p (d.issueRecord r) a := by
  unfold Device.issueRecord
  dsimp only
  split <;> exact after h rfl

theorem requestSlot (h : KeepsHold p d a) : KeepsHold p d.requestSlot a := by
  unfold Device.requestSlot
  repeat' split
  all_goals exact after h rfl

theorem fetchCommands (h : KeepsHold p d a) : KeepsHold p d.fetchCommands a := by
  unfold Device.fetchCommands
  dsimp only
  split <;> exact after h rfl

end KeepsHold

/-- The work at the end of an event leaves the hold timer of a turn that goes on. -/
theorem settle_keepsHold (d : Device) (p : PortId) : KeepsHold p d.settle d := by
  unfold Device.settle
  refine .fetchCommands (.requestSlot (.foldl (fun e r => .issueRecord (.self e)) _ (.foldl (fun e q => .service (.self e)) _ ?_)))
  exact .foldl (fun e r => .walkRing (.self e)) _ (.self d)

theorem settle_hold {d : Device} {p : PortId} (goesOn : (d.settle.port p).turn = .ours) :
    (d.settle.port p).hold = (d.port p).hold := (settle_keepsHold d p goesOn).2

/-! ## OWNI rises and falls -/

variable {s : State} {d : Device} {p : PortId} {x : Port}

/-- The peer takes an offered turn, with STB low (R71). -/
theorem peerTakes_offered (turn : (d.port p).turn = .offered) (strobe : (d.port p).lines.stb = false) :
    d.peerTakes p = d.modPort p fun x => { x with takeTimer := .stopped, turn := .theirs, selection := none } := by
  have low : ((d.modPort p fun x => { x with takeTimer := .stopped }).port p).lines.stb = false := by
    rw [port_modPort_self]
    exact strobe
  simp only [Device.peerTakes, turn]
  rw [enterTheirs_low low, modPort_modPort]

/-- The first turn that a FOLLOW sees settles its engagement (R65). -/
theorem peerTakes_first (turn : (d.port p).turn = .theirs) (runs : (d.port p).takeTimer ≠ .stopped) :
    d.peerTakes p = d.modPort p fun x => { x with takeTimer := .stopped }.settle := by
  simp only [Device.peerTakes, turn, isRunning_iff.mpr runs, if_true]

/-- A rise of OWNI that means nothing: in THEIRS once settled, in ASKED, and with no link (R72; entries 2 and 5). -/
theorem peerTakes_nothing (h : (d.port p).turn = .theirs ∧ (d.port p).takeTimer = .stopped ∨ (d.port p).turn = .off ∨
    (d.port p).turn = .asked) : d.peerTakes p = d := by
  unfold Device.peerTakes
  rcases h with ⟨turn, stopped⟩ | turn | turn
  · simp [turn, stopped, Timer.isRunning]
  · simp [turn]
  · simp [turn]

/-- The part takes the turn it asked for (R67). -/
theorem peerReleases_asked (turn : (d.port p).turn = .asked) (quiet : (d.port p).rx = .idle)
    (run : (d.port p).repeatPending = none) : d.peerReleases p = d.modPort p Port.takeTurn := by
  simp [Device.peerReleases, turn, quiet, run]

/-- A fall of OWNI that means nothing: in OURS and OFFERED, and with no link (R72; entries 2 and 5). -/
theorem peerReleases_nothing (h : (d.port p).turn = .off ∨ (d.port p).turn = .ours ∨ (d.port p).turn = .offered) :
    d.peerReleases p = d := by
  rcases h with turn | turn | turn <;> simp [Device.peerReleases, turn]

/-- The steady part of a port that takes the turn. -/
theorem takeTurn_steady (x : Port) :
    x.takeTurn.steady =
      { x with turn := .ours, turnBytes := 0, counters := { x.counters with turnsTaken := satAdd x.counters.turnsTaken 1 } : Port }.steady :=
  sightRequest_steady _

/-! ## REQI and the hold timer -/

/-- The first sight of REQI in a turn starts the hold timer, and a later one leaves it (R69). -/
theorem sightInTurn_hold (turn : x.turn = .ours) (reqi : x.lines.reqi = true) :
    x.sightInTurn.hold =
      if x.hold = .off then (if x.settings.holdLimit = 0 then .expired else .running x.settings.holdLimit) else x.hold := by
  unfold Port.sightInTurn Port.sightRequest
  by_cases off : x.hold = .off <;> simp [turn, reqi, off]

theorem sightInTurn_steady (x : Port) : x.sightInTurn.steady = x.steady := by
  unfold Port.sightInTurn
  split
  · exact sightRequest_steady x
  · rfl

theorem holdExpires_steady (x : Port) : x.holdExpires.steady = x.steady := by
  unfold Port.holdExpires
  split <;> rfl

/-! ## The events -/

/-- Another level on a port's lines, as a change of its record. -/
theorem driven_eq (d : Device) (p : PortId) (f : PeerLines → PeerLines) :
    driven d p (f (d.port p).lines) = d.modPort p fun y => y.under (f y.lines) := modPort_congr d p rfl

/-- Settles O55: each edge and each expiry is read off its meaning by the turn state it finds. -/
theorem turnLinesMoveTurn : Obligations.TurnLinesMoveTurn := by
  intro p s running
  refine ⟨fun low => ?_, fun high => ?_, ?_, ?_, fun us runs => ?_, fun runs => ?_⟩
  · have rises := driven_eq s.dev p fun l => { l with owni := true }
    obtain ⟨d, hd⟩ : ∃ d, d = s.dev.modPort p fun y => y.under { y.lines with owni := true } := ⟨_, rfl⟩
    have port : d.port p = (s.dev.port p).under { (s.dev.port p).lines with owni := true } := by rw [hd, port_modPort_self]
    rw [edge_event running (exec_owniRise low), rises, ← hd]
    refine ⟨_, rfl, fun turn strobe => ?_, fun turn waits => ?_, fun turn settled => ?_, fun turn => ?_⟩
    · rw [peerTakes_offered (by rw [port]; exact turn) (by rw [port]; exact strobe), hd, modPort_modPort]
      exact becomes_settle (steady_modPort_eq rfl)
    · rw [peerTakes_first (by rw [port]; exact turn) (by rw [port]; exact waits), hd, modPort_modPort]
      exact becomes_settle (steady_modPort_eq rfl)
    · rw [peerTakes_nothing (.inl ⟨by rw [port]; exact turn, by rw [port]; exact settled⟩), hd]
      exact becomes_settle rfl
    · rw [peerTakes_nothing (.inr (by rw [port]; exact turn)), hd]
      exact becomes_settle rfl
  · have falls := driven_eq s.dev p fun l => { l with owni := false }
    obtain ⟨d, hd⟩ : ∃ d, d = s.dev.modPort p fun y => y.under { y.lines with owni := false } := ⟨_, rfl⟩
    have port : d.port p = (s.dev.port p).under { (s.dev.port p).lines with owni := false } := by rw [hd, port_modPort_self]
    rw [edge_event running (exec_owniFall high), falls, ← hd]
    refine ⟨_, rfl, fun turn quiet run => ?_, fun turn => ?_⟩
    · rw [peerReleases_asked (by rw [port]; exact turn) (by rw [port]; exact quiet) (by rw [port]; exact run), hd, modPort_modPort]
      exact becomes_settle (steady_modPort_eq (takeTurn_steady _))
    · rw [peerReleases_nothing (by rw [port]; exact turn), hd]
      exact becomes_settle rfl
  · have rises := driven_eq s.dev p fun l => { l with reqi := true }
    have edge : exec (.reqiRise p) s =
        .next ((s.drive p fun l => { l with reqi := true }).event fun d => d.modPort p Port.sightInTurn) := by rfl
    rw [edge_event running edge, rises, modPort_modPort]
    refine ⟨_, rfl, becomes_settle (steady_modPort_eq (sightInTurn_steady _)), fun turn goesOn => ?_⟩
    dsimp only at goesOn ⊢
    rw [settle_hold goesOn, port_modPort_self]
    exact sightInTurn_hold (x := (s.dev.port p).under { (s.dev.port p).lines with reqi := true }) turn rfl
  · have falls := driven_eq s.dev p fun l => { l with reqi := false }
    have edge : exec (.reqiFall p) s = .next ((s.drive p fun l => { l with reqi := false }).event fun d => d) := by rfl
    rw [edge_event running edge, falls]
    exact ⟨_, rfl, becomes_settle rfl⟩
  · have event : exec (.holdTimerExpiry p) s = .next (s.event fun d => d.modPort p Port.holdExpires) := by rfl
    rw [event, event_eq running]
    refine ⟨_, rfl, becomes_settle (steady_modPort (holdExpires_steady _)), fun _ goesOn => ?_⟩
    dsimp only at goesOn ⊢
    rw [settle_hold goesOn, port_modPort_self, Port.holdExpires, runs]
  · rw [expiry_event (i := .settleTimerExpiry p) (timer := Port.settleTimer) (stop := fun x => { x with settleTimer := .stopped })
      (follow := fun e => e.modPort p Port.settle) running runs rfl, modPort_modPort]
    exact ⟨_, rfl, becomes_settle rfl⟩

end Sys2Proof.TurnLines
end

section
/-! SUPPORT. The ends of cell moves and cell copies: what a completed move leaves of the Relay Unit, and which port expects a copy (R131,
R134). -/

namespace Sys2Proof.CellTransfers

open Sys2Proof.Machine Sys2Proof.LinkBytes Sys2Proof.Placing

variable {s : State} {d : Device} {m : CellMove} {k : CellCopy} {p : PortId} {id : Nat}

/-! ## A move completes -/

theorem moveDone_cells_self (u : RelayUnit) (m : CellMove) :
    (u.moveDone m).cells.get m.cell = { offset := m.offset, bytes := m.bytes } :: u.cells.get m.cell :=
  get_set_self ..

theorem moveDone_cells_ne (u : RelayUnit) {c : CellId} (other : c ≠ m.cell) : (u.moveDone m).cells.get c = u.cells.get c :=
  get_set_ne _ _ other.symm

theorem issueOne_free (d : Device) (p : PortId) : (d.issueOne p).relay.free = d.relay.free := by
  unfold Device.issueOne
  split
  · rfl
  · split
    · rfl
    · dsimp only
      split
      · split <;> rfl
      · rfl

theorem issueInbound_free (d : Device) (p : PortId) : (d.issueInbound p).relay.free = d.relay.free := by
  simp only [Device.issueInbound, issueOne_free]

/-- The blocks once a move has completed, its room been used, and the event ended (R113, R131). -/
def moved (d : Device) (m : CellMove) : Device := ((d.modRelay fun u => u.moveDone m).issueInbound m.port).settle

theorem exec_cellMoveDone (running : s.engine = .running) (found : s.dev.relay.moves.find? (fun x => x.id == id) = some m) :
    exec (.cellMoveDone id) s = .next { s with dev := moved s.dev m } := by
  change execCellMoveDone id s = _
  rw [execCellMoveDone, whenRunning_eq running, found]
  rfl

theorem exec_cellMoveDone_none (running : s.engine = .running) (unexpected : s.dev.relay.moves.find? (fun x => x.id == id) = none) :
    exec (.cellMoveDone id) s = .next s := by
  change execCellMoveDone id s = _
  rw [execCellMoveDone, whenRunning_eq running, unexpected]

theorem moved_ended (d : Device) (m : CellMove) : Ended (moved d m) (d.modRelay fun u => u.moveDone m) m.port := ended _ _

theorem moved_free (d : Device) (m : CellMove) : (moved d m).relay.free = d.relay.free := by
  rw [moved, relay_of_steady (settle_steady _), issueInbound_free]
  rfl

theorem moved_cu (d : Device) (m : CellMove) : (moved d m).cu.steady = d.cu.steady := by
  rw [moved, cu_of_steady (settle_steady _), (issueInbound_issued _ _).cu]
  rfl

/-- A move that completes, and the moves and writes it makes room for, are none of a port's own business. -/
theorem moved_own (d : Device) (m : CellMove) (q : PortId) : ((moved d m).port q).own = (d.port q).own := by
  have follows : ((d.modRelay fun u => u.moveDone m).issueInbound m.port).Follows d := .issueInbound (.modRelay (.self d))
  rw [moved, own_of_steady (settle_steady _), follows.own]

/-! ## A copy completes -/

/-- The copy looked for is the one that the first port to expect it expects. -/
theorem copy?_eq_some_iff : d.copy? id = some (p, k) ↔
    (d.port p).outStaging.copies.find? (fun x => x.id == id) = some k ∧
      ∀ q, q < p → (d.port q).outStaging.copies.find? (fun x => x.id == id) = none := by
  rw [Device.copy?, allPorts, ← Fin.findSome?_eq_findSome?_finRange, Fin.findSome?_eq_some_iff]
  constructor
  · rintro ⟨q, here, before⟩
    obtain ⟨l, found, same⟩ := Option.map_eq_some_iff.mp here
    obtain ⟨rfl, rfl⟩ := Prod.mk.inj same
    exact ⟨found, fun r hr => Option.map_eq_none_iff.mp (before r hr)⟩
  · rintro ⟨found, before⟩
    exact ⟨p, by rw [found]; rfl, fun q hq => by rw [before q hq]; rfl⟩

theorem copy?_eq_none_iff : d.copy? id = none ↔ ∀ p, (d.port p).outStaging.copies.find? (fun x => x.id == id) = none := by
  simp only [Device.copy?, allPorts, ← Fin.findSome?_eq_findSome?_finRange, Fin.findSome?_eq_none_iff, Option.map_eq_none_iff]

theorem exec_cellCopyDone (running : s.engine = .running) (found : s.dev.copy? id = some (p, k)) :
    exec (.cellCopyDone id) s = .next { s with dev := (s.dev.modPort p fun x => x.copyDone k).settle } := by
  change execCellCopyDone id s = _
  rw [execCellCopyDone, whenRunning_eq running, found]

theorem exec_cellCopyDone_none (running : s.engine = .running) (unexpected : s.dev.copy? id = none) :
    exec (.cellCopyDone id) s = .next s := by
  change execCellCopyDone id s = _
  rw [execCellCopyDone, whenRunning_eq running, unexpected]

/-! ## Moves and copies together -/

/-- Settles O41: a move writes its cell alone, and what it makes room for touches no cell; a copy goes to the first port whose staging
expects it. -/
theorem cellTransfersComplete : Obligations.CellTransfersComplete := by
  intro id s running
  refine ⟨fun m found => ?_, exec_cellMoveDone_none running, fun p k found before => ?_, fun unexpected => ?_⟩
  · have ended := moved_ended s.dev m
    refine ⟨_, exec_cellMoveDone running found, ⟨rfl, rfl, rfl, rfl, rfl, rfl⟩, ?_⟩
    dsimp only
    refine ⟨?_, fun c other => ?_, moved_free .., ended.pairs, moved_cu .., ended.chan, moved_own _ _⟩
    · rw [ended.cells, modRelay_relay, moveDone_cells_self]
    · rw [ended.cells, modRelay_relay, moveDone_cells_ne _ other]
  · have named : k.id = id := by simpa using List.find?_some found
    subst named
    exact exec_cellCopyDone running (copy?_eq_some_iff.mpr ⟨found, before⟩)
  · exact exec_cellCopyDone_none running (copy?_eq_none_iff.mpr unexpected)

end Sys2Proof.CellTransfers
end

section
/-! SUPPORT. The walk of a waiting list: what the service of one entry gives, and what the whole walk gives within the room of its ring
(R144, R145). -/

namespace Sys2Proof.WaitingLists

open Sys2Proof.Machine Sys2Proof.LinkBytes Sys2Proof.Quiesce Sys2Proof.Breaks

variable {d e f : Device} {r : RingId} {q : Requester} {l : List Requester} {p p' : PortId} {n n' : LinkNumber} {c : ChannelId} {k : Nat}

/-! ## What a walk gives -/

/-- A ring that is set holds its unconsumed entries and reservations within size − 1, the law of R144. -/
def WithinRing (x : Ring) : Prop := x.isSet = true → x.filled + x.reserved ≤ x.size - 1

/-- What a walk of a ring's waiting list may do: reservations are given within the ring's room, entries leave the list, records are given
their slot, and the Command Unit keeps its own. -/
structure Gives (r : RingId) (e d : Device) : Prop where
  steady : e.steady = d.steady
  reserved : (d.ring r).reserved ≤ (e.ring r).reserved
  within : WithinRing (d.ring r) → WithinRing (e.ring r)
  waiting : (e.ring r).waiting.Sublist (d.ring r).waiting
  record : ∀ c, (e.chan c).out = (d.chan c).out ∨ (e.chan c).out = (d.chan c).out.given
  slot : d.cu.slotHeld = true → e.cu.slotHeld = true

/-- A record given its slot a second time is as it was given it first. -/
@[simp] theorem given_given (o : OutMessage) : o.given.given = o.given := by
  rcases o with ⟨phase, _, _, _, _⟩
  cases phase <;> rfl

namespace Gives

theorem self (d : Device) : Gives r d d :=
  ⟨rfl, Nat.le_refl _, id, List.Sublist.refl _, fun _ => .inl rfl, id⟩

theorem trans (h : Gives r f e) (g : Gives r e d) : Gives r f d where
  steady := h.steady.trans g.steady
  reserved := g.reserved.trans h.reserved
  within := h.within ∘ g.within
  waiting := h.waiting.trans g.waiting
  record c := by
    rcases h.record c with hc | hc <;> rcases g.record c with gc | gc <;> simp [hc, gc]
  slot := h.slot ∘ g.slot

/-- A change that leaves the rings, the channels and the Command Unit. -/
theorem of_frame (steady : e.steady = d.steady) (rings : e.rings = d.rings) (channels : e.channels = d.channels) (cu : e.cu = d.cu) :
    Gives r e d := by
  have ring : e.ring r = d.ring r := congrArg (·.get r) rings
  have chan : ∀ c, e.chan c = d.chan c := fun c => congrArg (·.get c) channels
  refine ⟨steady, ?_, ?_, ?_, fun c => .inl (by rw [chan]), ?_⟩
  · rw [ring]
  · rw [ring]; exact id
  · rw [ring]
  · rw [cu]; exact id

/-- Slots given on a ring by the test of R144. -/
theorem reserve {j : RingId} (room : k ≤ (d.ring j).room) : Gives r (d.reserve j k) d := by
  have ring : (d.reserve j k).ring r = if j = r then { d.ring j with reserved := (d.ring j).reserved + k } else d.ring r :=
    ring_modRing ..
  refine ⟨reserve_steady .., ?_, fun within => ?_, ?_, fun _ => .inl rfl, id⟩ <;> rw [ring] <;> split
  · next same => rw [same]; exact Nat.le_add_right _ _
  · exact Nat.le_refl _
  · next same =>
    subst same
    intro set
    have before := within set
    change (d.ring j).filled + ((d.ring j).reserved + k) ≤ (d.ring j).size - 1
    have spare : (d.ring j).room = (d.ring j).size - 1 - ((d.ring j).filled + (d.ring j).reserved) := if_pos set
    omega
  · exact within
  · next same => rw [same]
  · exact List.Sublist.refl _

theorem unwait : Gives r (d.unwait r q) d := by
  have ring : (d.unwait r q).ring r = { d.ring r with waiting := (d.ring r).waiting.filter fun y => !(y == q) } := ring_modRing_self ..
  refine ⟨unwait_steady .., ?_, fun within => ?_, ?_, fun _ => .inl rfl, id⟩ <;> rw [ring]
  · exact within
  · exact List.filter_sublist

theorem queueGrant : Gives r (d.queueGrant p n k) d := of_frame (queueGrant_steady ..) rfl rfl rfl

theorem generate : Gives r (d.generate p n).1 d := by
  unfold Device.generate
  split
  · exact self d
  · dsimp only
    repeat' split
    · exact self d
    · exact queueGrant
    · exact self d
    · exact queueGrant.trans (reserve (Nat.min_le_right _ _))

/-- A record given its slot. -/
theorem modOutMsg : Gives r (d.modOutMsg c OutMessage.given) d := by
  refine ⟨steady_modOutMsg ?_, Nat.le_refl _, id, List.Sublist.refl _, fun b => ?_, id⟩
  · rcases (d.chan c).out with ⟨phase, _, _, _, _⟩
    cases phase <;> rfl
  · rw [Device.modOutMsg, chan_modChan]
    split
    · next same => rw [← same]; exact .inr rfl
    · exact .inl rfl

theorem holdSlot : Gives r (d.modCu fun x => { x with slotHeld := true }) d :=
  ⟨steady_modCu rfl, Nat.le_refl _, id, List.Sublist.refl _, fun _ => .inl rfl, fun _ => rfl⟩

/-- The gain forgotten as the walk ends. -/
theorem forget : Gives r (d.modRing r fun y => { y with gained := false }) d := by
  refine ⟨steady_modRing rfl, ?_, ?_, ?_, fun _ => .inl rfl, id⟩ <;> rw [ring_modRing_self]
  exact id

end Gives

/-! ## The service of one entry -/

/-- A record is given one slot if its ring has one (R145). -/
theorem serveWaiter_outRecord (room : (d.ring r).room ≠ 0) (c : ChannelId) :
    d.serveWaiter r (.outRecord c) = (((d.reserve r 1).unwait r (.outRecord c)).modOutMsg c OutMessage.given, true) := if_neg room

/-- The Command Unit is given one slot if its ring has one (R145). -/
theorem serveWaiter_commandUnit (room : (d.ring r).room ≠ 0) :
    d.serveWaiter r .commandUnit =
      (((d.reserve r 1).unwait r .commandUnit).modCu fun x => { x with slotHeld := true }, true) := if_neg room

/-- Without room, an entry that asks for one slot is given nothing, and the walk stops there. -/
theorem serveWaiter_full (room : (d.ring r).room = 0) (one : ∀ p n, q ≠ .inHalf p n) : d.serveWaiter r q = (d, false) := by
  cases q with
  | outRecord c => exact if_pos room
  | commandUnit => exact if_pos room
  | inHalf p n => exact absurd rfl (one p n)

/-- A half whose GRANT is being offered stops the walk (R28; entry 10). -/
theorem serveWaiter_offered (offered : (d.port p).grantOffered n = true) : d.serveWaiter r (.inHalf p n) = (d, false) := if_pos offered

/-- A half given a part of what it asks keeps its place. -/
theorem serveWaiter_part (free : (d.port p).grantOffered n = false) (part : d.generate p n = (e, true)) :
    d.serveWaiter r (.inHalf p n) = (e, decide ((d.ring r).room ≠ 0)) := by
  simp [Device.serveWaiter, free, part]

/-- A half given all that it asks leaves the list. -/
theorem serveWaiter_whole (free : (d.port p).grantOffered n = false) (whole : d.generate p n = (e, false)) :
    d.serveWaiter r (.inHalf p n) = (e.unwait r (.inHalf p n), true) := by
  simp [Device.serveWaiter, free, whole]

theorem serveWaiter_gives (d : Device) (r : RingId) (q : Requester) : Gives r (d.serveWaiter r q).1 d := by
  by_cases room : (d.ring r).room = 0 ∧ ∀ p n, q ≠ .inHalf p n
  · rw [serveWaiter_full room.1 room.2]
    exact .self d
  cases q with
  | outRecord c =>
    have room : (d.ring r).room ≠ 0 := fun full => room ⟨full, fun _ _ => nofun⟩
    rw [serveWaiter_outRecord room]
    exact .trans .modOutMsg (.trans .unwait (.reserve (Nat.one_le_iff_ne_zero.mpr room)))
  | commandUnit =>
    have room : (d.ring r).room ≠ 0 := fun full => room ⟨full, fun _ _ => nofun⟩
    rw [serveWaiter_commandUnit room]
    exact .trans .holdSlot (.trans .unwait (.reserve (Nat.one_le_iff_ne_zero.mpr room)))
  | inHalf p n =>
    have given : Gives r (d.generate p n).1 d := .generate
    cases free : (d.port p).grantOffered n with
    | true => rw [serveWaiter_offered free]; exact .self d
    | false =>
      rcases asks : d.generate p n with ⟨e, _ | _⟩ <;> rw [asks] at given
      · rw [serveWaiter_whole free asks]; exact .trans .unwait given
      · rw [serveWaiter_part free asks]; exact given

/-! ## The walk -/

/-- What every service keeps, the walk keeps. -/
theorem walk_induction {P : Device → Prop} (step : ∀ d q, P d → P (d.serveWaiter r q).1) (l : List Requester) (h : P d) :
    P (Device.walk r l d) := by
  induction l generalizing d with
  | nil => exact h
  | cons q l ih =>
    have served := step d q h
    unfold Device.walk
    split
    · next e he => rw [he] at served; exact ih served
    · next e he => rw [he] at served; exact served

/-- What the service of the head leaves and every service keeps, the walk leaves. -/
theorem walk_cons_induction {P : Device → Prop} (step : ∀ d q, P d → P (d.serveWaiter r q).1) (head : P (d.serveWaiter r q).1)
    (l : List Requester) : P (Device.walk r (q :: l) d) := by
  unfold Device.walk
  split
  · next e he => rw [he] at head; exact walk_induction step l head
  · next e he => rw [he] at head; exact head

theorem walk_gives (d : Device) (r : RingId) (l : List Requester) : Gives r (Device.walk r l d) d :=
  walk_induction (P := fun e => Gives r e d) (fun e q h => (serveWaiter_gives e r q).trans h) l (.self d)

theorem walk_cons_gives (d : Device) (r : RingId) (q : Requester) (l : List Requester) :
    Gives r (Device.walk r (q :: l) d) (d.serveWaiter r q).1 :=
  walk_cons_induction (P := fun e => Gives r e (d.serveWaiter r q).1) (fun e b h => (serveWaiter_gives e r b).trans h) (.self _) l

/-- A walk whose head is given nothing changes nothing. -/
theorem walk_stopped (stops : d.serveWaiter r q = (d, false)) : Device.walk r (q :: l) d = d := by
  simp [Device.walk, stops]

/-! ## A half that the walk has served -/

/-- The generator acts on a half for its owner, and only while no GRANT of it is being offered (R28). -/
theorem generatorOwner_some (acts : d.generatorOwner p n = some c) :
    (d.inHalf p n).owner = some c ∧ (d.port p).grantOffered n = false := by
  unfold Device.generatorOwner at acts
  split at acts
  · cases acts
  · next b owner =>
    split at acts
    · next conditions =>
      simp only [Bool.and_eq_true, Bool.not_eq_true'] at conditions
      exact ⟨owner.trans acts, conditions.2⟩
    · cases acts

/-- Whether the generator acts on a half is steady, but for a GRANT of it being offered. -/
theorem generatorOwner_of_steady (h : e.steady = d.steady) (acts : d.generatorOwner p n = some c)
    (free : (e.port p).grantOffered n = false) : e.generatorOwner p n = some c := by
  have half := inHalf_of_steady h p n
  have owner : (e.inHalf p n).owner = (d.inHalf p n).owner := by simpa using congrArg InHalf.owner half
  have revoke : (e.inHalf p n).revokePending = (d.inHalf p n).revokePending := by simpa using congrArg InHalf.revokePending half
  have port : (e.port p).state = (d.port p).state := by simpa [Port.steady] using congrArg Port.state (port_of_steady h p)
  have state : (e.chan c).state = (d.chan c).state := by simpa [Channel.steady] using congrArg Channel.state (chan_of_steady h c)
  have kind : (e.chan c).kind = (d.chan c).kind := by simpa [Channel.steady] using congrArg Channel.kind (chan_of_steady h c)
  obtain ⟨owned, offered⟩ := generatorOwner_some acts
  unfold Device.generatorOwner Channel.isOutbound at acts ⊢
  rw [owned, offered] at acts
  rw [owner, owned, free]
  simpa only [port, state, kind, revoke] using acts

/-- The credits still available fall by those queued since. -/
theorem available_of_steady (h : e.steady = d.steady) (queued : (e.inHalf p n).inFlight = (d.inHalf p n).inFlight + k) :
    e.available p n c = d.available p n c - k := by
  have half := inHalf_of_steady h p n
  have granted : (e.inHalf p n).granted = (d.inHalf p n).granted := by simpa using congrArg InHalf.granted half
  have mark : (e.inHalf p n).openMark = (d.inHalf p n).openMark := by simpa using congrArg InHalf.openMark half
  have kind : (e.chan c).kind = (d.chan c).kind := by simpa [Channel.steady] using congrArg Channel.kind (chan_of_steady h c)
  have held : (e.chan c).held = (d.chan c).held := by simpa [Channel.steady] using congrArg Channel.held (chan_of_steady h c)
  have buffers : e.buffersHeld c = d.buffersHeld c := by
    simp only [Device.buffersHeld, Device.pair, kind, held, relay_of_steady h]
  simp only [Device.available, buffers, granted, mark, queued]
  omega

/-- The generator gives an inbound channel's half what it asks up to the room of the channel's completion ring (R28, R29). -/
theorem generate_inn (acts : d.generatorOwner p n = some c) (kind : (d.chan c).kind = .inn) (ring : cqRing (d.chan c).ring = r) :
    d.generate p n =
      (if min (d.available p n c) (d.ring r).room = 0 then d
        else (d.reserve r (min (d.available p n c) (d.ring r).room)).queueGrant p n (min (d.available p n c) (d.ring r).room),
        decide ((d.ring r).room < d.available p n c)) := by
  subst ring
  unfold Device.generate
  rw [acts]
  dsimp only
  by_cases none : d.available p n c = 0
  · simp [none]
  · rw [if_neg none, if_neg (by rw [kind]; decide)]
    simp only [min_lt_iff, lt_irrefl, false_or]

/-- A half that asks for nothing, or whose ring has no room, is given nothing. -/
theorem generate_idle (acts : d.generatorOwner p n = some c) (kind : (d.chan c).kind = .inn) (ring : cqRing (d.chan c).ring = r)
    (idle : d.available p n c = 0 ∨ (d.ring r).room = 0) :
    d.generate p n = (d, decide ((d.ring r).room < d.available p n c)) := by
  rw [generate_inn acts kind ring, if_pos (by omega)]

theorem queueGrant_inHalf (d : Device) (p : PortId) (n : LinkNumber) (k : Nat) (p' : PortId) (n' : LinkNumber) :
    (d.queueGrant p n k).inHalf p' n' =
      if p = p' ∧ n = n' then { d.inHalf p n with inFlight := (d.inHalf p n).inFlight + k } else d.inHalf p' n' := by
  rw [← inHalf_modIn_any fun h : InHalf => { h with inFlight := h.inFlight + k }]
  refine inHalf_modPort _ _ _ _ ?_
  unfold Port.modUnoffered
  split <;> rfl

/-- The generator's run for one half leaves the credits of every other. -/
theorem generate_inHalf_other (other : ¬(p = p' ∧ n = n')) : (d.generate p n).1.inHalf p' n' = d.inHalf p' n' := by
  have grant : ∀ (e : Device) k, (e.queueGrant p n k).inHalf p' n' = e.inHalf p' n' :=
    fun e k => by rw [queueGrant_inHalf, if_neg other]
  unfold Device.generate
  split
  · rfl
  · dsimp only
    repeat' split
    · rfl
    · exact grant ..
    · rfl
    · exact grant ..

theorem generate_waiting : ((d.generate p n).1.ring r).waiting = (d.ring r).waiting := by
  have reserved : ∀ j k, ((d.reserve j k).ring r).waiting = (d.ring r).waiting := fun j k => by
    rw [Device.reserve, ring_modRing]
    split
    · next same => rw [same]
    · rfl
  unfold Device.generate
  split
  · rfl
  · dsimp only
    repeat' split
    · rfl
    · rfl
    · rfl
    · exact reserved ..

/-- A half that the walk of a ring has served with `k` credits: nothing more is given to it, and if that is not all that it asks, the ring
has no room left and the half keeps its place. -/
structure Served (d : Device) (r : RingId) (p : PortId) (n : LinkNumber) (c : ChannelId) (k : Nat) (e : Device) : Prop where
  steady : e.steady = d.steady
  queued : (e.inHalf p n).inFlight = (d.inHalf p n).inFlight + k
  short : k < d.available p n c → (e.ring r).room = 0 ∧ .inHalf p n ∈ (e.ring r).waiting

/-- A walk leaves a ring its size and its unconsumed entries. -/
theorem Gives.shape (h : Gives r e d) :
    (e.ring r).isSet = (d.ring r).isSet ∧ (e.ring r).size = (d.ring r).size ∧ (e.ring r).unconsumed = (d.ring r).unconsumed := by
  have steady := ring_of_steady h.steady r
  exact ⟨(congrArg Ring.isSet steady :), (congrArg Ring.size steady :), (congrArg Ring.unconsumed steady :)⟩

/-- A ring without room gains none by a walk. -/
theorem Gives.room (h : Gives r e d) (full : (d.ring r).room = 0) : (e.ring r).room = 0 := by
  obtain ⟨set, size, unconsumed⟩ := h.shape
  have reserved := h.reserved
  unfold Ring.room at full ⊢
  rw [set, size, unconsumed]
  split at full
  · next isSet => rw [if_pos isSet]; omega
  · next unset => rw [if_neg unset]

theorem unwait_waiting (d : Device) (r : RingId) (q : Requester) :
    ((d.unwait r q).ring r).waiting = (d.ring r).waiting.filter fun y => !(y == q) := by
  rw [Device.unwait, ring_modRing_self]

/-- A service that leaves a served half, and its place while the ring has no room, leaves it served. -/
theorem Served.after (h : Served d r p n c k e) (gives : Gives r f e) (half : f.inHalf p n = e.inHalf p n)
    (place : (e.ring r).room = 0 → .inHalf p n ∈ (e.ring r).waiting → .inHalf p n ∈ (f.ring r).waiting) :
    Served d r p n c k f := by
  refine ⟨gives.steady.trans h.steady, by rw [half, h.queued], fun short => ?_⟩
  obtain ⟨full, waits⟩ := h.short short
  exact ⟨gives.room full, place full waits⟩

/-- The services that follow give a served half nothing and leave it its place. -/
theorem Served.serveWaiter (acts : d.generatorOwner p n = some c) (kind : (d.chan c).kind = .inn) (ring : cqRing (d.chan c).ring = r)
    (h : Served d r p n c k e) (q : Requester) : Served d r p n c k (e.serveWaiter r q).1 := by
  have gives := serveWaiter_gives e r q
  by_cases full : (e.ring r).room = 0 ∧ ∀ p n, q ≠ .inHalf p n
  · rw [serveWaiter_full full.1 full.2]
    exact h
  cases q with
  | outRecord a =>
    have room : (e.ring r).room ≠ 0 := fun none => full ⟨none, fun _ _ => nofun⟩
    rw [serveWaiter_outRecord room] at gives ⊢
    exact h.after gives rfl fun none => absurd none room
  | commandUnit =>
    have room : (e.ring r).room ≠ 0 := fun none => full ⟨none, fun _ _ => nofun⟩
    rw [serveWaiter_commandUnit room] at gives ⊢
    exact h.after gives rfl fun none => absurd none room
  | inHalf p' n' =>
    cases free : (e.port p').grantOffered n' with
    | true => rw [serveWaiter_offered free]; exact h
    | false =>
      by_cases same : p' = p ∧ n' = n
      · obtain ⟨rfl, rfl⟩ := same
        have asks : e.available p' n' c = d.available p' n' c - k := available_of_steady h.steady h.queued
        have chan := chan_of_steady h.steady c
        have idle := generate_idle (r := r) (generatorOwner_of_steady h.steady acts free)
          ((congrArg Channel.kind chan).trans kind) ((congrArg (fun x => cqRing (Channel.ring x)) chan).trans ring)
          (by have := h.short; omega)
        by_cases short : (e.ring r).room < e.available p' n' c
        · rw [decide_eq_true short] at idle
          rw [serveWaiter_part free idle]
          exact h
        · rw [decide_eq_false short] at idle
          rw [serveWaiter_whole free idle] at gives ⊢
          refine ⟨gives.steady.trans h.steady, h.queued, fun less => ?_⟩
          have := (h.short less).1
          omega
      · have half : (e.generate p' n').1.inHalf p n = e.inHalf p n := generate_inHalf_other same
        have place : ((e.generate p' n').1.ring r).waiting = (e.ring r).waiting := generate_waiting
        rcases asks : e.generate p' n' with ⟨b, _ | _⟩ <;> rw [asks] at half place
        · rw [serveWaiter_whole free asks] at gives ⊢
          refine h.after gives half fun _ waits => ?_
          rw [unwait_waiting]
          refine List.mem_filter.mpr ⟨place ▸ waits, ?_⟩
          simp only [Bool.not_eq_true', beq_eq_false_iff_ne, ne_eq, Requester.inHalf.injEq]
          exact fun ⟨port, number⟩ => same ⟨port.symm, number.symm⟩
        · rw [serveWaiter_part free asks] at gives ⊢
          exact h.after gives half fun _ waits => place ▸ waits

/-- A ring whose room has been given has none left. -/
theorem room_filled (x : Ring) : ({ x with reserved := x.reserved + x.room } : Ring).room = 0 := by
  unfold Ring.room Ring.unconsumed
  dsimp only
  split
  · omega
  · rfl

/-- The service of a half for which the generator acts gives it what it asks, up to the room of its ring, and takes it off the list only if
that is all. -/
theorem serveWaiter_served (acts : d.generatorOwner p n = some c) (kind : (d.chan c).kind = .inn) (ring : cqRing (d.chan c).ring = r)
    (waits : .inHalf p n ∈ (d.ring r).waiting) :
    Served d r p n c (min (d.available p n c) (d.ring r).room) (d.serveWaiter r (.inHalf p n)).1 ∧
      (d.ring r).reserved + min (d.available p n c) (d.ring r).room ≤ ((d.serveWaiter r (.inHalf p n)).1.ring r).reserved ∧
      (.inHalf p n ∈ ((d.serveWaiter r (.inHalf p n)).1.ring r).waiting → (d.ring r).room < d.available p n c) := by
  have free := (generatorOwner_some acts).2
  have gives := serveWaiter_gives d r (.inHalf p n)
  have asks := generate_inn acts kind ring
  obtain ⟨k, hk⟩ : ∃ k, k = min (d.available p n c) (d.ring r).room := ⟨_, rfl⟩
  rw [← hk] at asks ⊢
  obtain ⟨E, hE⟩ : ∃ E, E = if k = 0 then d else (d.reserve r k).queueGrant p n k := ⟨_, rfl⟩
  rw [← hE] at asks
  have queued : (E.inHalf p n).inFlight = (d.inHalf p n).inFlight + k := by
    rw [hE]
    split
    · next none => rw [none]; rfl
    · rw [queueGrant_inHalf, if_pos ⟨rfl, rfl⟩]; rfl
  have ring' : E.ring r = { d.ring r with reserved := (d.ring r).reserved + k } := by
    rw [hE]
    split
    · next none => rw [none]; rfl
    · change (d.reserve r k).ring r = _
      rw [Device.reserve, ring_modRing_self]
  by_cases part : (d.ring r).room < d.available p n c
  · rw [decide_eq_true part] at asks
    rw [serveWaiter_part free asks] at gives ⊢
    refine ⟨⟨gives.steady, queued, fun _ => ?_⟩, ?_, fun _ => part⟩ <;> dsimp only <;> rw [ring']
    have given : k = (d.ring r).room := by omega
    refine ⟨?_, waits⟩
    rw [given]
    exact room_filled _
  · rw [decide_eq_false part] at asks
    rw [serveWaiter_whole free asks] at gives ⊢
    refine ⟨⟨gives.steady, queued, fun short => by omega⟩, ?_, fun stays => ?_⟩
    · dsimp only
      rw [Device.unwait, ring_modRing_self, ring']
    · rw [unwait_waiting] at stays
      simp at stays

/-! ## The walk at the end of an event -/

theorem walkRing_still (h : (d.ring r).gained = true → Device.walk r (d.ring r).waiting d = d) :
    d.walkRing r = d.modRing r fun y => { y with gained := false } := by
  unfold Device.walkRing
  split
  · next gained => rw [h gained]
  · rfl

theorem walkRing_cons (gained : (d.ring r).gained = true) (waiting : (d.ring r).waiting = q :: l) :
    d.walkRing r = (Device.walk r (q :: l) d).modRing r fun y => { y with gained := false } := by
  rw [Device.walkRing, if_pos gained, waiting]

theorem walkRing_gives (d : Device) (r : RingId) : Gives r (d.walkRing r) d := by
  unfold Device.walkRing
  refine .trans .forget ?_
  split
  · exact walk_gives ..
  · exact .self d

/-- What the service of the head has given, the walk leaves given. -/
theorem walkRing_cons_gives (gained : (d.ring r).gained = true) (waiting : (d.ring r).waiting = q :: l) :
    Gives r (d.walkRing r) (d.serveWaiter r q).1 := by
  rw [walkRing_cons gained waiting]
  exact .trans .forget (walk_cons_gives ..)

theorem walkRing_gained (d : Device) (r : RingId) : ((d.walkRing r).ring r).gained = false := by
  rw [Device.walkRing, ring_modRing_self]

/-- A ring whose list a requester has left with one slot. -/
theorem ring_servedOne (d : Device) (r : RingId) (q : Requester) :
    ((d.reserve r 1).unwait r q).ring r =
      { d.ring r with
        reserved := (d.ring r).reserved + 1, waiting := (d.ring r).waiting.filter fun y => !(y == q) } := by
  rw [Device.unwait, ring_modRing_self, Device.reserve, ring_modRing_self]

/-- A requester given one slot is off the list after the walk, and its slot is not taken back. -/
theorem gives_servedOne (h : Gives r e f) (served : f.ring r = ((d.reserve r 1).unwait r q).ring r) :
    q ∉ (e.ring r).waiting ∧ (d.ring r).reserved < (e.ring r).reserved := by
  have left := h.waiting
  have slot := h.reserved
  rw [served, ring_servedOne] at left slot
  exact ⟨fun waits => by simpa using left.subset waits, slot⟩

/-- Settles O14: no service gives more than the ring's room or puts an entry on the list, and what the head is given no later service
takes back. -/
theorem waitingListServedFromHead : Obligations.WaitingListServedFromHead := by
  intro d r
  have gives := walkRing_gives d r
  obtain ⟨isSet, size, -⟩ := gives.shape
  have full {x : Ring} (none : ¬ x.hasRoom) : x.room = 0 := not_not.mp (mt (room_pos x).mp none)
  refine ⟨fun no => walkRing_still fun gained => ?_, fun q rest none waiting one => walkRing_still fun _ => ?_, walkRing_gained d r,
    fun set within => ⟨?_, gives.reserved, gives.waiting⟩,
    fun c rest ⟨gained, room⟩ waiting => ?_, fun rest ⟨gained, room⟩ waiting => ?_,
    fun p n c rest gained set waiting acts kind ring => ?_⟩
  · rw [no] at gained
    cases gained
  · rw [waiting]
    exact walk_stopped (serveWaiter_full (full none) one)
  · rw [← size]
    exact gives.within (fun _ => within) (isSet.trans set)
  · have after := walkRing_cons_gives gained waiting
    rw [serveWaiter_outRecord ((room_pos _).mpr room)] at after
    obtain ⟨left, slot⟩ := gives_servedOne after rfl
    have given : ((d.walkRing r).chan c).out = (d.chan c).out.given := by
      have head : ((((d.reserve r 1).unwait r (.outRecord c)).modOutMsg c OutMessage.given).chan c).out = (d.chan c).out.given := by
        rw [Device.modOutMsg, chan_modChan_self]
        rfl
      rcases after.record c with same | again
      · exact same.trans head
      · rw [again, head, given_given]
    refine ⟨left, slot, by rw [given]; rfl, ?_⟩
    rw [given]
    simp [OutMessage.given]
  · have after := walkRing_cons_gives gained waiting
    rw [serveWaiter_commandUnit ((room_pos _).mpr room)] at after
    obtain ⟨left, slot⟩ := gives_servedOne after rfl
    exact ⟨left, slot, after.slot rfl⟩
  · have after := walkRing_cons_gives gained waiting
    have room : (d.ring r).room = (d.ring r).size - 1 - ((d.ring r).filled + (d.ring r).reserved) := if_pos set
    obtain ⟨head, slots, stays⟩ := serveWaiter_served acts kind ring (by rw [waiting]; exact List.mem_cons_self)
    have walked := walk_cons_induction (P := Served d r p n c (min (d.available p n c) (d.ring r).room))
      (fun _ q h => Served.serveWaiter acts kind ring h q) head rest
    rw [room] at walked slots stays
    refine ⟨?_, slots.trans after.reserved, fun waits => stays (after.waiting.subset waits), fun short => ?_⟩
    · rw [walkRing_cons gained waiting]
      exact walked.queued
    · rw [walkRing_cons gained waiting, ring_modRing_self]
      exact (walked.short (by omega)).2

end Sys2Proof.WaitingLists
end

section
/-! SUPPORT. The Completion Unit: what a notice posts, how a ring's interrupt state is weighed, and what the return of a record write
leaves (R148 to R154). -/

namespace Sys2Proof.CompletionRings

open Sys2Proof.Machine Sys2Proof.TakenDown Sys2Proof.Engaging

variable {s : State} {d : Device} {x : Ring} {r k : RingId} {q : Request} {id order : Nat}

/-! ## Notices (R149, R150) -/

/-- A notice that takes its slot at its event holds one slot more, and joins the tail of NQ's write queue. -/
theorem noticedNow_ring (d : Device) (body : NoticeBody) :
    (d.noticedNow body).ring 4 =
      { d.ring 4 with
        reserved := (d.ring 4).reserved + 1
        queue := (d.ring 4).queue ++ [{ order := d.serial, body := .notice body d.lost }] } := by
  have posted := ring_modRing_self (d.reserve nqRing 1) 4 fun x =>
    { x with queue := x.queue ++ [{ order := d.serial, body := .notice body d.lost }] }
  rw [show (d.reserve nqRing 1).ring 4 = { d.ring 4 with reserved := (d.ring 4).reserved + 1 } from ring_modRing_self d 4 _] at posted
  exact posted

/-- Settles O13: a notice is posted in one way whoever holds its slot, and the test of R144 decides between posted and lost. -/
theorem postedNoticeTakesLostCount : Obligations.PostedNoticeTakesLostCount := by
  intro d body subject tag result detail
  obtain ⟨posted, lost⟩ := asyncNotice_told d body
  refine ⟨⟨noticed_queue .., rfl⟩, ⟨noticed_queue .., rfl⟩, fun room => ?_, fun full => ?_⟩
  · rw [posted room]
    refine ⟨⟨?_, rfl⟩, ?_, ?_⟩ <;> rw [noticedNow_ring]
  · have count : min (d.lost + 1) 65535 = if d.lost < 65535 then d.lost + 1 else 65535 := by split <;> omega
    rw [lost full, Device.noticeLost, count]

/-! ## Changes of one ring -/

/-- Changes of a ring that agree on the steady part of its record are the same to the steady part of the blocks. -/
theorem steady_modRing_eq {f g : Ring → Ring} (h : (f (d.ring r)).steady = (g (d.ring r)).steady) :
    (d.modRing r f).steady = (d.modRing r g).steady := by
  refine steady_ext rfl (fun _ => rfl) (fun _ => rfl) (fun k => ?_) rfl rfl rfl
  rw [ring_modRing, ring_modRing]
  split
  · exact h
  · rfl

/-! ## The interrupt state of a ring (R152, R153, R154) -/

theorem weighWrite_raised (raised : x.interrupt = .raised) : x.weighWrite = x := by
  rw [Ring.weighWrite, raised]

theorem weighWrite_due (armed : x.interrupt = .armed) (due : x.threshold ≤ x.filled ∨ x.time = 0) :
    x.weighWrite = { x with interrupt := .raised, timer := .stopped } := by
  rw [Ring.weighWrite, armed]
  exact if_pos due

theorem weighWrite_coalesces (armed : x.interrupt = .armed) (early : ¬ (x.threshold ≤ x.filled ∨ x.time = 0)) :
    x.weighWrite = { x with timer := if x.timer = .stopped then .running x.time else x.timer } := by
  rw [Ring.weighWrite, armed]
  refine (if_neg early).trans ?_
  by_cases stopped : x.timer = .stopped
  · rw [if_pos stopped]
    exact if_neg (mt isRunning_iff.mp (not_not.mpr stopped))
  · rw [if_neg stopped, ← armed]
    exact if_pos (isRunning_iff.mpr stopped)

theorem rearm_due (due : x.threshold ≤ x.filled ∨ (x.time = 0 ∧ 1 ≤ x.filled)) :
    x.rearm = { x with interrupt := .raised, timer := .stopped } := if_pos due

theorem rearm_early (early : ¬ (x.threshold ≤ x.filled ∨ (x.time = 0 ∧ 1 ≤ x.filled))) :
    x.rearm =
      { x with interrupt := .armed, timer := if 1 ≤ x.filled ∧ x.timer = .stopped then .running x.time else x.timer } := by
  refine (if_neg early).trans ?_
  have waits : (1 ≤ x.filled ∧ (!x.timer.isRunning) = true) ↔ 1 ≤ x.filled ∧ x.timer = .stopped := by
    rw [Bool.not_eq_true', ← Bool.not_eq_true, isRunning_iff, not_not]
  by_cases starts : 1 ≤ x.filled ∧ x.timer = .stopped
  · rw [if_pos starts]
    exact if_pos (waits.mpr starts)
  · rw [if_neg starts]
    exact if_neg (mt waits.mp starts)

theorem coalescingExpiry_runs (runs : x.timer ≠ .stopped) :
    x.coalescingExpiry =
      { x with timer := .stopped, interrupt := if x.interrupt = .armed ∧ 1 ≤ x.filled then .raised else x.interrupt } := by
  refine (if_pos (isRunning_iff.mpr runs)).trans ?_
  have raises : (x.interrupt == .armed && decide (1 ≤ x.filled)) = true ↔ x.interrupt = .armed ∧ 1 ≤ x.filled := by simp
  by_cases weighs : x.interrupt = .armed ∧ 1 ≤ x.filled
  · rw [if_pos weighs]
    exact if_pos (raises.mpr weighs)
  · rw [if_neg weighs]
    exact if_neg (mt raises.mp weighs)

theorem coalescingExpiry_stopped (stopped : x.timer = .stopped) : x.coalescingExpiry = x := by
  rw [Ring.coalescingExpiry, stopped]
  rfl

/-- Weighing a ring after a write takes no account of its lap mark, its reservations and its write queue. -/
theorem weighWrite_with (x : Ring) (lap : Bool) (reserved : Nat) (queue : List Posted) (writing : Option Nat) :
    ({ x with lap := lap, reserved := reserved, queue := queue, writing := writing } : Ring).weighWrite =
      { x.weighWrite with lap := lap, reserved := reserved, queue := queue, writing := writing } := by
  have states : x.interrupt = .raised ∨ x.interrupt = .armed := by cases x.interrupt <;> simp
  rcases states with raised | armed
  · rw [weighWrite_raised raised]
    exact weighWrite_raised raised
  · by_cases due : x.threshold ≤ x.filled ∨ x.time = 0
    · rw [weighWrite_due armed due]
      exact weighWrite_due armed due
    · rw [weighWrite_coalesces armed due]
      exact weighWrite_coalesces armed due

/-- Re-arming a ring takes no account of whether it has gained room. -/
theorem rearm_with (x : Ring) (gained : Bool) : ({ x with gained := gained } : Ring).rearm = { x.rearm with gained := gained } := by
  by_cases due : x.threshold ≤ x.filled ∨ (x.time = 0 ∧ 1 ≤ x.filled)
  · rw [rearm_due due]
    exact rearm_due due
  · rw [rearm_early due]
    exact rearm_early due

/-- The mark that a ring has gained room is not steady, and re-arming the ring takes no account of it. -/
theorem rearm_gained_steady (x : Ring) (gained : Bool) : ({ x with gained := gained } : Ring).rearm.steady = x.rearm.steady := by
  rw [rearm_with]
  rfl

/-! ## The return of a record write (R148) -/

/-- The ring advances, and is weighed with the new P. -/
theorem recordWritten_eq (x : Ring) (order : Nat) :
    x.recordWritten order =
      { ({ x with producer := (x.producer + 1) % x.size } : Ring).weighWrite with
        lap := if (x.producer + 1) % x.size = 0 then !x.lap else x.lap
        reserved := x.reserved - 1
        queue := x.queue.filter fun q => !(q.order == order)
        writing := none } :=
  weighWrite_with { x with producer := (x.producer + 1) % x.size } ..

/-- The steady part of a ring after a record write: its reservations and the write in flight do not count. -/
theorem recordWritten_steady (x : Ring) (order : Nat) :
    (x.recordWritten order).steady =
      (Ring.weighWrite
        { x with
          producer := (x.producer + 1) % x.size
          lap := if (x.producer + 1) % x.size = 0 then !x.lap else x.lap
          queue := x.queue.filter fun q => !(q.order == order) }).steady := by
  have weighed := congrArg Ring.steady (weighWrite_with { x with producer := (x.producer + 1) % x.size }
    (if (x.producer + 1) % x.size = 0 then !x.lap else x.lap) x.reserved (x.queue.filter fun q => !(q.order == order)) x.writing)
  rw [recordWritten_eq]
  exact weighed.symm

/-- The blocks once a record write has been accepted, and its event ended. -/
def written (d : Device) (id : Nat) (r : RingId) (order : Nat) : Device := ((d.returned id).recordWritten r order).settle

theorem written_ring (d : Device) (id : Nat) (r k : RingId) (order : Nat) :
    ((written d id r order).ring k).steady = (if r = k then (d.ring r).recordWritten order else d.ring k).steady :=
  (ring_of_steady (settle_steady _) k).trans (congrArg Ring.steady (ring_modRing (d.returned id) r k fun x => x.recordWritten order))

theorem written_ring_self (d : Device) (id : Nat) (r : RingId) (order : Nat) :
    ((written d id r order).ring r).steady = ((d.ring r).recordWritten order).steady := by
  rw [written_ring, if_pos rfl]

/-- An accepted record write, up to the work at the end of its event. -/
theorem exec_recordWriteDone (running : s.engine = .running) (found : s.dev.request? id = some q)
    (access : q.access = .recordWrite r order) :
    exec (.recordWriteDone id .accepted) s = .next { s with dev := written s.dev id r order } := by
  change execRecordWriteDone id .accepted s = _
  simp only [execRecordWriteDone, running, found, access, event_eq running, written]

/-- A record write that fails (R177, R178). -/
theorem exec_recordWriteDone_busError (running : s.engine = .running) (found : s.dev.request? id = some q)
    (access : q.access = .recordWrite r order) (a : Address) :
    exec (.recordWriteDone id (.busError a)) s = .next (s.engineFault (ringFault r)) := by
  change execRecordWriteDone id (.busError a) s = _
  simp only [execRecordWriteDone, running, found, access]

/-- The steady part of a ring holds its interrupt state and its timer. -/
theorem interrupt_of_steady {y : Ring} (h : x.steady = y.steady) : x.interrupt = y.interrupt ∧ x.timer = y.timer :=
  ⟨(congrArg Ring.interrupt h :), (congrArg Ring.timer h :)⟩

/-- Settles O16: the write's ring is weighed after P has moved on; the rest follows the interrupt state and the test of R152. -/
theorem writeWeighsRing : Obligations.WriteWeighsRing := by
  refine ⟨fun id q r order s running found access => ?_,
    fun x => ⟨weighWrite_raised, weighWrite_due, weighWrite_coalesces⟩⟩
  obtain ⟨interrupt, timer⟩ := interrupt_of_steady (written_ring_self s.dev id r order)
  refine ⟨_, exec_recordWriteDone running found access, ?_, ?_⟩ <;> dsimp only
  · rw [interrupt, recordWritten_eq]
  · rw [timer, recordWritten_eq]

/-- Settles O42: an accepted write changes its own ring alone, and what the end of the event does is not steady. -/
theorem recordWriteReturnAdvancesRing : Obligations.RecordWriteReturnAdvancesRing := by
  intro id q r order s running found access
  refine ⟨⟨_, exec_recordWriteDone running found access, ⟨rfl, rfl, rfl, rfl, rfl, rfl⟩, ?_⟩,
    fun a => exec_recordWriteDone_busError running found access a⟩
  dsimp only
  have steady : (written s.dev id r order).steady = ((s.dev.returned id).recordWritten r order).steady := settle_steady _
  refine ⟨(written_ring_self ..).trans (recordWritten_steady ..), fun k other => ?_, (cu_of_steady steady).trans rfl,
    fun c => (chan_of_steady steady c).trans rfl, fun p => (port_of_steady steady p).trans rfl,
    (relay_of_steady steady).trans rfl, (lost_of_steady steady).trans rfl⟩
  rw [written_ring, if_neg (Ne.symm other)]

/-! ## The coalescing timer (R153) -/

/-- Settles O17: the expiry changes its ring alone, and only while the timer runs. -/
theorem coalescingExpiryRaisesRing : Obligations.CoalescingExpiryRaisesRing := by
  intro r s running
  have event : exec (.coalescingTimerExpiry r) s = .next (s.event fun d => d.modRing r Ring.coalescingExpiry) := by rfl
  rw [event, event_eq running]
  refine ⟨_, rfl, fun runs => becomes_settle ?_, fun stopped => becomes_settle ?_⟩
  · exact steady_modRing_eq (congrArg Ring.steady (coalescingExpiry_runs runs))
  · exact steady_modRing (congrArg Ring.steady (coalescingExpiry_stopped stopped))

end Sys2Proof.CompletionRings
end

section
/-! SUPPORT. Engine Control: INTMASK and IRQ, the return of the root table read, and NOTIFY of the command ring, of a ring of the
Completion Unit and of nothing (R151, R154 to R156, R172 to R175). -/

namespace Sys2Proof.EngineWindow

open Sys2Proof.Machine Sys2Proof.CompletionRings Sys2Proof.Engaging

variable {s : State} {d : Device} {r : RingId} {q : Request} {id : Nat} {index : BitVec 12}

/-! ## INTMASK and IRQ (R155, R172) -/

theorem causeSet_ring (s : State) (r : RingId) : causeSet s r.castSucc = true ↔ (s.dev.ring r).interrupt = .raised := by
  rw [causeSet, dif_pos (show r.castSucc.val < 5 from r.isLt)]
  exact beq_iff_eq

theorem causeSet_fault (s : State) : causeSet s (Fin.last 5) = true ↔ s.cause ≠ .clear := by
  rw [causeSet, dif_neg (by decide)]
  simp

/-- IRQ is high exactly when a ring in RAISED or the engine fault cause is unmasked (R155). -/
theorem irq_iff (s : State) :
    irq s = true ↔ (∃ r : RingId, (s.dev.ring r).interrupt = .raised ∧ s.intmask.getLsbD r.val = true) ∨
      (s.cause ≠ .clear ∧ s.intmask.getLsbD 5 = true) := by
  simp only [irq, allCauses, List.any_eq_true, List.mem_finRange, true_and, Bool.and_eq_true, Fin.exists_fin_succ',
    causeSet_ring, causeSet_fault, Fin.val_castSucc, Fin.val_last]

/-- The six enables of INTMASK stand in the low bits of the word written. -/
theorem enables_eq (v : Word) : v.setWidth 6 = v.extractLsb 5 0 := by
  apply BitVec.eq_of_getLsbD_eq
  intro i hi
  simp [hi]

/-- Settles O6: the write stores the enables alone, and IRQ is read off the causes under them. -/
theorem intmaskWriteMovesIrqAtOnce : Obligations.IntmaskWriteMovesIrqAtOnce := by
  intro v s
  have write : exec (.intmaskWrite v) s = .next { s with intmask := v.setWidth 6 } := by rfl
  have enable (k : Nat) (low : k < 6) : (v.setWidth 6).getLsbD k = v.getLsbD k := by simp [low]
  refine ⟨_, write, by rw [enables_eq], (irq_iff _).trans (or_congr (exists_congr fun r => ?_) ?_)⟩ <;> dsimp only
  · rw [enable r.val (by omega)]
  · rw [enable 5 (by decide)]

/-! ## The root table (R173, R174) -/

theorem exec_rootTableReadDone (starting : s.engine = .starting) (found : s.dev.request? id = some q) (access : q.access = .rootTable)
    {bytes : List Byte} (whole : bytes.length = q.length) :
    exec (.rootTableReadDone id (.data bytes)) s = .next (s.takeRootTable id bytes) := by
  change execRootTableReadDone id (.data bytes) s = _
  simp [execRootTableReadDone, starting, found, access, Request.whole, whole]

theorem exec_rootTableReadDone_busError (starting : s.engine = .starting) (found : s.dev.request? id = some q)
    (access : q.access = .rootTable) (a : Address) :
    exec (.rootTableReadDone id (.busError a)) s = .next (s.engineFault .rootRead) := by
  change execRootTableReadDone id (.busError a) s = _
  simp [execRootTableReadDone, starting, found, access]

/-- Settles O7: the table's own check decides between RUNNING and FAULTED. -/
theorem rootTableReturnStartsOrFaults : Obligations.RootTableReturnStartsOrFaults := by
  intro id q s starting found access
  refine ⟨exec_rootTableReadDone_busError starting found access, fun bytes whole => ?_⟩
  rw [exec_rootTableReadDone starting found access whole]
  dsimp only
  rw [← good_iff]
  refine ⟨fun bad => ?_, fun good => ?_⟩
  · rw [State.takeRootTable, if_neg bad]
    rfl
  · rw [State.takeRootTable, if_pos good]
    rfl

/-! ## NOTIFY (R151, R154, R156, R175) -/

/-- A NOTIFY refused posts or loses its HOST_ERROR and does nothing else. -/
theorem badNotify_told (s : State) (target : Nat) (index : BitVec 12) :
    ∃ e, s.dev.told (.hostError (BitVec.ofNat 8 target) .badNotify (index.setWidth 32)) e ∧
      s.becomes { s with dev := (s.dev.badNotify target index).settle } e :=
  ⟨_, asyncNotice_told _ _, becomes_settle rfl⟩

theorem exec_notifyCommandRing (running : s.engine = .running) (index : BitVec 12) (arm : Bool) :
    exec (.notifyCommandRing index arm) s = .next { s with dev := (s.dev.takeCommandIndex index).settle } := by
  have event : exec (.notifyCommandRing index arm) s = .next (s.event fun d => d.takeCommandIndex index) := by rfl
  rw [event, event_eq running]

theorem exec_notifyRingConsumer (running : s.engine = .running) (r : RingId) (index : BitVec 12) (arm : Bool) :
    exec (.notifyRingConsumer r index arm) s = .next { s with dev := (s.dev.takeConsumerIndex r index arm).settle } := by
  have event : exec (.notifyRingConsumer r index arm) s = .next (s.event fun d => d.takeConsumerIndex r index arm) := by rfl
  rw [event, event_eq running]

/-- A target of 70 or more names nothing (R175). -/
theorem exec_notifyBadTarget (running : s.engine = .running) {target : Byte} (nothing : 70 ≤ target.toNat) (index : BitVec 12)
    (arm : Bool) :
    exec (.notifyBadTarget target index arm) s = .next { s with dev := (s.dev.badNotify target.toNat index).settle } := by
  have event : exec (.notifyBadTarget target index arm) s = .next (s.event fun d => d.takeNotify target index arm) := by rfl
  have refused : s.dev.takeNotify target index arm = s.dev.badNotify target.toNat index := by
    simp only [Device.takeNotify]
    rw [dif_neg (by omega), if_neg (by omega), dif_neg (by omega)]
  rw [event, event_eq running, refused]

/-- Settles O10: each NOTIFY is taken or refused by the one test of R156, and a target of 70 or more has no owner to take it. -/
theorem notifyCommandRingOrBadTarget : Obligations.NotifyCommandRingOrBadTarget := by
  intro index arm s running
  refine ⟨⟨_, exec_notifyCommandRing running index arm, fun ok => ?_, fun bad => ?_⟩, fun target nothing => ?_⟩
  · exact becomes_settle (congrArg Device.steady (if_pos ok))
  · rw [show s.dev.takeCommandIndex index = s.dev.badNotify 64 index from if_neg bad]
    exact badNotify_told ..
  · obtain ⟨e, told, becomes⟩ := badNotify_told s target.toNat index
    rw [BitVec.ofNat_toNat, BitVec.setWidth_eq] at told
    exact ⟨_, e, exec_notifyBadTarget running nothing index arm, told, becomes⟩

/-- An index in the written range becomes C, and the ring is re-armed on demand (R151, R154). -/
theorem takeConsumerIndex_steady (arm : Bool)
    (ok : (d.ring r).isSet = true ∧ index.toNat < (d.ring r).size ∧
      (index.toNat + (d.ring r).size - (d.ring r).consumer) % (d.ring r).size ≤ (d.ring r).filled) :
    (d.takeConsumerIndex r index arm).steady =
      (d.modRing r fun y =>
        if arm then { y with consumer := index.toNat }.rearm else { y with consumer := index.toNat }).steady := by
  rw [Device.takeConsumerIndex]
  refine (congrArg Device.steady (if_pos ok)).trans (steady_modRing_eq ?_)
  cases arm with
  | false => rfl
  | true => exact rearm_gained_steady { d.ring r with consumer := index.toNat } _

/-- Settles O11: the test of R151 decides, and a refused NOTIFY leaves the ring. -/
theorem notifyRingMovesConsumer : Obligations.NotifyRingMovesConsumer := by
  intro r index arm s running
  refine ⟨_, exec_notifyRingConsumer running r index arm, fun ok => becomes_settle (takeConsumerIndex_steady arm ok), fun bad => ?_⟩
  rw [show s.dev.takeConsumerIndex r index arm = s.dev.badNotify (65 + r.val) index from if_neg bad]
  exact badNotify_told ..

/-- Settles O15: an accepted NOTIFY with ARM is one of O11's, and the weighing of R154 is read off its test. -/
theorem rearmWeighsRing : Obligations.RearmWeighsRing :=
  ⟨fun r index _ running isSet inside range => ⟨_, exec_notifyRingConsumer running r index true,
    becomes_settle (takeConsumerIndex_steady true ⟨isSet, inside, range⟩)⟩, fun _ => ⟨rearm_due, rearm_early⟩⟩

end Sys2Proof.EngineWindow
end

section
/-! SUPPORT. Commands that need only the Command Unit and one ring: the return of a command fetch, NOP, BARRIER, the unknown opcodes and
SET_RING (R143, R157 to R160, R163, R169, R170, R177, R180). -/

namespace Sys2Proof.UnitCommands

open Sys2Proof.Machine Sys2Proof.Engaging

variable {s : State} {d : Device} {q : Request} {id : Nat} {k : Fin 4} {base : Address} {size : Half} {threshold : Byte}

/-! ## The return of a command fetch (R157, R177) -/

theorem exec_commandFetchDone (running : s.engine = .running) (found : s.dev.request? id = some q) (access : q.access = .commandFetch)
    {bytes : List Byte} (whole : bytes.length = q.length) :
    exec (.commandFetchDone id (.data bytes)) s = .next { s with dev := ((s.dev.returned id).addCommands bytes).settle } := by
  change execCommandFetchDone id (.data bytes) s = _
  simp only [execCommandFetchDone, running, found, access, if_true, Request.whole, beq_iff_eq.mpr whole, event_eq running]

theorem exec_commandFetchDone_busError (running : s.engine = .running) (found : s.dev.request? id = some q)
    (access : q.access = .commandFetch) (a : Address) :
    exec (.commandFetchDone id (.busError a)) s = .next (s.engineFault .commandRead) := by
  change execCommandFetchDone id (.busError a) s = _
  simp only [execCommandFetchDone, running, found, access, if_true]

/-- Settles O8: the records join the list; that the request has gone and the next fetch may go out is not steady. -/
theorem commandFetchReturnAddsOrFaults : Obligations.CommandFetchReturnAddsOrFaults := by
  intro id q s running found access
  exact ⟨exec_commandFetchDone_busError running found access,
    fun bytes whole => ⟨_, exec_commandFetchDone running found access whole, becomes_settle rfl⟩⟩

/-! ## NOP, BARRIER and the unknown opcodes (R158, R159, R169, R170, R180) -/

/-- Without the slot of its notice the head command is not taken (R158). -/
theorem take_without_slot (i : Instr) (f : Device → Device) (noSlot : s.dev.cu.slotHeld = false) : s.take i f = s := by
  have refused : s.dev.mayTake i = false := by simp [Device.mayTake, noSlot]
  by_cases running : s.engine = .running
  · simp only [State.take, whenRunning_eq running, refused, Bool.false_eq_true, if_false]
  · exact whenRunning_not running _

/-- Settles O18: the take alone makes the difference; what NOP does with it is to post its notice. -/
theorem nopCompletesAtOnce : Obligations.NopCompletesAtOnce := by
  intro tag subject s
  exact ⟨fun take => ⟨_, rfl, take_answers take rfl⟩, fun noSlot => congrArg Host.Outcome.next (take_without_slot _ _ noSlot)⟩

/-- Settles O19: BARRIER asks only whether the deferred list is empty, and an unknown opcode asks nothing. -/
theorem barrierWaitsAndUnknownIsRefused : Obligations.BarrierWaitsAndUnknownIsRefused := by
  refine ⟨fun tag subject s take => ⟨_, rfl, fun empty => take_answers take ?_, fun waits => take_answers take ?_⟩,
    fun opcode tag subject s take => ⟨_, rfl, take_answers take rfl⟩⟩
  · exact if_pos (List.isEmpty_iff.mpr empty)
  · exact if_neg (mt List.isEmpty_iff.mp waits)

/-! ## SET_RING (R143, R163) -/

/-- A channel that completes on a ring is one of kind OUT or IN: relay halves post no completions (R143). -/
theorem ringInUse_iff :
    d.ringInUse k = true ↔ ∃ c : ChannelId, (d.chan c).state ≠ .closed ∧ ((d.chan c).kind = .out ∨ (d.chan c).kind = .inn) ∧
      (d.chan c).ring = k := by
  have host (x : Channel) : x.isRelay = false ↔ x.kind = .out ∨ x.kind = .inn := by
    unfold Channel.isRelay
    cases x.kind <;> decide
  simp only [Device.ringInUse, allChannels, List.any_eq_true, List.mem_finRange, true_and, Bool.and_eq_true, Bool.not_eq_true',
    host, beq_eq_false_iff_ne, beq_iff_eq, ne_eq, and_assoc]

/-- The base, size and threshold that R163 asks for. -/
def RingInRange (base : Address) (size : Half) (threshold : Byte) : Prop :=
  base.toNat % 16 = 0 ∧ (∃ e, 4 ≤ e ∧ e ≤ 12 ∧ size.toNat = 2 ^ e) ∧ 1 ≤ threshold.toNat

/-- What keeps a ring from being set again: a channel that completes on it, or a reservation (R143). -/
def RingTaken (d : Device) (k : Fin 4) : Prop :=
  (∃ c : ChannelId, (d.chan c).state ≠ .closed ∧ ((d.chan c).kind = .out ∨ (d.chan c).kind = .inn) ∧ (d.chan c).ring = k) ∨
    0 < (d.ring k.castSucc).reserved

theorem ringOutOfRange_iff :
    (!(aligned 16 base && powerOfTwoIn 16 4096 size.toNat && between 1 255 threshold.toNat)) = true ↔
      ¬ RingInRange base size threshold := by
  have byte : threshold.toNat < 256 := threshold.isLt
  have bound : (1 ≤ threshold.toNat ∧ threshold.toNat ≤ 255) ↔ 1 ≤ threshold.toNat := by omega
  rw [Bool.not_eq_true', ← Bool.not_eq_true]
  refine not_congr ?_
  simp only [RingInRange, Bool.and_eq_true, aligned, beq_iff_eq, ringSize_iff, between, decide_eq_true_eq, bound, and_assoc]

theorem ringTaken_iff : (d.ringInUse k || decide (0 < (d.ring (cqRing k)).reserved)) = true ↔ RingTaken d k := by
  rw [Bool.or_eq_true, ringInUse_iff, decide_eq_true_iff]
  rfl

theorem setRingResult_badParam (bad : ¬ RingInRange base size threshold) : d.setRingResult k base size threshold = .badParam :=
  if_pos ((ringOutOfRange_iff).mpr bad)

theorem setRingResult_badState (good : RingInRange base size threshold) (busy : RingTaken d k) :
    d.setRingResult k base size threshold = .badState :=
  (if_neg (mt (ringOutOfRange_iff).mp (not_not.mpr good))).trans (if_pos ((ringTaken_iff).mpr busy))

theorem setRingResult_ok (good : RingInRange base size threshold) (idle : ¬ RingTaken d k) :
    d.setRingResult k base size threshold = .ok :=
  (if_neg (mt (ringOutOfRange_iff).mp (not_not.mpr good))).trans (if_neg (mt (ringTaken_iff).mp idle))

/-- Settles O20: the checks are read off the command's result in its order, and the take itself moves no channel and no ring. -/
theorem setRingDecidedInOrder : Obligations.SetRingDecidedInOrder := by
  intro tag ring base size threshold time s take
  refine ⟨_, rfl, fun outside => take_answers take ?_, fun k named => ?_⟩
  · simp only [inRange_none outside]
    rfl
  · have taken : RingTaken s.dev.afterTake k ↔ RingTaken s.dev k := Iff.rfl
    refine ⟨fun bad => take_answers take ?_, fun good busy => take_answers take ?_, fun good idle => take_answers take ?_⟩
    · simp only [inRange_some named, setRingResult_badParam bad]
      rfl
    · simp only [inRange_some named, setRingResult_badState good (taken.mpr busy)]
      rfl
    · simp only [inRange_some named, setRingResult_ok good (mt taken.mp idle)]
      rfl

end Sys2Proof.UnitCommands
end

section
/-! SUPPORT. READ_STATS from its take to the return of its write, and the BARRIER behind it (R160, R161, R164 to R169, R177). -/

namespace Sys2Proof.Statistics

open Sys2Proof.Machine Sys2Proof.LinkBytes Sys2Proof.TakenDown Sys2Proof.Engaging

variable {s : State} {d : Device} {x : StatsSubject} {c : ChannelId} {p : PortId} {q : Request} {id : Nat}
  {tag : Half} {subject mode kind : Byte} {destination : Address}

/-! ## The subject (R164) -/

theorem readSubject_zero : readSubject 0 subject = ((inRange 64 subject).map .channel).elim (.error .badIndex) .ok := rfl

theorem readSubject_one : readSubject 1 subject = ((inRange 4 subject).map .port).elim (.error .badIndex) .ok := rfl

theorem readSubject_two : readSubject 2 subject = ((inRange 64 subject).map .relay).elim (.error .badIndex) .ok := rfl

theorem readSubject_badKind (bad : 3 ≤ kind.toNat) : readSubject kind subject = .error .badParam := by
  rw [readSubject]
  split
  · omega
  · omega
  · omega
  · rfl

/-- The three kinds of subject. -/
theorem kind_cases (known : kind.toNat < 3) : kind = 0 ∨ kind = 1 ∨ kind = 2 := by
  have values : kind.toNat = 0 ∨ kind.toNat = 1 ∨ kind.toNat = 2 := by omega
  exact values.imp BitVec.eq_of_toNat_eq (Or.imp BitVec.eq_of_toNat_eq BitVec.eq_of_toNat_eq)

theorem readSubject_badIndex (known : kind.toNat < 3) (outside : if kind = 1 then 4 ≤ subject.toNat else 64 ≤ subject.toNat) :
    readSubject kind subject = .error .badIndex := by
  rcases kind_cases known with rfl | rfl | rfl
  · rw [readSubject_zero, inRange_none outside]
    rfl
  · rw [readSubject_one, inRange_none outside]
    rfl
  · rw [readSubject_two, inRange_none outside]
    rfl

theorem readSubject_channel (named : subject.toNat = c.val) : readSubject 0 subject = .ok (.channel c) := by
  rw [readSubject_zero, inRange_some named]
  rfl

theorem readSubject_port (named : subject.toNat = p.val) : readSubject 1 subject = .ok (.port p) := by
  rw [readSubject_one, inRange_some named]
  rfl

theorem readSubject_relay (named : subject.toNat = c.val) : readSubject 2 subject = .ok (.relay c) := by
  rw [readSubject_two, inRange_some named]
  rfl

/-- A known kind with its index in range names a subject. -/
theorem readSubject_known (known : kind.toNat < 3) (inside : if kind = 1 then subject.toNat < 4 else subject.toNat < 64) :
    ∃ x, readSubject kind subject = .ok x := by
  rcases kind_cases known with rfl | rfl | rfl
  · exact ⟨_, readSubject_channel (c := ⟨subject.toNat, inside⟩) rfl⟩
  · exact ⟨_, readSubject_port (p := ⟨subject.toNat, inside⟩) rfl⟩
  · exact ⟨_, readSubject_relay (c := ⟨subject.toNat, inside⟩) rfl⟩

/-! ## The take (R164 to R168) -/

/-- What a READ_STATS makes of the blocks once it is taken. -/
def decideStats (tag : Half) (subject mode kind : Byte) (destination : Address) (d : Device) : Device :=
  match readSubject kind subject with
  | .error r => d.commandDone subject tag r 0
  | .ok x =>
    if aligned 16 destination then d.takeStats x (mode.getLsbD 0) destination tag subject
    else d.commandDone subject tag .badParam 0

theorem exec_readStats (tag : Half) (subject mode kind : Byte) (destination : Address) (s : State) :
    exec (.readStats tag subject mode kind destination) s =
      .next (s.take (.readStats tag subject mode kind destination) (decideStats tag subject mode kind destination)) := rfl

theorem decideStats_refused {r : Result} (refused : readSubject kind subject = .error r) :
    decideStats tag subject mode kind destination d = d.commandDone subject tag r 0 := by
  simp only [decideStats, refused]

theorem decideStats_unaligned (named : readSubject kind subject = .ok x) (unaligned : destination.toNat % 16 ≠ 0) :
    decideStats tag subject mode kind destination d = d.commandDone subject tag .badParam 0 := by
  simp only [decideStats, named]
  exact if_neg (mt beq_iff_eq.mp unaligned)

theorem decideStats_taken (named : readSubject kind subject = .ok x) (fits : destination.toNat % 16 = 0) :
    decideStats tag subject mode kind destination d = d.takeStats x (mode.getLsbD 0) destination tag subject := by
  simp only [decideStats, named]
  exact if_pos (beq_iff_eq.mpr fits)

/-- The counters cleared stand in the subject's own block, which the take does not move. -/
theorem clearStats_afterTake (d : Device) (x : StatsSubject) : d.afterTake.clearStats x = (d.clearStats x).afterTake := by
  cases x <;> rfl

theorem clearStats_serial (d : Device) (x : StatsSubject) : (d.clearStats x).serial = d.serial := by
  cases x <;> rfl

theorem statsBytes_afterTake (d : Device) (x : StatsSubject) : d.afterTake.statsBytes x = d.statsBytes x := by
  cases x <;> rfl

/-- The statistics write leaves with the bytes of the snapshot, which is taken before the clear (R165, R167, R168). -/
theorem takeStats_places (d : Device) (x : StatsSubject) (clear : Bool) (destination : Address) (tag : Half) (subject : Byte) :
    ({ id := d.serial, access := .statsWrite, address := destination, length := 64, data := d.statsBytes x } : Request) ∈
      (d.takeStats x clear destination tag subject).requests := by
  have placed : (if clear then d.clearStats x else d).serial = d.serial := by
    split
    · exact clearStats_serial d x
    · rfl
  refine List.mem_append_right _ (List.mem_singleton.mpr ?_)
  rw [placed]

/-- Beside the request, the clear and the new entry of the deferred list are all that a READ_STATS leaves. -/
theorem takeStats_steady (d : Device) (x : StatsSubject) (clear : Bool) (destination : Address) (tag : Half) (subject : Byte) :
    (d.afterTake.takeStats x clear destination tag subject).steady =
      ((if clear then d.clearStats x else d).deferred (.readStats d.serial) tag subject).steady := by
  cases clear with
  | false => rfl
  | true =>
    simp only [Device.takeStats, if_true, clearStats_afterTake]
    rfl

/-- A request that a command places at its take stays placed to the end of the event. -/
theorem take_places {i : Instr} {f : Device → Device} (take : s.canTake i) (placed : q ∈ (f s.dev.afterTake).requests) :
    q ∈ (s.take i f).dev.requests := by
  rw [take_eq take]
  dsimp only
  exact (settle_grows _).requests _ placed

/-- A READ_STATS that passes its checks places its write. -/
theorem readStats_places (take : s.canTake (.readStats tag subject mode kind destination)) (named : readSubject kind subject = .ok x)
    (fits : destination.toNat % 16 = 0) :
    ({ id := s.dev.serial, access := .statsWrite, address := destination, length := 64, data := s.dev.statsBytes x } : Request) ∈
      (s.take (.readStats tag subject mode kind destination) (decideStats tag subject mode kind destination)).dev.requests := by
  refine take_places take ?_
  rw [decideStats_taken named fits, ← statsBytes_afterTake]
  exact takeStats_places ..

/-- A READ_STATS that passes its checks clears what it is to clear, and is deferred. -/
theorem readStats_becomes (take : s.canTake (.readStats tag subject mode kind destination)) (named : readSubject kind subject = .ok x)
    (fits : destination.toNat % 16 = 0) :
    s.becomes (s.take (.readStats tag subject mode kind destination) (decideStats tag subject mode kind destination))
      ((if mode.getLsbD 0 then s.dev.clearStats x else s.dev).deferred (.readStats s.dev.serial) tag subject) := by
  obtain ⟨same, steady⟩ := take_becomes take (decideStats tag subject mode kind destination)
  rw [decideStats_taken named fits, takeStats_steady] at steady
  exact ⟨same, steady⟩

/-- Settles O36: the subject is read first, then the destination is tested, and the three kinds of subject are taken alike. -/
theorem readStatsTakesSnapshot : Obligations.ReadStatsTakesSnapshot := by
  intro tag subject mode kind destination s take
  refine ⟨_, exec_readStats .., fun bad => ?_, fun known outside => ?_, fun known inside =>
    ⟨fun unaligned => ?_, fun fits => ⟨?_, ?_, ?_⟩⟩⟩
  · exact take_answers take (decideStats_refused (readSubject_badKind bad))
  · exact take_answers take (decideStats_refused (readSubject_badIndex known outside))
  · obtain ⟨x, named⟩ := readSubject_known known inside
    exact take_answers take (decideStats_unaligned named unaligned)
  · rintro c rfl index
    have named := readSubject_channel index
    have placed := readStats_places take named fits
    exact ⟨placed, readStats_becomes take named fits⟩
  · rintro p rfl index
    have named := readSubject_port index
    have placed := readStats_places take named fits
    exact ⟨placed, readStats_becomes take named fits⟩
  · rintro c rfl index
    have named := readSubject_relay index
    have placed := readStats_places take named fits
    exact ⟨placed, readStats_becomes take named fits⟩

/-! ## The return of the write (R160, R161, R168, R169, R177) -/

theorem exec_statsWriteDone (running : s.engine = .running) (found : s.dev.request? id = some q) (access : q.access = .statsWrite)
    (reply : WriteReply) :
    exec (.statsWriteDone id reply) s = .next { s with dev := ((s.dev.returned id).statsReturned id reply).settle } := by
  change execStatsWriteDone id reply s = _
  simp only [execStatsWriteDone, whenRunning_eq running, found, access, if_true]

/-- A BARRIER that stands alone at the head of the deferred list completes (R169). -/
theorem weighBarriers_one {b : Deferred} {after : List Deferred} (head : d.cu.deferred = b :: after) (barrier : b.work = .barrier)
    (last : ∀ x, after.head? = some x → x.work ≠ .barrier) :
    d.weighBarriers = (d.withDeferred after).noticed (.commandDone b.subject .ok b.tag 0) := by
  obtain ⟨freed, kept⟩ : d.cu.deferred.takeWhile (fun e => e.work == .barrier) = [b] ∧
      d.cu.deferred.dropWhile (fun e => e.work == .barrier) = after := by
    cases after with
    | nil => simp [head, barrier]
    | cons x rest => simp [head, barrier, last x rfl]
  simp only [Device.weighBarriers, Device.modCu, freed, kept]
  rfl

/-- A deferred command at the head of the list completes, and so does the BARRIER behind it (R161, R169). -/
theorem completeDeferred_frees {sel : DeferredWork → Bool} {r : Result} {k : Nat} {e b : Deferred} {after : List Deferred}
    (list : d.cu.deferred = e :: b :: after) (selected : sel e.work = true) (barrier : b.work = .barrier)
    (last : ∀ x, after.head? = some x → x.work ≠ .barrier) :
    d.completeDeferred sel r k =
      ((d.withDeferred after).noticed (.commandDone e.subject r e.tag k)).noticed (.commandDone b.subject .ok b.tag 0) := by
  have found : d.cu.deferred.find? (fun x => sel x.work) = some e := by simp [list, selected]
  have left : d.cu.deferred.erase e = b :: after := by rw [list, List.erase_cons_head]
  simp only [Device.completeDeferred, Device.modCu, found, left]
  exact weighBarriers_one rfl barrier last

/-- An asynchronous notice takes no account of the requests. -/
theorem asyncNotice_returned (d : Device) (id : Nat) (b : NoticeBody) :
    (d.returned id).asyncNotice b = (d.asyncNotice b).returned id := by
  have room : ((d.returned id).ring nqRing).room = (d.ring nqRing).room := rfl
  unfold Device.asyncNotice
  rw [room]
  split <;> rfl

/-- The low word of an address. -/
theorem low_word_eq (a : Address) : a.setWidth 32 = a.extractLsb 31 0 := BitVec.eq_of_toNat_eq (by simp)

/-- The end of a READ_STATS, which leaves no trace of its request. -/
theorem statsReturned_accepted {e : Deferred} {before after : List Deferred} (defers : s.defers (isStats id) e before after) :
    ((s.dev.returned id).statsReturned id .accepted).steady =
      ((s.dev.withDeferred (before ++ after)).noticed (.commandDone e.subject .ok e.tag 0)).steady := by
  obtain ⟨list, selected, earlier, free⟩ := defers
  have completes : (s.dev.returned id).completeDeferred (isStats id) .ok 0 = _ :=
    completeDeferred_eq before after list earlier selected free
  exact (congrArg Device.steady completes).trans rfl

/-- The HOST_ERROR of a failed write is posted or lost before the command completes, and does not touch the deferred list. -/
theorem statsReturned_busError {e : Deferred} {before after : List Deferred} (defers : s.defers (isStats id) e before after)
    (a : Address) :
    ((s.dev.returned id).statsReturned id (.busError a)).steady =
      (((s.dev.asyncNotice (.hostError e.subject .statsWrite (a.extractLsb 31 0))).withDeferred (before ++ after)).noticed
        (.commandDone e.subject .badParam e.tag 0)).steady := by
  obtain ⟨list, selected, earlier, free⟩ := defers
  have found : s.dev.cu.deferred.find? (fun x => isStats id x.work) = some e :=
    List.find?_eq_some_iff_append.mpr ⟨selected, before, after, list, fun x hx => by rw [earlier x hx]; rfl⟩
  obtain ⟨cu, -, -⟩ := asyncNotice_frame s.dev (.hostError e.subject .statsWrite (a.setWidth 32))
  have kept : ((s.dev.asyncNotice (.hostError e.subject .statsWrite (a.setWidth 32))).returned id).cu.deferred = before ++ e :: after :=
    (congrArg CommandUnit.deferred cu).trans list
  have completes := completeDeferred_eq (r := .badParam) (k := 0) before after kept earlier selected free
  rw [← low_word_eq]
  refine Eq.trans ?_ ((congrArg Device.steady completes).trans rfl)
  rw [← asyncNotice_returned]
  simp only [Device.statsReturned, show (s.dev.returned id).cu = s.dev.cu from rfl, found]

/-- The end of a READ_STATS that a BARRIER waits for. -/
theorem statsReturned_frees {e b : Deferred} {after : List Deferred} (list : s.dev.cu.deferred = e :: b :: after)
    (work : e.work = .readStats id) (barrier : b.work = .barrier) (last : ∀ x, after.head? = some x → x.work ≠ .barrier) :
    ((s.dev.returned id).statsReturned id .accepted).steady =
      (((s.dev.withDeferred after).noticed (.commandDone e.subject .ok e.tag 0)).noticed
        (.commandDone b.subject .ok b.tag 0)).steady := by
  have selected : isStats id e.work = true := by rw [work]; exact beq_self_eq_true id
  have completes : (s.dev.returned id).completeDeferred (isStats id) .ok 0 = _ := completeDeferred_frees list selected barrier last
  exact (congrArg Device.steady completes).trans rfl

/-- Settles O37: the return takes its request out, and the deferred list then goes on as R161 and R169 say. -/
theorem statsWriteReturnCompletes : Obligations.StatsWriteReturnCompletes := by
  intro id q e s running found access
  refine ⟨fun before after defers => ⟨?_, fun a => ?_⟩, fun b after list work barrier last => ?_⟩
  · exact ⟨_, exec_statsWriteDone running found access _, becomes_settle (statsReturned_accepted defers)⟩
  · exact ⟨_, _, exec_statsWriteDone running found access _, asyncNotice_told .., becomes_settle (statsReturned_busError defers a)⟩
  · exact ⟨_, exec_statsWriteDone running found access _, becomes_settle (statsReturned_frees list work barrier last)⟩

end Sys2Proof.Statistics
end

section
/-! SUPPORT. The register window: START, what a write does at each offset, and what a read shows (R172, R173, R175, R182). -/

namespace Sys2Proof.RegisterWindow

open Sys2Proof.Machine

/-! ## START (R173) -/

theorem startEngine_halted {s : State} (halted : s.engine = .halted) :
    s.startEngine = { s with engine := .starting, dev := s.dev.place .rootTable s.root 64 [] } :=
  if_pos halted

theorem startEngine_ignored {s : State} (busy : s.engine ≠ .halted) : s.startEngine = s := if_neg busy

/-- Settles O3: START asks for the engine state alone, and its placing is that of every memory request. -/
theorem startPlacesRootTableRead : Obligations.StartPlacesRootTableRead := by
  intro s
  have start : exec .start s = .next s.startEngine := by rfl
  refine ⟨fun halted => ?_, fun busy => ?_⟩
  · rw [start, startEngine_halted halted]
    rfl
  · rw [start, startEngine_ignored busy]

/-! ## Writes by offset (R172, R173, R175, R182) -/

section
variable (v : Word) (s : State)

theorem exec_writeCtrl :
    exec (.registerWrite 0x04 4 v) s =
      .next (if v.getLsbD 1 then s.haltEngine else if v.getLsbD 0 then s.startEngine else s) := rfl

theorem exec_writeRootLow : exec (.registerWrite 0x08 4 v) s = .next (s.setRoot false v) := rfl

theorem exec_writeRootHigh : exec (.registerWrite 0x0C 4 v) s = .next (s.setRoot true v) := rfl

theorem exec_writeNotify :
    exec (.registerWrite 0x10 4 v) s =
      .next (s.event fun d => d.takeNotify (v.extractLsb 7 0) (v.extractLsb 19 8) (v.getLsbD 31)) := rfl

theorem exec_writeIntmask : exec (.registerWrite 0x18 4 v) s = .next (s.setIntmask v) := rfl

end

/-- A write of another width, or at an offset that names no register that can be written, is ignored (R172). -/
theorem exec_writeIgnored {o : BitVec 6} {w : Nat}
    (ignored : w ≠ 4 ∨ (o ≠ 0x04 ∧ o ≠ 0x08 ∧ o ≠ 0x0C ∧ o ≠ 0x10 ∧ o ≠ 0x18)) (v : Word) (s : State) :
    exec (.registerWrite o w v) s = .next s := by
  change execRegisterWrite o w v s = _
  unfold execRegisterWrite
  split
  case isFalse => rfl
  case isTrue width =>
    obtain ⟨ctrl, low, high, notify, mask⟩ := ignored.resolve_left (not_not.mpr width)
    split
    case h_1 here => exact absurd (BitVec.eq_of_toNat_eq here) ctrl
    case h_2 here => exact absurd (BitVec.eq_of_toNat_eq here) low
    case h_3 here => exact absurd (BitVec.eq_of_toNat_eq here) high
    case h_4 here => exact absurd (BitVec.eq_of_toNat_eq here) notify
    case h_5 here => exact absurd (BitVec.eq_of_toNat_eq here) mask
    case h_6 => rfl

/-- The low half of ROOT is stored without the low six bits of the address. -/
theorem alignedHalf_eq (v : Word) : v &&& 0xFFFFFFC0#32 = v.extractLsb 31 6 ++ (0 : BitVec 6) := by
  have halves : v.extractLsb 31 6 ++ v.extractLsb 5 0 = v := BitVec.extractLsb'_append_extractLsb' (w := 26) (len := 6)
  calc v &&& 0xFFFFFFC0#32
      = (v.extractLsb 31 6 ++ v.extractLsb 5 0) &&& (BitVec.allOnes 26 ++ 0#6) := congrArg (· &&& _) halves.symm
    _ = (v.extractLsb 31 6 &&& BitVec.allOnes 26) ++ (v.extractLsb 5 0 &&& 0#6) := BitVec.and_append
    _ = v.extractLsb 31 6 ++ (0 : BitVec 6) := by rw [BitVec.and_zero]; exact congrArg (· ++ 0#6) BitVec.and_allOnes

/-! ## The owner of a NOTIFY's target (R175) -/

section
variable {target : Byte} (d : Device) (index : BitVec 12) (arm : Bool)

theorem takeNotify_channel {c : ChannelId} (names : target = BitVec.ofNat 8 c.val) :
    d.takeNotify target index arm = d.takeChannelIndex c index := by
  have number : target.toNat = c.val := by rw [names, BitVec.toNat_ofNat]; omega
  simp only [Device.takeNotify, number, c.isLt, dif_pos]

theorem takeNotify_commandRing (names : target = 64) : d.takeNotify target index arm = d.takeCommandIndex index := by
  rw [names]
  rfl

theorem takeNotify_ring {r : RingId} (names : target = BitVec.ofNat 8 (65 + r.val)) :
    d.takeNotify target index arm = d.takeConsumerIndex r index arm := by
  have number : target.toNat = 65 + r.val := by rw [names, BitVec.toNat_ofNat]; omega
  have place : target.toNat - 65 = r.val := by omega
  simp only [Device.takeNotify]
  rw [dif_neg (by omega), if_neg (by omega), dif_pos (by omega)]
  simp only [place]

end

/-- Settles O4: each offset has its own equation, and a NOTIFY by its target is the event of the owner's own row. -/
theorem registerWriteActsByOffset : Obligations.RegisterWriteActsByOffset := by
  intro o w v s
  refine ⟨fun ignored => exec_writeIgnored ignored v s, ?_, ?_, rfl, fun c names => ?_, fun names => ?_, fun r names => ?_,
    fun _ => rfl, rfl⟩
  · rw [exec_writeCtrl]
    split
    · rfl
    · split <;> rfl
  · rw [exec_writeRootLow, ← alignedHalf_eq]
    rfl
  · simp only [exec_writeNotify, takeNotify_channel _ _ _ names]
    rfl
  · simp only [exec_writeNotify, takeNotify_commandRing _ _ _ names]
    rfl
  · simp only [exec_writeNotify, takeNotify_ring _ _ _ names]
    rfl

/-! ## Reads (R172, R182) -/

/-- A read of another width, or at an offset that names no register that can be read, returns 0 (R172). -/
theorem readRegister_ignored {o : BitVec 6} {w : Nat}
    (ignored : w ≠ 4 ∨ (o ≠ 0x00 ∧ o ≠ 0x04 ∧ o ≠ 0x08 ∧ o ≠ 0x0C ∧ o ≠ 0x14 ∧ o ≠ 0x18)) (s : State) :
    readRegister s o w = 0 := by
  unfold readRegister
  split
  case isFalse => rfl
  case isTrue width =>
    obtain ⟨ident, ctrl, low, high, causes, mask⟩ := ignored.resolve_left (not_not.mpr width)
    split
    case h_1 here => exact absurd (BitVec.eq_of_toNat_eq here) ident
    case h_2 here => exact absurd (BitVec.eq_of_toNat_eq here) ctrl
    case h_3 here => exact absurd (BitVec.eq_of_toNat_eq here) low
    case h_4 here => exact absurd (BitVec.eq_of_toNat_eq here) high
    case h_5 here => exact absurd (BitVec.eq_of_toNat_eq here) causes
    case h_6 here => exact absurd (BitVec.eq_of_toNat_eq here) mask
    case h_7 => rfl

/-- Flags weighed by the powers of two are the number with these bits. -/
theorem sum_bits_eq {n : Nat} (f : Fin n → Bool) :
    ((List.finRange n).map fun k => bit (f k) * 2 ^ k.val).sum = Nat.ofBits f := by
  induction n with
  | zero => rfl
  | succ n ih =>
    have first : bit (f 0) = (f 0).toNat := by cases f 0 <;> rfl
    have rest : ((List.finRange n).map fun k => bit (f k.succ) * 2 ^ k.succ.val).sum = 2 * Nat.ofBits (f ∘ Fin.succ) := by
      rw [← ih, ← List.sum_map_mul_left]
      refine congrArg List.sum (List.map_congr_left fun k _ => ?_)
      rw [Fin.val_succ, pow_succ']
      exact mul_left_comm ..
    rw [List.finRange_succ, List.map_cons, List.map_map, List.sum_cons, Nat.ofBits_succ, ← rest, first, Fin.val_zero, pow_zero,
      mul_one, add_comm]
    rfl

theorem readIntcause_bit (s : State) (k : Fin 6) : (readIntcause s).getLsbD k.val = causeSet s k := by
  have low : k.val < 32 := by omega
  rw [readIntcause, allCauses, sum_bits_eq, BitVec.getLsbD_ofNat, Nat.testBit_ofBits_lt _ _ k.isLt, decide_eq_true low,
    Bool.true_and]

/-- Bits 6 and up of INTCAUSE are reserved (R182). -/
theorem readIntcause_reserved (s : State) {k : Nat} (reserved : 6 ≤ k) : (readIntcause s).getLsbD k = false := by
  rw [readIntcause, allCauses, sum_bits_eq, BitVec.getLsbD_ofNat, Nat.testBit_ofBits_ge _ _ reserved, Bool.and_false]

/-- The six enables of INTMASK read under zeros. -/
theorem readIntmask_bit (s : State) (k : Nat) : (readRegister s 0x18 4).getLsbD k = s.intmask.getLsbD k := by
  change (s.intmask.setWidth 32).getLsbD k = _
  rw [BitVec.getLsbD_setWidth]
  by_cases low : k < 32
  · rw [decide_eq_true low, Bool.true_and]
  · rw [BitVec.getLsbD_of_ge s.intmask k (by omega), Bool.and_false]

/-- Settles O5: INTCAUSE is read bit by bit off the number its causes make; the other registers show a field each. -/
theorem registerReadsShowState : Obligations.RegisterReadsShowState := by
  intro o w s
  refine ⟨fun ignored => readRegister_ignored ignored s, rfl, rfl, rfl, rfl, fun r => ?_, ?_,
    fun k reserved => readIntcause_reserved s reserved, readIntmask_bit s⟩
  · exact (readIntcause_bit s r.castSucc).trans (dif_pos r.isLt)
  · exact (readIntcause_bit s (Fin.last 5)).trans (dif_neg (by decide))

end Sys2Proof.RegisterWindow
end

section
/-! SUPPORT. The engine states: what a command or event can do in each of them, and the laws that every step keeps (R172, R173, R175
to R179). -/

namespace Sys2Proof.EngineStates

open Sys2Proof.Machine Sys2Proof.RegisterWindow

variable {s t : State}

/-! ## What a command or event can do -/

/-- What a command or event other than a register access can make of a state, but for the root table's return in STARTING: a change of the
blocks that only a RUNNING engine makes, on its own or after a change of a peer's levels; an engine fault while RUNNING; or nothing. -/
inductive Reaches (s : State) : State → Prop
  | runs (f : Device → Device) : Reaches s (s.whenRunning f)
  | driven (p : PortId) (lines : PeerLines → PeerLines) (f : Device → Device) : Reaches s ((s.drive p lines).whenRunning f)
  | faults (running : s.engine = .running) {cause : EngineFault} (real : cause ≠ .clear) : Reaches s (s.engineFault cause)
  | same : Reaches s s

theorem rootTableReadDone_reaches (settled : s.engine ≠ .starting) (id : Nat) (reply : ReadReply) :
    ∃ t, exec (.rootTableReadDone id reply) s = .next t ∧ Reaches s t := by
  refine ⟨s, ?_, .same⟩
  change execRootTableReadDone id reply s = _
  unfold execRootTableReadDone
  split
  · contradiction
  · rfl

theorem commandFetchDone_reaches (id : Nat) (reply : ReadReply) (s : State) :
    ∃ t, exec (.commandFetchDone id reply) s = .next t ∧ Reaches s t := by
  change ∃ t, execCommandFetchDone id reply s = _ ∧ _
  unfold execCommandFetchDone
  split
  · next running _ =>
    split
    · cases reply with
      | busError a => exact ⟨_, rfl, .faults running (by decide)⟩
      | data bytes =>
        refine ⟨_, rfl, ?_⟩
        split
        · exact .runs _
        · exact .same
    · exact ⟨_, rfl, .same⟩
  · exact ⟨_, rfl, .same⟩

theorem ringFault_ne_clear (r : RingId) : ringFault r ≠ .clear := by
  unfold ringFault
  split <;> decide

theorem recordWriteDone_reaches (id : Nat) (reply : WriteReply) (s : State) :
    ∃ t, exec (.recordWriteDone id reply) s = .next t ∧ Reaches s t := by
  change ∃ t, execRecordWriteDone id reply s = _ ∧ _
  unfold execRecordWriteDone
  split
  · next running _ =>
    split
    · cases reply with
      | accepted => exact ⟨_, rfl, .runs _⟩
      | busError a => exact ⟨_, rfl, .faults running (ringFault_ne_clear _)⟩
    · exact ⟨_, rfl, .same⟩
  · exact ⟨_, rfl, .same⟩

/-- An edge of a peer's line acts only as a change of its level. -/
theorem edge_reaches {i : Instr} {p : PortId} {lines : PeerLines → PeerLines} {f : Device → Device} (moves : Prop) [Decidable moves]
    (edge : exec i s = if moves then .next ((s.drive p lines).event f) else .next s) :
    ∃ t, exec i s = .next t ∧ Reaches s t := by
  rw [edge]
  split
  · exact ⟨_, rfl, .driven p lines _⟩
  · exact ⟨_, rfl, .same⟩

/-- The same, for an edge whose test is for the level it brings. -/
theorem edge_reaches_unless {i : Instr} {p : PortId} {lines : PeerLines → PeerLines} {f : Device → Device} (stands : Prop)
    [Decidable stands] (edge : exec i s = if stands then .next s else .next ((s.drive p lines).event f)) :
    ∃ t, exec i s = .next t ∧ Reaches s t :=
  edge_reaches (¬ stands) (by rw [edge, ite_not])

/-- What every command and event but the register accesses can do. -/
theorem exec_reaches {i : Instr} (event : isRegisterAccess i = false)
    (settled : s.engine = .starting → ∀ id reply, i ≠ .rootTableReadDone id reply) : ∃ t, exec i s = .next t ∧ Reaches s t := by
  cases i
  case hardwareReset | start | halt | intmaskWrite | registerWrite => cases event
  case rootTableReadDone id reply =>
    exact rootTableReadDone_reaches (fun starting => settled starting id reply rfl) id reply
  case commandFetchDone id reply => exact commandFetchDone_reaches id reply s
  case recordWriteDone id reply => exact recordWriteDone_reaches id reply s
  case peerByteOffered p byte => exact edge_reaches_unless _ rfl
  case owniRise p => exact edge_reaches_unless _ rfl
  case peerByteReturned p => exact edge_reaches _ rfl
  case engiFall p => exact edge_reaches _ rfl
  case owniFall p => exact edge_reaches _ rfl
  case engagement | engiRise | reqiRise | reqiFall => exact ⟨_, rfl, .driven _ _ _⟩
  all_goals exact ⟨_, rfl, .runs _⟩

/-! ## Outside RUNNING (R175, R176, R178) -/

/-- The levels a peer drives are all that a change of them changes. -/
theorem drive_unlined (s : State) (p : PortId) (lines : PeerLines → PeerLines) : (s.drive p lines).dev.unlined = s.dev.unlined := by
  simp only [Device.unlined, State.drive, Device.modPort, Device.mk.injEq, true_and, and_true]
  exact map_set_eq _ _ _ _ rfl

theorem Reaches.outside_running (reaches : Reaches s t) (stopped : s.engine ≠ .running) :
    s.sameRegisters t ∧ t.dev.unlined = s.dev.unlined := by
  cases reaches with
  | runs f =>
    rw [whenRunning_not stopped]
    exact ⟨⟨rfl, rfl, rfl, rfl, rfl, rfl⟩, rfl⟩
  | driven p lines f =>
    have stopped' : (s.drive p lines).engine ≠ .running := stopped
    rw [whenRunning_not stopped']
    exact ⟨⟨rfl, rfl, rfl, rfl, rfl, rfl⟩, drive_unlined s p lines⟩
  | faults running => contradiction
  | same => exact ⟨⟨rfl, rfl, rfl, rfl, rfl, rfl⟩, rfl⟩

/-- Settles O12: what a command or event changes beyond the levels, it changes while RUNNING. -/
theorem nothingActsOutsideRunning : Obligations.NothingActsOutsideRunning := by
  intro i s stopped event settled
  obtain ⟨t, becomes, reaches⟩ := exec_reaches event settled
  exact ⟨t, becomes, reaches.outside_running stopped⟩

/-! ## The engine law and the root law (R172, R176 to R178) -/

/-! ### What the engine law asks in each engine state -/

theorem engineLaw_halted (halted : s.engine = .halted) (clear : s.cause = .clear) (idle : s.dev.requests = []) : EngineLaw s := by
  simp [EngineLaw, halted, clear, idle]

theorem engineLaw_starting (starting : s.engine = .starting) (clear : s.cause = .clear)
    (table : ∀ r ∈ s.dev.requests, r.access = .rootTable) : EngineLaw s := by
  simpa [EngineLaw, starting, clear] using table

/-- No access is barred in RUNNING. -/
theorem engineLaw_running (running : s.engine = .running) (clear : s.cause = .clear) : EngineLaw s := by
  simp [EngineLaw, running, clear]

theorem engineLaw_faulted (faulted : s.engine = .faulted) (real : s.cause ≠ .clear) (idle : s.dev.requests = []) : EngineLaw s := by
  simp [EngineLaw, faulted, real, idle]

/-- No fault cause stands outside FAULTED. -/
theorem cause_clear (law : EngineLaw s) (sound : s.engine ≠ .faulted) : s.cause = .clear := by
  obtain ⟨_, _, fault⟩ := law
  exact not_not.mp (mt fault.mpr sound)

/-- HALTED has no memory access. -/
theorem requests_halted (law : EngineLaw s) (halted : s.engine = .halted) : s.dev.requests = [] := by
  obtain ⟨idle, _, _⟩ := law
  exact idle (.inl halted)

/-! ### Every command and event but the register accesses and the root table's return -/

/-- A step keeps the engine law and the root law. -/
def KeepsLaws (s t : State) : Prop := EngineLaw s → RootLaw s → EngineLaw t ∧ RootLaw t

theorem KeepsLaws.refl (s : State) : KeepsLaws s s := fun law root => ⟨law, root⟩

/-- A change of the blocks that only a RUNNING engine makes is no matter of the laws. -/
theorem whenRunning_keepsLaws (s : State) (f : Device → Device) : KeepsLaws s (s.whenRunning f) := by
  intro law root
  by_cases running : s.engine = .running
  · have clear : s.cause = .clear := cause_clear law (by rw [running]; decide)
    rw [whenRunning_eq running]
    exact ⟨engineLaw_running running clear, root⟩
  · rw [whenRunning_not running]
    exact ⟨law, root⟩

theorem drive_keepsLaws (s : State) (p : PortId) (lines : PeerLines → PeerLines) : KeepsLaws s (s.drive p lines) :=
  fun law root => ⟨law, root⟩

/-- The engine fault abandons every access and keeps its cause (R178). -/
theorem engineFault_keepsLaws (s : State) {cause : EngineFault} (real : cause ≠ .clear) : KeepsLaws s (s.engineFault cause) :=
  fun _ root => ⟨engineLaw_faulted rfl real rfl, root⟩

theorem Reaches.keepsLaws (reaches : Reaches s t) : KeepsLaws s t := by
  cases reaches with
  | runs f => exact whenRunning_keepsLaws s f
  | driven p lines f =>
    intro law root
    obtain ⟨law', root'⟩ := drive_keepsLaws s p lines law root
    exact whenRunning_keepsLaws _ f law' root'
  | faults _ real => exact engineFault_keepsLaws s real
  | same => exact .refl s

/-! ### The root table's return (R173, R174) -/

/-- A good table leads to RUNNING, where no access is barred; a bad one is an engine fault. -/
theorem takeRootTable_keepsLaws (starting : s.engine = .starting) (id : Nat) (bytes : List Byte) :
    KeepsLaws s (s.takeRootTable id bytes) := by
  intro law root
  have clear : s.cause = .clear := cause_clear law (by rw [starting]; decide)
  unfold State.takeRootTable
  dsimp only
  split
  · exact ⟨engineLaw_running rfl clear, root⟩
  · exact ⟨engineLaw_faulted rfl nofun rfl, root⟩

theorem rootTableReadDone_keepsLaws (id : Nat) (reply : ReadReply) (s : State) :
    ∃ t, exec (.rootTableReadDone id reply) s = .next t ∧ KeepsLaws s t := by
  change ∃ t, execRootTableReadDone id reply s = _ ∧ _
  unfold execRootTableReadDone
  split
  · next starting _ =>
    split
    · cases reply with
      | busError a => exact ⟨_, rfl, engineFault_keepsLaws s (by decide)⟩
      | data bytes =>
        refine ⟨_, rfl, ?_⟩
        split
        · exact takeRootTable_keepsLaws starting id bytes
        · exact .refl s
    · exact ⟨_, rfl, .refl s⟩
  · exact ⟨_, rfl, .refl s⟩

/-! ### The register window (R172, R173, R179) -/

theorem haltEngine_keepsLaws (s : State) : KeepsLaws s s.haltEngine :=
  fun _ root => ⟨engineLaw_halted rfl rfl rfl, root⟩

/-- With no access in HALTED, the root table read is the one access of STARTING. -/
theorem startEngine_keepsLaws (s : State) : KeepsLaws s s.startEngine := by
  intro law root
  by_cases halted : s.engine = .halted
  · have clear : s.cause = .clear := cause_clear law (by rw [halted]; decide)
    have idle : s.dev.requests = [] := requests_halted law halted
    rw [startEngine_halted halted]
    refine ⟨engineLaw_starting rfl clear fun r placed => ?_, root⟩
    simp only [Device.place, idle, List.nil_append, List.mem_singleton] at placed
    rw [placed]
  · rw [startEngine_ignored halted]
    exact ⟨law, root⟩

/-- The root law speaks of the low six bits. -/
theorem rootLaw_iff (s : State) : RootLaw s ↔ s.root.setWidth 6 = 0 := by
  rw [RootLaw, ← BitVec.toNat_inj, BitVec.toNat_setWidth]
  rfl

theorem low_extractLsb (a : Address) : (a.extractLsb 31 0).setWidth 6 = a.setWidth 6 := by
  apply BitVec.eq_of_toNat_eq
  simp only [BitVec.toNat_setWidth, BitVec.extractLsb_toNat, Nat.shiftRight_zero]
  omega

/-- The low half is stored aligned, and the high half is stored over a low half that stays. -/
theorem setRoot_keepsLaws (s : State) (high : Bool) (v : Word) : KeepsLaws s (s.setRoot high v) := by
  intro law root
  cases high with
  | false =>
    refine ⟨law, (rootLaw_iff _).mpr ?_⟩
    simp only [State.setRoot, Bool.false_eq_true, if_false, alignedHalf_eq]
    rw [BitVec.setWidth_append, dif_pos (by decide)]
    exact BitVec.setWidth_append_eq_right
  | true =>
    refine ⟨law, (rootLaw_iff _).mpr ?_⟩
    simp only [State.setRoot, if_true]
    rw [BitVec.setWidth_append, dif_pos (by decide), low_extractLsb, (rootLaw_iff s).mp root]

theorem setIntmask_keepsLaws (s : State) (v : Word) : KeepsLaws s (s.setIntmask v) := fun law root => ⟨law, root⟩

theorem registerWrite_keepsLaws (o : BitVec 6) (w : Nat) (v : Word) (s : State) :
    ∃ t, exec (.registerWrite o w v) s = .next t ∧ KeepsLaws s t := by
  by_cases ignored : w ≠ 4 ∨ (o ≠ 0x04 ∧ o ≠ 0x08 ∧ o ≠ 0x0C ∧ o ≠ 0x10 ∧ o ≠ 0x18)
  · exact ⟨s, exec_writeIgnored ignored v s, .refl s⟩
  · obtain ⟨rfl, rfl | rfl | rfl | rfl | rfl⟩ : w = 4 ∧ (o = 0x04 ∨ o = 0x08 ∨ o = 0x0C ∨ o = 0x10 ∨ o = 0x18) := by tauto
    · refine ⟨_, exec_writeCtrl v s, ?_⟩
      split
      · exact haltEngine_keepsLaws s
      · split
        · exact startEngine_keepsLaws s
        · exact .refl s
    · exact ⟨_, exec_writeRootLow v s, setRoot_keepsLaws s false v⟩
    · exact ⟨_, exec_writeRootHigh v s, setRoot_keepsLaws s true v⟩
    · exact ⟨_, exec_writeNotify v s, whenRunning_keepsLaws s _⟩
    · exact ⟨_, exec_writeIntmask v s, setIntmask_keepsLaws s v⟩

/-- Hardware reset is HALT with ROOT cleared. -/
theorem hardwareReset_keepsLaws (s : State) : KeepsLaws s { s.haltEngine with root := 0, intmask := 0 } :=
  fun law root => ⟨(haltEngine_keepsLaws s law root).1, Nat.zero_mod 64⟩

/-! ### Every command and event, and every step -/

theorem exec_keepsLaws (i : Instr) (s : State) : ∃ t, exec i s = .next t ∧ KeepsLaws s t := by
  by_cases event : isRegisterAccess i = false
  · by_cases back : ∃ id reply, i = .rootTableReadDone id reply
    · obtain ⟨id, reply, rfl⟩ := back
      exact rootTableReadDone_keepsLaws id reply s
    · obtain ⟨t, becomes, reaches⟩ := exec_reaches (s := s) event fun _ id reply is => back ⟨id, reply, is⟩
      exact ⟨t, becomes, reaches.keepsLaws⟩
  · cases i
    case hardwareReset => exact ⟨_, rfl, hardwareReset_keepsLaws s⟩
    case start => exact ⟨_, rfl, startEngine_keepsLaws s⟩
    case halt => exact ⟨_, rfl, haltEngine_keepsLaws s⟩
    case intmaskWrite v => exact ⟨_, rfl, setIntmask_keepsLaws s v⟩
    case registerWrite o w v => exact registerWrite_keepsLaws o w v s
    all_goals exact absurd rfl event

/-- A step is the front of the queue taken from a state that differs in the queue alone, or nothing. -/
theorem step_keepsLaws (s : State) : ∃ t, step s = .next t ∧ KeepsLaws s t := by
  unfold step
  split
  · exact ⟨s, rfl, .refl s⟩
  · next i rest _ => exact exec_keepsLaws i { s with pending := rest }

/-- Settles O58: outside RUNNING the blocks are frozen but for the levels, in RUNNING the laws bar no access, and the moves between the
engine states are those of the register window, of the root table's return and of the engine fault. -/
theorem engineAndRootLawsKept : Obligations.EngineAndRootLawsKept := by
  refine ⟨fun i s t law root becomes => ?_, fun s t law root becomes => ?_⟩
  · obtain ⟨u, reached, keeps⟩ := exec_keepsLaws i s
    cases reached.symm.trans becomes
    exact keeps law root
  · obtain ⟨u, reached, keeps⟩ := step_keepsLaws s
    cases reached.symm.trans becomes
    exact keeps law root

end Sys2Proof.EngineStates
end

section
/-! SUPPORT. The step, by what waits in the queue of commands and events (entry 1). -/

namespace Sys2Proof.StepQueue

open Sys2Proof.Machine

variable {s : State} {i : Instr} {rest : List Instr}

/-- The effect is that of `exec` on the state whose queue has lost its front. -/
theorem step_of_pending_cons (front : s.pending = i :: rest) : step s = exec i { s with pending := rest } := by
  rw [step, front]

/-- No timer runs out of itself, so a part with nothing waiting keeps its whole state. -/
theorem step_of_pending_nil (idle : s.pending = []) : step s = .next s := by
  rw [step, idle]

/-- Settles O1, by the two forms of the queue. -/
theorem stepTakesFrontCommand : Obligations.StepTakesFrontCommand :=
  ⟨fun _ _ _ front => step_of_pending_cons front, fun _ idle => step_of_pending_nil idle⟩

end Sys2Proof.StepQueue
end

section
/-! SUPPORT. What the laws of keys and pairs read of the blocks: the role of every channel and the halves of every pair. All operations
but openings and the ends of closes leave it alone (R3, R5, R127). -/

namespace Sys2Proof.ChannelRoles

open Sys2Proof.Machine

variable {d e f : Device} {p : PortId} {n : LinkNumber} {c i : ChannelId}

/-! ## The role of a channel and the halves of a pair -/

/-- Whether a channel is in use, the kind and key it is in use under, and its partner. -/
def role (x : Channel) : Bool × Kind × PortId × LinkNumber × ChannelId := (x.state == .closed, x.kind, x.port, x.number, x.partner)

/-- The two halves a pair record names. -/
def halves (x : RelayPair) : ChannelId × ChannelId := (x.inbound, x.outbound)

/-- The role of every channel and the halves of every pair. -/
def roles (d : Device) : Vector (Bool × Kind × PortId × LinkNumber × ChannelId) 64 × Vector (Option (ChannelId × ChannelId)) 64 :=
  (d.channels.map role, d.relay.pairs.map (Option.map halves))

theorem roles_of_eq (channels : e.channels = d.channels) (pairs : e.relay.pairs = d.relay.pairs) : roles e = roles d := by
  rw [roles, roles, channels, pairs]

theorem role_of_roles (h : roles e = roles d) (c : ChannelId) : role (e.chan c) = role (d.chan c) := by
  have := congrArg (fun r => r.1.get c) h
  simpa only [roles, get_map, Device.chan] using this

theorem pair_of_roles (h : roles e = roles d) (i : ChannelId) : (e.pair i).map halves = (d.pair i).map halves := by
  have := congrArg (fun r => r.2.get i) h
  simpa only [roles, get_map, Device.pair] using this

theorem closed_of_role {x y : Channel} (h : role x = role y) : x.state = .closed ↔ y.state = .closed := by
  have : (x.state == .closed) = (y.state == .closed) := congrArg Prod.fst h
  rw [← beq_iff_eq, this, beq_iff_eq]

theorem role_eq {x y : Channel} (h : role x = role y) :
    x.kind = y.kind ∧ x.port = y.port ∧ x.number = y.number ∧ x.partner = y.partner := by
  simp only [role, Prod.mk.injEq] at h
  exact h.2

/-- The steady part of the blocks holds the roles. -/
theorem roles_of_steady (h : e.steady = d.steady) : roles e = roles d := by
  refine Prod.ext (vector_ext_get fun c => ?_) (by rw [roles, roles, relay_of_steady h])
  have := congrArg role (chan_of_steady h c)
  change role (e.chan c) = role (d.chan c) at this
  simpa only [roles, get_map, Device.chan] using this

/-! ## Changes of one block -/

@[simp] theorem roles_modChan {g : Channel → Channel} (h : role (g (d.chan c)) = role (d.chan c)) : roles (d.modChan c g) = roles d :=
  Prod.ext (map_set_eq _ _ _ _ h) rfl

@[simp] theorem roles_modPort (g : Port → Port) : roles (d.modPort p g) = roles d := rfl

@[simp] theorem roles_modIn (g : InHalf → InHalf) : roles (d.modIn p n g) = roles d := rfl

@[simp] theorem roles_modOut (g : OutHalf → OutHalf) : roles (d.modOut p n g) = roles d := rfl

@[simp] theorem roles_countPort (g : PortCounters → PortCounters) : roles (d.countPort p g) = roles d := rfl

@[simp] theorem roles_modRing (r : RingId) (g : Ring → Ring) : roles (d.modRing r g) = roles d := rfl

@[simp] theorem roles_modCu (g : CommandUnit → CommandUnit) : roles (d.modCu g) = roles d := rfl

@[simp] theorem roles_place (a : Access) (b : Address) (k : Nat) (l : List Byte) : roles (d.place a b k l) = roles d := rfl

@[simp] theorem roles_returned (k : Nat) : roles (d.returned k) = roles d := rfl

@[simp] theorem roles_modBuffer (b : Nat) (g : Buffer → Buffer) : roles (d.modBuffer b g) = roles d := rfl

@[simp] theorem roles_modOutMsg (g : OutMessage → OutMessage) : roles (d.modOutMsg c g) = roles d := roles_modChan rfl

@[simp] theorem roles_modInMsg (g : InMessage → InMessage) : roles (d.modInMsg c g) = roles d := roles_modChan rfl

@[simp] theorem roles_countChan (g : ChannelCounters → ChannelCounters) : roles (d.countChan c g) = roles d := roles_modChan rfl

/-- A change of the Relay Unit but of its pair records. -/
@[simp] theorem roles_modRelay {g : RelayUnit → RelayUnit} (h : (g d.relay).pairs = d.relay.pairs) : roles (d.modRelay g) = roles d :=
  roles_of_eq rfl h

@[simp] theorem roles_countRelay (g : RelayCounters → RelayCounters) : roles (d.countRelay c g) = roles d := rfl

/-- A change of a pair record that keeps its halves. -/
@[simp] theorem roles_modPair {g : RelayPair → RelayPair} (inbound : ∀ x, (g x).inbound = x.inbound)
    (outbound : ∀ x, (g x).outbound = x.outbound) : roles (d.modPair i g) = roles d := by
  refine Prod.ext rfl (map_set_eq _ _ _ _ ?_)
  change ((d.pair i).map g).map halves = (d.pair i).map halves
  cases d.pair i with
  | none => rfl
  | some x => exact congrArg some (Prod.ext (inbound x) (outbound x))

/-- A fold of changes that keep the roles keeps them. -/
theorem roles_foldl {β : Type} {g : Device → β → Device} (h : ∀ d b, roles (g d b) = roles d) (l : List β) (d : Device) :
    roles (l.foldl g d) = roles d := foldl_keeps roles g h l d

/-! ## Notices and the deferred list -/

@[simp] theorem roles_post (r : RingId) (b : RecordBody) : roles (d.post r b) = roles d := rfl

@[simp] theorem roles_postCompletion (b : Completion) : roles (d.postCompletion b) = roles d := rfl

@[simp] theorem roles_commandDone (s : Byte) (t : Half) (r : Result) (k : Nat) : roles (d.commandDone s t r k) = roles d := rfl

@[simp] theorem roles_defer (w : DeferredWork) (t : Half) (s : Byte) : roles (d.defer w t s) = roles d := rfl

@[simp] theorem roles_asyncNotice (b : NoticeBody) : roles (d.asyncNotice b) = roles d := by
  unfold Device.asyncNotice
  split <;> rfl

@[simp] theorem roles_badNotify (k : Nat) (x : BitVec 12) : roles (d.badNotify k x) = roles d := roles_asyncNotice _

@[simp] theorem roles_completeDeferred (s : DeferredWork → Bool) (r : Result) (k : Nat) : roles (d.completeDeferred s r k) = roles d := by
  unfold Device.completeDeferred
  split
  · rfl
  · unfold Device.weighBarriers
    exact roles_foldl (g := fun e (b : Deferred) => e.commandDone b.subject b.tag .ok 0) (fun _ _ => rfl) _ _

@[simp] theorem roles_completeDisable (r : Result) (k : Nat) : roles (d.completeDisable p r k) = roles d := roles_completeDeferred _ _ _

/-! ## The Link Map -/

@[simp] theorem roles_runGenerator : roles (d.runGenerator p n) = roles d := roles_of_steady (runGenerator_steady _ _ _)

@[simp] theorem roles_runGenerators : roles (d.runGenerators p) = roles d := roles_foldl (fun _ _ => roles_runGenerator) _ _

@[simp] theorem roles_releaseCredits (o : Option ChannelId) (k : Nat) : roles (d.releaseCredits o k) = roles d :=
  roles_of_steady (releaseCredits_steady _ _ _)

@[simp] theorem roles_returnCredits : roles (d.returnCredits p) = roles d := roles_foldl (fun _ _ => roles_releaseCredits _ _) _ _

@[simp] theorem roles_requestRevoke : roles (d.requestRevoke p n) = roles d := by
  unfold Device.requestRevoke
  dsimp only
  repeat' split
  all_goals simp [Device.unwait]

@[simp] theorem roles_requestAbandon : roles (d.requestAbandon p n) = roles d := by
  unfold Device.requestAbandon
  split <;> rfl

@[simp] theorem roles_dropAbandon : roles (d.dropAbandon p n) = roles d := rfl

@[simp] theorem roles_delist : roles (d.delist c) = roles d := rfl

/-! ## Sending -/

@[simp] theorem roles_fetchRecords : roles (d.fetchRecords c) = roles d := by
  unfold Device.fetchRecords
  dsimp only
  split
  · exact roles_modChan rfl
  · rfl

@[simp] theorem roles_startNext : roles (d.startNext c) = roles d := by
  unfold Device.startNext
  dsimp only
  repeat' split
  · exact roles_modOutMsg _
  · exact roles_modOutMsg _
  · rfl

@[simp] theorem roles_withdrawRequest : roles (d.withdrawRequest c) = roles d := by
  unfold Device.withdrawRequest
  split
  · exact roles_modOutMsg _
  · rfl

@[simp] theorem roles_unstage : roles (d.unstage c) = roles d := rfl

@[simp] theorem roles_completeSend (s : Status) (k : Nat) : roles (d.completeSend c s k) = roles d := by
  unfold Device.completeSend
  dsimp only
  split
  · rfl
  · rw [roles_fetchRecords, roles_startNext, roles_modChan rfl]
    rfl

@[simp] theorem roles_setBack : roles (d.setBack c) = roles d := by simp [Device.setBack]

@[simp] theorem roles_issueInbound : roles (d.issueInbound p) = roles d := by
  have issued := LinkBytes.issueInbound_issued d p
  exact roles_of_eq issued.channels issued.pairs

/-! ## Relaying -/

@[simp] theorem roles_returnCell (k : CellId) : roles (d.returnCell i k) = roles d :=
  roles_runGenerator.trans (roles_modPair (fun _ => rfl) fun _ => rfl)

@[simp] theorem roles_refreshPhase : roles (d.refreshPhase i) = roles d := by
  unfold Device.refreshPhase
  split
  · rfl
  · exact roles_modOutMsg _

@[simp] theorem roles_popQueue : roles (d.popQueue i) = roles d := by
  unfold Device.popQueue
  split
  · rfl
  · split
    · rfl
    · simp

@[simp] theorem roles_cancelCell (k : CellId) : roles (d.cancelCell i k) = roles d := rfl

@[simp] theorem roles_giveUpCell (k : CellId) : roles (d.giveUpCell i k) = roles d := by simp [Device.giveUpCell]

@[simp] theorem roles_giveUpHead : roles (d.giveUpHead i) = roles d := by
  unfold Device.giveUpHead
  split
  · rfl
  · simp

@[simp] theorem roles_startCell : roles (d.startCell i) = roles d := by
  unfold Device.startCell
  split
  · rfl
  · split
    · exact roles_modInMsg _
    · simp

@[simp] theorem roles_giveUpFilling : roles (d.giveUpFilling i) = roles d := by
  unfold Device.giveUpFilling
  split
  · rfl
  · simp

@[simp] theorem roles_queueFilling (k : Nat) : roles (d.queueFilling i k) = roles d := by
  unfold Device.queueFilling
  repeat' split
  · rfl
  · rfl
  · simp
  · simp

@[simp] theorem roles_relayEndComplete : roles (d.relayEndComplete i) = roles d := by
  unfold Device.relayEndComplete
  dsimp only
  split <;> simp

@[simp] theorem roles_relayEndAbandon : roles (d.relayEndAbandon i) = roles d := by simp [Device.relayEndAbandon]

@[simp] theorem roles_relayInboundLost : roles (d.relayInboundLost i) = roles d := by simp [Device.relayInboundLost]

@[simp] theorem roles_relayOutboundLost : roles (d.relayOutboundLost c) = roles d := by
  unfold Device.relayOutboundLost
  dsimp only
  split <;> simp

@[simp] theorem roles_returnEntries (l : List RelayEntry) : roles (d.returnEntries i l) = roles d :=
  roles_foldl (fun _ _ => roles_giveUpCell _) l d

@[simp] theorem roles_cutPair : roles (d.cutPair i) = roles d := by
  unfold Device.cutPair
  split
  · rfl
  · simp

@[simp] theorem roles_abandonQueue : roles (d.abandonQueue i) = roles d := by
  unfold Device.abandonQueue
  split
  · rfl
  · simp

/-! ## Receiving -/

@[simp] theorem roles_takeBuffer (m : Nat) : roles (d.takeBuffer c m) = roles d := by
  unfold Device.takeBuffer
  split
  · exact roles_modInMsg _
  · exact roles_modInMsg _

@[simp] theorem roles_startBuffer : roles (d.startBuffer c) = roles d := by simp [Device.startBuffer]

@[simp] theorem roles_postInbound (s : Status) (k : Nat) (b : Bool) : roles (d.postInbound c s k b) = roles d := by
  unfold Device.postInbound
  dsimp only
  split
  · rfl
  · rw [roles_fetchRecords, roles_modChan rfl, roles_postCompletion]

@[simp] theorem roles_endInbound (s : Status) (k : Nat) : roles (d.endInbound c s k) = roles d := by simp [Device.endInbound]

@[simp] theorem roles_dropStaged (g : Buffer → Bool) : roles (d.dropStaged p g) = roles d := rfl

@[simp] theorem roles_dropMessage : roles (d.dropMessage c) = roles d := rfl

@[simp] theorem roles_cutInbound (s : Status) : roles (d.cutInbound c s) = roles d := by simp [Device.cutInbound]

@[simp] theorem roles_faultInbound : roles (d.faultInbound c) = roles d := by
  unfold Device.faultInbound
  dsimp only
  rw [roles_endInbound]
  split <;> rfl

@[simp] theorem roles_countTotal : roles (d.countTotal c) = roles d := roles_modInMsg _

@[simp] theorem roles_setMode (m : InMode) : roles (d.setMode c m) = roles d := roles_modInMsg _

@[simp] theorem roles_stageByte (b : Byte) : roles (d.stageByte c b) = roles d := by
  unfold Device.stageByte
  dsimp only
  split
  · exact roles_countTotal
  · rw [roles_countTotal, roles_modInMsg]
    split <;> rfl

@[simp] theorem roles_overflowBuffer (b : Byte) : roles (d.overflowBuffer c b) = roles d := by
  unfold Device.overflowBuffer
  dsimp only
  repeat' split
  all_goals simp [Device.reserve]

@[simp] theorem roles_overflowCell : roles (d.overflowCell c) = roles d := by
  unfold Device.overflowCell
  split <;> simp

@[simp] theorem roles_placeByte (b : Byte) : roles (d.placeByte c b) = roles d := by
  unfold Device.placeByte
  dsimp only
  repeat' split
  all_goals simp

@[simp] theorem roles_placeRun (b : Byte) (k : Nat) (d : Device) : roles (Device.placeRun c b k d) = roles d := by
  induction k generalizing d with
  | zero => rfl
  | succ k ih => exact (ih _).trans (roles_placeByte b)

/-! ## Losses and what a port's going down begins with -/

@[simp] theorem roles_inboundLost : roles (d.inboundLost c) = roles d := by
  unfold Device.inboundLost
  split <;> simp

@[simp] theorem roles_discardReads : roles (d.discardReads c) = roles d := rfl

@[simp] theorem roles_outboundLost : roles (d.outboundLost c) = roles d := by
  unfold Device.outboundLost
  dsimp only
  repeat' split
  all_goals simp

@[simp] theorem roles_reportLoss : roles (Device.reportLoss p d n) = roles d := by
  unfold Device.reportLoss
  dsimp only
  repeat' split
  all_goals simp

@[simp] theorem roles_emptyStaging : roles (d.emptyStaging p) = roles d := by
  have placed : ∀ (d : Device) b, roles (d.keepQueued b) = roles d := fun d b => by
    unfold Device.keepQueued
    repeat' split
    all_goals rfl
  exact roles_foldl placed _ _

end Sys2Proof.ChannelRoles
end

section
/-! SUPPORT. The laws of keys and pairs under the operations that open and close channels and pairs (R3, R5, R16, R127, R140). -/

namespace Sys2Proof.ChannelRoles

open Sys2Proof.Machine

variable {d e f : Device} {p : PortId} {n : LinkNumber} {c i o : ChannelId} {x : RelayPair}

/-- The keys of the channels in use are apart, and the pairs are whole. -/
structure Lawful (d : Device) : Prop where
  keys : KeyLaw d
  pairs : PairLaw d

/-! ## What the laws say -/

theorem isOutbound_eq {x y : Channel} (h : role x = role y) : x.isOutbound = y.isOutbound := by
  rw [Channel.isOutbound, Channel.isOutbound, (role_eq h).1]

/-- A channel has the key of another. -/
def sameKey (x y : Channel) : Prop := x.port = y.port ∧ x.number = y.number ∧ x.isOutbound = y.isOutbound

theorem sameKey_of_role {x y x' y' : Channel} (hx : role x = role x') (hy : role y = role y') (h : sameKey x y) : sameKey x' y' := by
  obtain ⟨-, port, number, -⟩ := role_eq hx
  obtain ⟨-, port', number', -⟩ := role_eq hy
  rw [sameKey, port, number, isOutbound_eq hx, port', number', isOutbound_eq hy] at h
  exact h

theorem keyLaw_iff : KeyLaw d ↔
    ∀ a b, (d.chan a).state ≠ .closed → (d.chan b).state ≠ .closed → sameKey (d.chan a) (d.chan b) → a = b :=
  ⟨fun law a b ha hb ⟨port, number, way⟩ => law a b ha hb port number way,
    fun law a b ha hb port number way => law a b ha hb ⟨port, number, way⟩⟩

/-- The pair of an inbound index, as the pair law has it. -/
structure PairOf (d : Device) (i o : ChannelId) : Prop where
  inKind : (d.chan i).kind = .relayIn
  inPartner : (d.chan i).partner = o
  inUse : (d.chan i).state ≠ .closed
  outKind : (d.chan o).kind = .relayOut
  outPartner : (d.chan o).partner = i
  outUse : (d.chan o).state ≠ .closed

theorem PairOf.ne (h : PairOf d i o) : i ≠ o := by
  rintro rfl
  have := h.inKind.symm.trans h.outKind
  cases this

/-- A pair keeps standing between two channels whose roles stay. -/
theorem PairOf.of_role (h : PairOf d i o) (hi : role (e.chan i) = role (d.chan i)) (ho : role (e.chan o) = role (d.chan o)) :
    PairOf e i o := by
  obtain ⟨inKind, -, -, inPartner⟩ := role_eq hi
  obtain ⟨outKind, -, -, outPartner⟩ := role_eq ho
  exact ⟨inKind.trans h.inKind, inPartner.trans h.inPartner, mt (closed_of_role hi).mp h.inUse, outKind.trans h.outKind,
    outPartner.trans h.outPartner, mt (closed_of_role ho).mp h.outUse⟩

theorem pairLaw_iff : PairLaw d ↔
    (∀ i x, d.pair i = some x → x.inbound = i ∧ PairOf d i x.outbound) ∧
      (∀ c, (d.chan c).kind = .relayIn → (d.chan c).state ≠ .closed → ∃ x, d.pair c = some x) ∧
        ∀ c, (d.chan c).kind = .relayOut → (d.chan c).state ≠ .closed → ∃ x, d.pair (d.chan c).partner = some x ∧ x.outbound = c := by
  refine and_congr_left fun _ => forall_congr' fun i => forall_congr' fun x => imp_congr_right fun _ => and_congr_right fun _ => ?_
  exact ⟨fun ⟨a, b, c, d, e, f⟩ => ⟨a, b, c, d, e, f⟩, fun ⟨a, b, c, d, e, f⟩ => ⟨a, b, c, d, e, f⟩⟩

theorem Lawful.inbound (law : Lawful d) (h : d.pair i = some x) : x.inbound = i := ((pairLaw_iff.mp law.pairs).1 i x h).1

theorem Lawful.pairOf (law : Lawful d) (h : d.pair i = some x) : PairOf d i x.outbound := ((pairLaw_iff.mp law.pairs).1 i x h).2

theorem Lawful.pair_of_in (law : Lawful d) (kind : (d.chan c).kind = .relayIn) (use : (d.chan c).state ≠ .closed) :
    ∃ x, d.pair c = some x := (pairLaw_iff.mp law.pairs).2.1 c kind use

theorem Lawful.pair_of_out (law : Lawful d) (kind : (d.chan c).kind = .relayOut) (use : (d.chan c).state ≠ .closed) :
    ∃ x, d.pair (d.chan c).partner = some x ∧ x.outbound = c := (pairLaw_iff.mp law.pairs).2.2 c kind use

/-- A pair record read through its halves alone. -/
theorem pair_halves {a b : Option RelayPair} (h : a.map halves = b.map halves) {x : RelayPair} (hx : a = some x) :
    ∃ y, b = some y ∧ y.inbound = x.inbound ∧ y.outbound = x.outbound := by
  subst hx
  obtain ⟨y, hy, same⟩ := Option.map_eq_some_iff.mp h.symm
  simp only [halves, Prod.mk.injEq] at same
  exact ⟨y, hy, same⟩

/-- The channels in use keep their roles. -/
theorem keyLaw_of_fewer (law : KeyLaw d) (kept : ∀ k, (e.chan k).state ≠ .closed → role (e.chan k) = role (d.chan k)) : KeyLaw e := by
  refine keyLaw_iff.mpr fun a b ha hb same => ?_
  have ra := kept a ha
  have rb := kept b hb
  exact keyLaw_iff.mp law a b (mt (closed_of_role ra).mpr ha) (mt (closed_of_role rb).mpr hb) (sameKey_of_role ra rb same)

/-- A channel comes into use under a key that no other channel in use has. -/
theorem keyLaw_of_opening (law : KeyLaw d) (others : ∀ k, k ≠ c → role (e.chan k) = role (d.chan k))
    (free : ∀ k, k ≠ c → (d.chan k).state ≠ .closed → ¬ sameKey (d.chan k) (e.chan c)) : KeyLaw e := by
  have alone : ∀ k, k ≠ c → (e.chan k).state ≠ .closed → ¬ sameKey (e.chan k) (e.chan c) := fun k hk use same =>
    free k hk (mt (closed_of_role (others k hk)).mpr use) (sameKey_of_role (others k hk) rfl same)
  refine keyLaw_iff.mpr fun a b ha hb same => ?_
  by_cases hac : a = c <;> by_cases hbc : b = c
  · rw [hac, hbc]
  · subst hac
    obtain ⟨port, number, way⟩ := same
    exact absurd ⟨port.symm, number.symm, way.symm⟩ (alone b hbc hb)
  · subst hbc
    exact absurd same (alone a hac ha)
  · exact keyLaw_iff.mp law a b (mt (closed_of_role (others a hac)).mpr ha) (mt (closed_of_role (others b hbc)).mpr hb)
      (sameKey_of_role (others a hac) (others b hbc) same)

/-- A channel that is no relay half, before and after, opens or closes beside the pairs. -/
theorem pairLaw_beside (law : Lawful d) (before : (d.chan c).isRelay = false ∨ (d.chan c).state = .closed)
    (after : (e.chan c).isRelay = false) (others : ∀ k, k ≠ c → role (e.chan k) = role (d.chan k))
    (pairs : ∀ i, (e.pair i).map halves = (d.pair i).map halves) : PairLaw e := by
  have apart : ∀ {k x}, d.pair k = some x → k ≠ c ∧ x.outbound ≠ c := fun {k x} h => by
    have pair := law.pairOf h
    constructor <;> rintro rfl <;> rcases before with host | closed
    · simp [Channel.isRelay, pair.inKind] at host
    · exact pair.inUse closed
    · simp [Channel.isRelay, pair.outKind] at host
    · exact pair.outUse closed
  have elsewhere : ∀ {k}, (e.chan k).isRelay = true → k ≠ c := by
    rintro k relay rfl
    rw [after] at relay
    cases relay
  refine pairLaw_iff.mpr ⟨fun k x h => ?_, fun k kind use => ?_, fun k kind use => ?_⟩
  · obtain ⟨y, hy, inbound, outbound⟩ := pair_halves (pairs k) h
    obtain ⟨hk, ho⟩ := apart hy
    rw [← inbound, ← outbound]
    exact ⟨law.inbound hy, (law.pairOf hy).of_role (others k hk) (others _ ho)⟩
  · have same := others k (elsewhere (by simp [Channel.isRelay, kind]))
    obtain ⟨y, hy⟩ := law.pair_of_in ((role_eq same).1.symm.trans kind) (mt (closed_of_role same).mpr use)
    obtain ⟨x, hx, -⟩ := pair_halves (pairs k).symm hy
    exact ⟨x, hx⟩
  · have same := others k (elsewhere (by simp [Channel.isRelay, kind]))
    obtain ⟨y, hy, own⟩ := law.pair_of_out ((role_eq same).1.symm.trans kind) (mt (closed_of_role same).mpr use)
    obtain ⟨x, hx, -, outbound⟩ := pair_halves (pairs _).symm hy
    rw [(role_eq same).2.2.2]
    exact ⟨x, hx, outbound.trans own⟩

theorem Lawful.of_roles (law : Lawful d) (h : roles e = roles d) : Lawful e := by
  have chans := role_of_roles h
  have pairs := pair_of_roles h
  refine ⟨keyLaw_of_fewer law.keys fun k _ => chans k, pairLaw_iff.mpr ⟨fun k x hx => ?_, fun k kind use => ?_, fun k kind use => ?_⟩⟩
  · obtain ⟨y, hy, inbound, outbound⟩ := pair_halves (pairs k) hx
    rw [← inbound, ← outbound]
    exact ⟨law.inbound hy, (law.pairOf hy).of_role (chans _) (chans _)⟩
  · obtain ⟨y, hy⟩ := law.pair_of_in ((role_eq (chans k)).1.symm.trans kind) (mt (closed_of_role (chans k)).mpr use)
    obtain ⟨x, hx, -⟩ := pair_halves (pairs k).symm hy
    exact ⟨x, hx⟩
  · obtain ⟨y, hy, own⟩ := law.pair_of_out ((role_eq (chans k)).1.symm.trans kind) (mt (closed_of_role (chans k)).mpr use)
    obtain ⟨x, hx, -, outbound⟩ := pair_halves (pairs _).symm hy
    rw [(role_eq (chans k)).2.2.2]
    exact ⟨x, hx, outbound.trans own⟩

/-- A channel in use that moves to another state in use keeps its role. -/
theorem roles_moved {g : Channel → Channel} (use : (d.chan c).state ≠ .closed) (moved : (g (d.chan c)).state ≠ .closed)
    (kept : (role (g (d.chan c))).2 = (role (d.chan c)).2) : roles (d.modChan c g) = roles d := by
  refine roles_modChan (Prod.ext ?_ kept)
  change ((g (d.chan c)).state == .closed) = ((d.chan c).state == .closed)
  rw [beq_eq_false_iff_ne.mpr use, beq_eq_false_iff_ne.mpr moved]

theorem use_of_roles (h : roles e = roles d) (use : (d.chan c).state ≠ .closed) : (e.chan c).state ≠ .closed :=
  mt (closed_of_role (role_of_roles h c)).mp use

/-! ## Reaching CLOSED (R16, R140) -/

/-- The contexts as one reaches CLOSED. -/
theorem clearContext_chan (d : Device) (c k : ChannelId) :
    (d.clearContext c).chan k =
      if c = k then { Channel.cleared with kind := (d.chan c).kind, counters := (d.chan c).counters } else d.chan k := by
  unfold Device.clearContext
  dsimp only
  have before : ∀ (a : Device) (r : RingId) (q : Requester), (((a.unwait r q).unbind c).delist c).chan k = a.chan k := fun a r q => by
    unfold Device.unbind
    dsimp only
    split <;> rfl
  have unbound : ∀ (a : Device) (r : RingId) (q : Requester), (((a.unwait r q).unbind c).delist c).chan c = a.chan c := fun a r q => by
    unfold Device.unbind
    dsimp only
    split <;> rfl
  rw [chan_modChan, before, unbound]
  split <;> split <;> rfl

theorem clearContext_relay (d : Device) (c : ChannelId) : (d.clearContext c).relay = d.relay := by
  unfold Device.clearContext Device.unbind
  dsimp only
  split <;> split <;> rfl

/-- A context cleared is out of use, and no other changes. -/
theorem clearContext_closed (d : Device) (c : ChannelId) : ((d.clearContext c).chan c).state = .closed := by
  rw [clearContext_chan, if_pos rfl]
  rfl

theorem clearContext_kind (d : Device) (c : ChannelId) : ((d.clearContext c).chan c).kind = (d.chan c).kind := by
  rw [clearContext_chan, if_pos rfl]

theorem clearContext_other (d : Device) {k : ChannelId} (h : k ≠ c) : (d.clearContext c).chan k = d.chan k := by
  rw [clearContext_chan, if_neg (Ne.symm h)]

theorem Lawful.finishChannel (law : Lawful d) (host : (d.chan c).isRelay = false) : Lawful (d.finishChannel c) := by
  have told : roles (d.completeDeferred (isClose c) .ok (d.chan c).retire) = roles d := roles_completeDeferred _ _ _
  have others : ∀ k, k ≠ c → role ((d.finishChannel c).chan k) = role (d.chan k) := fun k hk => by
    rw [Device.finishChannel, clearContext_other _ hk, role_of_roles told]
  refine ⟨keyLaw_of_fewer law.keys fun k use => others k ?_, pairLaw_beside law (.inl host) ?_ others fun j => ?_⟩
  · rintro rfl
    exact use (clearContext_closed _ _)
  · rw [Device.finishChannel, Channel.isRelay, clearContext_kind, (role_eq (role_of_roles told c)).1]
    exact host
  · rw [Device.finishChannel, Device.pair, clearContext_relay]
    exact pair_of_roles told j

/-- The contexts as a pair reaches CLOSED: its two halves, one after the other. -/
theorem finishPair_chan (d : Device) (x : RelayPair) (k : ChannelId) :
    (d.finishPair x).chan k =
      (((d.completeDeferred (isClose x.inbound) .ok 0).clearContext x.inbound).clearContext x.outbound).chan k := by
  simp only [Device.finishPair, Device.setPair, modRelay_chan]

/-- The pair records as one pair reaches CLOSED. -/
theorem finishPair_pair (d : Device) (x : RelayPair) (j : ChannelId) :
    (d.finishPair x).pair j = if x.inbound = j then none else (d.completeDeferred (isClose x.inbound) .ok 0).pair j := by
  simp only [Device.finishPair, Device.setPair, Device.pair, modRelay_relay, get_set, clearContext_relay]

theorem Lawful.finishPair (law : Lawful d) (stands : d.pair i = some x) : Lawful (d.finishPair x) := by
  obtain rfl := law.inbound stands
  have pair := law.pairOf stands
  have told : roles (d.completeDeferred (isClose x.inbound) .ok 0) = roles d := roles_completeDeferred _ _ _
  have inClosed : ((d.finishPair x).chan x.inbound).state = .closed := by
    rw [finishPair_chan, clearContext_other _ pair.ne]
    exact clearContext_closed _ _
  have outClosed : ((d.finishPair x).chan x.outbound).state = .closed := by
    rw [finishPair_chan]
    exact clearContext_closed _ _
  have others : ∀ k, k ≠ x.inbound → k ≠ x.outbound → role ((d.finishPair x).chan k) = role (d.chan k) := fun k hi ho => by
    rw [finishPair_chan, clearContext_other _ ho, clearContext_other _ hi, role_of_roles told]
  have inUse : ∀ k, ((d.finishPair x).chan k).state ≠ .closed → role ((d.finishPair x).chan k) = role (d.chan k) := fun k use =>
    others k (by rintro rfl; exact use inClosed) (by rintro rfl; exact use outClosed)
  have gone : (d.finishPair x).pair x.inbound = none := by rw [finishPair_pair, if_pos rfl]
  have kept : ∀ j, j ≠ x.inbound → ((d.finishPair x).pair j).map halves = (d.pair j).map halves := fun j hj => by
    rw [finishPair_pair, if_neg (Ne.symm hj)]
    exact pair_of_roles told j
  refine ⟨keyLaw_of_fewer law.keys inUse, pairLaw_iff.mpr ⟨fun j y hy => ?_, fun k kind use => ?_, fun k kind use => ?_⟩⟩
  · have hj : j ≠ x.inbound := by
      rintro rfl
      rw [gone] at hy
      cases hy
    obtain ⟨z, hz, inbound, outbound⟩ := pair_halves (kept j hj) hy
    have other := law.pairOf hz
    have hjo : j ≠ x.outbound := by
      rintro rfl
      have := other.inKind.symm.trans pair.outKind
      cases this
    have hoi : z.outbound ≠ x.inbound := fun same => by
      have := other.outKind.symm.trans (same ▸ pair.inKind)
      cases this
    have hoo : z.outbound ≠ x.outbound := fun same => hj (other.outPartner.symm.trans (same ▸ pair.outPartner))
    rw [← inbound, ← outbound]
    exact ⟨law.inbound hz, other.of_role (others j hj hjo) (others _ hoi hoo)⟩
  · have hk : k ≠ x.inbound := by
      rintro rfl
      exact use inClosed
    have same := inUse k use
    obtain ⟨y, hy⟩ := law.pair_of_in ((role_eq same).1.symm.trans kind) (mt (closed_of_role same).mpr use)
    obtain ⟨z, hz, -⟩ := pair_halves (kept k hk).symm hy
    exact ⟨z, hz⟩
  · have same := inUse k use
    obtain ⟨y, hy, own⟩ := law.pair_of_out ((role_eq same).1.symm.trans kind) (mt (closed_of_role same).mpr use)
    have hk : (d.chan k).partner ≠ x.inbound := fun here => by
      rw [here, stands] at hy
      cases hy
      rw [own] at outClosed
      exact use outClosed
    obtain ⟨z, hz, -, outbound⟩ := pair_halves (kept _ hk).symm hy
    rw [(role_eq same).2.2.2]
    exact ⟨z, hz, outbound.trans own⟩

theorem Lawful.tryClose (law : Lawful d) : Lawful (d.tryClose c) := by
  unfold Device.tryClose
  split
  · split
    · split
      · next stands => exact law.finishPair stands
      · exact law
    · next host => exact law.finishChannel (Bool.eq_false_iff.mpr host)
  · exact law

/-! ## Taking a CLOSE (R9 to R15, R137 to R139) -/

@[simp] theorem roles_askRevoke : roles (d.askRevoke c) = roles d := by
  unfold Device.askRevoke
  rw [roles_modChan rfl, roles_requestRevoke]

@[simp] theorem roles_gracefulOut : roles (d.gracefulOut c) = roles d := by
  unfold Device.gracefulOut
  dsimp only
  split <;> simp

@[simp] theorem roles_gracefulPair : roles (d.gracefulPair x) = roles d := by
  unfold Device.gracefulPair
  dsimp only
  split <;> simp

@[simp] theorem roles_abortOut : roles (d.abortOut c) = roles d := by
  unfold Device.abortOut
  dsimp only
  split <;> simp

@[simp] theorem roles_abandonOpen : roles (d.abandonOpen c) = roles d := roles_requestAbandon

@[simp] theorem roles_abortIn : roles (d.abortIn c) = roles d := by
  unfold Device.abortIn
  dsimp only
  split <;> simp

@[simp] theorem roles_abortPair : roles (d.abortPair x) = roles d := by
  unfold Device.abortPair
  dsimp only
  split <;> simp

@[simp] theorem roles_revokeForAbort (left : ChannelState) : roles (d.revokeForAbort c left) = roles d := by
  unfold Device.revokeForAbort
  repeat' split
  all_goals simp

theorem roles_startClose {st : ChannelState} {m : CloseMode} {t : Half} (use : (d.chan c).state ≠ .closed) (moved : st ≠ .closed) :
    roles (d.startClose c st m t) = roles d := roles_moved use moved rfl

/-- Both halves of a pair move together. -/
theorem roles_startClose_pair {st : ChannelState} {m : CloseMode} {t : Half} (law : Lawful d) (stands : d.pair i = some x)
    (moved : st ≠ .closed) : roles ((d.startClose x.inbound st m t).startClose x.outbound st m t) = roles d := by
  obtain rfl := law.inbound stands
  have pair := law.pairOf stands
  have first := roles_startClose (m := m) (t := t) pair.inUse moved
  rw [roles_startClose (use_of_roles first pair.outUse) moved, first]

theorem Lawful.takeGraceful {tag : Half} {subject : Byte} (law : Lawful d) (use : (d.chan c).state ≠ .closed) :
    Lawful (d.takeGraceful c tag subject) := by
  have deferred : Lawful (d.defer (.close .graceful (d.pairIndex c)) tag subject) := law.of_roles rfl
  have used : ((d.defer (.close .graceful (d.pairIndex c)) tag subject).chan c).state ≠ .closed := use
  unfold Device.takeGraceful
  dsimp only
  split
  · refine (deferred.of_roles ?_).tryClose
    rw [roles_gracefulOut, roles_startClose used (by decide)]
  · refine (deferred.of_roles ?_).tryClose
    rw [roles_askRevoke, roles_startClose used (by decide)]
  · split
    · exact deferred
    · next stands =>
      refine (deferred.of_roles ?_).tryClose
      rw [roles_gracefulPair, roles_startClose_pair deferred stands (by decide)]

theorem Lawful.takeAbort {tag : Half} {subject : Byte} (law : Lawful d) (use : (d.chan c).state ≠ .closed) :
    Lawful (d.takeAbort c tag subject) := by
  have superseded : ∀ a : Device,
      roles ((if (d.chan c).state = .draining then a.completeDeferred (isClose (d.pairIndex c)) .superseded 0 else a).defer
        (.close .abort (d.pairIndex c)) tag subject) = roles a := fun a => by
    rw [roles_defer]
    split
    · exact roles_completeDeferred _ _ _
    · rfl
  unfold Device.takeAbort
  dsimp only
  split
  · refine (law.of_roles ?_).tryClose
    rw [roles_abandonOpen, superseded, roles_abortOut, roles_startClose use (by decide)]
  · refine (law.of_roles ?_).tryClose
    rw [roles_revokeForAbort, superseded, roles_abortIn, roles_startClose use (by decide)]
  · split
    · exact law.of_roles (superseded d)
    · next stands =>
      refine (law.of_roles ?_).tryClose
      rw [roles_abandonOpen, roles_revokeForAbort, superseded, roles_abortPair, roles_startClose_pair law stands (by decide)]

theorem Lawful.decideClose {mode : CloseMode} {tag : Half} {subject : Byte} (law : Lawful d) :
    Lawful (d.decideClose c mode tag subject) := by
  have answered : ∀ r : Result, Lawful (d.commandDone subject tag r 0) := fun r => law.of_roles rfl
  unfold Device.decideClose
  split
  · exact answered _
  · next use => exact law.takeGraceful (by simp [use])
  · next use => exact law.takeAbort (by simp [use])
  · exact answered _
  · next use => exact law.takeAbort (by simp [use])
  · exact answered _
  · exact answered _
  · next use => exact law.takeAbort (by simp [use])

/-! ## Channel faults (R17) -/

@[simp] theorem roles_faultNotices (k : FaultCause) (a : Option Address) : roles (d.faultNotices c k a) = roles d := by
  unfold Device.faultNotices
  dsimp only
  split <;> simp

@[simp] theorem roles_faultOut (k : FaultCause) : roles (d.faultOut c k) = roles d := by
  unfold Device.faultOut
  dsimp only
  repeat' split
  all_goals simp

@[simp] theorem roles_faultIn : roles (d.faultIn c) = roles d := by
  unfold Device.faultIn
  dsimp only
  rw [roles_askRevoke]
  split <;> simp

/-- A fault takes a channel in use to a state in use. -/
theorem roles_channelFault {k : FaultCause} {a : Option Address} (use : (d.chan c).state ≠ .closed) :
    roles (d.channelFault c k a) = roles d := by
  have moved : roles (d.modChan c fun x => { x with state := .faulted, cause := k }) = roles d :=
    roles_moved use (by simp) rfl
  unfold Device.channelFault
  dsimp only
  repeat' split
  · rw [roles_modChan rfl, roles_completeDeferred, roles_faultNotices, roles_faultIn, moved]
  · rw [roles_modChan rfl, roles_completeDeferred, roles_faultNotices, roles_faultOut, moved]
  · rw [roles_faultNotices, roles_faultIn, moved]
  · rw [roles_faultNotices, roles_faultOut, moved]

@[simp] theorem roles_abortingFault (k : FaultCause) (a : Address) : roles (d.abortingFault c k a) = roles d := by
  unfold Device.abortingFault
  rw [roles_faultNotices, roles_modChan rfl]

/-! ## OPEN and OPEN_RELAY (R4, R5, R128) -/

@[simp] theorem roles_enlist : roles (d.enlist c) = roles d := rfl

theorem install_role (d : Device) (c k : ChannelId) (x : Nat → Channel) :
    role ((d.install c x).chan k) = if c = k then role (x d.serial) else role (d.chan k) := by
  have bound : ∀ a : Device, (a.bind c).channels = a.channels := fun a => by
    unfold Device.bind
    dsimp only
    split <;> rfl
  rw [Device.install, Device.chan, bound]
  change role ((d.modChan c fun _ => x d.serial).chan k) = _
  rw [chan_modChan]
  split <;> rfl

theorem install_pair (d : Device) (c i : ChannelId) (x : Nat → Channel) : (d.install c x).pair i = d.pair i := by
  unfold Device.install Device.bind
  dsimp only
  split <;> rfl

/-- A context installed under a key not held keeps the keys apart. -/
theorem keyLaw_install {y : Nat → Channel} (law : KeyLaw d)
    (free : ∀ k, k ≠ c → (d.chan k).state ≠ .closed → ¬ sameKey (d.chan k) (y d.serial)) : KeyLaw (d.install c y) := by
  have self : role ((d.install c y).chan c) = role (y d.serial) := by rw [install_role, if_pos rfl]
  exact keyLaw_of_opening law (fun k hk => by rw [install_role, if_neg (Ne.symm hk)]) fun k hk use same =>
    free k hk use (sameKey_of_role rfl self same)

/-- No channel in use has a key that is not held. -/
theorem free_of_keyHeld {b : Bool} {y : Channel} (free : d.keyHeld p n b = false) (port : y.port = p) (number : y.number = n)
    (way : y.isOutbound = b) (k : ChannelId) (use : (d.chan k).state ≠ .closed) : ¬ sameKey (d.chan k) y := fun ⟨hp, hn, hw⟩ => by
  have held := keyHeld_iff.mpr ⟨k, use, hp.trans port, hn.trans number, hw.trans way⟩
  rw [free] at held
  cases held

theorem openResult_ok {q : OpenRequest} (ok : d.openResult c q = .ok) :
    (d.chan c).state = .closed ∧ d.keyHeld q.port q.number (q.kind == .out) = false := by
  unfold Device.openResult at ok
  split at ok
  · cases ok
  · next closed =>
    split at ok
    · cases ok
    · split at ok
      · cases ok
      · next free => exact ⟨not_not.mp closed, Bool.eq_false_iff.mpr free⟩

/-- An OPEN names one of the two kinds of a host's channels. -/
theorem readOpen_kind {kind : Byte} {base : Address} {size : Half} {port number ring cls options : Byte} {q : OpenRequest}
    (h : readOpen kind base size port number ring cls options = some q) : q.kind = .out ∨ q.kind = .inn := by
  cases hk : q.kind with
  | out => exact .inl rfl
  | inn => exact .inr rfl
  | relayIn | relayOut =>
    simp only [readOpen, Option.bind_eq_bind, Option.bind_eq_some_iff] at h
    obtain ⟨k, -, p, -, n, -, r, -, h⟩ := h
    split at h
    · cases h
    · split at h <;> obtain ⟨_, -, h⟩ := Option.bind_eq_some_iff.mp h <;> cases h <;> cases hk

theorem Lawful.openWith {q : OpenRequest} (law : Lawful d) (kind : q.kind = .out ∨ q.kind = .inn) (ok : d.openResult c q = .ok) :
    Lawful (d.openWith c q) := by
  obtain ⟨closed, unheld⟩ := openResult_ok ok
  have host : (q.channel d.serial).isRelay = false ∧ (q.channel d.serial).isOutbound = (q.kind == .out) := by
    rcases kind with h | h <;> simp [OpenRequest.channel, Channel.isRelay, Channel.isOutbound, h]
  have installed : Lawful (d.install c q.channel) := by
    refine ⟨keyLaw_install law.keys fun k _ use => free_of_keyHeld unheld rfl rfl host.2 k use,
      pairLaw_beside law (.inr closed) ?_ (fun k hk => ?_) fun j => by rw [install_pair]⟩
    · rw [install_chan]
      exact host.1
    · rw [install_role, if_neg (Ne.symm hk)]
  unfold Device.openWith
  dsimp only
  split
  · exact installed.of_roles roles_enlist
  · exact installed

theorem openPairResult_ok {q : RelayRequest} (ok : d.openPairResult i o q = .ok) :
    ((d.chan i).state = .closed ∧ (d.chan o).state = .closed) ∧ d.keyHeld q.inPort q.inNumber false = false ∧
      d.keyHeld q.outPort q.outNumber true = false := by
  unfold Device.openPairResult at ok
  split at ok
  · cases ok
  · next closed =>
    split at ok
    · cases ok
    · next free => simpa using And.intro closed free

theorem Lawful.openPair {q : RelayRequest} (law : Lawful d) (apart : i ≠ o) (ok : d.openPairResult i o q = .ok) :
    Lawful (d.openPair i o q) := by
  obtain ⟨⟨inClosed, outClosed⟩, inFree, outFree⟩ := openPairResult_ok ok
  let a := d.reserveCells i o q.cells
  let b := (a.install i (q.inbound o)).install o (q.outbound i)
  have inRole : role (b.chan i) = role (q.inbound o d.serial) := by
    rw [install_role, if_neg (Ne.symm apart), install_role, if_pos rfl]
    rfl
  have outRole : role (b.chan o) = role (q.outbound i (a.install i (q.inbound o)).serial) := by rw [install_role, if_pos rfl]
  have others : ∀ k, k ≠ i → k ≠ o → role (b.chan k) = role (d.chan k) := fun k hi ho => by
    rw [install_role, if_neg (Ne.symm ho), install_role, if_neg (Ne.symm hi)]
    rfl
  have inUse : (b.chan i).state ≠ .closed := mt (closed_of_role inRole).mp (by simp [RelayRequest.inbound])
  have outUse : (b.chan o).state ≠ .closed := mt (closed_of_role outRole).mp (by simp [RelayRequest.outbound])
  have here : b.pair i = some
      { inbound := i, outbound := o, reserved := q.cells, spare := d.relay.free.take q.cells, filling := none, queue := [],
        cut := false } := by
    rw [install_pair, install_pair]
    exact get_set_self _ _ _
  have elsewhere : ∀ j, j ≠ i → b.pair j = d.pair j := fun j hj => by
    rw [install_pair, install_pair]
    exact get_set_ne _ _ (Ne.symm hj)
  have keys : KeyLaw b := by
    refine keyLaw_install (keyLaw_install law.keys fun k _ use => free_of_keyHeld inFree rfl rfl rfl k use) fun k _ use same => ?_
    by_cases hk : k = i
    · have inOwn : role ((a.install i (q.inbound o)).chan k) = role (q.inbound o d.serial) := by
        rw [install_role, if_pos hk.symm]
        rfl
      have way := (sameKey_of_role inOwn rfl same).2.2
      cases way
    · have kept : role ((a.install i (q.inbound o)).chan k) = role (d.chan k) := by
        rw [install_role, if_neg (Ne.symm hk)]
        rfl
      exact free_of_keyHeld outFree rfl rfl rfl k (mt (closed_of_role kept).mpr use) (sameKey_of_role kept rfl same)
  refine Lawful.of_roles (d := b) ⟨keys, ?_⟩ (by rw [Device.openPair, roles_runGenerator, roles_enlist])
  refine pairLaw_iff.mpr ⟨fun j x hx => ?_, fun k kind use => ?_, fun k kind use => ?_⟩
  · by_cases hj : j = i
    · subst hj
      rw [here] at hx
      cases hx
      obtain ⟨inKind, -, -, inPartner⟩ := role_eq inRole
      obtain ⟨outKind, -, -, outPartner⟩ := role_eq outRole
      exact ⟨rfl, inKind, inPartner, inUse, outKind, outPartner, outUse⟩
    · rw [elsewhere j hj] at hx
      have pair := law.pairOf hx
      have inApart : j ≠ o := by rintro rfl; exact pair.inUse outClosed
      have outApart : x.outbound ≠ i ∧ x.outbound ≠ o :=
        ⟨fun h => pair.outUse (h ▸ inClosed), fun h => pair.outUse (h ▸ outClosed)⟩
      exact ⟨law.inbound hx, pair.of_role (others j hj inApart) (others _ outApart.1 outApart.2)⟩
  · by_cases hk : k = i
    · subst hk
      exact ⟨_, here⟩
    · have ho : k ≠ o := by
        rintro rfl
        have := kind.symm.trans (role_eq outRole).1
        cases this
      have same := others k hk ho
      obtain ⟨y, hy⟩ := law.pair_of_in ((role_eq same).1.symm.trans kind) (mt (closed_of_role same).mpr use)
      exact ⟨y, (elsewhere k hk).trans hy⟩
  · by_cases hk : k = o
    · subst hk
      rw [(role_eq outRole).2.2.2]
      exact ⟨_, here, rfl⟩
    · have hi : k ≠ i := by
        rintro rfl
        have := kind.symm.trans (role_eq inRole).1
        cases this
      have same := others k hi hk
      obtain ⟨y, hy, own⟩ := law.pair_of_out ((role_eq same).1.symm.trans kind) (mt (closed_of_role same).mpr use)
      have hp : (d.chan k).partner ≠ i := fun h => (law.pairOf hy).inUse (h ▸ inClosed)
      rw [(role_eq same).2.2.2, elsewhere _ hp]
      exact ⟨y, hy, own⟩

end Sys2Proof.ChannelRoles
end

section
/-! SUPPORT. The laws of keys and pairs at the port, at the decoder and at an acceptance: nothing there opens a channel, and what closes
one closes a pair with both its halves (R16, R44, R58, R74, R140). -/

namespace Sys2Proof.ChannelRoles

open Sys2Proof.Machine

variable {d e : Device} {p : PortId} {n : LinkNumber} {c : ChannelId}

/-- A fold of changes that keep the laws keeps them. -/
theorem Lawful.foldl {β : Type} {g : Device → β → Device} (keeps : ∀ d b, Lawful d → Lawful (g d b)) (l : List β) (law : Lawful d) :
    Lawful (l.foldl g d) := by
  induction l generalizing d with
  | nil => exact law
  | cons b l ih => exact ih (keeps d b law)

/-! ## A port going down (R74, R78) -/

theorem Lawful.closeOwner (law : Lawful d) : Lawful (d.closeOwner c) := by
  unfold Device.closeOwner
  dsimp only
  repeat' split
  · exact (law.of_roles (roles_completeSend _ _)).tryClose
  · exact (law.of_roles roles_cutPair).tryClose
  · exact law.tryClose

theorem role_loseRevoke (x : Channel) : role x.loseRevoke = role x := by
  unfold Channel.loseRevoke
  split <;> rfl

theorem Lawful.closeAfterLoss (law : Lawful d) : Lawful (Device.closeAfterLoss p d n) := by
  have outbound : ∀ a : Device, Lawful a → Lawful (match (a.outHalf p n).owner with | some c => a.closeOwner c | none => a) := by
    intro a la
    split
    · exact la.closeOwner
    · exact la
  unfold Device.closeAfterLoss
  dsimp only
  apply outbound
  split
  · exact (law.of_roles (roles_modChan (role_loseRevoke _))).closeOwner
  · exact law

theorem Lawful.tearDown (law : Lawful d) (final : PortState) : Lawful (d.tearDown p final) := by
  have losses : ∀ a : Device, roles (linkNumbers.foldl (Device.reportLoss p) a) = roles a :=
    roles_foldl (fun _ _ => roles_reportLoss) _
  have cleared : ∀ a : Device, roles ((a.modPort p Port.clearMap).unwaitPort p) = roles a := fun _ => rfl
  unfold Device.tearDown
  refine Lawful.foldl (fun _ _ la => la.closeAfterLoss) _ (law.of_roles ?_)
  rw [cleared, roles_returnCredits, losses, roles_emptyStaging, roles_modPort]

theorem Lawful.breakPort (law : Lawful d) (why : BreakCause) : Lawful (d.breakPort p why) := by
  unfold Device.breakPort
  dsimp only
  split
  · refine (Lawful.tearDown (law.of_roles ?_) .broken).of_roles (roles_modPort _)
    rw [roles_asyncNotice, roles_countPort, roles_modPort]
  · refine (Lawful.tearDown (law.of_roles ?_) .disabled).of_roles (roles_completeDisable _ _)
    rw [roles_asyncNotice, roles_countPort, roles_modPort]
  · exact law

theorem Lawful.checkQuiesce (law : Lawful d) : Lawful (d.checkQuiesce p) := by
  unfold Device.checkQuiesce
  split
  · exact (law.tearDown .disabled).of_roles (roles_completeDisable _ _)
  · exact law

/-! ## A byte of the peer (R44 to R48, R59) -/

@[simp] theorem roles_countWire (owner : Option ChannelId) : roles (d.countWire owner) = roles d := by
  cases owner with
  | none => rfl
  | some c => exact roles_countChan _

@[simp] theorem roles_countDiscarded : roles (d.countDiscarded p) = roles d := rfl

@[simp] theorem roles_countControl : roles (d.countControl p) = roles d := rfl

theorem roles_peerStart (h : d.peerStart p n = some e) : roles e = roles d := by
  unfold Device.peerStart at h
  dsimp only at h
  repeat' split at h
  all_goals cases h
  all_goals simp

theorem roles_startIfNone (h : d.startIfNone p n = some e) : roles e = roles d := by
  unfold Device.startIfNone at h
  split at h
  · cases h
    rfl
  · exact roles_peerStart h

@[simp] theorem roles_takeExpanded (b : Byte) (k : Nat) : roles (d.takeExpanded p n b k) = roles d := by
  unfold Device.takeExpanded
  dsimp only
  split
  · split
    · rw [roles_placeRun, roles_countWire]
    · rfl
  · exact roles_countDiscarded

@[simp] theorem roles_inEndComplete : roles (d.inEndComplete c) = roles d := roles_endInbound _ _

@[simp] theorem roles_inEndAbandon : roles (d.inEndAbandon c) = roles d := roles_endInbound _ _

@[simp] theorem roles_ownerComplete : roles (d.ownerComplete c) = roles d := by
  unfold Device.ownerComplete
  dsimp only
  split <;> simp

@[simp] theorem roles_ownerAbandon : roles (d.ownerAbandon c) = roles d := by
  unfold Device.ownerAbandon
  split <;> simp

theorem Lawful.endPeerMessage (law : Lawful d) (complete : Bool) : Lawful (d.endPeerMessage p n complete) := by
  unfold Device.endPeerMessage
  dsimp only
  split
  · split
    · refine (law.of_roles ?_).tryClose
      rw [roles_runGenerator]
      split <;> simp
    · exact law.of_roles (roles_modIn _)
  · exact law.of_roles (roles_countDiscarded.trans (roles_modIn _))

theorem Lawful.decodeData (law : Lawful d) (b : Byte) : Lawful (d.decodeData p n b) := by
  unfold Device.decodeData
  split
  · exact law.breakPort _
  · next started => exact law.of_roles ((roles_takeExpanded b 1).trans (roles_startIfNone started))

theorem Lawful.decodeRepeat (law : Lawful d) (r : Nat) : Lawful (d.decodeRepeat p n r) := by
  unfold Device.decodeRepeat
  split
  · exact law.breakPort _
  · next started =>
    refine law.of_roles (Eq.trans ?_ (roles_startIfNone started))
    dsimp only
    split <;> simp

theorem Lawful.decodeEnd (law : Lawful d) (complete : Bool) : Lawful (d.decodeEnd p n complete) := by
  unfold Device.decodeEnd
  split
  · exact law.breakPort _
  · split
    · exact law.breakPort _
    · next started => exact (law.of_roles (roles_startIfNone started)).endPeerMessage complete

theorem Lawful.decodeGrant (law : Lawful d) (v : Nat) : Lawful (d.decodeGrant p n v) := by
  unfold Device.decodeGrant
  split
  · exact law.breakPort _
  · exact law.of_roles rfl

theorem Lawful.decodeSelected (law : Lawful d) (k : LinkCommand) : Lawful (d.decodeSelected p n k) := by
  unfold Device.decodeSelected
  split
  · exact law
  · split
    · exact law.breakPort _
    · exact law.decodeRepeat _
  · split
    · exact law.breakPort _
    · exact law.decodeEnd _
  · exact law.decodeGrant _

theorem Lawful.decode (law : Lawful d) (w : WireByte) : Lawful (d.decode p w) := by
  unfold Device.decode
  dsimp only
  split
  · split
    · exact law.breakPort _
    · exact law.of_roles (by simp)
  · split
    · split
      · exact law.of_roles (by simp)
      · exact law.breakPort _
      · exact law.decodeSelected _
    · split
      · exact law.breakPort _
      · exact law.decodeData _

theorem Lawful.acceptPeerByte (law : Lawful d) : Lawful (d.acceptPeerByte p) := by
  have heard : Lawful ((d.modPort p fun x => { x with rx := .accepted }).countPort p
      fun k => { k with wireReceived := satAdd k.wireReceived 1 }) := law.of_roles rfl
  exact (heard.decode _).of_roles roles_issueInbound

theorem Lawful.peerByteStands (law : Lawful d) : Lawful (d.peerByteStands p) := by
  unfold Device.peerByteStands
  dsimp only
  split
  · exact law
  · split
    · exact law.breakPort _
    · split
      · exact law.of_roles rfl
      · exact law.acceptPeerByte

theorem Lawful.acceptWithheld (law : Lawful d) : Lawful (d.acceptWithheld p) := by
  unfold Device.acceptWithheld
  dsimp only
  split
  · exact law.acceptPeerByte
  · exact law

/-! ## Engagement and turns (R63 to R72, R75) -/

theorem Lawful.enterTheirs (law : Lawful d) : Lawful (d.enterTheirs p) := Lawful.peerByteStands (law.of_roles rfl)

theorem Lawful.engage (law : Lawful d) : Lawful (d.engage p) := by
  unfold Device.engage
  dsimp only
  repeat' split
  · exact Lawful.breakPort (law.of_roles (by simp)) _
  · exact law.of_roles (by simp)
  · exact Lawful.enterTheirs (law.of_roles (by simp))
  · exact Lawful.enterTheirs (law.of_roles (by simp))

theorem Lawful.enterEngaging (law : Lawful d) (g : Port → Port) : Lawful (d.enterEngaging p g) := by
  unfold Device.enterEngaging
  dsimp only
  split
  · exact Lawful.engage (law.of_roles rfl)
  · exact law.of_roles rfl

theorem Lawful.decideRetry (law : Lawful d) : Lawful (d.decideRetry p) := by
  unfold Device.decideRetry
  dsimp only
  repeat' split
  · exact law.enterEngaging _
  · exact law.of_roles ((roles_asyncNotice _).trans (roles_modPort _))
  · exact law

theorem Lawful.engageIfWaiting (law : Lawful d) : Lawful (d.engageIfWaiting p) := by
  unfold Device.engageIfWaiting
  split
  · exact law.engage
  · exact law

theorem Lawful.engageLost (law : Lawful d) : Lawful (d.engageLost p) := by
  unfold Device.engageLost
  split
  · exact law.breakPort _
  · exact law.breakPort _
  · exact Lawful.decideRetry (law.of_roles rfl)
  · exact law

theorem Lawful.peerTakes (law : Lawful d) : Lawful (d.peerTakes p) := by
  unfold Device.peerTakes
  split
  · exact law.breakPort _
  · exact Lawful.enterTheirs (law.of_roles rfl)
  · split
    · exact law.of_roles rfl
    · exact law
  · exact law

theorem Lawful.peerReleases (law : Lawful d) : Lawful (d.peerReleases p) := by
  unfold Device.peerReleases
  dsimp only
  repeat' split
  · exact law.breakPort _
  · exact law.breakPort _
  · exact law.breakPort _
  · exact law.of_roles rfl
  · exact law

theorem Lawful.expire {t : Port → Timer} {stop : Port → Port} {g : Device → Device} (law : Lawful d)
    (keeps : ∀ a, Lawful a → Lawful (g a)) : Lawful (d.expire p t stop g) := by
  unfold Device.expire
  split
  · exact keeps _ (law.of_roles rfl)
  · exact law

/-! ## An acceptance (R58) -/

@[simp] theorem roles_countSent : roles (d.countSent p n) = roles d := roles_countWire _

@[simp] theorem roles_unitAccepted (k : Nat) : roles (d.unitAccepted p c k) = roles d := by
  unfold Device.unitAccepted
  dsimp only
  rw [roles_modPort]
  split <;> simp

@[simp] theorem roles_reportSent (k : Nat) : roles (d.reportSent c k) = roles d := by
  unfold Device.reportSent
  dsimp only
  repeat' split
  all_goals simp

@[simp] theorem roles_reportAbandoned : roles (d.reportAbandoned c) = roles d := by
  unfold Device.reportAbandoned
  dsimp only
  repeat' split
  all_goals simp

theorem role_revokeAccepted (x : Channel) : role x.revokeAccepted = role x := by
  unfold Channel.revokeAccepted
  split <;> rfl

theorem Lawful.ownerRevoked (law : Lawful d) (owner : Option ChannelId) : Lawful (d.ownerRevoked owner) := by
  cases owner with
  | none => exact law
  | some c => exact (law.of_roles (roles_modChan (role_revokeAccepted _))).tryClose

theorem Lawful.endAccepted (law : Lawful d) (k : Nat) : Lawful (d.endAccepted p c n k) :=
  (law.of_roles (by simp)).tryClose

theorem Lawful.entryAccepted (law : Lawful d) (entry : ControlEntry) : Lawful (d.entryAccepted p entry) := by
  have popped : Lawful (d.modPort p Port.popControl) := law.of_roles rfl
  cases entry with
  | grant m k => exact popped.of_roles (roles_runGenerator.trans (roles_modIn _))
  | revoke m => exact Lawful.ownerRevoked (popped.of_roles ((roles_modIn _).trans (roles_releaseCredits _ _))) _
  | abandon m =>
    unfold Device.entryAccepted
    dsimp only
    split
    · exact (popped.of_roles (by simp)).tryClose
    · exact popped.of_roles (by simp)

theorem Lawful.offerAccepted (law : Lawful d) (o : Offer) : Lawful (d.offerAccepted p o) := by
  have counted : Lawful (d.modPort p fun x => x.countAccepted o) := law.of_roles rfl
  cases o with
  | entrySelect m => exact counted.of_roles rfl
  | entryByte entry => exact counted.entryAccepted entry
  | msgSelect c m => exact counted.of_roles rfl
  | msgRepeat c m r => exact counted.of_roles ((roles_modPort _).trans roles_countSent)
  | msgData c m b k => exact counted.of_roles ((roles_modPort _).trans ((roles_unitAccepted k).trans roles_countSent))
  | msgEnd c m k => exact counted.endAccepted k

end Sys2Proof.ChannelRoles
end

section
/-! SUPPORT. Every command and event, and every step, keeps the laws of keys and pairs, and the part after reset meets all the laws (R3,
R5, R127, R172, R176, R179). -/

namespace Sys2Proof.ChannelRoles

open Sys2Proof.Machine Sys2Proof.RegisterWindow

variable {s t : State} {d : Device} {p : PortId} {n : LinkNumber} {c : ChannelId}

/-! ## The forms of an event and of a take -/

theorem Lawful.settle (law : Lawful d) : Lawful d.settle := law.of_roles (roles_of_steady (settle_steady d))

theorem Lawful.whenRunning {g : Device → Device} (law : Lawful s.dev) (keeps : ∀ d, Lawful d → Lawful (g d)) :
    Lawful (s.whenRunning g).dev := by
  by_cases running : s.engine = .running
  · rw [whenRunning_eq running]
    exact keeps _ law
  · rw [whenRunning_not running]
    exact law

theorem Lawful.event {g : Device → Device} (law : Lawful s.dev) (keeps : ∀ d, Lawful d → Lawful (g d)) : Lawful (s.event g).dev :=
  law.whenRunning fun d ld => (keeps d ld).settle

theorem Lawful.take {i : Instr} {g : Device → Device} (law : Lawful s.dev) (keeps : ∀ d, Lawful d → Lawful (g d)) :
    Lawful (s.take i g).dev := by
  refine law.whenRunning fun d ld => ?_
  split
  · exact (keeps _ (ld.of_roles (roles_modCu _))).settle
  · exact ld

theorem Lawful.drive (law : Lawful s.dev) (p : PortId) (lines : PeerLines → PeerLines) : Lawful (s.drive p lines).dev :=
  law.of_roles rfl

/-- A command that completes at once with no other effect. -/
theorem Lawful.commandDone (law : Lawful d) (subject : Byte) (tag : Half) (r : Result) (k : Nat) :
    Lawful (d.commandDone subject tag r k) := law.of_roles rfl

/-! ## Reset -/

/-- After reset no channel is in use and no pair stands. -/
theorem reset_lawful (serial : Nat) (ports : Vector Port 4) : Lawful (Device.reset serial ports) := by
  have closed : ∀ c, (Device.reset serial ports).chan c = Channel.cleared := fun c => get_replicate _ c
  have alone : ∀ i, (Device.reset serial ports).pair i = none := fun i => get_replicate _ i
  refine ⟨fun a b use => absurd (by rw [closed]; rfl) use, pairLaw_iff.mpr ⟨fun i x h => ?_, fun c _ use => ?_, fun c _ use => ?_⟩⟩
  · rw [alone] at h
    cases h
  · exact absurd (by rw [closed]; rfl) use
  · exact absurd (by rw [closed]; rfl) use

theorem haltEngine_lawful (s : State) : Lawful s.haltEngine.dev := reset_lawful _ _

/-! ## The register window (R6, R151, R156, R173, R175) -/

theorem Lawful.takeChannelIndex (law : Lawful d) (index : BitVec 12) : Lawful (d.takeChannelIndex c index) := by
  unfold Device.takeChannelIndex
  dsimp only
  repeat' split
  · exact law.of_roles (roles_badNotify _ _)
  · exact law.of_roles (roles_fetchRecords.trans (roles_modChan rfl))
  · exact law.of_roles (roles_badNotify _ _)

theorem Lawful.takeCommandIndex (law : Lawful d) (index : BitVec 12) : Lawful (d.takeCommandIndex index) := by
  unfold Device.takeCommandIndex
  dsimp only
  split
  · exact law.of_roles rfl
  · exact law.of_roles (roles_badNotify _ _)

theorem Lawful.takeConsumerIndex (law : Lawful d) (r : RingId) (index : BitVec 12) (arm : Bool) :
    Lawful (d.takeConsumerIndex r index arm) := by
  unfold Device.takeConsumerIndex
  dsimp only
  split
  · exact law.of_roles rfl
  · exact law.of_roles (roles_badNotify _ _)

theorem Lawful.takeNotify (law : Lawful d) (target : Byte) (index : BitVec 12) (arm : Bool) :
    Lawful (d.takeNotify target index arm) := by
  unfold Device.takeNotify
  dsimp only
  repeat' split
  · exact law.takeChannelIndex index
  · exact law.takeCommandIndex index
  · exact law.takeConsumerIndex _ index arm
  · exact law.of_roles (roles_badNotify _ _)

theorem startEngine_lawful (law : Lawful s.dev) : Lawful s.startEngine.dev := by
  unfold State.startEngine
  split
  · exact law.of_roles rfl
  · exact law

theorem registerWrite_lawful (law : Lawful s.dev) (o : BitVec 6) (w : Nat) (v : Word) :
    ∃ t, exec (.registerWrite o w v) s = .next t ∧ Lawful t.dev := by
  by_cases ignored : w ≠ 4 ∨ (o ≠ 0x04 ∧ o ≠ 0x08 ∧ o ≠ 0x0C ∧ o ≠ 0x10 ∧ o ≠ 0x18)
  · exact ⟨s, exec_writeIgnored ignored v s, law⟩
  · obtain ⟨rfl, rfl | rfl | rfl | rfl | rfl⟩ : w = 4 ∧ (o = 0x04 ∨ o = 0x08 ∨ o = 0x0C ∨ o = 0x10 ∨ o = 0x18) := by tauto
    · refine ⟨_, exec_writeCtrl v s, ?_⟩
      split
      · exact haltEngine_lawful s
      · split
        · exact startEngine_lawful law
        · exact law
    · exact ⟨_, exec_writeRootLow v s, law⟩
    · exact ⟨_, exec_writeRootHigh v s, law⟩
    · exact ⟨_, exec_writeNotify v s, law.event fun _ ld => ld.takeNotify _ _ _⟩
    · exact ⟨_, exec_writeIntmask v s, law⟩

theorem rootTableReadDone_lawful (law : Lawful s.dev) (id : Nat) (reply : ReadReply) :
    ∃ t, exec (.rootTableReadDone id reply) s = .next t ∧ Lawful t.dev := by
  change ∃ t, execRootTableReadDone id reply s = _ ∧ _
  unfold execRootTableReadDone
  split
  · split
    · cases reply with
      | busError a => exact ⟨_, rfl, law.of_roles rfl⟩
      | data bytes =>
        refine ⟨_, rfl, ?_⟩
        split
        · unfold State.takeRootTable
          dsimp only
          split <;> exact law.of_roles rfl
        · exact law
    · exact ⟨_, rfl, law⟩
  · exact ⟨_, rfl, law⟩

/-! ## The returns of host memory accesses and cell transfers -/

theorem commandFetchDone_lawful (law : Lawful s.dev) (id : Nat) (reply : ReadReply) :
    ∃ t, exec (.commandFetchDone id reply) s = .next t ∧ Lawful t.dev := by
  change ∃ t, execCommandFetchDone id reply s = _ ∧ _
  unfold execCommandFetchDone
  split
  · split
    · cases reply with
      | busError a => exact ⟨_, rfl, law.of_roles rfl⟩
      | data bytes =>
        refine ⟨_, rfl, ?_⟩
        split
        · exact law.event fun _ ld => ld.of_roles rfl
        · exact law
    · exact ⟨_, rfl, law⟩
  · exact ⟨_, rfl, law⟩

theorem recordWriteDone_lawful (law : Lawful s.dev) (id : Nat) (reply : WriteReply) :
    ∃ t, exec (.recordWriteDone id reply) s = .next t ∧ Lawful t.dev := by
  change ∃ t, execRecordWriteDone id reply s = _ ∧ _
  unfold execRecordWriteDone
  split
  · split
    · cases reply with
      | accepted => exact ⟨_, rfl, law.event fun _ ld => ld.of_roles rfl⟩
      | busError a => exact ⟨_, rfl, law.of_roles rfl⟩
    · exact ⟨_, rfl, law⟩
  · exact ⟨_, rfl, law⟩

/-- The records of a fetch join the list of a channel in use, or fault it. -/
theorem roles_addRecords (use : (d.chan c).state ≠ .closed) (bytes : List Byte) : roles (d.addRecords c bytes) = roles d := by
  unfold Device.addRecords
  dsimp only
  split
  · exact roles_channelFault use
  · rw [roles_fetchRecords]
    split
    · exact roles_runGenerator.trans (roles_modChan rfl)
    · exact roles_startNext.trans (roles_modChan rfl)

theorem roles_recordFetchReturned (o : Nat) (reply : ReadReply) : roles (d.recordFetchReturned c o reply) = roles d := by
  have idle : roles (d.modChan c fun y => { y with fetchBusy := false }) = roles d := roles_modChan rfl
  unfold Device.recordFetchReturned
  dsimp only
  split
  · split
    · next opened =>
      have use : ((d.modChan c fun y => { y with fetchBusy := false }).chan c).state ≠ .closed :=
        use_of_roles idle (by rw [eq_of_beq opened]; decide)
      split
      · exact (roles_addRecords use _).trans idle
      · exact (roles_channelFault use).trans idle
    · exact idle
  · rfl

theorem Lawful.recordFetchDone (law : Lawful s.dev) (id : Nat) (reply : ReadReply) :
    ∃ t, exec (.recordFetchDone id reply) s = .next t ∧ Lawful t.dev := by
  refine ⟨_, rfl, law.whenRunning fun d ld => ?_⟩
  repeat' split
  · exact Lawful.settle ((ld.of_roles (roles_returned id)).of_roles (roles_recordFetchReturned _ _))
  all_goals exact ld

theorem roles_payloadFailed (o : Nat) (a : Address) : roles (d.payloadFailed c o a) = roles d := by
  unfold Device.payloadFailed
  dsimp only
  repeat' split
  · next opened => exact roles_channelFault (by simp [opened])
  · next draining => exact roles_channelFault (by simp [draining])
  · exact (roles_abortingFault _ _).trans (roles_modOutMsg _)
  all_goals rfl

theorem Lawful.payloadReadDone (law : Lawful s.dev) (id : Nat) (reply : ReadReply) :
    ∃ t, exec (.payloadReadDone id reply) s = .next t ∧ Lawful t.dev := by
  refine ⟨_, rfl, law.whenRunning fun d ld => ?_⟩
  have back : Lawful (d.returned id) := ld.of_roles (roles_returned id)
  repeat' split
  · exact Lawful.settle (back.of_roles (roles_modPort _))
  · exact Lawful.settle (back.of_roles (roles_payloadFailed _ _))
  · exact back.settle
  all_goals exact ld

theorem roles_bufferFailed (z : Buffer) (a : Address) : roles (d.bufferFailed z a) = roles d := by
  unfold Device.bufferFailed
  dsimp only
  repeat' split
  · next opened => exact roles_channelFault (by simp [opened])
  · next draining => exact roles_channelFault (by simp [draining])
  · rfl
  · exact roles_abortingFault _ _
  all_goals rfl

theorem roles_bufferWriteReturned (b k : Nat) (reply : WriteReply) : roles (d.bufferWriteReturned b k reply) = roles d := by
  unfold Device.bufferWriteReturned
  split
  · rfl
  · dsimp only
    split
    · exact (roles_bufferFailed _ _).trans (roles_modBuffer _ _)
    · rfl

theorem Lawful.bufferWriteDone (law : Lawful s.dev) (id : Nat) (reply : WriteReply) :
    ∃ t, exec (.bufferWriteDone id reply) s = .next t ∧ Lawful t.dev := by
  refine ⟨_, rfl, law.whenRunning fun d ld => ?_⟩
  repeat' split
  · refine Lawful.settle (ld.of_roles ?_)
    rw [roles_issueInbound, roles_bufferWriteReturned, roles_returned]
  all_goals exact ld

theorem roles_statsReturned (id : Nat) (reply : WriteReply) : roles (d.statsReturned id reply) = roles d := by
  unfold Device.statsReturned
  repeat' split
  · exact roles_completeDeferred _ _ _
  · exact (roles_completeDeferred _ _ _).trans (roles_asyncNotice _)
  · rfl

theorem Lawful.statsWriteDone (law : Lawful s.dev) (id : Nat) (reply : WriteReply) :
    ∃ t, exec (.statsWriteDone id reply) s = .next t ∧ Lawful t.dev := by
  refine ⟨_, rfl, law.whenRunning fun d ld => ?_⟩
  repeat' split
  · exact Lawful.settle (ld.of_roles ((roles_statsReturned _ _).trans (roles_returned id)))
  all_goals exact ld

theorem Lawful.cellMoveDone (law : Lawful s.dev) (id : Nat) : ∃ t, exec (.cellMoveDone id) s = .next t ∧ Lawful t.dev := by
  refine ⟨_, rfl, law.whenRunning fun d ld => ?_⟩
  split
  · refine Lawful.settle (ld.of_roles ?_)
    rw [roles_issueInbound, roles_modRelay rfl]
  · exact ld

theorem Lawful.cellCopyDone (law : Lawful s.dev) (id : Nat) : ∃ t, exec (.cellCopyDone id) s = .next t ∧ Lawful t.dev := by
  refine ⟨_, rfl, law.whenRunning fun d ld => ?_⟩
  split
  · exact Lawful.settle (ld.of_roles rfl)
  · exact ld

/-! ## The commands -/

theorem Lawful.openChannel (law : Lawful s.dev) (tag : Half) (channel kind : Byte) (base : Address) (size : Half)
    (port number ring cls options : Byte) :
    ∃ t, exec (.openChannel tag channel kind base size port number ring cls options) s = .next t ∧ Lawful t.dev := by
  refine ⟨_, rfl, law.take fun d ld => ?_⟩
  split
  · exact ld.commandDone _ _ _ _
  · exact ld.commandDone _ _ _ _
  · next read =>
    refine Lawful.commandDone ?_ _ _ _ _
    split
    · next ok => exact ld.openWith (readOpen_kind read) ok
    · exact ld

theorem Lawful.openRelay (law : Lawful s.dev) (tag : Half) (inbound outbound inPort inNumber outPort outNumber cls cells options : Byte) :
    ∃ t, exec (.openRelay tag inbound outbound inPort inNumber outPort outNumber cls cells options) s = .next t ∧ Lawful t.dev := by
  refine ⟨_, rfl, law.take fun d ld => ?_⟩
  split
  · split
    · exact ld.commandDone _ _ _ _
    · split
      · exact ld.commandDone _ _ _ _
      · next apart =>
        refine Lawful.commandDone ?_ _ _ _ _
        split
        · next ok => exact ld.openPair apart ok
        · exact ld
  · exact ld.commandDone _ _ _ _

theorem Lawful.closeGraceful (law : Lawful s.dev) (tag : Half) (channel mode : Byte) :
    ∃ t, exec (.closeGraceful tag channel mode) s = .next t ∧ Lawful t.dev := by
  refine ⟨_, rfl, law.take fun d ld => ?_⟩
  split
  · exact ld.commandDone _ _ _ _
  · split
    · exact ld.decideClose
    · exact ld.commandDone _ _ _ _

theorem Lawful.closeAbort (law : Lawful s.dev) (tag : Half) (channel : Byte) :
    ∃ t, exec (.closeAbort tag channel) s = .next t ∧ Lawful t.dev := by
  refine ⟨_, rfl, law.take fun d ld => ?_⟩
  split
  · exact ld.commandDone _ _ _ _
  · exact ld.decideClose

theorem Lawful.setRing (law : Lawful s.dev) (tag : Half) (ring : Byte) (base : Address) (size : Half) (threshold : Byte) (time : Half) :
    ∃ t, exec (.setRing tag ring base size threshold time) s = .next t ∧ Lawful t.dev := by
  refine ⟨_, rfl, law.take fun d ld => ?_⟩
  dsimp only
  repeat' split
  all_goals exact ld.of_roles rfl

theorem Lawful.portSetup (law : Lawful s.dev) (tag : Half) (port role : Byte) (slice budget hold accept turnWait : Half)
    (recover retries : Byte) (drain : Half) :
    ∃ t, exec (.portSetup tag port role slice budget hold accept turnWait recover retries drain) s = .next t ∧ Lawful t.dev := by
  refine ⟨_, rfl, law.take fun d ld => ?_⟩
  dsimp only
  repeat' split
  all_goals exact ld.of_roles rfl

theorem Lawful.portEnable (law : Lawful s.dev) (tag : Half) (port : Byte) :
    ∃ t, exec (.portEnable tag port) s = .next t ∧ Lawful t.dev := by
  refine ⟨_, rfl, law.take fun d ld => ?_⟩
  dsimp only
  repeat' split
  · exact ld.commandDone _ _ _ _
  · exact (ld.commandDone _ _ _ _).enterEngaging _
  · exact ld.commandDone _ _ _ _

theorem roles_revokeOwned : roles (d.revokeOwned p) = roles d := by
  refine roles_foldl (fun a b => ?_) _ _
  split
  · exact roles_requestRevoke
  · rfl

theorem roles_withdrawPick : roles (d.withdrawPick p) = roles d := by
  unfold Device.withdrawPick
  repeat' split
  all_goals rfl

theorem Lawful.quiesce (law : Lawful d) (tag : Half) (subject : Byte) : Lawful (d.quiesce p tag subject) := by
  have asked : ∀ a : Device, roles ((((a.unwaitPort p).revokeOwned p).withdrawPick p)) = roles a := fun a => by
    rw [roles_withdrawPick, roles_revokeOwned]
    rfl
  refine Lawful.checkQuiesce (law.of_roles ?_)
  rw [asked, roles_modPort, roles_defer]

theorem Lawful.portDisableGraceful (law : Lawful s.dev) (tag : Half) (port mode : Byte) :
    ∃ t, exec (.portDisableGraceful tag port mode) s = .next t ∧ Lawful t.dev := by
  refine ⟨_, rfl, law.take fun d ld => ?_⟩
  repeat' split
  · exact ld.commandDone _ _ _ _
  · exact ld.quiesce _ _
  · exact ld.commandDone _ _ _ _
  · exact ld.of_roles rfl
  · exact ld.commandDone _ _ _ _

theorem Lawful.portDisableAbrupt (law : Lawful s.dev) (tag : Half) (port : Byte) :
    ∃ t, exec (.portDisableAbrupt tag port) s = .next t ∧ Lawful t.dev := by
  refine ⟨_, rfl, law.take fun d ld => ?_⟩
  repeat' split
  · exact ld.commandDone _ _ _ _
  · exact (ld.tearDown _).commandDone _ _ _ _
  · exact (Lawful.tearDown (ld.of_roles (roles_completeDisable _ _)) _).commandDone _ _ _ _
  · exact ld.of_roles rfl

theorem roles_clearStats (x : StatsSubject) : roles (d.clearStats x) = roles d := by
  unfold Device.clearStats
  split
  · exact roles_countChan _
  · rfl
  · rfl

theorem Lawful.readStats (law : Lawful s.dev) (tag : Half) (subject mode kind : Byte) (destination : Address) :
    ∃ t, exec (.readStats tag subject mode kind destination) s = .next t ∧ Lawful t.dev := by
  refine ⟨_, rfl, law.take fun d ld => ?_⟩
  repeat' split
  · exact ld.commandDone _ _ _ _
  · unfold Device.takeStats
    dsimp only
    refine ld.of_roles ?_
    rw [roles_defer, roles_place]
    split
    · exact roles_clearStats _
    · rfl
  · exact ld.commandDone _ _ _ _

theorem Lawful.barrier (law : Lawful s.dev) (tag : Half) (subject : Byte) :
    ∃ t, exec (.barrier tag subject) s = .next t ∧ Lawful t.dev := by
  refine ⟨_, rfl, law.take fun d ld => ?_⟩
  split <;> exact ld.of_roles rfl

/-! ## The lines and timers of a port -/

theorem Lawful.byteAccepted (law : Lawful s.dev) (p : PortId) : ∃ t, exec (.byteAccepted p) s = .next t ∧ Lawful t.dev := by
  refine ⟨_, rfl, law.event fun d ld => ?_⟩
  split
  · exact ld.offerAccepted _
  · exact ld

theorem Lawful.byteReturned (law : Lawful s.dev) (p : PortId) : ∃ t, exec (.byteReturned p) s = .next t ∧ Lawful t.dev := by
  refine ⟨_, rfl, law.event fun d ld => ?_⟩
  split
  · exact Lawful.checkQuiesce (ld.of_roles rfl)
  · exact ld

/-- An edge of a peer's line is a change of its level, and then what follows at the port. -/
theorem edge_lawful {i : Instr} {lines : PeerLines → PeerLines} {g : Device → Device} (moves : Prop) [Decidable moves]
    (law : Lawful s.dev) (keeps : ∀ d, Lawful d → Lawful (g d))
    (edge : exec i s = if moves then .next ((s.drive p lines).event g) else .next s) :
    ∃ t, exec i s = .next t ∧ Lawful t.dev := by
  rw [edge]
  split
  · exact ⟨_, rfl, (law.drive p lines).event keeps⟩
  · exact ⟨_, rfl, law⟩

/-- The same, for an edge whose test is for the level it brings. -/
theorem edge_lawful_unless {i : Instr} {lines : PeerLines → PeerLines} {g : Device → Device} (stands : Prop) [Decidable stands]
    (law : Lawful s.dev) (keeps : ∀ d, Lawful d → Lawful (g d))
    (edge : exec i s = if stands then .next s else .next ((s.drive p lines).event g)) :
    ∃ t, exec i s = .next t ∧ Lawful t.dev :=
  edge_lawful (¬ stands) law keeps (by rw [edge, ite_not])

theorem Lawful.peerReturns (law : Lawful d) :
    Lawful (if (d.port p).rx == .idle then d else (d.modPort p fun x => { x with rx := .idle }).checkQuiesce p) := by
  split
  · exact law
  · exact Lawful.checkQuiesce (law.of_roles rfl)

/-! ## Every command and event, and every step -/

theorem exec_lawful (i : Instr) (law : Lawful s.dev) : ∃ t, exec i s = .next t ∧ Lawful t.dev := by
  cases i with
  | hardwareReset => exact ⟨_, rfl, haltEngine_lawful s⟩
  | start => exact ⟨_, rfl, startEngine_lawful law⟩
  | halt => exact ⟨_, rfl, haltEngine_lawful s⟩
  | intmaskWrite v => exact ⟨_, rfl, law⟩
  | registerWrite o w v => exact registerWrite_lawful law o w v
  | notifyChannel c index arm => exact ⟨_, rfl, law.event fun _ ld => ld.takeChannelIndex index⟩
  | notifyCommandRing index arm => exact ⟨_, rfl, law.event fun _ ld => ld.takeCommandIndex index⟩
  | notifyRingConsumer r index arm => exact ⟨_, rfl, law.event fun _ ld => ld.takeConsumerIndex r index arm⟩
  | notifyBadTarget target index arm => exact ⟨_, rfl, law.event fun _ ld => ld.takeNotify target index arm⟩
  | rootTableReadDone id reply => exact rootTableReadDone_lawful law id reply
  | commandFetchDone id reply => exact commandFetchDone_lawful law id reply
  | openChannel => exact law.openChannel ..
  | openRelay => exact law.openRelay ..
  | closeGraceful => exact law.closeGraceful ..
  | closeAbort => exact law.closeAbort ..
  | setRing => exact law.setRing ..
  | portSetup => exact law.portSetup ..
  | portEnable => exact law.portEnable ..
  | portDisableGraceful => exact law.portDisableGraceful ..
  | portDisableAbrupt => exact law.portDisableAbrupt ..
  | readStats => exact law.readStats ..
  | barrier => exact law.barrier ..
  | nop tag subject => exact ⟨_, rfl, law.take fun _ ld => ld.commandDone _ _ _ _⟩
  | unknownOpcode opcode tag subject => exact ⟨_, rfl, law.take fun _ ld => ld.commandDone _ _ _ _⟩
  | statsWriteDone => exact law.statsWriteDone ..
  | recordFetchDone => exact law.recordFetchDone ..
  | payloadReadDone => exact law.payloadReadDone ..
  | bufferWriteDone => exact law.bufferWriteDone ..
  | cellMoveDone => exact law.cellMoveDone ..
  | cellCopyDone => exact law.cellCopyDone ..
  | recordWriteDone id reply => exact recordWriteDone_lawful law id reply
  | coalescingTimerExpiry r => exact ⟨_, rfl, law.event fun _ ld => ld.of_roles rfl⟩
  | byteAccepted => exact law.byteAccepted ..
  | byteReturned => exact law.byteReturned ..
  | acceptLimitExpiry p => exact ⟨_, rfl, law.event fun _ ld => ld.expire fun _ la => la.breakPort _⟩
  | peerByteOffered p byte => exact edge_lawful_unless _ law (fun _ ld => ld.peerByteStands) rfl
  | withheldAccept p => exact ⟨_, rfl, law.event fun _ ld => ld.acceptWithheld⟩
  | peerByteReturned p => exact edge_lawful _ law (fun _ ld => ld.peerReturns) rfl
  | engagement p => exact ⟨_, rfl, (law.drive p _).event fun _ ld => ld.engageIfWaiting⟩
  | engiFall p => exact edge_lawful _ law (fun _ ld => ld.engageLost) rfl
  | owniRise p => exact edge_lawful_unless _ law (fun _ ld => ld.peerTakes) rfl
  | owniFall p => exact edge_lawful _ law (fun _ ld => ld.peerReleases) rfl
  | reqiRise p => exact ⟨_, rfl, (law.drive p _).event fun _ ld => ld.of_roles rfl⟩
  | settleTimerExpiry p => exact ⟨_, rfl, law.event fun _ ld => ld.expire fun _ la => la.of_roles rfl⟩
  | takeTimerExpiry p => exact ⟨_, rfl, law.event fun _ ld => ld.expire fun _ la => la.breakPort _⟩
  | turnWaitExpiry p => exact ⟨_, rfl, law.event fun _ ld => ld.expire fun _ la => la.breakPort _⟩
  | holdTimerExpiry p => exact ⟨_, rfl, law.event fun _ ld => ld.of_roles rfl⟩
  | recoverExpiry p => exact ⟨_, rfl, law.event fun _ ld => ld.expire fun _ la => la.decideRetry⟩
  | drainLimitExpiry p =>
    exact ⟨_, rfl, law.event fun _ ld => ld.expire fun _ la => (la.tearDown _).of_roles (roles_completeDisable _ _)⟩
  | reqiFall p => exact ⟨_, rfl, (law.drive p _).event fun _ ld => ld⟩
  | engiRise p => exact ⟨_, rfl, (law.drive p _).event fun _ ld => ld.engageIfWaiting⟩

/-- A step is the front of the queue taken from a state that differs in the queue alone, or nothing. -/
theorem step_lawful (law : Lawful s.dev) : ∃ t, step s = .next t ∧ Lawful t.dev := by
  unfold step
  split
  · exact ⟨s, rfl, law⟩
  · next i rest _ => exact exec_lawful (s := { s with pending := rest }) i law

/-- Settles O59: the operations but openings and the ends of closes leave every role and every pair's halves alone; an opening takes a
key that is not held, and a pair opens and reaches CLOSED as a whole. -/
theorem keyAndPairLawsKept : Obligations.KeyAndPairLawsKept := by
  refine ⟨fun i s t keys pairs becomes => ?_, fun s t keys pairs becomes => ?_⟩
  · obtain ⟨u, reached, law⟩ := exec_lawful i ⟨keys, pairs⟩
    cases reached.symm.trans becomes
    exact ⟨law.keys, law.pairs⟩
  · obtain ⟨u, reached, law⟩ := step_lawful ⟨keys, pairs⟩
    cases reached.symm.trans becomes
    exact ⟨law.keys, law.pairs⟩

/-- Settles O60: the reset state is HALTED with nothing placed, and no channel is in use. -/
theorem lawsHoldAtReset : Obligations.LawsHoldAtReset :=
  ⟨EngineStates.engineLaw_halted rfl rfl rfl, rfl, (reset_lawful _ _).keys, (reset_lawful _ _).pairs⟩

end Sys2Proof.ChannelRoles
end

section
/-! SUPPORT. HALT, hardware reset, and NOTIFY of a channel (R1, R6, R150, R171, R172, R179, R182). -/

namespace Sys2Proof.EngineWindow

open Sys2Proof.Machine Sys2Proof.Engaging

variable {s : State} {d : Device} {c : ChannelId}

/-! ## HALT and hardware reset (R179) -/

/-- Settles O2: both put every block at its reset values, where no ring is RAISED, and the levels of the lines are read back. -/
theorem haltAndHardwareResetClearEveryBlock : Obligations.HaltAndHardwareResetClearEveryBlock := by
  intro s
  have ring : ∀ (v : State), v.dev = s.haltEngine.dev → ∀ r, v.dev.ring r = Ring.unset := fun v dev r => by
    rw [dev]
    exact get_replicate _ r
  have quiet : ∀ v : State, v.dev = s.haltEngine.dev → v.cause = .clear → irq v = false := fun v dev clear => by
    rw [Bool.eq_false_iff, Ne, irq_iff]
    rintro (⟨r, raised, -⟩ | ⟨fault, -⟩)
    · rw [ring v dev r] at raised
      cases raised
    · exact fault clear
  refine ⟨s.haltEngine, { s.haltEngine with root := 0, intmask := 0 }, rfl, rfl, rfl, rfl, rfl, rfl, ?_⟩
  rintro v (rfl | rfl)
  all_goals exact ⟨rfl, rfl, rfl, rfl, rfl, rfl, fun c => get_replicate _ c, fun p => get_map _ _ p, ring _ rfl, rfl, rfl, rfl,
    quiet _ rfl rfl⟩

/-! ## NOTIFY of a channel (R6) -/

/-- A channel is no relay half when its kind is one of the two that OPEN names. -/
theorem isRelay_false_iff (x : Channel) : x.isRelay = false ↔ x.kind = .out ∨ x.kind = .inn := by
  unfold Channel.isRelay
  cases x.kind <;> decide

/-- A record fetch placed is no part of the steady part. -/
theorem fetchRecords_steady (d : Device) (c : ChannelId) : (d.fetchRecords c).steady = d.steady := by
  unfold Device.fetchRecords
  dsimp only
  split
  · exact steady_modChan rfl
  · rfl

/-- Settles O9: the test of R6 decides, and a refused NOTIFY is told and does nothing else. -/
theorem notifyChannelMovesProducer : Obligations.NotifyChannelMovesProducer := by
  intro c index arm s running x ok
  have event : exec (.notifyChannel c index arm) s = .next (s.event fun d => d.takeChannelIndex c index) := by rfl
  rw [event_eq running] at event
  have refuses : (x.state == .closed || x.isRelay) = true ↔ ¬ (x.state ≠ .closed ∧ (x.kind = .out ∨ x.kind = .inn)) := by
    rw [← isRelay_false_iff, Bool.or_eq_true, beq_iff_eq, ← Bool.not_eq_true]
    tauto
  refine ⟨_, event, fun good => ?_, fun bad => ?_⟩
  · obtain ⟨use, host, range⟩ := good
    have taken : s.dev.takeChannelIndex c index =
        (s.dev.modChan c fun y => { y with producer := index.toNat }).fetchRecords c := by
      unfold Device.takeChannelIndex
      rw [if_neg (mt refuses.mp (not_not.mpr ⟨use, host⟩))]
      exact if_pos range
    rw [taken]
    exact becomes_settle (fetchRecords_steady _ c)
  · have refused : s.dev.takeChannelIndex c index = s.dev.badNotify c.val index := by
      unfold Device.takeChannelIndex
      by_cases usable : x.state ≠ .closed ∧ (x.kind = .out ∨ x.kind = .inn)
      · rw [if_neg (mt refuses.mp (not_not.mpr usable))]
        exact if_neg fun range => bad ⟨usable.1, usable.2, range⟩
      · exact if_pos (refuses.mpr usable)
    rw [refused]
    exact badNotify_told ..

end Sys2Proof.EngineWindow
end

section
/-! SUPPORT. OPEN and OPEN_RELAY: what their checks read, and the contexts they write (R4, R5, R22, R91, R128). -/

namespace Sys2Proof.Opening

open Sys2Proof.Machine Sys2Proof.Engaging Sys2Proof.ChannelRoles

variable {s : State} {d e : Device} {c i o : ChannelId} {p : PortId} {n : LinkNumber} {r k : Fin 4}

/-! ## The parameters (R2, R4, R5) -/

/-- The ring sizes and bases that OPEN takes. -/
theorem ringRange_iff {base : Address} {size : Half} :
    (powerOfTwoIn 16 4096 size.toNat && aligned 16 base) = true ↔
      (∃ e, 4 ≤ e ∧ e ≤ 12 ∧ size.toNat = 2 ^ e) ∧ base.toNat % 16 = 0 := by
  rw [Bool.and_eq_true, ringSize_iff, aligned, beq_iff_eq]

theorem readOpen_out {base : Address} {size : Half} {port number ring cls options : Byte} (hp : port.toNat = p.val)
    (hn : number.toNat = n.val) (hr : ring.toNat = r.val) (hk : cls.toNat = k.val) (hb : base.toNat % 16 = 0)
    (hs : ∃ e, 4 ≤ e ∧ e ≤ 12 ∧ size.toNat = 2 ^ e) :
    readOpen 0 base size port number ring cls options =
      some
        { kind := .out, port := p, number := n, ring := r, cls := k, compress := options.getLsbD 0,
          breakPolicy := if options.getLsbD 1 then .restart else .fail, overflow := .drop, base := base, size := size.toNat } := by
  simp [readOpen, openKind, inRange_some hp, inRange_some hn, inRange_some hr, inRange_some hk, ringRange_iff.mpr ⟨hs, hb⟩,
    optCompress, optBreak]

theorem readOpen_in {base : Address} {size : Half} {port number ring cls options : Byte} {policy : OverflowPolicy}
    (hp : port.toNat = p.val) (hn : number.toNat = n.val) (hr : ring.toNat = r.val) (ho : optOverflow options = some policy)
    (hb : base.toNat % 16 = 0) (hs : ∃ e, 4 ≤ e ∧ e ≤ 12 ∧ size.toNat = 2 ^ e) :
    readOpen 1 base size port number ring cls options =
      some
        { kind := .inn, port := p, number := n, ring := r, cls := 0, compress := false, breakPolicy := .fail, overflow := policy,
          base := base, size := size.toNat } := by
  simp [readOpen, openKind, inRange_some hp, inRange_some hn, inRange_some hr, ho, ringRange_iff.mpr ⟨hs, hb⟩]

theorem readRelay_some {inPort inNumber outPort outNumber cls cells options : Byte} {policy : OverflowPolicy} {q : PortId}
    {m : LinkNumber} (hp : inPort.toNat = p.val) (hn : inNumber.toNat = n.val) (hq : outPort.toNat = q.val)
    (hm : outNumber.toNat = m.val) (hk : cls.toNat = k.val) (ho : optOverflow options = some policy) (real : policy ≠ .chain)
    (some_ : 1 ≤ cells.toNat) (few : cells.toNat ≤ 8) :
    readRelay inPort inNumber outPort outNumber cls cells options =
      some
        { inPort := p, inNumber := n, outPort := q, outNumber := m, cls := k, compress := options.getLsbD 0,
          breakPolicy := if options.getLsbD 1 then .restart else .fail, overflow := policy, cells := cells.toNat } := by
  have count : ¬ cells.toNat = 0 := by omega
  have bound : ¬ 8 < cells.toNat := by omega
  simp [readRelay, inRange_some hp, inRange_some hn, inRange_some hq, inRange_some hm, inRange_some hk, ho, real, count, bound,
    optCompress, optBreak]

/-- The overflow policy the two bits of an options byte name. -/
theorem optOverflow_named {options : Byte} {policy : OverflowPolicy}
    (h : options.extractLsb 3 2 = (match policy with | .drop => 0 | .truncate => 1 | .chain => 2)) :
    optOverflow options = some policy := by
  unfold optOverflow
  cases policy <;> rw [h] <;> rfl

/-- The parameters of an OPEN in range, as far as its checks read them. -/
theorem readOpen_some {kind : Byte} {base : Address} {size : Half} {port number ring cls options : Byte} (hk : kind.toNat < 2)
    (hp : port.toNat = p.val) (hn : number.toNat = n.val) (hr : ring.toNat = r.val) (hb : base.toNat % 16 = 0)
    (hs : ∃ e, 4 ≤ e ∧ e ≤ 12 ∧ size.toNat = 2 ^ e) (hc : kind.toNat = 0 → cls.toNat < 4)
    (ho : kind.toNat = 1 → options.extractLsb 3 2 ≠ 3) :
    ∃ q, readOpen kind base size port number ring cls options = some q ∧ q.port = p ∧ q.number = n ∧ q.ring = r ∧
      (q.kind == .out) = (kind == 0) ∧ (q.kind = .inn ↔ kind = 1) := by
  have two : kind = 0 ∨ kind = 1 := by
    have : kind.toNat = 0 ∨ kind.toNat = 1 := by omega
    exact this.imp BitVec.eq_of_toNat_eq BitVec.eq_of_toNat_eq
  rcases two with rfl | rfl
  · exact ⟨_, readOpen_out (k := ⟨cls.toNat, hc rfl⟩) hp hn hr rfl hb hs, rfl, rfl, rfl, rfl, by simp⟩
  · obtain ⟨policy, named⟩ := Option.ne_none_iff_exists'.mp (mt (optOverflow_none_iff options).mp (ho rfl))
    exact ⟨_, readOpen_in hp hn hr named hb hs, rfl, rfl, rfl, rfl, by simp⟩

/-! ## The checks of OPEN in order (R4) -/

section
variable {q : OpenRequest}

theorem openResult_badState (bad : ¬ ((d.chan c).state = .closed ∧ (d.ring q.ring.castSucc).isSet = true)) :
    d.openResult c q = .badState := by
  unfold Device.openResult
  split
  · rfl
  · next closed => exact if_pos (by simpa [cqRing] using fun set => bad ⟨not_not.mp closed, set⟩)

theorem openResult_later (closed : (d.chan c).state = .closed) (set : (d.ring q.ring.castSucc).isSet = true) :
    d.openResult c q =
      if d.keyHeld q.port q.number (q.kind == .out) then .keyInUse
      else if q.kind = .inn ∧ (d.inHalf q.port q.number).discard then .busy
      else .ok := by
  unfold Device.openResult
  rw [if_neg (not_not.mpr closed), if_neg (by simp [cqRing, set])]

theorem openResult_passes (closed : (d.chan c).state = .closed) (set : (d.ring q.ring.castSucc).isSet = true)
    (free : ∀ e : ChannelId, (d.chan e).state ≠ .closed → (d.chan e).port = q.port → (d.chan e).number = q.number →
      (d.chan e).isOutbound ≠ (q.kind == .out)) (quiet : q.kind = .inn → (d.inHalf q.port q.number).discard = false) :
    d.openResult c q = .ok := by
  have unheld : d.keyHeld q.port q.number (q.kind == .out) ≠ true := fun held => by
    obtain ⟨e, use, port, number, way⟩ := keyHeld_iff.mp held
    exact free e use port number way
  rw [openResult_later closed set, if_neg unheld, if_neg]
  rintro ⟨inn, discard⟩
  rw [quiet inn] at discard
  cases discard

theorem openWith_out (kind : q.kind = .out) :
    d.openWith c q =
      (({ (d.modChan c fun _ => q.channel d.serial) with serial := d.serial + 1 }).modOut q.port q.number
        fun h => { h with owner := some c }).enlist c := by
  rw [Device.openWith, if_pos kind, install_out _ _ _ (by simp [OpenRequest.channel, Channel.isOutbound, kind])]
  rfl

theorem openWith_in (kind : q.kind = .inn) :
    d.openWith c q =
      ({ (d.modChan c fun _ => q.channel d.serial) with serial := d.serial + 1 }).modIn q.port q.number
        fun h => { h with owner := some c } := by
  rw [Device.openWith, if_neg (by simp [kind]), install_in _ _ _ (by simp [OpenRequest.channel, Channel.isOutbound, kind])]
  rfl

end

/-- A command refused posts its result and does nothing else. -/
theorem answered_eq (s : State) (subject : Byte) (tag : Half) (result : Result) (detail : Nat) :
    s.dev.afterTake.commandDone subject tag result detail = s.dev.answered subject tag result detail := rfl

/-- What an OPEN makes of the state once it is taken, its parameters in range. -/
theorem open_answers {t : State} {tag : Half} {channel kind : Byte} {base : Address} {size : Half}
    {port number ring cls options : Byte} {q : OpenRequest} {result : Result}
    (take : s.canTake (.openChannel tag channel kind base size port number ring cls options))
    (run : exec (.openChannel tag channel kind base size port number ring cls options) s = .next t) (named : channel.toNat = c.val)
    (read : readOpen kind base size port number ring cls options = some q) (decided : s.dev.openResult c q = result) :
    t = { s with
      dev := ((if result = .ok then s.dev.afterTake.openWith c q else s.dev.afterTake).commandDone channel tag result 0).settle } := by
  have same : s.dev.afterTake.openResult c q = s.dev.openResult c q := rfl
  have meaning : exec (.openChannel tag channel kind base size port number ring cls options) s = .next (s.take _ _) := rfl
  rw [← Host.Outcome.next.inj (meaning.symm.trans run), take_eq take]
  simp only [inRange_some named, read, same, decided]

/-- An OPEN refused by the checks of R4. -/
theorem open_refused {t : State} {tag : Half} {channel kind : Byte} {base : Address} {size : Half}
    {port number ring cls options : Byte} {q : OpenRequest} {result : Result}
    (take : s.canTake (.openChannel tag channel kind base size port number ring cls options))
    (run : exec (.openChannel tag channel kind base size port number ring cls options) s = .next t) (named : channel.toNat = c.val)
    (read : readOpen kind base size port number ring cls options = some q) (refused : result ≠ .ok)
    (decided : s.dev.openResult c q = result) : s.becomes t (s.dev.answered channel tag result 0) := by
  rw [open_answers take run named read decided, if_neg refused]
  exact becomes_settle rfl

/-- Settles O21: the checks are read off the command's meaning in their order. -/
theorem openRefusedByFirstCheck : Obligations.OpenRefusedByFirstCheck := by
  intro tag channel kind base size port number ring cls options s take
  refine ⟨_, rfl, fun big => take_answers take ?_, fun c named => ?_⟩
  · simp only [inRange_none big]
    rfl
  intro good
  refine ⟨fun bad => take_answers take ?_, ?_⟩
  · simp only [inRange_some named, readOpen_none bad]
    rfl
  · rintro p n r ⟨hk, -, -, -, hb, hs, hc, ho⟩ hp hn hr closed held discarding
    obtain ⟨q, read, rfl, rfl, rfl, way, inn⟩ := readOpen_some hk hp hn hr hb hs hc ho
    have heldIff : s.dev.keyHeld q.port q.number (q.kind == .out) = true ↔ held := by rw [keyHeld_iff, way]
    refine ⟨fun bad => open_refused take rfl named read (by decide) (openResult_badState bad),
      fun ok isHeld => open_refused take rfl named read (by decide) ?_,
      fun ok free isDiscarding => open_refused take rfl named read (by decide) ?_⟩
    · rw [openResult_later ok.1 ok.2, if_pos (heldIff.mpr isHeld)]
    · rw [openResult_later ok.1 ok.2, if_neg (mt heldIff.mp free), if_pos ⟨inn.mpr isDiscarding.1, isDiscarding.2⟩]

/-! ## What OPEN writes (R1, R4, R20, R91) -/

/-- A class list is no part of the steady part. -/
theorem enlist_steady (d : Device) (c : ChannelId) : (d.enlist c).steady = d.steady := steady_modPort rfl

/-- A notice is posted on NQ and reaches no port. -/
theorem noticed_port (d : Device) (b : NoticeBody) (p : PortId) : (d.noticed b).port p = d.port p := rfl

/-- A channel enlisted stands in its class list. -/
theorem enlist_mem (port : (d.chan c).port = p) (cls : (d.chan c).cls = k) : c ∈ ((d.enlist c).port p).classes.get k := by
  rw [← port, ← cls]
  exact mem_classes_enlist d c

/-- An OUT channel opened stands in its class list at the end of the event. -/
theorem openWith_mem {q : OpenRequest} (kind : q.kind = .out) (b : NoticeBody) :
    c ∈ (((d.openWith c q).noticed b).settle.port q.port).classes.get q.cls := by
  rw [Device.openWith, if_pos kind, Device.sameClasses.settle (Device.sameClasses.self _), noticed_port]
  refine enlist_mem ?_ ?_ <;> rw [install_chan] <;> rfl

/-- Settles O22: the request read from the record is the context written, and the half is found by its key. -/
theorem openWritesContext : Obligations.OpenWritesContext := by
  intro tag channel kind base size port number ring cls options s c p n r k take named hp hn hr hb hs closed set free
  refine ⟨_, rfl, ?_, ?_⟩
  · rintro rfl hk
    obtain ⟨q, hq, read⟩ : ∃ q, q = _ ∧ readOpen 0 base size port number ring cls options = some q :=
      ⟨_, rfl, readOpen_out hp hn hr hk hb hs⟩
    have kind : q.kind = .out := by rw [hq]
    have made := open_answers take rfl named read (by subst hq; exact openResult_passes closed set free (by simp))
    rw [if_pos rfl, commandDone_eq] at made
    rw [made]
    refine ⟨becomes_settle ?_, ?_⟩
    · rw [openWith_out kind, noticed_congr _ (enlist_steady _ _) rfl]
      subst hq
      rfl
    · have mem := openWith_mem (c := c) (d := s.dev.afterTake) kind (.commandDone channel .ok tag 0)
      rw [show q.port = p by rw [hq], show q.cls = k by rw [hq]] at mem
      dsimp only
      exact mem
  · rintro policy rfl quiet overflow
    obtain ⟨q, rfl, read⟩ : ∃ q, q = _ ∧ readOpen 1 base size port number ring cls options = some q :=
      ⟨_, rfl, readOpen_in hp hn hr (optOverflow_named overflow) hb hs⟩
    have made := open_answers take rfl named read (openResult_passes closed set free fun _ => quiet)
    rw [if_pos rfl, openWith_in rfl, commandDone_eq] at made
    rw [made]
    exact becomes_settle rfl

end Sys2Proof.Opening
end

section
/-! SUPPORT. OPEN_RELAY: its checks in order, and the pair it opens (R5, R22, R91, R127, R128, R141). -/

namespace Sys2Proof.Opening

open Sys2Proof.Machine Sys2Proof.Engaging Sys2Proof.ChannelRoles

variable {s t : State} {d e : Device} {i o : ChannelId} {q : RelayRequest} {result : Result} {tag : Half}
  {inbound outbound inPort inNumber outPort outNumber cls cells options : Byte}

/-! ## The checks of OPEN_RELAY in order (R5, R128) -/

/-- A key of one of the two halves is held. -/
theorem relayKeys_iff :
    (d.keyHeld q.inPort q.inNumber false || d.keyHeld q.outPort q.outNumber true) = true ↔
      ∃ e : ChannelId, (d.chan e).state ≠ .closed ∧
        ((d.chan e).port = q.inPort ∧ (d.chan e).number = q.inNumber ∧ (d.chan e).isOutbound = false ∨
          (d.chan e).port = q.outPort ∧ (d.chan e).number = q.outNumber ∧ (d.chan e).isOutbound = true) := by
  rw [Bool.or_eq_true, keyHeld_iff, keyHeld_iff, ← exists_or]
  exact exists_congr fun e => and_or_left.symm

theorem openPairResult_badState (bad : ¬ ((d.chan i).state = .closed ∧ (d.chan o).state = .closed)) :
    d.openPairResult i o q = .badState := if_pos (not_and_or.mp bad)

theorem openPairResult_later (closed : (d.chan i).state = .closed ∧ (d.chan o).state = .closed) :
    d.openPairResult i o q =
      if d.keyHeld q.inPort q.inNumber false || d.keyHeld q.outPort q.outNumber true then .keyInUse
      else if (d.inHalf q.inPort q.inNumber).discard then .busy
      else if d.relay.free.length < q.cells then .noResource
      else .ok := if_neg fun use => not_and_or.mpr use closed

/-- What an OPEN_RELAY makes of the state once it is taken, its parameters in range. -/
theorem openRelay_answers
    (take : s.canTake (.openRelay tag inbound outbound inPort inNumber outPort outNumber cls cells options))
    (run : exec (.openRelay tag inbound outbound inPort inNumber outPort outNumber cls cells options) s = .next t)
    (inNamed : inbound.toNat = i.val) (outNamed : outbound.toNat = o.val) (apart : i ≠ o)
    (read : readRelay inPort inNumber outPort outNumber cls cells options = some q) (decided : s.dev.openPairResult i o q = result) :
    t = { s with
      dev := ((if result = .ok then s.dev.afterTake.openPair i o q else s.dev.afterTake).commandDone inbound tag result 0).settle } := by
  have same : s.dev.afterTake.openPairResult i o q = s.dev.openPairResult i o q := rfl
  have meaning : exec (.openRelay tag inbound outbound inPort inNumber outPort outNumber cls cells options) s = .next (s.take _ _) := rfl
  rw [← Host.Outcome.next.inj (meaning.symm.trans run), take_eq take]
  simp only [inRange_some inNamed, inRange_some outNamed, read, if_neg apart, same, decided]

/-- An OPEN_RELAY refused by the later checks. -/
theorem openRelay_refused
    (take : s.canTake (.openRelay tag inbound outbound inPort inNumber outPort outNumber cls cells options))
    (run : exec (.openRelay tag inbound outbound inPort inNumber outPort outNumber cls cells options) s = .next t)
    (inNamed : inbound.toNat = i.val) (outNamed : outbound.toNat = o.val) (apart : i ≠ o)
    (read : readRelay inPort inNumber outPort outNumber cls cells options = some q) (refused : result ≠ .ok)
    (decided : s.dev.openPairResult i o q = result) : s.becomes t (s.dev.answered inbound tag result 0) := by
  rw [openRelay_answers take run inNamed outNamed apart read decided, if_neg refused]
  exact becomes_settle rfl

/-- Settles O23: the checks are read off the command's meaning in their order; equal indices count as a parameter out of range. -/
theorem openRelayRefusedByFirstCheck : Obligations.OpenRelayRefusedByFirstCheck := by
  intro tag inbound outbound inPort inNumber outPort outNumber cls cells options s take
  refine ⟨_, rfl, ?_, fun i o inNamed outNamed => ?_⟩
  · rintro (big | big)
    · refine take_answers take ?_
      simp only [inRange_none big]
      rfl
    · refine take_answers take ?_
      simp only [inRange_none big]
      cases inRange 64 inbound <;> rfl
  intro good
  refine ⟨fun bad => take_answers take ?_, ?_⟩
  · simp only [inRange_some inNamed, inRange_some outNamed]
    by_cases apart : i = o
    · cases readRelay inPort inNumber outPort outNumber cls cells options with
      | none => rfl
      | some q => exact if_pos apart
    · rw [readRelay_none fun ranges => bad ⟨apart, ranges⟩]
      rfl
  · rintro p q n m ⟨apart, -, -, -, -, hk, some_, few, policy⟩ hp hn hq hm closed held discarding
    obtain ⟨f, named⟩ := Option.ne_none_iff_exists'.mp (mt (optOverflow_none_iff options).mp fun three => by
      rw [three] at policy
      exact absurd policy (by decide))
    have real := (optOverflow_ne_chain_iff options f named).mpr policy
    have read := readRelay_some (k := ⟨cls.toNat, hk⟩) hp hn hq hm rfl named real some_ few
    refine ⟨fun bad => openRelay_refused take rfl inNamed outNamed apart read (by decide) (openPairResult_badState bad),
      fun ok isHeld => openRelay_refused take rfl inNamed outNamed apart read (by decide) ?_,
      fun ok free isDiscarding => openRelay_refused take rfl inNamed outNamed apart read (by decide) ?_,
      fun ok free quiet short => openRelay_refused take rfl inNamed outNamed apart read (by decide) ?_⟩
    · rw [openPairResult_later ok, if_pos (relayKeys_iff.mpr isHeld)]
    · rw [openPairResult_later ok, if_neg (mt relayKeys_iff.mp free), if_pos isDiscarding]
    · rw [openPairResult_later ok, if_neg (mt relayKeys_iff.mp free), if_neg quiet, if_pos short]

/-! ## What OPEN_RELAY writes (R5, R22, R91, R127, R128, R141) -/

/-- The blocks once both contexts of a pair are written and each owns its half. -/
theorem openPair_installed :
    ((d.reserveCells i o q.cells).install i (q.inbound o)).install o (q.outbound i) =
      { ((((d.modRelay fun u =>
              { u with
                free := u.free.drop q.cells
                pairs :=
                  u.pairs.set i
                    (some
                      { inbound := i, outbound := o, reserved := q.cells, spare := u.free.take q.cells, filling := none,
                        queue := [], cut := false })
                counters := u.counters.set i RelayCounters.zero }).modChan i fun _ => q.inbound o d.serial).modIn q.inPort q.inNumber
            fun h => { h with owner := some i }).modChan o fun _ => q.outbound i (d.serial + 1)).modOut q.outPort q.outNumber
          fun h => { h with owner := some o } with
        serial := d.serial + 2 } := by
  rw [install_in _ i _ rfl, install_out _ o _ rfl]
  rfl

/-- The pair enlisted, its generator run and its command answered: all but the contexts, the halves and the notice is steady. -/
theorem openPair_steady (b : NoticeBody) :
    ((d.openPair i o q).noticed b).steady =
      ((((d.reserveCells i o q.cells).install i (q.inbound o)).install o (q.outbound i)).noticed b).steady := by
  rw [Device.openPair]
  refine noticed_congr b ?_ ?_
  · rw [runGenerator_steady, enlist_steady]
  · rw [runGenerator_serial, Device.enlist, modPort_serial]

theorem openPair_mem (b : NoticeBody) : o ∈ (((d.openPair i o q).noticed b).settle.port q.outPort).classes.get q.cls := by
  rw [Device.sameClasses.settle (Device.sameClasses.self _), noticed_port, Device.openPair, runGenerator_classes]
  refine enlist_mem ?_ ?_ <;> rw [install_chan] <;> rfl

/-- Settles O24: the request read from the record gives both contexts, and the generator, which runs for the new inbound half, is steady
work. -/
theorem openRelayWritesPair : Obligations.OpenRelayWritesPair := by
  intro tag inbound outbound inPort inNumber outPort outNumber cls cells options s i o p q n m k policy take inNamed outNamed apart hp hn
    hq hm hk some_ few bits inClosed outClosed free quiet enough
  obtain ⟨named, real⟩ : optOverflow options = some policy ∧ policy ≠ .chain := by
    rcases bits with ⟨rfl, zero⟩ | ⟨rfl, one⟩
    · exact ⟨optOverflow_named zero, by decide⟩
    · exact ⟨optOverflow_named one, by decide⟩
  obtain ⟨w, hw, read⟩ : ∃ w, w = _ ∧ readRelay inPort inNumber outPort outNumber cls cells options = some w :=
    ⟨_, rfl, readRelay_some hp hn hq hm hk named real some_ few⟩
  have passes : s.dev.openPairResult i o w = .ok := by
    have unheld : ¬ (s.dev.keyHeld w.inPort w.inNumber false || s.dev.keyHeld w.outPort w.outNumber true) = true := fun held => by
      obtain ⟨e, use, key⟩ := relayKeys_iff.mp held
      subst hw
      exact not_or.mpr (free e use) key
    subst hw
    rw [openPairResult_later ⟨inClosed, outClosed⟩, if_neg unheld, if_neg (by simp [quiet]), if_neg (Nat.not_lt.mpr enough)]
  have made := openRelay_answers take rfl inNamed outNamed apart read passes
  rw [if_pos rfl, commandDone_eq] at made
  refine ⟨_, rfl, ?_⟩
  rw [made]
  constructor
  · refine becomes_settle ?_
    rw [openPair_steady, openPair_installed]
    subst hw
    rfl
  · have mem := openPair_mem (d := s.dev.afterTake) (i := i) (o := o) (q := w) (.commandDone inbound .ok tag 0)
    rw [show w.outPort = q by rw [hw], show w.cls = k by rw [hw]] at mem
    dsimp only
    exact mem

end Sys2Proof.Opening
end

section
/-! SUPPORT. CLOSE: the refusals of R9, the revoke an inbound channel asks for, and the graceful closes of OUT and IN channels (R9 to R11,
R15, R16, R34). -/

namespace Sys2Proof.Closes

open Sys2Proof.Machine Sys2Proof.Engaging Sys2Proof.LinkBytes

variable {s t : State} {d e : Device} {c : ChannelId} {p : PortId} {n : LinkNumber} {tag : Half} {channel mode subject : Byte}

/-! ## The refusals (R9) -/

/-- The result with which a CLOSE of a mode is refused in a channel state. -/
def closeRefusal : ChannelState → CloseMode → Option Result
  | .closed, _ => some .badState
  | .aborting, _ => some .busy
  | .draining, .graceful => some .busy
  | .faulted, .graceful => some .badState
  | _, _ => none

theorem decideClose_refuses {m : CloseMode} {r : Result} (h : closeRefusal (d.chan c).state m = some r) :
    d.decideClose c m tag subject = d.commandDone subject tag r 0 := by
  unfold Device.decideClose
  split <;> next state => rw [state] at h; cases h <;> rfl

/-- A CLOSE GRACEFUL of a channel of the table. -/
theorem gracefulClose_answers (take : s.canTake (.closeGraceful tag channel 0)) (named : channel.toNat = c.val)
    (run : exec (.closeGraceful tag channel 0) s = .next t) :
    t = { s with dev := (s.dev.afterTake.decideClose c .graceful tag channel).settle } := by
  have meaning : exec (.closeGraceful tag channel 0) s = .next (s.take _ _) := rfl
  rw [← Host.Outcome.next.inj (meaning.symm.trans run), take_eq take]
  simp only [inRange_some named, if_true]

/-- A CLOSE ABORT of a channel of the table. -/
theorem abortClose_answers (take : s.canTake (.closeAbort tag channel)) (named : channel.toNat = c.val)
    (run : exec (.closeAbort tag channel) s = .next t) :
    t = { s with dev := (s.dev.afterTake.decideClose c .abort tag channel).settle } := by
  have meaning : exec (.closeAbort tag channel) s = .next (s.take _ _) := rfl
  rw [← Host.Outcome.next.inj (meaning.symm.trans run), take_eq take]
  simp only [inRange_some named]

theorem decided_becomes {m : CloseMode} {D : Device} (h : (s.dev.afterTake.decideClose c m tag channel).steady = D.steady) :
    s.becomes { s with dev := (s.dev.afterTake.decideClose c m tag channel).settle } D := becomes_settle h

/-- Settles O25: the index and the mode are checked first, and the table of R9 decides the rest. -/
theorem closeRefusedByTable : Obligations.CloseRefusedByTable := by
  intro tag channel mode s
  have refused : ∀ {c : ChannelId} {m : CloseMode} {r : Result}, closeRefusal (s.dev.chan c).state m = some r →
      (s.dev.afterTake.decideClose c m tag channel).steady = (s.dev.answered channel tag r 0).steady := fun h => by
    rw [decideClose_refuses (d := s.dev.afterTake) h]
    rfl
  refine ⟨fun take => ⟨_, rfl, fun big => take_answers take ?_, fun c named => ⟨fun other => take_answers take ?_, ?_⟩⟩,
    fun take => ⟨_, rfl, fun big => take_answers take ?_, fun c named => ?_⟩⟩
  · simp only [inRange_none big]
    rfl
  · simp only [inRange_some named, if_neg other]
    rfl
  · rintro rfl
    rw [gracefulClose_answers take named rfl]
    constructor
    · rintro (state | state) <;> exact decided_becomes (refused (by rw [state]; rfl))
    · rintro (state | state) <;> exact decided_becomes (refused (by rw [state]; rfl))
  · simp only [inRange_none big]
    rfl
  · rw [abortClose_answers take named rfl]
    exact ⟨fun state => decided_becomes (refused (by rw [state]; rfl)), fun state => decided_becomes (refused (by rw [state]; rfl))⟩

theorem decideClose_graceful (opened : (d.chan c).state = .opened) :
    d.decideClose c .graceful tag subject = d.takeGraceful c tag subject := by
  unfold Device.decideClose
  rw [opened]

/-- The states from which a CLOSE ABORT is taken. -/
theorem decideClose_abort (live : (d.chan c).state = .opened ∨ (d.chan c).state = .draining ∨ (d.chan c).state = .faulted) :
    d.decideClose c .abort tag subject = d.takeAbort c tag subject := by
  unfold Device.decideClose
  rcases live with state | state | state <;> rw [state]

/-! ## Whether a closing channel has nothing left to wait for (R10 to R13) -/

theorem tryClose_waits (h : d.closeDone c = false) : d.tryClose c = d := if_neg (by rw [h]; decide)

theorem tryClose_host (host : (d.chan c).isRelay = false) (h : d.closeDone c = true) : d.tryClose c = d.finishChannel c := by
  unfold Device.tryClose
  rw [if_pos h, if_neg (by rw [host]; decide)]

theorem closeDone_outDraining (kind : (d.chan c).kind = .out) (state : (d.chan c).state = .draining) :
    d.closeDone c = true ↔ (d.chan c).out.phase ≠ .started ∧ ¬ ((d.chan c).out.phase = .ready ∧ (d.chan c).out.restarted = true) := by
  simp [Device.closeDone, kind, state, imp_iff_not_or]

theorem closeDone_outAborting (kind : (d.chan c).kind = .out) (state : (d.chan c).state = .aborting) :
    d.closeDone c = !(d.outHalf (d.chan c).port (d.chan c).number).openMark := by
  simp [Device.closeDone, kind, state]

theorem closeDone_inDraining (kind : (d.chan c).kind = .inn) (state : (d.chan c).state = .draining) :
    d.closeDone c = (!((d.chan c).revoke == .waiting) && !(d.inHalf (d.chan c).port (d.chan c).number).openMark) := by
  simp [Device.closeDone, kind, state]

theorem closeDone_inAborting (kind : (d.chan c).kind = .inn) (state : (d.chan c).state = .aborting) :
    d.closeDone c = !((d.chan c).revoke == .waiting) := by
  simp [Device.closeDone, kind, state]

/-! ## A CLOSE taken -/

/-- A channel as a CLOSE moves it. -/
def moved (st : ChannelState) (m : CloseMode) (tag : Half) (x : Channel) : Channel := { x with state := st, pendingClose := some (m, tag) }

/-- The blocks once a CLOSE is deferred and has moved its channel (R9, R160). -/
def closing (d : Device) (c : ChannelId) (st : ChannelState) (m : CloseMode) (tag : Half) (subject : Byte) : Device :=
  (d.defer (.close m c) tag subject).startClose c st m tag

@[simp] theorem closing_chan (d : Device) (c : ChannelId) (st : ChannelState) (m : CloseMode) (tag : Half) (subject : Byte) :
    (closing d c st m tag subject).chan c = moved st m tag (d.chan c) := chan_modChan_self _ _ _

@[simp] theorem closing_port (d : Device) (c : ChannelId) (st : ChannelState) (m : CloseMode) (tag : Half) (subject : Byte) (p : PortId) :
    (closing d c st m tag subject).port p = d.port p := rfl

/-- Two devices that agree but for one channel, seen past a second change of it. -/
theorem sameBut_trans {f : Device} (h : SameBut f e c) (g : SameBut e d c) : SameBut f d c :=
  ⟨h.cu.trans g.cu, fun k hk => (h.chan k hk).trans (g.chan k hk), fun q => (h.port q).trans (g.port q),
    fun r => (h.ring r).trans (g.ring r), h.relay.trans g.relay, h.lost.trans g.lost, h.buffers.trans g.buffers,
    h.serial.trans g.serial⟩

theorem sameBut_modChan (d : Device) (c : ChannelId) (f : Channel → Channel) : SameBut (d.modChan c f) d c :=
  ⟨rfl, fun k hk => by rw [chan_modChan, if_neg (Ne.symm hk)], fun _ => rfl, fun _ => rfl, rfl, rfl, rfl, rfl⟩

theorem closing_sameBut {st : ChannelState} {m : CloseMode} :
    SameBut (closing d c st m tag subject) (d.defer (.close m c) tag subject) c := by
  unfold closing Device.startClose
  exact sameBut_modChan _ _ _

/-- A channel that reaches CLOSED at the take of its CLOSE, by either mode: what happened on the way to it is its own or not steady. -/
theorem finishes_at_once {m : CloseMode} (pending : s.noClosePending c)
    (same : SameBut e (s.dev.afterTake.defer (.close m c) tag channel) c)
    (kept : (e.chan c).kind = (s.dev.chan c).kind ∧ (e.chan c).port = (s.dev.chan c).port ∧
      (e.chan c).number = (s.dev.chan c).number ∧ (e.chan c).counters = (s.dev.chan c).counters)
    (retire : (e.chan c).retire = (s.dev.chan c).retire) :
    (e.finishChannel c).steady = ((s.dev.answered channel tag .ok (s.dev.chan c).retire).contextCleared c).steady :=
  finishChannel_steady (d := s.dev.afterTake) pending.1 pending.2 same.cu (fun k hk => by rw [same.chan k hk]; rfl) kept retire same.port
    same.ring same.relay same.lost same.buffers same.serial

/-! ## The graceful close of an OUT channel (R10, R15) -/

theorem takeGraceful_out (kind : (d.chan c).kind = .out) :
    d.takeGraceful c tag subject = ((closing d c .draining .graceful tag subject).gracefulOut c).tryClose c := by
  unfold Device.takeGraceful
  rw [pairIndex_self (by rw [kind]; decide), kind]
  rfl

/-- A channel whose request does not wait withdraws none. -/
theorem withdrawRequest_idle (h : (d.chan c).out.phase ≠ .waiting) : d.withdrawRequest c = d := if_neg (by simpa using h)

theorem gracefulOut_eq (link : d.linkUp c = true ∨ (d.chan c).restartedReady = false) : d.gracefulOut c = d.withdrawRequest c := by
  unfold Device.gracefulOut
  refine if_neg ?_
  rw [Bool.and_eq_true, Bool.not_eq_true']
  rintro ⟨down, restarted⟩
  by_cases waits : (d.chan c).out.phase = .waiting
  · rw [(withdrawRequest_spec d c).2, if_pos waits] at restarted
    simp [Channel.restartedReady] at restarted
  · rw [withdrawRequest_idle waits] at down restarted
    rcases link with up | fresh
    · rw [up] at down
      cases down
    · rw [fresh] at restarted
      cases restarted

theorem restartedReady_false {x : Channel} (h : ¬ (x.out.phase = .ready ∧ x.out.restarted = true)) : x.restartedReady = false := by
  simp only [Channel.restartedReady, Bool.and_eq_false_iff, beq_eq_false_iff_ne]
  simp only [not_and_or, Bool.not_eq_true] at h
  tauto

/-- Settles O26: the record of a message on the link, or set back to be started again, is all a drain waits for. -/
theorem gracefulCloseOfOutChannel : Obligations.GracefulCloseOfOutChannel := by
  intro tag channel c s take named opened kind started restarted
  refine ⟨_, rfl, ?_, ?_⟩
  all_goals rw [gracefulClose_answers take named rfl]
  · intro waits
    refine decided_becomes ?_
    have idle : (s.dev.chan c).out.phase ≠ .waiting := by rcases waits with h | ⟨⟨h, -⟩, -⟩ <;> (rw [h]; decide)
    have link : (closing s.dev.afterTake c .draining .graceful tag channel).linkUp c = true ∨
        (moved .draining .graceful tag (s.dev.chan c)).restartedReady = false := by
      rcases waits with h | ⟨-, up⟩
      · exact .inr (restartedReady_false fun ready => by cases h.symm.trans ready.1)
      · exact .inl (by rw [Device.linkUp, closing_chan]; exact up)
    have waiting : (closing s.dev.afterTake c .draining .graceful tag channel).closeDone c = false := by
      rw [← Bool.not_eq_true, closeDone_outDraining (by rw [closing_chan]; exact kind) (by rw [closing_chan]; rfl), closing_chan]
      rcases waits with h | ⟨h, -⟩
      · exact fun done => done.1 h
      · exact fun done => done.2 h
    rw [decideClose_graceful (d := s.dev.afterTake) opened, takeGraceful_out (d := s.dev.afterTake) kind,
      gracefulOut_eq (by rw [closing_chan]; exact link), withdrawRequest_idle (by rw [closing_chan]; exact idle), tryClose_waits waiting]
    rfl
  · intro idle fresh pending
    refine decided_becomes ?_
    obtain ⟨same, left⟩ := withdrawRequest_spec (closing s.dev.afterTake c .draining .graceful tag channel) c
    rw [closing_chan] at left
    have done : ((closing s.dev.afterTake c .draining .graceful tag channel).withdrawRequest c).closeDone c = true := by
      rw [closeDone_outDraining (by rw [left]; exact kind) (by rw [left]; rfl), left]
      dsimp only
      split
      · exact ⟨fun h => (by cases h), fun h => by cases h.1⟩
      · exact ⟨idle, fresh⟩
    have host : (((closing s.dev.afterTake c .draining .graceful tag channel).withdrawRequest c).chan c).isRelay = false :=
      (EngineWindow.isRelay_false_iff _).mpr (.inl (by rw [left]; exact kind))
    rw [decideClose_graceful (d := s.dev.afterTake) opened, takeGraceful_out (d := s.dev.afterTake) kind,
      gracefulOut_eq (.inr (by rw [closing_chan]; exact restartedReady_false fresh)), tryClose_host host done]
    exact finishes_at_once pending (sameBut_trans same closing_sameBut) (by rw [left]; exact ⟨rfl, rfl, rfl, rfl⟩) (by rw [left]; rfl)

/-! ## The revoke an inbound channel asks for (R11, R13, R15, R34) -/

/-- The half whose port is engaged has its revoke pending and queued once, and the channel waits for it. -/
theorem askRevoke_up (up : (d.port (d.chan c).port).up = true) :
    (d.askRevoke c).steady =
        (((d.modChan c fun x => { x with revoke := .waiting }).modIn (d.chan c).port (d.chan c).number
            fun h => { h with revokePending := true }).modPort (d.chan c).port fun x =>
          { x with
            control :=
              if (d.inHalf (d.chan c).port (d.chan c).number).revokePending then x.control
              else x.control ++ [.revoke (d.chan c).number] }).steady ∧
      (d.askRevoke c).chan c = { d.chan c with revoke := .waiting } := by
  obtain ⟨steady, -, -, chan, -⟩ := requestRevoke_up (n := (d.chan c).number) up
  have waits : d.askRevoke c =
      (d.requestRevoke (d.chan c).port (d.chan c).number).modChan c fun x => { x with revoke := .waiting } := by
    unfold Device.askRevoke
    rw [show d.linkUp c = true from up, if_pos rfl]
  rw [waits]
  constructor
  · exact steady_modChan_congr c _ steady fun x y same => by
      simp only [Channel.steady, Channel.mk.injEq] at same ⊢
      simp [same]
  · rw [chan_modChan_self, chan]

/-- On a port that is not engaged the revoke is over at once, and the half keeps what stands there. -/
theorem askRevoke_down (down : (d.port (d.chan c).port).up = false) :
    SameBut (d.askRevoke c) d c ∧ (d.askRevoke c).chan c = { d.chan c with revoke := .gone } ∧ ∀ q, (d.askRevoke c).port q = d.port q := by
  have waits : d.askRevoke c =
      (d.requestRevoke (d.chan c).port (d.chan c).number).modChan c fun x => { x with revoke := .gone } := by
    unfold Device.askRevoke
    rw [show d.linkUp c = false from down]
    rfl
  have dropped : SameBut (d.requestRevoke (d.chan c).port (d.chan c).number) d c ∧
      (d.requestRevoke (d.chan c).port (d.chan c).number).chan c = d.chan c ∧
      ∀ q, (d.requestRevoke (d.chan c).port (d.chan c).number).port q = d.port q := by
    unfold Device.requestRevoke
    simp only [down, Bool.false_eq_true, if_false]
    cases (d.inHalf (d.chan c).port (d.chan c).number).owner with
    | none => exact ⟨⟨rfl, fun _ _ => rfl, fun _ => rfl, fun _ => rfl, rfl, rfl, rfl, rfl⟩, rfl, fun _ => rfl⟩
    | some b =>
      refine ⟨⟨rfl, fun _ _ => rfl, fun _ => rfl, fun r => ?_, rfl, rfl, rfl, rfl⟩, rfl, fun _ => rfl⟩
      exact ring_of_steady (unwait_steady d (cqRing (d.chan b).ring) (.inHalf (d.chan c).port (d.chan c).number)) r
  obtain ⟨same, chan, port⟩ := dropped
  rw [waits]
  exact ⟨sameBut_trans (sameBut_modChan _ _ _) same, by rw [chan_modChan_self, chan], port⟩

/-! ## The graceful close of an IN channel (R11, R15) -/

theorem takeGraceful_in (kind : (d.chan c).kind = .inn) :
    d.takeGraceful c tag subject = ((closing d c .draining .graceful tag subject).askRevoke c).tryClose c := by
  unfold Device.takeGraceful
  rw [pairIndex_self (by rw [kind]; decide), kind]
  rfl

/-- A CLOSE of either mode whose channel asks for its revoke on an engaged port, beside what the take deferred. -/
theorem closing_askRevoke {st : ChannelState} {m : CloseMode} (up : (s.dev.port (s.dev.chan c).port).up = true) :
    ((closing s.dev.afterTake c st m tag channel).askRevoke c).steady =
      ((((s.dev.modChan c fun x => { x with state := st, pendingClose := some (m, tag), revoke := .waiting }).modIn
          (s.dev.chan c).port (s.dev.chan c).number fun h => { h with revokePending := true }).modPort (s.dev.chan c).port fun x =>
        { x with
          control :=
            if (s.dev.inHalf (s.dev.chan c).port (s.dev.chan c).number).revokePending then x.control
            else x.control ++ [.revoke (s.dev.chan c).number] }).deferred (.close m c) tag channel).steady := by
  have asked := (askRevoke_up (d := closing s.dev.afterTake c st m tag channel) (c := c) (by rw [closing_chan]; exact up)).1
  rw [closing_chan, closing, Device.startClose, modChan_modChan] at asked
  exact asked

/-- Settles O27: the revoke of an engaged port is what the drain waits for. -/
theorem gracefulCloseOfInChannel : Obligations.GracefulCloseOfInChannel := by
  intro tag channel c s take named opened kind p n
  refine ⟨_, rfl, ?_, ?_⟩
  all_goals rw [gracefulClose_answers take named rfl]
  · intro up
    refine decided_becomes ?_
    have chan := (askRevoke_up (d := closing s.dev.afterTake c .draining .graceful tag channel) (c := c)
      (by rw [closing_chan]; exact up)).2
    have waiting : ((closing s.dev.afterTake c .draining .graceful tag channel).askRevoke c).closeDone c = false := by
      rw [closeDone_inDraining (by rw [chan, closing_chan]; exact kind) (by rw [chan, closing_chan]; rfl), chan]
      rfl
    rw [decideClose_graceful (d := s.dev.afterTake) opened, takeGraceful_in (d := s.dev.afterTake) kind, tryClose_waits waiting]
    exact closing_askRevoke up
  · intro down closed pending
    refine decided_becomes ?_
    obtain ⟨same, chan, port⟩ := askRevoke_down (d := closing s.dev.afterTake c .draining .graceful tag channel) (c := c)
      (by rw [closing_chan]; exact down)
    rw [closing_chan] at chan
    have done : ((closing s.dev.afterTake c .draining .graceful tag channel).askRevoke c).closeDone c = true := by
      rw [closeDone_inDraining (by rw [chan]; exact kind) (by rw [chan]; rfl), chan, Device.inHalf, port]
      change (!(s.dev.inHalf p n).openMark) = true
      rw [closed]
      rfl
    have host : (((closing s.dev.afterTake c .draining .graceful tag channel).askRevoke c).chan c).isRelay = false :=
      (EngineWindow.isRelay_false_iff _).mpr (.inr (by rw [chan]; exact kind))
    rw [decideClose_graceful (d := s.dev.afterTake) opened, takeGraceful_in (d := s.dev.afterTake) kind, tryClose_host host done]
    exact finishes_at_once pending (sameBut_trans same closing_sameBut) (by rw [chan]; exact ⟨rfl, rfl, rfl, rfl⟩) (by rw [chan]; rfl)

end Sys2Proof.Closes
end

section
/-! SUPPORT. CLOSE ABORT of an OUT channel: the abandon of its open message, and the escalation of a drain (R12, R14, R18, R36). -/

namespace Sys2Proof.Closes

open Sys2Proof.Machine Sys2Proof.Engaging Sys2Proof.LinkBytes

variable {s t : State} {d e : Device} {c : ChannelId} {p : PortId} {n : LinkNumber} {tag : Half} {channel subject : Byte}

/-! ## The class lists are not steady -/

theorem delist_steady (x : Port) (c : ChannelId) : (x.delist c).steady = x.steady := by
  unfold Port.delist
  dsimp only
  split
  · split <;> rfl
  · rfl

theorem delist_sameBut (d : Device) (c : ChannelId) : SameBut (d.delist c) d c :=
  ⟨rfl, fun _ _ => rfl, fun q => port_of_steady (steady_modPort (delist_steady _ c)) q, fun _ => rfl, rfl, rfl, rfl, rfl⟩

theorem defer_sameBut (w : DeferredWork) (h : SameBut e d c) : SameBut (e.defer w tag subject) (d.defer w tag subject) c :=
  ⟨by rw [Device.defer, Device.modCu, h.cu]; rfl, h.chan, h.port, h.ring, h.relay, h.lost, h.buffers, h.serial⟩

/-- A request withdrawn leaves the ports. -/
theorem port_withdrawRequest (d : Device) (c : ChannelId) : (d.withdrawRequest c).port p = d.port p := by
  unfold Device.withdrawRequest
  split <;> rfl

/-! ## The abandon of an open message (R36) -/

/-- A port with an abandon queued for a number, unless one stands in its list. -/
def asksAbandon (n : LinkNumber) (x : Port) : Port :=
  { x with control := if x.control.contains (.abandon n) then x.control else x.control ++ [.abandon n] }

theorem asksAbandon_congr {x y : Port} (h : x.steady = y.steady) : (asksAbandon n x).steady = (asksAbandon n y).steady := by
  have listed : ∀ z : Port, z.control.contains (.abandon n) = z.steady.control.contains (.abandon n) := fun z => by
    rw [Bool.eq_iff_iff]
    simp [Port.steady, ControlEntry.isGrant]
  have asked : ∀ z : Port, (asksAbandon n z).steady =
      { z.steady with control := if z.steady.control.contains (.abandon n) then z.steady.control else z.steady.control ++ [.abandon n] } := by
    intro z
    rw [← listed]
    unfold asksAbandon
    split <;> simp [Port.steady, ControlEntry.isGrant]
  rw [asked, asked, h]

theorem requestAbandon_open (marked : (d.outHalf p n).openMark = true) : d.requestAbandon p n = d.modPort p (asksAbandon n) := by
  unfold Device.requestAbandon
  rw [marked, Bool.true_and]
  by_cases listed : (d.port p).control.contains (.abandon n) = true
  · have same : asksAbandon n (d.port p) = d.port p := by
      unfold asksAbandon
      rw [if_pos listed]
    rw [listed, modPort_eq_self _ _ same]
    rfl
  · rw [if_pos (by simpa using listed)]
    refine modPort_congr _ _ ?_
    unfold asksAbandon
    rw [if_neg listed]

theorem requestAbandon_shut (shut : (d.outHalf p n).openMark = false) : d.requestAbandon p n = d := by
  unfold Device.requestAbandon
  rw [shut]
  rfl

/-- A channel out of the class lists keeps its half. -/
theorem outHalf_delist (q : PortId) : (d.delist c).outHalf q n = d.outHalf q n := by
  unfold Device.outHalf
  rw [Device.delist, port_modPort]
  split
  · next same =>
    subst same
    have map : ∀ x : Port, (x.delist c).map = x.map := fun x => by
      unfold Port.delist
      dsimp only
      split
      · split <;> rfl
      · rfl
    rw [Port.entry, Port.entry, map]
  · rfl

/-! ## The abortive close -/

/-- A CLOSE ABORT of an OUT channel that is not DRAINING has nothing to supersede. -/
theorem takeAbort_out (kind : (d.chan c).kind = .out) (from_ : (d.chan c).state ≠ .draining) :
    d.takeAbort c tag subject =
      (((((d.startClose c .aborting .abort tag).abortOut c).defer (.close .abort c) tag subject)).abandonOpen c).tryClose c := by
  unfold Device.takeAbort
  rw [pairIndex_self (by rw [kind]; decide), kind]
  dsimp only
  rw [if_neg from_]

/-- Of a DRAINING one the graceful CLOSE completes first (R14). -/
theorem takeAbort_escalates (kind : (d.chan c).kind = .out) (from_ : (d.chan c).state = .draining) :
    d.takeAbort c tag subject =
      ((((((d.startClose c .aborting .abort tag).abortOut c).completeDeferred (isClose c) .superseded 0).defer (.close .abort c) tag
        subject)).abandonOpen c).tryClose c := by
  unfold Device.takeAbort
  rw [pairIndex_self (by rw [kind]; decide), kind]
  dsimp only
  rw [if_pos from_]

/-- What an abortive close withdraws of a channel with no record set back. -/
theorem abortOut_fresh (fresh : ¬ ((d.chan c).out.phase = .ready ∧ (d.chan c).out.restarted = true)) :
    d.abortOut c = (d.withdrawRequest c).delist c := by
  unfold Device.abortOut
  dsimp only
  refine if_neg ?_
  rw [Bool.not_eq_true]
  change ((d.withdrawRequest c).chan c).restartedReady = false
  rw [(withdrawRequest_spec d c).2]
  split
  · exact restartedReady_false fun ready => by cases ready.1
  · exact restartedReady_false fresh

/-- A STARTED message waits for no slot, and is not set back. -/
theorem abortOut_started (started : (d.chan c).out.phase = .started) : d.abortOut c = d.delist c := by
  rw [abortOut_fresh fun ready => (by cases started.symm.trans ready.1), withdrawRequest_idle (by rw [started]; decide)]

/-- The link action of an abortive close of a channel whose message is open, which then waits for it. -/
theorem abandonOpen_waits (kind : (e.chan c).kind = .out) (state : (e.chan c).state = .aborting)
    (marked : (e.outHalf (e.chan c).port (e.chan c).number).openMark = true) :
    (e.abandonOpen c).tryClose c = e.modPort (e.chan c).port (asksAbandon (e.chan c).number) := by
  rw [Device.abandonOpen, requestAbandon_open marked]
  refine tryClose_waits ?_
  rw [closeDone_outAborting (by rw [modPort_chan]; exact kind) (by rw [modPort_chan]; exact state), modPort_chan, Device.outHalf,
    port_modPort_self]
  exact congrArg Bool.not marked

/-- Blocks whose channel a CLOSE ABORT has moved, seen past the class lists. -/
theorem abandon_of_moved {f : Device} (h : e.steady = f.steady) (moves : e.chan c = moved .aborting .abort tag (d.chan c))
    (kind : (d.chan c).kind = .out) (marked : (e.outHalf (d.chan c).port (d.chan c).number).openMark = true) :
    ((e.abandonOpen c).tryClose c).steady = (f.modPort (d.chan c).port (asksAbandon (d.chan c).number)).steady := by
  rw [abandonOpen_waits (by rw [moves]; exact kind) (by rw [moves]; rfl) (by rw [moves]; exact marked), moves]
  exact steady_modPort_congr _ _ _ h fun _ _ => asksAbandon_congr

/-- Settles O28: the abandon of the message on the link is all an abortive close waits for, and a drain is superseded before it. -/
theorem abortCloseOfOutChannel : Obligations.AbortCloseOfOutChannel := by
  intro tag channel c s take named kind p n aborting open_
  have delisted : ((s.dev.afterTake.startClose c .aborting .abort tag).delist c).steady =
      (s.dev.afterTake.startClose c .aborting .abort tag).steady := steady_modPort (delist_steady _ c)
  have moves : (s.dev.afterTake.startClose c .aborting .abort tag).chan c = moved .aborting .abort tag (s.dev.chan c) :=
    chan_modChan_self _ _ _
  have half : ((s.dev.afterTake.startClose c .aborting .abort tag).delist c).outHalf p n = s.dev.outHalf p n := outHalf_delist _
  refine ⟨_, rfl, ?_, ?_, ?_⟩
  all_goals rw [abortClose_answers take named rfl]
  · rintro state ⟨marked, started⟩
    refine decided_becomes ?_
    have live : (s.dev.chan c).state ≠ .draining := by rcases state with h | h <;> (rw [h]; decide)
    rw [decideClose_abort (d := s.dev.afterTake) (by rcases state with h | h; exacts [.inl h, .inr (.inr h)]),
      takeAbort_out (d := s.dev.afterTake) kind live, abortOut_started (by rw [moves]; exact started)]
    exact abandon_of_moved (d := s.dev) (defer_congr _ _ _ delisted) moves kind ((congrArg OutHalf.openMark half).trans marked)
  · intro e rest draining ⟨marked, started⟩ list own free
    refine decided_becomes ?_
    have superseded := completeDeferred_eq (d := (s.dev.afterTake.startClose c .aborting .abort tag).delist c) (sel := isClose c)
      (r := .superseded) (k := 0) (e := e) [] rest list (fun _ none => by cases none) (by rw [own]; simp [isClose]) free
    rw [decideClose_abort (d := s.dev.afterTake) (.inr (.inl draining)), takeAbort_escalates (d := s.dev.afterTake) kind draining,
      abortOut_started (by rw [moves]; exact started), superseded]
    exact abandon_of_moved (d := s.dev) (defer_congr _ _ _ (noticed_congr _ (TakenDown.withDeferred_congr _ delisted) rfl)) moves kind
      ((congrArg OutHalf.openMark half).trans marked)
  · intro state shut fresh pending
    refine decided_becomes ?_
    have live : (s.dev.chan c).state ≠ .draining := by rcases state with h | h <;> (rw [h]; decide)
    obtain ⟨same, left⟩ := withdrawRequest_spec (s.dev.afterTake.startClose c .aborting .abort tag) c
    rw [moves] at left
    have kept : SameBut
        ((((s.dev.afterTake.startClose c .aborting .abort tag).withdrawRequest c).delist c).defer (.close .abort c) tag channel)
        (s.dev.afterTake.defer (.close .abort c) tag channel) c :=
      defer_sameBut _ (sameBut_trans (delist_sameBut _ c) (sameBut_trans same (sameBut_modChan _ c _)))
    have unasked : ((((s.dev.afterTake.startClose c .aborting .abort tag).withdrawRequest c).delist c).defer (.close .abort c) tag
        channel).outHalf p n = s.dev.outHalf p n := by
      refine (outHalf_delist _).trans ?_
      rw [Device.outHalf, port_withdrawRequest]
      rfl
    rw [decideClose_abort (d := s.dev.afterTake) (by rcases state with h | h; exacts [.inl h, .inr (.inr h)]),
      takeAbort_out (d := s.dev.afterTake) kind live, abortOut_fresh (by rw [moves]; exact fresh)]
    generalize ended : ((((s.dev.afterTake.startClose c .aborting .abort tag).withdrawRequest c).delist c).defer (.close .abort c) tag
      channel) = e at kept unasked
    have chan : e.chan c = ((s.dev.afterTake.startClose c .aborting .abort tag).withdrawRequest c).chan c := by
      rw [← ended]
      rfl
    rw [left] at chan
    rw [Device.abandonOpen, requestAbandon_shut (by rw [chan]; exact (congrArg OutHalf.openMark unasked).trans shut), tryClose_host]
    · exact finishes_at_once pending kept (by rw [chan]; exact ⟨rfl, rfl, rfl, rfl⟩) (by rw [chan]; rfl)
    · exact (EngineWindow.isRelay_false_iff _).mpr (.inl (by rw [chan]; exact kind))
    · rw [closeDone_outAborting (by rw [chan]; exact kind) (by rw [chan]; rfl), chan]
      exact congrArg Bool.not ((congrArg OutHalf.openMark unasked).trans shut)

end Sys2Proof.Closes
end

section
/-! SUPPORT. The end of an IN channel's open message in one equation, and CLOSE ABORT of an IN channel (R13, R34, R118, R123). -/

namespace Sys2Proof.Closes

open Sys2Proof.Machine Sys2Proof.Engaging Sys2Proof.LinkBytes Sys2Proof.Quiesce

variable {s t : State} {d e : Device} {c : ChannelId} {p : PortId} {n : LinkNumber} {tag : Half} {channel subject : Byte}
  {h : HostRecord} {rest : List HostRecord} {status : Status} {length : Nat}

/-! ## The end of an inbound message (R118) -/

/-- The completion of a channel's current buffer, for its head record. -/
def bufferCompletion (x : Channel) (c : ChannelId) (status : Status) (h : HostRecord) (length : Nat) : Completion :=
  { channel := c, status := status, tag := h.tag, length := length, total := sat16 x.inm.total, continued := false,
    restarted := false, buffer := x.inm.buffer }

/-- A channel once its open message has ended. -/
def messageEnded (status : Status) (rest : List HostRecord) (x : Channel) : Channel :=
  { x with
    held := rest, retire := ringAdvance x.size x.retire 1, inm := InMessage.cleared,
    counters := x.counters.receiveCompleted status }

/-- Whether a channel's conditions for a record fetch hold (R88, R109). -/
def fetches (x : Channel) : Bool := x.state == .opened && !x.isRelay && !x.fetchBusy && decide (1 ≤ x.fetchCount)

theorem fetchRecords_places (places : fetches (d.chan c) = true) :
    d.fetchRecords c =
      (d.place (.recordFetch c (d.chan c).opening) (addressAdd (d.chan c).base (16 * (d.chan c).fetch))
        (16 * (d.chan c).fetchCount) []).modChan c fun y => { y with fetchBusy := true } := if_pos places

theorem fetchRecords_idle (idle : fetches (d.chan c) = false) : d.fetchRecords c = d :=
  if_neg (show ¬ fetches (d.chan c) = true by rw [idle]; decide)

/-- Outside OPEN no record is fetched. -/
theorem fetchRecords_shut (state : (d.chan c).state ≠ .opened) : d.fetchRecords c = d :=
  fetchRecords_idle (by simp [fetches, state])

/-- A record fetch does not see the message state and the counters of its channel. -/
theorem fetchRecords_modChan (g : InMessage → InMessage) (k : ChannelCounters → ChannelCounters) :
    (d.fetchRecords c).modChan c (fun x => { x with inm := g x.inm, counters := k x.counters }) =
      (d.modChan c fun x => { x with inm := g x.inm, counters := k x.counters }).fetchRecords c := by
  have chan := chan_modChan_self (d := d) (c := c) fun x => { x with inm := g x.inm, counters := k x.counters }
  cases places : fetches (d.chan c) with
  | true =>
    rw [fetchRecords_places places, fetchRecords_places (by rw [chan]; exact places), chan, modChan_modChan]
    exact (modChan_modChan (d.place _ _ _ _) c (fun x => { x with inm := g x.inm, counters := k x.counters }) fun y =>
      { y with fetchBusy := true }).symm
  | false => rw [fetchRecords_idle places, fetchRecords_idle (by rw [chan]; exact places)]

theorem endInbound_eq (held : (d.chan c).held = h :: rest) :
    d.endInbound c status length =
      ((d.postCompletion (bufferCompletion (d.chan c) c status h length)).modChan c (messageEnded status rest)).fetchRecords c := by
  have posted : d.postInbound c status length false =
      ((d.postCompletion (bufferCompletion (d.chan c) c status h length)).modChan c fun x =>
        { x with held := rest, retire := ringAdvance x.size x.retire 1 }).fetchRecords c := by
    unfold Device.postInbound
    dsimp only
    rw [held]
    rfl
  unfold Device.endInbound Device.modInMsg Device.countChan
  rw [posted, modChan_modChan]
  refine (fetchRecords_modChan (fun _ => InMessage.cleared) fun k => k.receiveCompleted status).trans ?_
  rw [modChan_modChan]
  rfl

/-! ## The blocks with a revoke asked for (R34) -/

/-- The blocks with the revoke of a channel's half pending and queued once, and the channel waiting for it. -/
def asksRevoke (d : Device) (c : ChannelId) (p : PortId) (n : LinkNumber) : Device :=
  ((d.modChan c fun x => { x with revoke := .waiting }).modIn p n fun h => { h with revokePending := true }).modPort p fun x =>
    { x with control := if (d.inHalf p n).revokePending then x.control else x.control ++ [.revoke n] }

theorem askRevoke_steady (port : (d.chan c).port = p) (number : (d.chan c).number = n) (up : (d.port p).up = true) :
    (d.askRevoke c).steady = (asksRevoke d c p n).steady := by
  subst port number
  exact (askRevoke_up up).1

theorem asksRevoke_chan : (asksRevoke d c p n).chan c = { d.chan c with revoke := .waiting } :=
  chan_modChan_self d c fun x => { x with revoke := .waiting }

theorem asksRevoke_chan_other {k : ChannelId} (other : k ≠ c) : (asksRevoke d c p n).chan k = d.chan k :=
  (chan_modChan d c k fun x => { x with revoke := .waiting }).trans (if_neg (Ne.symm other))

theorem asksRevoke_inHalf : (asksRevoke d c p n).inHalf p n = { d.inHalf p n with revokePending := true } := by
  unfold asksRevoke
  rw [inHalf_modPort _ _ _ _ rfl, inHalf_modIn_self]
  rfl

theorem asksRevoke_control : ((asksRevoke d c p n).port p).control =
    (d.port p).control ++ if (d.inHalf p n).revokePending then [] else [.revoke n] := by
  unfold asksRevoke
  rw [port_modPort_self, Device.modIn, port_modPort_self]
  dsimp only
  split
  · exact (List.append_nil _).symm
  · rfl

/-! ## The abortive close of an IN channel (R13) -/

/-- A CLOSE ABORT of an OPEN IN channel: what its open message leaves, then the command deferred and the revoke asked for. -/
theorem takeAbort_in (kind : (d.chan c).kind = .inn) (opened : (d.chan c).state = .opened) :
    d.takeAbort c tag subject =
      (((((d.startClose c .aborting .abort tag).abortIn c).defer (.close .abort c) tag subject)).askRevoke c).tryClose c := by
  unfold Device.takeAbort
  rw [pairIndex_self (by rw [kind]; decide), kind, opened]
  rfl

/-- The cut of an open message, as its channel leaves OPEN: the buffer completes with the bytes of the writes issued (R123). -/
theorem cutInbound_eq (state : (d.chan c).state ≠ .opened) (held : (d.chan c).held = h :: rest) :
    d.cutInbound c status =
      ((d.dropMessage c).postCompletion (bufferCompletion (d.chan c) c status h (d.issuedBytes c))).modChan c
        (messageEnded status rest) := by
  unfold Device.cutInbound
  rw [endInbound_eq (d := d.dropMessage c) held, fetchRecords_shut]
  · rfl
  · rw [chan_modChan_self]
    exact state

/-- Staged bytes dropped leave the lists and halves of the ports. -/
theorem dropMessage_port (d : Device) (c : ChannelId) (q : PortId) : ((d.dropMessage c).port q).map = (d.port q).map ∧
    ((d.dropMessage c).port q).control = (d.port q).control := by
  change ((d.modPort (d.chan c).port fun x => { x with inStaging := _ }).port q).map = _ ∧
    ((d.modPort (d.chan c).port fun x => { x with inStaging := _ }).port q).control = _
  rw [port_modPort]
  split
  · next same => subst same; exact ⟨rfl, rfl⟩
  · exact ⟨rfl, rfl⟩

/-- The blocks once a CLOSE ABORT has cut the open message of its IN channel. -/
def cutByAbort (d : Device) (c : ChannelId) (tag : Half) (h : HostRecord) (rest : List HostRecord) : Device :=
  (((((d.startClose c .aborting .abort tag).dropMessage c).postCompletion
      (bufferCompletion (d.chan c) c .aborted h (d.issuedBytes c))).modChan c (messageEnded .aborted rest)).modIn (d.chan c).port
    (d.chan c).number fun y => { y with openMark := false, discard := true })

theorem abortIn_open (marked : (d.inHalf (d.chan c).port (d.chan c).number).openMark = true) (held : (d.chan c).held = h :: rest) :
    (d.startClose c .aborting .abort tag).abortIn c = cutByAbort d c tag h rest := by
  have chan : (d.startClose c .aborting .abort tag).chan c = moved .aborting .abort tag (d.chan c) := chan_modChan_self _ _ _
  unfold Device.abortIn
  dsimp only
  rw [chan]
  refine (if_pos (show (d.inHalf (d.chan c).port (d.chan c).number).openMark = true from marked)).trans ?_
  rw [cutInbound_eq (by rw [chan]; exact fun opened => by cases opened) (by rw [chan]; exact held), Device.issuedBytes, chan]
  rfl

theorem chan_cutByAbort : (cutByAbort d c tag h rest).chan c = messageEnded .aborted rest (moved .aborting .abort tag (d.chan c)) := by
  have chan : (d.startClose c .aborting .abort tag).chan c = moved .aborting .abort tag (d.chan c) := chan_modChan_self _ _ _
  rw [← chan]
  exact chan_modChan_self _ _ _

theorem chan_cutByAbort_other {k : ChannelId} (other : k ≠ c) : (cutByAbort d c tag h rest).chan k = d.chan k := by
  have closed : (d.startClose c .aborting .abort tag).chan k = d.chan k := by
    rw [Device.startClose, chan_modChan, if_neg (Ne.symm other)]
  rw [← closed]
  refine (chan_modChan (Device.postCompletion _ _) c k _).trans ?_
  rw [if_neg (Ne.symm other)]
  rfl

theorem control_cutByAbort : ((cutByAbort d c tag h rest).port (d.chan c).port).control = (d.port (d.chan c).port).control := by
  unfold cutByAbort
  rw [Device.modIn, port_modPort_self]
  exact (dropMessage_port (d.startClose c .aborting .abort tag) c _).2

theorem inHalf_cutByAbort : (cutByAbort d c tag h rest).inHalf (d.chan c).port (d.chan c).number =
    { d.inHalf (d.chan c).port (d.chan c).number with openMark := false, discard := true } := by
  unfold cutByAbort
  rw [inHalf_modIn_self]
  have map := (dropMessage_port (d.startClose c .aborting .abort tag) c (d.chan c).port).1
  have half : ((d.startClose c .aborting .abort tag).dropMessage c).inHalf (d.chan c).port (d.chan c).number =
      d.inHalf (d.chan c).port (d.chan c).number := congrArg (fun m => (Vector.get m (d.chan c).number).inbound) map
  rw [← half]
  rfl

theorem ring_postCompletion (d : Device) (x : Completion) (r : RingId) :
    (d.postCompletion x).ring r =
      if cqRing (d.chan x.channel).ring = r then
        { d.ring r with queue := (d.ring r).queue ++ [{ order := d.serial, body := .completion x }] }
      else d.ring r := by
  have posted : (d.postCompletion x).ring r = (d.modRing (cqRing (d.chan x.channel).ring) fun y =>
      { y with queue := y.queue ++ [{ order := d.serial, body := .completion x }] }).ring r := rfl
  rw [posted, ring_modRing]
  split
  · next same => rw [same]
  · rfl

theorem queue_cutByAbort (r : RingId) : ((cutByAbort d c tag h rest).ring r).queue =
    if cqRing (d.chan c).ring = r then
      (d.ring r).queue ++
        [{ order := d.serial, body := .completion (bufferCompletion (d.chan c) c .aborted h (d.issuedBytes c)) }]
    else (d.ring r).queue := by
  have chan : (d.startClose c .aborting .abort tag).chan c = moved .aborting .abort tag (d.chan c) := chan_modChan_self _ _ _
  have posted := ring_postCompletion ((d.startClose c .aborting .abort tag).dropMessage c)
    (bufferCompletion (d.chan c) c .aborted h (d.issuedBytes c)) r
  rw [show ((d.startClose c .aborting .abort tag).dropMessage c).chan
    (bufferCompletion (d.chan c) c .aborted h (d.issuedBytes c)).channel = _ from chan] at posted
  refine (congrArg Ring.queue posted).trans ?_
  split
  · next same => exact (if_pos same).symm
  · next other => exact (if_neg other).symm

theorem cutByAbort_follows (up : (d.port (d.chan c).port).up = true) : (cutByAbort d c tag h rest).Follows d := by
  have inner : ((((d.startClose c .aborting .abort tag).dropMessage c).postCompletion
      (bufferCompletion (d.chan c) c .aborted h (d.issuedBytes c))).modChan c (messageEnded .aborted rest)).Follows d :=
    .modChan (.postCompletion (.dropMessage (.modChan (.self d))))
  exact .modIn_up ((inner.up_eq _).trans up) inner

/-- Settles O29: a message open on the link is cut, and then, as with none open, the revoke is what the close waits for. -/
theorem abortCloseOfInChannel : Obligations.AbortCloseOfInChannel := by
  intro tag channel c s take named opened kind p n up
  refine ⟨_, rfl, ?_, ?_⟩
  all_goals
    rw [abortClose_answers take named rfl, decideClose_abort (d := s.dev.afterTake) (.inl opened),
      takeAbort_in (d := s.dev.afterTake) kind opened]
  · intro shut
    refine becomes_settle ?_
    have chan : (s.dev.afterTake.startClose c .aborting .abort tag).chan c = moved .aborting .abort tag (s.dev.chan c) :=
      chan_modChan_self _ _ _
    have uncut : (s.dev.afterTake.startClose c .aborting .abort tag).abortIn c = s.dev.afterTake.startClose c .aborting .abort tag := by
      unfold Device.abortIn
      dsimp only
      rw [chan]
      exact if_neg (show ¬ (s.dev.inHalf p n).openMark = true by rw [shut]; decide)
    have asked := (askRevoke_up (d := closing s.dev.afterTake c .aborting .abort tag channel) (c := c)
      (by rw [closing_chan]; exact up)).2
    have waiting : ((closing s.dev.afterTake c .aborting .abort tag channel).askRevoke c).closeDone c = false := by
      rw [closeDone_inAborting (by rw [asked, closing_chan]; exact kind) (by rw [asked, closing_chan]; rfl), asked]
      rfl
    rw [uncut]
    change (((closing s.dev.afterTake c .aborting .abort tag channel).askRevoke c).tryClose c).steady = _
    rw [tryClose_waits waiting]
    exact closing_askRevoke up
  · intro h rest marked held
    rw [abortIn_open (d := s.dev.afterTake) marked held]
    have chan : (cutByAbort s.dev.afterTake c tag h rest).chan c = messageEnded .aborted rest (moved .aborting .abort tag (s.dev.chan c)) :=
      chan_cutByAbort
    have others : ∀ k, k ≠ c → (cutByAbort s.dev.afterTake c tag h rest).chan k = s.dev.chan k := fun k other =>
      chan_cutByAbort_other (d := s.dev.afterTake) other
    have half : (cutByAbort s.dev.afterTake c tag h rest).inHalf p n = { s.dev.inHalf p n with openMark := false, discard := true } :=
      inHalf_cutByAbort (d := s.dev.afterTake)
    have control : ((cutByAbort s.dev.afterTake c tag h rest).port p).control = (s.dev.port p).control :=
      control_cutByAbort (d := s.dev.afterTake)
    have queue := fun r => queue_cutByAbort (d := s.dev.afterTake) (c := c) (tag := tag) (h := h) (rest := rest) r
    have follows : (cutByAbort s.dev.afterTake c tag h rest).Follows s.dev.afterTake := cutByAbort_follows up
    have kept : (cutByAbort s.dev.afterTake c tag h rest).relay = s.dev.relay ∧
        (cutByAbort s.dev.afterTake c tag h rest).cu.deferred = s.dev.cu.deferred := ⟨rfl, rfl⟩
    generalize cut : cutByAbort s.dev.afterTake c tag h rest = e at chan others half control queue follows kept
    have deferred : (e.defer (.close .abort c) tag channel).chan c = _ := chan
    have linked : (e.port p).up = true := (follows.up_eq p).trans up
    have steady := askRevoke_steady (d := e.defer (.close .abort c) tag channel) (c := c) (p := p) (n := n) (by rw [deferred]; rfl)
      (by rw [deferred]; rfl) linked
    have asked := (askRevoke_up (d := e.defer (.close .abort c) tag channel) (c := c) (by rw [deferred]; exact linked)).2
    rw [deferred] at asked
    have waiting : ((e.defer (.close .abort c) tag channel).askRevoke c).closeDone c = false := by
      rw [closeDone_inAborting (by rw [asked]; exact kind) (by rw [asked]; rfl), asked]
      rfl
    rw [tryClose_waits waiting]
    generalize ended : ((e.defer (.close .abort c) tag channel).askRevoke c) = g at steady asked
    have final := (settle_steady g).trans steady
    have own : ∀ q, (g.settle.port q).own = (s.dev.port q).own := by
      intro q
      have asks : g.Follows e := by
        rw [← ended]
        exact .askRevoke (.defer (.self e))
      exact ((settle_follows g).own q).trans ((asks.own q).trans (follows.own q))
    have chanF := (chan_of_steady (settle_steady g) c).trans (congrArg Channel.steady asked)
    refine ⟨⟨rfl, rfl, rfl, rfl, rfl, rfl⟩, ?_⟩
    dsimp only
    generalize g.settle = F at final own chanF ⊢
    have halfF := inHalf_of_steady final p n
    rw [asksRevoke_inHalf] at halfF
    have ringF := fun r => congrArg Ring.queue (ring_of_steady final r)
    refine ⟨congrArg Channel.state chanF, congrArg Channel.inm chanF, congrArg Channel.held chanF, congrArg Channel.retire chanF,
      ?_, ?_, ?_, congrArg Channel.revoke chanF, ?_, ?_, congrArg Channel.pendingClose chanF, ?_, ?_, ?_, ?_, own⟩
    · exact (congrArg InHalf.openMark halfF).trans (congrArg InHalf.openMark half)
    · exact (congrArg InHalf.discard halfF).trans (congrArg InHalf.discard half)
    · exact congrArg InHalf.revokePending halfF
    · have controlF := congrArg Port.control (port_of_steady final p)
      refine controlF.trans ?_
      change (List.filter _ ((asksRevoke (e.defer (.close .abort c) tag channel) c p n).port p).control) = _
      rw [asksRevoke_control, List.filter_append,
        show ((e.defer (.close .abort c) tag channel).port p).control = _ from control,
        show (e.defer (.close .abort c) tag channel).inHalf p n = _ from half]
      dsimp only
      cases (s.dev.inHalf p n).revokePending <;> rfl
    · refine (congrArg CommandUnit.deferred (cu_of_steady final)).trans ?_
      rw [← kept.2]
      rfl
    · exact (ringF _).trans ((queue _).trans (if_pos rfl))
    · exact (ringF _).trans ((queue _).trans (if_neg (Fin.castSucc_lt_last _).ne))
    · exact (relay_of_steady final).trans kept.1
    · intro k other
      rw [chan_of_steady final, asksRevoke_chan_other other]
      exact congrArg Channel.steady (others k other)

end Sys2Proof.Closes
end

section
/-! SUPPORT. CLOSE of a relay pair: both halves leave OPEN together (R9, R137, R139). -/

namespace Sys2Proof.Closes

open Sys2Proof.Machine Sys2Proof.Engaging Sys2Proof.LinkBytes Sys2Proof.Quiesce

variable {s t : State} {d e : Device} {c i o : ChannelId} {p q : PortId} {n m : LinkNumber} {tag : Half} {channel subject : Byte}
  {x : RelayPair} {st : ChannelState} {mode : CloseMode}

/-! ## Changes that change nothing -/

theorem modChan_eq_self {f : Channel → Channel} (h : f (d.chan c) = d.chan c) : d.modChan c f = d := by
  unfold Device.modChan
  rw [h]
  exact congrArg (fun v => ({ d with channels := v } : Device)) (set_get _ _)

theorem modPair_eq_self {f : RelayPair → RelayPair} (pair : d.pair i = some x) (h : f x = x) : d.modPair i f = d := by
  have same : d.relay.pairs.set i (d.pair i) = d.relay.pairs := set_get _ _
  unfold Device.modPair
  rw [pair, Option.map_some, h, ← pair]
  exact congrArg (fun v => ({ d with relay := { d.relay with pairs := v } } : Device)) same

theorem satAdd_zero (k : Word) : satAdd k 0 = k := by
  unfold satAdd
  have bound : k.toNat < 4294967296 := k.isLt
  split
  · simp
  · refine BitVec.eq_of_toNat_eq ?_
    change 4294967295 = k.toNat
    omega

theorem modChan_comm {f g : Channel → Channel} (apart : i ≠ o) :
    (d.modChan i f).modChan o g = (d.modChan o g).modChan i f := by
  have one : (d.modChan i f).chan o = d.chan o := by rw [chan_modChan, if_neg apart]
  have two : (d.modChan o g).chan i = d.chan i := by rw [chan_modChan, if_neg (Ne.symm apart)]
  unfold Device.modChan
  unfold Device.modChan at one two
  rw [one, two]
  refine congrArg (fun v => ({ d with channels := v } : Device)) ?_
  exact Vector.set_comm _ _ (fun same => apart (Fin.ext same))

/-! ## The two halves moved -/

/-- The blocks with both halves of a pair moved by a CLOSE. -/
def pairMoved (d : Device) (i o : ChannelId) (st : ChannelState) (m : CloseMode) (tag : Half) : Device :=
  (d.startClose i st m tag).startClose o st m tag

theorem pairMoved_chan_in (apart : i ≠ o) : (pairMoved d i o st mode tag).chan i = moved st mode tag (d.chan i) := by
  unfold pairMoved Device.startClose
  rw [chan_modChan, if_neg (Ne.symm apart), chan_modChan_self]
  rfl

theorem pairMoved_chan_out (apart : i ≠ o) : (pairMoved d i o st mode tag).chan o = moved st mode tag (d.chan o) := by
  unfold pairMoved Device.startClose
  rw [chan_modChan_self, chan_modChan, if_neg apart]
  rfl

theorem pairMoved_follows (d : Device) : (pairMoved d i o st mode tag).Follows d := by
  unfold pairMoved Device.startClose
  exact .modChan (.modChan (.self d))

/-- A pair that waits for the revoke of its inbound half is not done. -/
theorem pair_waits (kind : (d.chan i).kind = .relayIn) (state : (d.chan i).state = .draining ∨ (d.chan i).state = .aborting)
    (pair : d.pair i = some x) (inbound : x.inbound = i) (revoke : (d.chan i).revoke = .waiting) : d.tryClose i = d := by
  have waits : d.pairDone x = false := by
    unfold Device.pairDone
    dsimp only
    rw [inbound, revoke]
    rcases state with h | h <;> (rw [h]; rfl)
  refine tryClose_waits ?_
  unfold Device.closeDone
  dsimp only
  rw [kind, pair]
  rcases state with h | h <;> (rw [h]; exact waits)

/-- The blocks with both halves of a pair moved, and the revoke of the inbound number pending, queued once and waited for. -/
def pairAsks (d : Device) (i o : ChannelId) (p : PortId) (n : LinkNumber) (st : ChannelState) (m : CloseMode) (tag : Half) : Device :=
  (((d.modChan i fun y => { y with state := st, pendingClose := some (m, tag), revoke := .waiting }).modChan o
    fun y => { y with state := st, pendingClose := some (m, tag) }).modIn p n
    fun h => { h with revokePending := true }).modPort p fun y =>
    { y with control := if (d.inHalf p n).revokePending then y.control else y.control ++ [.revoke n] }

/-- The take of a CLOSE and what it defers stand beside the halves. -/
theorem pairAsks_defer (d : Device) (w : DeferredWork) :
    pairAsks (d.afterTake.defer w tag subject) i o p n st mode tag = (pairAsks d i o p n st mode tag).deferred w tag subject := by
  have chan : ∀ (e : Device) c f, (e.afterTake.defer w tag subject).modChan c f = (e.modChan c f).afterTake.defer w tag subject :=
    fun _ _ _ => rfl
  have port : ∀ (e : Device) p f, (e.afterTake.defer w tag subject).modPort p f = (e.modPort p f).afterTake.defer w tag subject :=
    fun _ _ _ => rfl
  unfold pairAsks Device.modIn
  rw [chan, chan, port, port]
  rfl

/-- Blocks equal in their steady part stay so as a revoke is asked for. -/
theorem asksRevoke_congr (h : e.steady = d.steady) : (asksRevoke e c p n).steady = (asksRevoke d c p n).steady := by
  have pending : (e.inHalf p n).revokePending = (d.inHalf p n).revokePending := by
    have halves := congrArg InHalf.revokePending (inHalf_of_steady h p n)
    exact halves
  have halves : ((e.modChan c fun x => { x with revoke := .waiting }).modIn p n fun h => { h with revokePending := true }).steady =
      ((d.modChan c fun x => { x with revoke := .waiting }).modIn p n fun h => { h with revokePending := true }).steady := by
    refine steady_modIn_congr _ _ _ (fun x y same => ?_) (steady_modChan_congr _ _ h fun x y same => ?_)
    · exact congrArg (fun z : InHalf => { z with revokePending := true }) same
    · exact congrArg (fun z : Channel => { z with revoke := .waiting }) same
  unfold asksRevoke
  rw [pending]
  refine steady_modPort_congr _ _ _ halves fun x y same => ?_
  cases (d.inHalf p n).revokePending with
  | true => exact same
  | false => exact steady_control_congr [.revoke n] same

theorem pair_asks (apart : i ≠ o) (kind : (d.chan i).kind = .relayIn) (state : st = .draining ∨ st = .aborting)
    (pair : d.pair i = some x) (inbound : x.inbound = i) (port : (d.chan i).port = p) (number : (d.chan i).number = n)
    (up : (e.port p).up = true) (moves : e.chan i = (pairMoved d i o st mode tag).chan i)
    (same : e.steady = (pairMoved d i o st mode tag).steady) :
    ((e.askRevoke i).tryClose i).steady = (pairAsks d i o p n st mode tag).steady := by
  rw [pairMoved_chan_in apart] at moves
  have steady := (askRevoke_steady (d := e) (c := i) (p := p) (n := n) (by rw [moves]; exact port) (by rw [moves]; exact number)
    up).trans (asksRevoke_congr same)
  have asked := (askRevoke_up (d := e) (c := i) (by rw [moves]; exact (congrArg (fun p => (e.port p).up) port).trans up)).2
  have relay : (e.askRevoke i).relay = d.relay := (relay_of_steady steady).trans rfl
  rw [pair_waits (by rw [asked, moves]; exact kind) (by rw [asked, moves]; exact state) (by rw [Device.pair, relay]; exact pair) inbound
    (by rw [asked]), steady]
  have reordered : (pairMoved d i o st mode tag).modChan i (fun y => { y with revoke := .waiting }) =
      (d.modChan i fun y => { y with state := st, pendingClose := some (mode, tag), revoke := .waiting }).modChan o
        fun y => { y with state := st, pendingClose := some (mode, tag) } := by
    unfold pairMoved Device.startClose
    rw [modChan_comm apart, modChan_comm apart, modChan_modChan]
  unfold asksRevoke pairAsks
  rw [reordered]
  rfl

/-! ## What an empty pair gives up at once (R139) -/

theorem abandonQueue_empty (pair : d.pair i = some x) (queue : x.queue = []) (idle : (d.chan x.outbound).out = OutMessage.cleared) :
    d.abandonQueue i = d := by
  have quiet : d.sending x = false := by
    unfold Device.sending
    rw [idle]
    rfl
  have kept : d.modPair i (fun y => { y with queue := [] }) = d := modPair_eq_self pair (by rw [← queue])
  have message : d.modOutMsg x.outbound (fun k => if k.phase == .started then k else OutMessage.cleared) = d :=
    modChan_eq_self (by rw [idle]; exact congrArg (fun k => ({ d.chan x.outbound with out := k } : Channel)) idle.symm)
  unfold Device.abandonQueue
  rw [pair]
  dsimp only
  rw [quiet, queue]
  simp only [Bool.false_eq_true, if_false]
  rw [kept, message]
  have counters : d.relay.counters.set i { d.relay.counters.get i with
      abandoned := satAdd (d.relay.counters.get i).abandoned 0 } = d.relay.counters := by
    rw [satAdd_zero]
    exact set_get _ _
  exact congrArg (fun v => ({ d with relay := { d.relay with counters := v } } : Device)) counters

/-! ## A revoke leaves the outbound halves -/

theorem outHalf_modIn_any (g : InHalf → InHalf) : (d.modIn p n g).outHalf q m = d.outHalf q m := by
  by_cases same : p = q
  · subst same
    exact outHalf_modIn (p := p) g m
  · rw [Device.outHalf, Device.modIn, Device.Rests.modPort_other (Ne.symm same)]
    rfl

theorem outHalf_modUnoffered (f : List ControlEntry → List ControlEntry) :
    (d.modPort p fun y => y.modUnoffered f).outHalf q m = d.outHalf q m := by
  refine outHalf_modPort _ _ _ _ ?_
  unfold Port.modUnoffered
  split <;> rfl

theorem outHalf_releaseCredits (owner : Option ChannelId) (k : Nat) : (d.releaseCredits owner k).outHalf q m = d.outHalf q m := by
  unfold Device.releaseCredits
  split
  · split <;> rfl
  · rfl

theorem outHalf_requestRevoke : (d.requestRevoke p n).outHalf q m = d.outHalf q m := by
  have unwaited : ∀ e : Device, (∀ q, e.port q = d.port q) → e.outHalf q m = d.outHalf q m := fun e port => by
    rw [Device.outHalf, port]
    rfl
  have waits : (match (d.inHalf p n).owner with
      | some c => d.unwait (cqRing (d.chan c).ring) (.inHalf p n)
      | none => d).outHalf q m = d.outHalf q m := unwaited _ fun _ => by split <;> rfl
  unfold Device.requestRevoke
  dsimp only
  split
  · split
    · rw [outHalf_releaseCredits, outHalf_modIn_any, outHalf_modUnoffered]
      exact waits
    · rw [outHalf_modPort _ _ _ _ rfl, outHalf_modIn_any, outHalf_releaseCredits, outHalf_modIn_any, outHalf_modUnoffered]
      exact waits
  · exact waits

theorem outHalf_askRevoke : (d.askRevoke c).outHalf q m = d.outHalf q m :=
  outHalf_requestRevoke (d := d) (p := (d.chan c).port) (n := (d.chan c).number)

/-! ## The two closes of a pair -/

theorem takeGraceful_pair (index : d.pairIndex c = i) (relay : (d.chan c).kind = .relayIn ∨ (d.chan c).kind = .relayOut)
    (pair : d.pair i = some x) :
    d.takeGraceful c tag subject =
      ((pairMoved (d.defer (.close .graceful i) tag subject) x.inbound x.outbound .draining .graceful tag).gracefulPair x).tryClose i := by
  unfold Device.takeGraceful
  rw [index]
  rcases relay with kind | kind
  all_goals
    rw [kind]
    dsimp only
    rw [pair]
    rfl

theorem takeAbort_pair (index : d.pairIndex c = i) (relay : (d.chan c).kind = .relayIn ∨ (d.chan c).kind = .relayOut)
    (pair : d.pair i = some x) (opened : (d.chan c).state = .opened) :
    d.takeAbort c tag subject =
      (((((pairMoved d x.inbound x.outbound .aborting .abort tag).abortPair x).defer (.close .abort i) tag subject).askRevoke
        x.inbound).abandonOpen x.outbound).tryClose i := by
  unfold Device.takeAbort
  rw [index, opened]
  rcases relay with kind | kind
  all_goals
    rw [kind]
    dsimp only
    rw [pair]
    rfl

/-- The outbound half of a pair does not hear of the revoke its partner asks for. -/
theorem askRevoke_partner (apart : i ≠ o) (up : (d.port (d.chan i).port).up = true) :
    ((d.askRevoke i).chan o).port = (d.chan o).port ∧ ((d.askRevoke i).chan o).number = (d.chan o).number := by
  have steady := chan_of_steady (askRevoke_steady (d := d) (c := i) rfl rfl up) o
  rw [asksRevoke_chan_other (Ne.symm apart)] at steady
  have port := congrArg Channel.port steady
  have number := congrArg Channel.number steady
  exact ⟨port, number⟩

theorem gracefulPair_up (apart : x.inbound ≠ x.outbound) (upIn : (d.port (d.chan x.inbound).port).up = true)
    (upOut : (d.port (d.chan x.outbound).port).up = true) : d.gracefulPair x = d.askRevoke x.inbound := by
  have follows : (d.askRevoke x.inbound).Follows d := .askRevoke (.self d)
  unfold Device.gracefulPair
  refine if_pos ?_
  rw [Device.linkUp, (askRevoke_partner apart upIn).1, follows.up_eq]
  exact upOut

theorem abortPair_idle (pair : d.pair x.inbound = some x) (queue : x.queue = []) (idle : (d.chan x.outbound).out = OutMessage.cleared)
    (shut : (d.inHalf (d.chan x.inbound).port (d.chan x.inbound).number).openMark = false) : d.abortPair x = d.delist x.outbound := by
  unfold Device.abortPair
  dsimp only
  rw [shut]
  exact abandonQueue_empty (d := d.delist x.outbound) pair queue idle

/-- Settles O30: the pair waits for the revoke of its inbound half alone. -/
theorem closeMovesBothHalvesOfPair : Obligations.CloseMovesBothHalvesOfPair := by
  intro tag channel c i x s named pair inbound queue filling half apart kindIn kindOut partner openIn openOut idle p n q m upIn upOut
    shutIn shutOut closed
  have index : s.dev.pairIndex c = i := by
    rcases half with rfl | rfl
    · exact pairIndex_self (by rw [kindIn]; decide)
    · unfold Device.pairIndex
      rw [kindOut]
      exact partner
  have relay : (s.dev.chan c).kind = .relayIn ∨ (s.dev.chan c).kind = .relayOut := by
    rcases half with rfl | rfl
    · exact .inl kindIn
    · exact .inr kindOut
  have opened : (s.dev.chan c).state = .opened := by rcases half with rfl | rfl <;> assumption
  constructor
  · refine fun take => ⟨_, rfl, ?_⟩
    rw [gracefulClose_answers take named rfl]
    refine decided_becomes ?_
    rw [decideClose_graceful (d := s.dev.afterTake) opened]
    have chanIn := pairMoved_chan_in (d := s.dev.afterTake.defer (.close .graceful i) tag channel) (st := .draining)
      (mode := .graceful) (tag := tag) apart
    have chanOut := pairMoved_chan_out (d := s.dev.afterTake.defer (.close .graceful i) tag channel) (st := .draining)
      (mode := .graceful) (tag := tag) apart
    have taken : s.dev.afterTake.takeGraceful c tag channel =
        ((pairMoved (s.dev.afterTake.defer (.close .graceful i) tag channel) i x.outbound .draining .graceful tag).askRevoke
          i).tryClose i := by
      rw [takeGraceful_pair (d := s.dev.afterTake) index relay pair, inbound, gracefulPair_up (by rw [inbound]; exact apart), inbound]
      · rw [inbound, chanIn]
        exact upIn
      · rw [chanOut]
        exact upOut
    have asks := pair_asks (d := s.dev.afterTake.defer (.close .graceful i) tag channel) (mode := .graceful) (tag := tag)
      (e := pairMoved (s.dev.afterTake.defer (.close .graceful i) tag channel) i x.outbound .draining .graceful tag) apart kindIn (.inl rfl)
      pair inbound (p := p) (n := n) rfl rfl upIn rfl rfl
    rw [pairAsks_defer] at asks
    rw [taken, asks]
    rfl
  · refine fun take => ⟨_, rfl, ?_⟩
    rw [abortClose_answers take named rfl]
    refine decided_becomes ?_
    rw [decideClose_abort (d := s.dev.afterTake) (.inl opened)]
    have chanIn := pairMoved_chan_in (d := s.dev.afterTake) (st := .aborting) (mode := .abort) (tag := tag) apart
    have chanOut := pairMoved_chan_out (d := s.dev.afterTake) (st := .aborting) (mode := .abort) (tag := tag) apart
    have given : (pairMoved s.dev.afterTake i x.outbound .aborting .abort tag).abortPair x =
        (pairMoved s.dev.afterTake i x.outbound .aborting .abort tag).delist x.outbound :=
      abortPair_idle (by rw [inbound]; exact pair) queue (by rw [chanOut]; exact idle) (by rw [inbound, chanIn]; exact shutIn)
    rw [takeAbort_pair (d := s.dev.afterTake) index relay pair opened, inbound, given]
    generalize listed : ((pairMoved s.dev.afterTake i x.outbound .aborting .abort tag).delist x.outbound).defer (.close .abort i) tag
      channel = e
    have same : e.steady = (pairMoved (s.dev.afterTake.defer (.close .abort i) tag channel) i x.outbound .aborting .abort tag).steady := by
      rw [← listed]
      exact defer_congr _ _ _ (steady_modPort (delist_steady _ _))
    have moves : e.chan i = (pairMoved (s.dev.afterTake.defer (.close .abort i) tag channel) i x.outbound .aborting .abort tag).chan i := by
      rw [← listed]
      rfl
    have follows : e.Follows s.dev.afterTake := by
      rw [← listed]
      exact .defer (.delist (pairMoved_follows _))
    have up : (e.port p).up = true := (follows.up_eq p).trans upIn
    have half : e.outHalf q m = s.dev.outHalf q m := by
      rw [← listed]
      exact outHalf_delist (d := pairMoved s.dev.afterTake i x.outbound .aborting .abort tag) (c := x.outbound) q
    have partnerOut : e.chan x.outbound = moved .aborting .abort tag (s.dev.chan x.outbound) := by
      rw [← listed]
      exact chanOut
    have partnerIn : e.chan i = moved .aborting .abort tag (s.dev.chan i) := by
      rw [← listed]
      exact chanIn
    have unopened : (e.askRevoke i).abandonOpen x.outbound = e.askRevoke i := by
      obtain ⟨port, number⟩ := askRevoke_partner (d := e) apart (by rw [partnerIn]; exact up)
      refine requestAbandon_shut ?_
      rw [port, number, outHalf_askRevoke, partnerOut]
      exact (congrArg OutHalf.openMark half).trans shutOut
    have asks := pair_asks (d := s.dev.afterTake.defer (.close .abort i) tag channel) (mode := .abort) (tag := tag) apart kindIn
      (.inr rfl) pair inbound (p := p) (n := n) rfl rfl up moves same
    rw [pairAsks_defer] at asks
    rw [unopened, asks]
    rfl

end Sys2Proof.Closes
end

section
/-! SUPPORT. What the acceptance of a byte of the part leaves: the counts of every byte, and the effects of a SELECT, a REPEAT and a data
byte (R19, R58, R68, R83, R89). -/

namespace Sys2Proof.Acceptances

open Sys2Proof.Machine Sys2Proof.Engaging Sys2Proof.LinkBytes Sys2Proof.Closes

variable {s t : State} {d e : Device} {c : ChannelId} {p : PortId} {n : LinkNumber} {o : Offer} {owner : Option ChannelId}

/-! ## The event and its counts -/

/-- The acceptance of the byte that a port offers in its turn. -/
theorem byteAccepted_answers (offers : s.offers p o) :
    exec (.byteAccepted p) s = .next { s with dev := (s.dev.offerAccepted p o).settle } := by
  obtain ⟨running, turn, tx⟩ := offers
  have event : exec (.byteAccepted p) s = .next (s.event fun d =>
    match (d.port p).turn, (d.port p).tx with
    | .ours, .offered o => d.offerAccepted p o
    | _, _ => d) := rfl
  rw [event, event_eq running, turn, tx]

theorem countAccepted_steady (x : Port) (o : Offer) : (x.countAccepted o).steady = (x.sent o o.isControl).steady := rfl

theorem countWire_eq (d : Device) (owner : Option ChannelId) : d.countWire owner = d.oneWireByte owner := by cases owner <;> rfl

theorem oneWireByte_modPort (f : Port → Port) : (d.modPort p f).oneWireByte owner = (d.oneWireByte owner).modPort p f := by
  cases owner <;> rfl

/-- A byte counted for the owner of its outbound half, beside its counts at the port. -/
theorem countSent_eq (f : Port → Port) (map : (f (d.port p)).map = (d.port p).map) :
    (d.modPort p f).countSent p n = (d.oneWireByte (d.outHalf p n).owner).modPort p f := by
  rw [Device.countSent, countWire_eq, outHalf_modPort _ _ _ _ map, oneWireByte_modPort]

theorem port_oneWireByte (q : PortId) : (d.oneWireByte owner).port q = d.port q := by cases owner <;> rfl

/-! ## The kinds of bytes of a message -/

/-- A channel whose offset moves past the bytes of an accepted unit, if its message has started (R89). -/
def passes (k : Nat) (x : Channel) : Channel :=
  { x with out := { x.out with offset := if x.out.phase = .started then x.out.offset + k else x.out.offset } }

theorem unitAccepted_steady (d : Device) (p : PortId) (c : ChannelId) (k : Nat) :
    (d.unitAccepted p c k).steady = (d.modChan c (passes k)).steady := by
  have moved : (if (d.chan c).out.phase == .started then d.modOutMsg c fun o => { o with offset := o.offset + k } else d) =
      d.modChan c (passes k) := by
    by_cases started : (d.chan c).out.phase = .started
    · rw [started, if_pos (by decide)]
      unfold Device.modOutMsg Device.modChan passes
      rw [started]
      rfl
    · rw [if_neg (by simpa using started), modChan_eq_self]
      unfold passes
      rw [if_neg started]
  unfold Device.unitAccepted
  dsimp only
  rw [moved]
  refine steady_modPort ?_
  split <;> rfl

/-- The end of a slice is the scheduler's own. -/
theorem endSlice_steady (x : Port) (c : ChannelId) : (x.endSlice c).steady = x.steady := rfl

theorem checkSlice_steady (x : Port) : x.checkSlice.steady = x.steady := by
  unfold Port.checkSlice
  split
  · split
    · exact endSlice_steady _ _
    · rfl
  · rfl

/-- An acceptance whose effects, past its counts at the port and for the half's owner, stand in a channel or are not steady. -/
theorem counted_steady (f : Channel → Channel) :
    (((d.oneWireByte owner).modChan c f).modPort p fun x => x.countAccepted o).steady =
      (((d.modPort p fun x => x.sent o o.isControl).oneWireByte owner).modChan c f).steady := by
  rw [oneWireByte_modPort]
  exact TakenDown.steady_modPort_eq (d := (d.oneWireByte owner).modChan c f) (f := fun x => x.countAccepted o)
    (g := fun x => x.sent o o.isControl) (countAccepted_steady _ _)

/-- Settles O43: the counts are made at the acceptance, and what else it moves is the scheduler's or the offset. -/
theorem acceptedByteCountsAsSent : Obligations.AcceptedByteCountsAsSent := by
  intro p o s offers
  refine ⟨_, byteAccepted_answers offers, ?_, ?_, ?_, ?_⟩
  · rintro n rfl
    refine becomes_settle ?_
    exact (steady_modPort rfl).trans (TakenDown.steady_modPort_eq (countAccepted_steady _ _))
  · rintro c n rfl
    refine becomes_settle ?_
    exact (steady_modPort rfl).trans (TakenDown.steady_modPort_eq (countAccepted_steady _ _))
  · rintro c n r rfl
    refine becomes_settle ((steady_modPort rfl).trans ?_)
    rw [countSent_eq _ rfl, oneWireByte_modPort]
    exact TakenDown.steady_modPort_eq (countAccepted_steady _ _)
  · rintro c n b k rfl
    refine becomes_settle ((steady_modPort (checkSlice_steady _)).trans ((unitAccepted_steady _ p c k).trans ?_))
    rw [countSent_eq _ rfl]
    exact counted_steady (d := s.dev) (c := c) (passes k)

end Sys2Proof.Acceptances
end

section
/-! SUPPORT. A port's transfer under way and the open marks of its outbound halves, past everything that an acceptance and the work at
the end of its event do elsewhere (R27, R36, R58). -/

namespace Sys2Proof.Acceptances

open Sys2Proof.Machine Sys2Proof.LinkBytes

variable {d e : Device} {c i : ChannelId} {p q : PortId} {n : LinkNumber} {r : RingId}

/-- The transfer of a port under way, and which of its outbound halves have a message open. -/
def sends (x : Port) : Transfer × (LinkNumber → Bool) := (x.tx, fun n => (x.entry n).outbound.openMark)

/-- The same of every port. -/
def senders (d : Device) : PortId → Transfer × (LinkNumber → Bool) := fun p => sends (d.port p)

theorem openMark_of_senders (h : senders e p = senders d p) : (e.outHalf p n).openMark = (d.outHalf p n).openMark :=
  congrFun (congrArg Prod.snd h) n

theorem tx_of_senders (h : senders e p = senders d p) : (e.port p).tx = (d.port p).tx := congrArg Prod.fst h

/-! ## The blocks and a port -/

theorem senders_of_ports (h : e.ports = d.ports) : senders e = senders d := funext fun q => by rw [senders, senders, Device.port, h]; rfl

theorem senders_modPort {f : Port → Port} (h : sends (f (d.port p)) = sends (d.port p)) : senders (d.modPort p f) = senders d := by
  funext q
  unfold senders
  rw [port_modPort]
  split
  · next same => rw [h, same]
  · rfl

theorem senders_foldl {β : Type} {g : Device → β → Device} (h : ∀ d b, senders (g d b) = senders d) (l : List β) (d : Device) :
    senders (l.foldl g d) = senders d := foldl_keeps senders g h l d

/-! ## Changes of other blocks -/

@[simp] theorem senders_modChan (g : Channel → Channel) : senders (d.modChan c g) = senders d := rfl

@[simp] theorem senders_modOutMsg (g : OutMessage → OutMessage) : senders (d.modOutMsg c g) = senders d := rfl

@[simp] theorem senders_modInMsg (g : InMessage → InMessage) : senders (d.modInMsg c g) = senders d := rfl

@[simp] theorem senders_countChan (g : ChannelCounters → ChannelCounters) : senders (d.countChan c g) = senders d := rfl

@[simp] theorem senders_modRelay (g : RelayUnit → RelayUnit) : senders (d.modRelay g) = senders d := rfl

@[simp] theorem senders_countRelay (g : RelayCounters → RelayCounters) : senders (d.countRelay c g) = senders d := rfl

@[simp] theorem senders_modPair (g : RelayPair → RelayPair) : senders (d.modPair c g) = senders d := rfl

@[simp] theorem senders_setPair (x : Option RelayPair) : senders (d.setPair c x) = senders d := rfl

@[simp] theorem senders_modCu (g : CommandUnit → CommandUnit) : senders (d.modCu g) = senders d := rfl

@[simp] theorem senders_modRing (g : Ring → Ring) : senders (d.modRing r g) = senders d := rfl

@[simp] theorem senders_place (x : Access) (b : Address) (k : Nat) (l : List Byte) : senders (d.place x b k l) = senders d := rfl

@[simp] theorem senders_reserve (k : Nat) : senders (d.reserve r k) = senders d := rfl

@[simp] theorem senders_release (k : Nat) : senders (d.release r k) = senders d := rfl

@[simp] theorem senders_unwait (w : Requester) : senders (d.unwait r w) = senders d := rfl

@[simp] theorem senders_waitFor (w : Requester) : senders (d.waitFor r w) = senders d := rfl

@[simp] theorem senders_postCompletion (b : Completion) : senders (d.postCompletion b) = senders d := rfl

@[simp] theorem senders_commandDone (s : Byte) (t : Half) (k : Result) (m : Nat) : senders (d.commandDone s t k m) = senders d := rfl

@[simp] theorem senders_completeDeferred (s : DeferredWork → Bool) (k : Result) (m : Nat) :
    senders (d.completeDeferred s k m) = senders d := by
  unfold Device.completeDeferred
  split
  · rfl
  · unfold Device.weighBarriers
    exact senders_foldl (g := fun e (b : Deferred) => e.commandDone b.subject b.tag .ok 0) (fun _ _ => rfl) _ _

/-! ## Halves, lists and staging -/

@[simp] theorem senders_modIn (g : InHalf → InHalf) : senders (d.modIn p n g) = senders d :=
  senders_modPort (by
    unfold sends
    refine Prod.ext rfl (funext fun m => ?_)
    dsimp only
    rw [entry_modEntry]
    split
    · next same => rw [← same]
    · rfl)

theorem senders_modOut {g : OutHalf → OutHalf} (h : ∀ x, (g x).openMark = x.openMark) : senders (d.modOut p n g) = senders d :=
  senders_modPort (by
    unfold sends
    refine Prod.ext rfl (funext fun m => ?_)
    dsimp only
    rw [entry_modEntry]
    split
    · next same => rw [← same]; exact h _
    · rfl)

@[simp] theorem senders_modUnoffered (f : List ControlEntry → List ControlEntry) :
    senders (d.modPort p fun x => x.modUnoffered f) = senders d :=
  senders_modPort (by unfold Port.modUnoffered; split <;> rfl)

@[simp] theorem senders_dropAbandon : senders (d.dropAbandon p n) = senders d := senders_modUnoffered _

@[simp] theorem senders_unstage : senders (d.unstage c) = senders d := senders_modPort (by split <;> rfl)

@[simp] theorem senders_delist : senders (d.delist c) = senders d :=
  senders_modPort (by
    unfold Port.delist
    dsimp only
    split
    · split <;> rfl
    · rfl)

@[simp] theorem senders_unbind : senders (d.unbind c) = senders d := by
  unfold Device.unbind
  dsimp only
  split
  · exact senders_modOut fun x => by split <;> rfl
  · exact senders_modIn _

@[simp] theorem senders_queueGrant (k : Nat) : senders (d.queueGrant p n k) = senders d := by
  unfold Device.queueGrant
  rw [senders_modUnoffered, senders_modIn]

@[simp] theorem senders_generate : senders (d.generate p n).1 = senders d := by
  unfold Device.generate
  split
  · rfl
  · dsimp only
    repeat' split
    all_goals simp

@[simp] theorem senders_runGenerator : senders (d.runGenerator p n) = senders d := by
  have h := senders_generate (d := d) (p := p) (n := n)
  unfold Device.runGenerator
  split
  · next e he => rw [he] at h; exact h
  · next e he =>
    rw [he] at h
    split <;> exact h
  · next e _ he => rw [he] at h; exact h

@[simp] theorem senders_issueInbound : senders (d.issueInbound p) = senders d := by
  obtain ⟨l, ports, -⟩ := (issueInbound_issued d p).ports
  rw [senders_of_ports ports]
  exact senders_modPort rfl

/-! ## Records and relayed messages -/

@[simp] theorem senders_fetchRecords : senders (d.fetchRecords c) = senders d := by
  unfold Device.fetchRecords
  dsimp only
  split <;> rfl

@[simp] theorem senders_startNext : senders (d.startNext c) = senders d := by
  unfold Device.startNext
  dsimp only
  repeat' split
  all_goals rfl

@[simp] theorem senders_completeSend (s : Status) (k : Nat) : senders (d.completeSend c s k) = senders d := by
  unfold Device.completeSend
  dsimp only
  split
  · rfl
  · simp

@[simp] theorem senders_returnCell (k : CellId) : senders (d.returnCell i k) = senders d := by
  simp [Device.returnCell, Device.runPairGenerator]

@[simp] theorem senders_refreshPhase : senders (d.refreshPhase i) = senders d := by
  unfold Device.refreshPhase
  split <;> rfl

@[simp] theorem senders_popQueue : senders (d.popQueue i) = senders d := by
  unfold Device.popQueue
  split
  · rfl
  · split
    · rfl
    · simp

@[simp] theorem senders_cancelCell (k : CellId) : senders (d.cancelCell i k) = senders d := by
  unfold Device.cancelCell
  rw [senders_modRelay]
  exact senders_modPort rfl

@[simp] theorem senders_giveUpHead : senders (d.giveUpHead i) = senders d := by
  unfold Device.giveUpHead
  split
  · rfl
  · simp

@[simp] theorem senders_clearContext : senders (d.clearContext c) = senders d := by
  unfold Device.clearContext
  dsimp only
  split <;> simp

@[simp] theorem senders_tryClose : senders (d.tryClose c) = senders d := by
  unfold Device.tryClose
  split
  · split
    · split
      · simp [Device.finishPair]
      · rfl
    · simp [Device.finishChannel]
  · rfl

/-! ## The reports of an acceptance -/

@[simp] theorem senders_reportSent (k : Nat) : senders (d.reportSent c k) = senders d := by
  unfold Device.reportSent
  dsimp only
  repeat' split
  all_goals simp

@[simp] theorem senders_reportAbandoned : senders (d.reportAbandoned c) = senders d := by
  unfold Device.reportAbandoned
  dsimp only
  repeat' split
  all_goals simp

/-! ## The work at the end of the event -/

theorem senders_serveWaiter (w : Requester) : senders (d.serveWaiter r w).1 = senders d := by
  unfold Device.serveWaiter
  cases w with
  | outRecord c =>
    dsimp only
    split <;> rfl
  | commandUnit =>
    dsimp only
    split <;> rfl
  | inHalf p n =>
    have h := senders_generate (d := d) (p := p) (n := n)
    dsimp only
    split
    · rfl
    · split
      · next e he => rw [he] at h; exact h
      · next e he => rw [he] at h; exact h

theorem senders_walk (l : List Requester) : senders (Device.walk r l d) = senders d := by
  induction l generalizing d with
  | nil => rfl
  | cons w l ih =>
    have h := senders_serveWaiter (d := d) (r := r) w
    unfold Device.walk
    split
    · next e he => rw [he] at h; rw [ih]; exact h
    · next e he => rw [he] at h; exact h

theorem senders_walkRing : senders (d.walkRing r) = senders d := by
  unfold Device.walkRing
  rw [senders_modRing]
  split
  · exact senders_walk _
  · rfl

@[simp] theorem senders_pickChannel : senders (d.pickChannel p) = senders d := by
  unfold Device.pickChannel
  dsimp only
  repeat' split
  · exact senders_modPort rfl
  · rfl
  · rfl

@[simp] theorem senders_askForTurn : senders (d.askForTurn p) = senders d := by
  unfold Device.askForTurn
  dsimp only
  split
  · exact senders_modPort rfl
  · rfl

@[simp] theorem senders_restage : senders (d.restage p) = senders d := by
  unfold Device.restage
  dsimp only
  split
  · rfl
  · exact senders_modPort rfl

@[simp] theorem senders_issueOutbound : senders (d.issueOutbound p) = senders d := by
  have read : senders (d.issueRead p) = senders d := by
    unfold Device.issueRead
    dsimp only
    repeat' split
    · rfl
    · rfl
    · rfl
    · exact (senders_modPort (d := d.place _ _ _ _) rfl).trans (senders_of_ports rfl)
  have copy : ∀ e : Device, senders (e.issueCopy p) = senders e := fun e => by
    unfold Device.issueCopy
    dsimp only
    repeat' split
    · rfl
    · rfl
    · exact (senders_of_ports (d := e.modPort p fun x => { x with outStaging := _ }) rfl).trans (senders_modPort rfl)
  rw [Device.issueOutbound, copy, read]

/-- A port with a byte under way offers none. -/
theorem senders_service (busy : (d.port p).tx ≠ .idle) (q : PortId) : senders (d.service q) p = senders d p := by
  by_cases own : p = q
  · subst own
    have begun : senders ((d.modPort p Port.endPass).pickChannel p) = senders d := by
      rw [senders_pickChannel]
      exact senders_modPort rfl
    have waits : ((d.modPort p Port.endPass).pickChannel p).transmit p = (d.modPort p Port.endPass).pickChannel p := by
      have tx : (((d.modPort p Port.endPass).pickChannel p).port p).tx = (d.port p).tx := tx_of_senders (congrFun begun p)
      unfold Device.transmit
      refine if_neg ?_
      rw [tx]
      simp [busy]
    unfold Device.service
    split
    · dsimp only
      rw [waits, senders_issueOutbound, senders_issueOutbound, senders_issueOutbound, senders_issueOutbound, senders_restage,
        senders_askForTurn, begun]
    · rfl
  · unfold senders
    rw [Device.Rests.service_other own]

theorem senders_services (busy : (d.port p).tx ≠ .idle) (l : List PortId) : senders (l.foldl Device.service d) p = senders d p := by
  induction l generalizing d with
  | nil => rfl
  | cons q l ih =>
    have first := senders_service busy q
    have tx : ((d.service q).port p).tx = (d.port p).tx := tx_of_senders first
    rw [List.foldl_cons, ih (by rw [tx]; exact busy), first]

/-- The work at the end of an event leaves the open marks of a port with a byte under way. -/
theorem settle_openMark (busy : (d.port p).tx ≠ .idle) : (d.settle.outHalf p n).openMark = (d.outHalf p n).openMark := by
  have walked : senders d.walkRings = senders d := senders_foldl (g := Device.walkRing) (fun _ _ => senders_walkRing) allRings d
  have tx : (d.walkRings.port p).tx = (d.port p).tx := tx_of_senders (congrFun walked p)
  have record : ∀ (e : Device) r, senders (e.issueRecord r) = senders e := fun e r => by
    unfold Device.issueRecord
    dsimp only
    split
    · exact senders_of_ports rfl
    · rfl
  have records : ∀ e : Device, senders e.issueRecords = senders e := senders_foldl (g := Device.issueRecord) record allRings
  have slot : ∀ e : Device, senders e.requestSlot = senders e := fun e => by
    unfold Device.requestSlot
    repeat' split
    all_goals exact senders_of_ports rfl
  have commands : ∀ e : Device, senders e.fetchCommands = senders e := fun e => by
    unfold Device.fetchCommands
    dsimp only
    split <;> exact senders_of_ports rfl
  have whole : senders d.settle p = senders d p := by
    unfold Device.settle
    rw [commands, slot, records, senders_services (by rw [tx]; exact busy), walked]
  exact openMark_of_senders whole

end Sys2Proof.Acceptances
end

section
/-! SUPPORT. Completions of send records in the steady part: the completion posted, the record retired, and the next one current (R8, R89,
R102), and the head of a relay queue sent (R135). -/

namespace Sys2Proof.Acceptances

open Sys2Proof.Machine Sys2Proof.LinkBytes Sys2Proof.Closes

variable {d e : Device} {c i : ChannelId} {p q : PortId} {n : LinkNumber} {r : RingId} {h : HostRecord} {rest : List HostRecord}
  {status : Status} {length : Nat}

/-! ## Posting -/

/-- What a channel's steady part says of its state and of what it was opened as. -/
theorem fields_of_steady {x y : Channel} (same : x.steady = y.steady) : x.state = y.state ∧ x.kind = y.kind ∧ x.partner = y.partner := by
  have state := congrArg Channel.state same
  have kind := congrArg Channel.kind same
  have partner := congrArg Channel.partner same
  exact ⟨state, kind, partner⟩

/-- Changes of a channel that agree where they are made. -/
theorem modChan_steady {f g : Channel → Channel} (same : e.steady = d.steady) (change : (f (e.chan c)).steady = (g (d.chan c)).steady) :
    (e.modChan c f).steady = (d.modChan c g).steady := by
  refine steady_ext (e := d.modChan c g) (d := e.modChan c f) (cu_of_steady (d := e) (e := d) same) (fun k => ?_)
    (port_of_steady (d := e) (e := d) same) (ring_of_steady (d := e) (e := d) same) (relay_of_steady (d := e) (e := d) same)
    (lost_of_steady (d := e) (e := d) same) (buffers_of_steady (d := e) (e := d) same)
  rw [chan_modChan, chan_modChan]
  split
  · exact change
  · exact chan_of_steady same k

/-- The same record posted keeps blocks equal in their steady part. -/
theorem post_congr (b : RecordBody) (same : e.steady = d.steady) (serial : e.serial = d.serial) :
    (e.post r b).steady = (d.post r b).steady := by
  refine steady_ext (e := d.post r b) (d := e.post r b) (cu_of_steady (d := e) (e := d) same) (chan_of_steady (d := e) (e := d) same)
    (port_of_steady (d := e) (e := d) same) (fun k => ?_) (relay_of_steady (d := e) (e := d) same)
    (lost_of_steady (d := e) (e := d) same) (buffers_of_steady (d := e) (e := d) same)
  have posted : ∀ a : Device, (a.post r b).ring k =
      (a.modRing r fun x => { x with queue := x.queue ++ [{ order := a.serial, body := b }] }).ring k := fun _ => rfl
  rw [posted, posted, ring_modRing, ring_modRing, serial]
  split
  · exact congrArg (fun x : Ring => ({ x with queue := x.queue ++ [{ order := d.serial, body := b }] } : Ring)) (ring_of_steady same r)
  · exact ring_of_steady same k

theorem postCompletion_congr (x : Completion) (same : e.steady = d.steady) (serial : e.serial = d.serial) :
    (e.postCompletion x).steady = (d.postCompletion x).steady := by
  have ring : (e.chan x.channel).ring = (d.chan x.channel).ring := by
    have := congrArg Channel.ring (chan_of_steady same x.channel)
    exact this
  unfold Device.postCompletion
  rw [ring]
  exact post_congr _ same serial

/-! ## The next record (R89, R90) -/

/-- The phase in which an OPEN OUT channel stands by the records it holds: a slot is given or waited for. -/
def nextPhase (x : Channel) : Channel :=
  { x with out := { x.out with phase := if x.out.phase = .idle ∧ x.held ≠ [] then .ready else x.out.phase } }

theorem startNext_steady (state : (d.chan c).state = .opened) (kind : (d.chan c).kind = .out) :
    (d.startNext c).steady = (d.modChan c nextPhase).steady := by
  have opened : ((d.chan c).state == .opened && (d.chan c).kind == .out) = true := by rw [state, kind]; rfl
  unfold Device.startNext
  dsimp only
  by_cases starts : (d.chan c).out.phase = .idle ∧ (d.chan c).held ≠ []
  · have test : ((d.chan c).state == .opened && (d.chan c).kind == .out && (d.chan c).out.phase == .idle && !(d.chan c).held.isEmpty) =
        true := by
      rw [opened, starts.1]
      simp [starts.2]
    rw [if_pos test]
    have ready : nextPhase (d.chan c) = { d.chan c with out := { (d.chan c).out with phase := .ready } } := by
      unfold nextPhase
      rw [if_pos starts]
    split
    · refine modChan_steady (waitFor_steady ..) ?_
      rw [ready]
      rfl
    · refine modChan_steady (reserve_steady ..) ?_
      rw [ready]
      rfl
  · have test : ((d.chan c).state == .opened && (d.chan c).kind == .out && (d.chan c).out.phase == .idle && !(d.chan c).held.isEmpty) =
        false := by
      rw [opened]
      by_cases idle : (d.chan c).out.phase = .idle
      · simpa [idle] using starts
      · simp [idle]
    rw [if_neg (by rw [test]; decide), modChan_eq_self]
    unfold nextPhase
    rw [if_neg starts]

/-- Outside OPEN no record is made current. -/
theorem startNext_shut (state : (d.chan c).state ≠ .opened) : d.startNext c = d := by
  unfold Device.startNext
  dsimp only
  refine if_neg ?_
  simp [state]

theorem unstage_steady (d : Device) (c : ChannelId) : (d.unstage c).steady = d.steady :=
  steady_modPort (by split <;> rfl)

/-! ## A send record completed -/

/-- The completion of a channel's current send record. -/
def sendCompletion (x : Channel) (c : ChannelId) (status : Status) (h : HostRecord) (length : Nat) : Completion :=
  { channel := c, status := status, tag := h.tag, length := length, total := 0, continued := false, restarted := x.out.restarted,
    buffer := none }

/-- A channel once its current send record is retired. -/
def recordRetired (status : Status) (rest : List HostRecord) (x : Channel) : Channel :=
  { x with
    held := rest, retire := ringAdvance x.size x.retire 1, out := OutMessage.cleared, counters := x.counters.sendCompleted status }

theorem completeSend_eq (held : (d.chan c).held = h :: rest) :
    d.completeSend c status length =
      (((((d.postCompletion (sendCompletion (d.chan c) c status h length)).unstage c).modChan c (recordRetired status rest)).startNext
        c).fetchRecords c) := by
  unfold Device.completeSend
  dsimp only
  rw [held]
  rfl

/-- Outside OPEN the completion retires the record, and no other becomes current. -/
theorem completeSend_shut (state : (d.chan c).state ≠ .opened) (held : (d.chan c).held = h :: rest) :
    d.completeSend c status length =
      ((d.postCompletion (sendCompletion (d.chan c) c status h length)).unstage c).modChan c (recordRetired status rest) := by
  have left : ((((d.postCompletion (sendCompletion (d.chan c) c status h length)).unstage c).modChan c
      (recordRetired status rest)).chan c).state ≠ .opened := by
    rw [chan_modChan_self]
    exact state
  rw [completeSend_eq held, startNext_shut left, fetchRecords_shut left]

/-- In OPEN the next record held becomes current. -/
theorem completeSend_opened (state : (d.chan c).state = .opened) (kind : (d.chan c).kind = .out) (held : (d.chan c).held = h :: rest) :
    (d.completeSend c status length).steady =
      ((d.postCompletion (sendCompletion (d.chan c) c status h length)).modChan c fun x =>
        nextPhase (recordRetired status rest x)).steady := by
  rw [completeSend_eq held, EngineWindow.fetchRecords_steady, startNext_steady, modChan_modChan]
  · exact modChan_steady (unstage_steady _ c) rfl
  · rw [chan_modChan_self]
    exact state
  · rw [chan_modChan_self]
    exact kind

theorem completeSend_opened_chan (state : (d.chan c).state = .opened) (kind : (d.chan c).kind = .out)
    (held : (d.chan c).held = h :: rest) :
    ((d.completeSend c status length).chan c).steady = (nextPhase (recordRetired status rest (d.chan c))).steady := by
  rw [chan_of_steady (completeSend_opened state kind held), chan_modChan_self]
  rfl

/-! ## The head of a relay queue sent (R135) -/

variable {x : RelayPair} {entry : RelayEntry} {others : List RelayEntry}

theorem modRelay_congr (f : RelayUnit → RelayUnit) (same : e.steady = d.steady) : (e.modRelay f).steady = (d.modRelay f).steady :=
  steady_ext (e := d.modRelay f) (d := e.modRelay f) (cu_of_steady (d := e) (e := d) same) (chan_of_steady (d := e) (e := d) same)
    (port_of_steady (d := e) (e := d) same) (ring_of_steady (d := e) (e := d) same)
    (congrArg f (relay_of_steady (d := e) (e := d) same)) (lost_of_steady (d := e) (e := d) same)
    (buffers_of_steady (d := e) (e := d) same)

theorem modPair_eq (f : RelayPair → RelayPair) (pair : d.pair i = some x) : d.modPair i f = d.setPair i (some (f x)) := by
  rw [Device.modPair, pair]
  rfl

theorem setPair_modPair (f : RelayPair → RelayPair) : (d.setPair i (some x)).modPair i f = d.setPair i (some (f x)) := by
  have stored : (d.setPair i (some x)).pair i = some x := get_set_self _ _ _
  rw [modPair_eq f stored]
  exact congrArg (fun v => ({ d with relay := { d.relay with pairs := v } } : Device)) (set_set _ _ _ _)

/-- The phase of an outbound half with no message open, by its relay queue (R134). -/
def queuePhase (others : List RelayEntry) : OutMessage := { OutMessage.cleared with phase := if others = [] then .idle else .ready }

theorem popQueue_steady (pair : d.pair i = some x) (outbound : x.outbound = c) (queue : x.queue = entry :: others) :
    (d.popQueue i).steady =
      ((d.setPair i (some { x with queue := others, spare := x.spare ++ [entry.cell] })).modOutMsg c fun _ => queuePhase others).steady := by
  subst outbound
  have shown : (((d.unstage x.outbound).setPair i (some { x with queue := others })).modOutMsg x.outbound
      fun _ => OutMessage.cleared).refreshPhase i =
      ((d.unstage x.outbound).setPair i (some { x with queue := others })).modOutMsg x.outbound fun _ => queuePhase others := by
    have left : (((d.unstage x.outbound).setPair i (some { x with queue := others })).modOutMsg x.outbound
        fun _ => OutMessage.cleared).pair i = some { x with queue := others } := get_set_self _ _ _
    unfold Device.refreshPhase
    rw [left]
    dsimp only
    rw [Device.modOutMsg, Device.modOutMsg, modChan_modChan]
    cases others <;> rfl
  unfold Device.popQueue
  rw [pair]
  dsimp only
  rw [queue]
  dsimp only
  rw [modPair_eq (d := d.unstage x.outbound) _ pair, shown]
  unfold Device.returnCell Device.runPairGenerator
  rw [runGenerator_steady]
  have stored : (((d.unstage x.outbound).setPair i (some { x with queue := others })).modOutMsg x.outbound
      fun _ => queuePhase others).modPair i (fun y => { y with spare := y.spare ++ [entry.cell] }) =
      ((d.unstage x.outbound).setPair i (some { x with queue := others, spare := x.spare ++ [entry.cell] })).modOutMsg x.outbound
        fun _ => queuePhase others :=
    congrArg (fun e : Device => e.modOutMsg x.outbound fun _ => queuePhase others)
      (setPair_modPair (d := d.unstage x.outbound) (x := { x with queue := others }) _)
  rw [stored]
  exact modChan_steady (modRelay_congr _ (unstage_steady d x.outbound)) rfl

theorem popQueue_pair (pair : d.pair i = some x) (outbound : x.outbound = c) (queue : x.queue = entry :: others) :
    (d.popQueue i).pair i = some { x with queue := others, spare := x.spare ++ [entry.cell] } := by
  rw [Device.pair, relay_of_steady (popQueue_steady pair outbound queue)]
  exact get_set_self _ _ _

theorem popQueue_chan (pair : d.pair i = some x) (outbound : x.outbound = c) (queue : x.queue = entry :: others) (k : ChannelId) :
    ((d.popQueue i).chan k).steady = (if c = k then { d.chan c with out := queuePhase others } else d.chan k).steady := by
  rw [chan_of_steady (popQueue_steady pair outbound queue), Device.modOutMsg, chan_modChan]
  rfl

end Sys2Proof.Acceptances
end

section
/-! SUPPORT. An END COMPLETE of the part accepted: the record of an OUT channel, or the head of a relay queue, is sent (R27, R102,
R135). -/

namespace Sys2Proof.Acceptances

open Sys2Proof.Machine Sys2Proof.Engaging Sys2Proof.LinkBytes Sys2Proof.Closes

variable {s t : State} {d e : Device} {c i : ChannelId} {p : PortId} {n : LinkNumber} {o : Offer} {length : Nat} {x : RelayPair}
  {h : HostRecord} {rest : List HostRecord}

/-! ## What an accepted END leaves before its owner is told -/

/-- With no abandon of the number listed, none is dropped. -/
theorem dropAbandon_none (none : .abandon n ∉ (d.port p).control) : d.dropAbandon p n = d := by
  have kept : ∀ l : List ControlEntry, .abandon n ∉ l → l.filter (fun e => !(e == .abandon n)) = l := fun l none =>
    List.filter_eq_self.mpr fun e mem => by
      have : e ≠ .abandon n := fun same => none (same ▸ mem)
      simpa using this
  refine modPort_eq_self _ _ ?_
  unfold Port.modUnoffered
  split
  · rw [kept _ fun mem => none (List.mem_of_mem_drop mem), List.take_append_drop]
  · rw [kept _ none]

/-- The blocks as an END COMPLETE counts as sent, with its half open no more and its slice ended. -/
def endSent (d : Device) (p : PortId) (c : ChannelId) (n : LinkNumber) : Device :=
  (((d.countSent p n).modOut p n fun y => { y with openMark := false }).dropAbandon p n).modPort p fun y =>
    if y.pick.any fun k => k.1 == c then y.endSlice c else y

theorem endAccepted_eq : d.endAccepted p c n length = ((endSent d p c n).reportSent c length).tryClose c := rfl

theorem endSent_closed : (((endSent d p c n).outHalf p n).openMark) = false := by
  unfold endSent Device.dropAbandon
  rw [outHalf_modPort _ _ _ _ (by split <;> rfl), outHalf_modPort _ _ _ _ (by unfold Port.modUnoffered; split <;> rfl),
    outHalf_modOut_self]

theorem endSent_tx : ((endSent d p c n).port p).tx = (d.port p).tx := by
  have ended : ∀ y : Port, (if y.pick.any fun k => k.1 == c then y.endSlice c else y).tx = y.tx := fun y => by split <;> rfl
  have dropped : ∀ (y : Port) f, (y.modUnoffered f).tx = y.tx := fun y f => by unfold Port.modUnoffered; split <;> rfl
  unfold endSent Device.dropAbandon Device.modOut Device.countSent
  rw [port_modPort_self, ended, port_modPort_self, dropped, port_modPort_self, countWire_eq, port_oneWireByte]
  rfl

/-- The port still waits for the return of the END. -/
theorem endSent_busy : ((endSent (d.modPort p fun y => y.countAccepted o) p c n).port p).tx ≠ .idle := by
  rw [endSent_tx, port_modPort_self]
  exact fun idle => by cases idle

theorem endSent_beside (owner : (d.outHalf p n).owner = some c) :
    (endSent (d.modPort p fun y => y.countAccepted o) p c n).channels = (d.oneWireByte (some c)).channels ∧
      (endSent (d.modPort p fun y => y.countAccepted o) p c n).relay = d.relay ∧
      (endSent (d.modPort p fun y => y.countAccepted o) p c n).serial = d.serial := by
  unfold endSent
  rw [countSent_eq _ rfl, owner]
  exact ⟨rfl, rfl, rfl⟩

/-- A channel with one more wire byte (R19). -/
def wired (y : Channel) : Channel := { y with counters := { y.counters with wireBytes := satAdd y.counters.wireBytes 1 } }

theorem endSent_chan (owner : (d.outHalf p n).owner = some c) (k : ChannelId) :
    (endSent (d.modPort p fun y => y.countAccepted o) p c n).chan k = if c = k then wired (d.chan c) else d.chan k := by
  rw [Device.chan, (endSent_beside owner).1]
  exact chan_modChan d c k wired

theorem endSent_steady (owner : (d.outHalf p n).owner = some c) (none : .abandon n ∉ (d.port p).control) :
    (endSent (d.modPort p fun y => y.countAccepted o) p c n).steady =
      ((d.modPort p fun y => y.sent o o.isControl).oneWireByte (some c)).steady := by
  unfold endSent
  rw [dropAbandon_none, countSent_eq _ rfl, owner, oneWireByte_modPort]
  · refine (steady_modPort (by split <;> rfl)).trans ((steady_modOut rfl).trans ?_)
    exact TakenDown.steady_modPort_eq (d := d.oneWireByte (some c)) (f := fun y => y.countAccepted o)
      (g := fun y => y.sent o o.isControl) rfl
  · rw [countSent_eq _ rfl, Device.modOut, port_modPort_self, port_modPort_self, port_oneWireByte]
    exact none

/-! ## An owner that stays OPEN -/

theorem tryClose_openOut (kind : (d.chan c).kind = .out) (state : (d.chan c).state = .opened) : d.tryClose c = d :=
  tryClose_waits (by simp [Device.closeDone, kind, state])

theorem tryClose_openPair (kind : (d.chan c).kind = .relayOut) (state : (d.chan c).state ≠ .closed)
    (pair : d.pair (d.chan c).partner = some x) (inbound : (d.chan x.inbound).state = .opened) : d.tryClose c = d := by
  refine tryClose_waits ?_
  have waits : d.pairDone x = false := by simp [Device.pairDone, inbound]
  unfold Device.closeDone
  dsimp only
  rw [kind, pair]
  cases st : (d.chan c).state <;> first | exact absurd st state | exact waits

/-- A channel whose message has been sent, in its counters (R19, R27). -/
def countsSent (length : Nat) (y : Channel) : Channel :=
  { y with
    counters :=
      { y.counters with
        wireBytes := satAdd y.counters.wireBytes 1, messages := satAdd y.counters.messages 1
        payloadBytes := satAdd y.counters.payloadBytes length } }

/-- A message sent, in the counters of its channel. -/
def messageSent (d : Device) (c : ChannelId) (length : Nat) : Device :=
  d.countChan c fun k => { k with messages := satAdd k.messages 1, payloadBytes := satAdd k.payloadBytes length }

theorem reportSent_out (started : (d.chan c).out.phase = .started) (kind : (d.chan c).kind = .out) :
    d.reportSent c length = (messageSent d c length).completeSend c .sent length := by
  unfold Device.reportSent
  dsimp only
  rw [started, kind]
  rfl

/-- A relayed message forwarded, in the counters of its pair (R141). -/
def headForwarded (d : Device) (i : ChannelId) : Device := d.countRelay i fun k => { k with forwarded := satAdd k.forwarded 1 }

theorem reportSent_relay (started : (d.chan c).out.phase = .started) (kind : (d.chan c).kind = .relayOut) :
    d.reportSent c length =
      (headForwarded (messageSent d c length) (d.chan c).partner).popQueue (d.chan c).partner := by
  unfold Device.reportSent
  dsimp only
  rw [started, kind]
  rfl

/-- The counts of an accepted END COMPLETE, at the port and for the channel. -/
theorem messageSent_steady (owner : (d.outHalf p n).owner = some c) (unlisted : .abandon n ∉ (d.port p).control) :
    (messageSent (endSent (d.modPort p fun y => y.countAccepted o) p c n) c length).steady =
      ((d.modPort p fun y => y.sent o o.isControl).modChan c (countsSent length)).steady := by
  have counted : (d.modPort p fun y => y.sent o o.isControl).modChan c (countsSent length) =
      messageSent ((d.modPort p fun y => y.sent o o.isControl).oneWireByte (some c)) c length := by
    unfold messageSent Device.oneWireByte Device.countChan
    rw [modChan_modChan]
    rfl
  rw [counted]
  refine modChan_steady (endSent_steady owner unlisted) ?_
  have wire : ((d.modPort p fun y => y.sent o o.isControl).oneWireByte (some c)).chan c = wired (d.chan c) :=
    chan_modChan_self (d.modPort p fun y => y.sent o o.isControl) c wired
  rw [endSent_chan owner, if_pos rfl, wire]

/-- A completion posted and a change of its channel, in blocks equal in their steady part. -/
theorem completed_congr {f g : Channel → Channel} {b : Completion} (same : e.steady = d.steady) (serial : e.serial = d.serial)
    (chan : e.chan c = d.chan c) (change : ∀ y, (f y).steady = (g y).steady) :
    ((e.postCompletion b).modChan c f).steady = ((d.postCompletion b).modChan c g).steady := by
  refine modChan_steady (postCompletion_congr b same serial) ?_
  have posted : ∀ a : Device, (a.postCompletion b).chan c = a.chan c := fun _ => rfl
  rw [posted, posted, chan]
  exact change _

/-- The owner of an OUT message told of its END: the record completes SENT, and the next one held becomes current. -/
theorem endReported_out {m : Device} {y : Channel} (self : d.chan c = wired y) (kind : y.kind = .out) (opened : y.state = .opened)
    (started : y.out.phase = .started) (held : y.held = h :: rest) (counted : (messageSent d c length).steady = m.steady)
    (serial : d.serial = m.serial) (after : m.chan c = countsSent length y) :
    ((d.reportSent c length).tryClose c).steady =
      ((m.postCompletion (sendCompletion y c .sent h length)).modChan c fun z =>
        { z with
          held := rest, retire := (z.retire + 1) % z.size,
          out := { OutMessage.cleared with phase := if rest = [] then .idle else .ready } }).steady := by
  have chan : (messageSent d c length).chan c = countsSent length y := by
    rw [messageSent, Device.countChan, chan_modChan_self, self]
    rfl
  have done := completeSend_opened (d := messageSent d c length) (c := c) (h := h) (rest := rest) (status := .sent) (length := length)
    (by rw [chan]; exact opened) (by rw [chan]; exact kind) (by rw [chan]; exact held)
  have left := completeSend_opened_chan (d := messageSent d c length) (c := c) (h := h) (rest := rest) (status := .sent) (length := length)
    (by rw [chan]; exact opened) (by rw [chan]; exact kind) (by rw [chan]; exact held)
  rw [chan] at left
  obtain ⟨state, still, -⟩ := fields_of_steady left
  rw [reportSent_out (by rw [self]; exact started) (by rw [self]; exact kind), tryClose_openOut (still.trans kind) (state.trans opened), done, chan]
  refine completed_congr counted serial (chan.trans after.symm) fun z => ?_
  cases rest <;> rfl

/-- The owner of a relayed message told of its END: the head of its queue leaves as forwarded, and its cell is spare. -/
theorem endReported_relay {m : Device} {y : Channel} {e : RelayEntry} {others : List RelayEntry} (self : d.chan c = wired y)
    (kind : y.kind = .relayOut) (opened : y.state = .opened) (started : y.out.phase = .started) (partner : y.partner = i)
    (pair : d.pair i = some x) (inbound : x.inbound = i) (outbound : x.outbound = c) (queue : x.queue = e :: others)
    (openIn : (d.chan i).state = .opened) (apart : i ≠ c) (counted : (messageSent d c length).steady = m.steady)
    (after : m.chan c = countsSent length y) :
    ((d.reportSent c length).tryClose c).steady =
      ((m.modRelay fun u =>
          { u with
            pairs := u.pairs.set i (some { x with queue := others, spare := x.spare ++ [e.cell] })
            counters := u.counters.set i { u.counters.get i with forwarded := satAdd (u.counters.get i).forwarded 1 } }).modChan c fun z =>
        { z with out := { OutMessage.cleared with phase := if others = [] then .idle else .ready } }).steady := by
  have chan : (messageSent d c length).chan c = countsSent length y := by
    rw [messageSent, Device.countChan, chan_modChan_self, self]
    rfl
  have other : (messageSent d c length).chan i = d.chan i := by
    rw [messageSent, Device.countChan, chan_modChan, if_neg (Ne.symm apart)]
  have pair' : (headForwarded (messageSent d c length) i).pair i = some x := pair
  have mine := popQueue_chan pair' outbound queue c
  have its := popQueue_chan pair' outbound queue i
  rw [if_pos rfl, show (headForwarded (messageSent d c length) i).chan c = _ from chan] at mine
  rw [if_neg (Ne.symm apart), show (headForwarded (messageSent d c length) i).chan i = _ from other] at its
  obtain ⟨state, still, mate⟩ := fields_of_steady mine
  obtain ⟨stateIn, -, -⟩ := fields_of_steady its
  have stored := popQueue_pair pair' outbound queue
  rw [reportSent_relay (by rw [self]; exact started) (by rw [self]; exact kind), show (d.chan c).partner = i by rw [self]; exact partner]
  change (((headForwarded (messageSent d c length) i).popQueue i).tryClose c).steady = _
  have stays : ((headForwarded (messageSent d c length) i).popQueue i).tryClose c = (headForwarded (messageSent d c length) i).popQueue i :=
    tryClose_openPair (still.trans kind) (by rw [state]; exact fun shut => by cases opened.symm.trans shut)
      (by rw [mate, show (countsSent length y).partner = i from partner]; exact stored)
      (by rw [inbound]; exact stateIn.trans openIn)
  rw [stays, popQueue_steady pair' outbound queue]
  refine modChan_steady (modRelay_congr (fun u =>
    { u with
      pairs := u.pairs.set i (some { x with queue := others, spare := x.spare ++ [e.cell] })
      counters := u.counters.set i { u.counters.get i with forwarded := satAdd (u.counters.get i).forwarded 1 } }) counted) ?_
  have sent : ((headForwarded (messageSent d c length) i).setPair i
      (some { x with queue := others, spare := x.spare ++ [e.cell] })).chan c = countsSent length y := chan
  rw [sent, modRelay_chan, after]
  rfl

/-- The acceptance of an END, up to the report to its owner. -/
theorem endOffer_accepted : d.offerAccepted p (.msgEnd c n length) =
    ((endSent (d.modPort p fun y => y.countAccepted (.msgEnd c n length)) p c n).reportSent c length).tryClose c := rfl

theorem endOffer_openMark : ((d.offerAccepted p (.msgEnd c n length)).settle.outHalf p n).openMark = false := by
  have same : senders (d.offerAccepted p (.msgEnd c n length)) =
      senders (endSent (d.modPort p fun y => y.countAccepted (.msgEnd c n length)) p c n) := by
    rw [endOffer_accepted, senders_tryClose, senders_reportSent]
  rw [settle_openMark (by rw [tx_of_senders (congrFun same p)]; exact endSent_busy), openMark_of_senders (congrFun same p)]
  exact endSent_closed

/-- Settles O45: the END counts, its record or its relay entry leaves as sent, and the owner goes on. -/
theorem acceptedEndCompletesMessage : Obligations.AcceptedEndCompletesMessage := by
  intro p c n length s offers owner port number opened started unlisted
  have self := endSent_chan (d := s.dev) (o := .msgEnd c n length) owner c
  rw [if_pos rfl] at self
  have others := endSent_chan (d := s.dev) (o := .msgEnd c n length) owner
  obtain ⟨-, relay, serial⟩ := endSent_beside (d := s.dev) (o := .msgEnd c n length) owner
  have counted := messageSent_steady (d := s.dev) (o := .msgEnd c n length) (length := length) owner unlisted
  refine ⟨_, byteAccepted_answers offers, ?_, fun h rest kind held => ?_, ?_⟩
  · dsimp only
    exact endOffer_openMark (d := s.dev) (p := p) (c := c) (n := n) (length := length)
  · refine becomes_settle ?_
    rw [endOffer_accepted]
    generalize endSent (s.dev.modPort p fun y => y.countAccepted (.msgEnd c n length)) p c n = d at self others relay serial counted ⊢
    exact endReported_out (y := s.dev.chan c) self kind opened started held counted serial (chan_modChan_self _ _ _)
  · intro i x e rest kind partner apart pair inbound outbound queue openIn
    refine becomes_settle ?_
    rw [endOffer_accepted]
    generalize endSent (s.dev.modPort p fun y => y.countAccepted (.msgEnd c n length)) p c n = d at self others relay serial counted ⊢
    exact endReported_relay (y := s.dev.chan c) self kind opened started partner (by rw [Device.pair, relay]; exact pair) inbound outbound
      queue (by rw [others, if_neg (Ne.symm apart)]; exact openIn) apart counted (chan_modChan_self _ _ _)

end Sys2Proof.Acceptances
end

section
/-! SUPPORT. The command byte of a pending control entry accepted: a GRANT, a REVOKE and an END ABANDON, and the closes that waited for
them (R12, R16, R31, R35, R36). -/

namespace Sys2Proof.Acceptances

open Sys2Proof.Machine Sys2Proof.Engaging Sys2Proof.LinkBytes Sys2Proof.Closes

variable {s t : State} {d e : Device} {c i : ChannelId} {p : PortId} {n : LinkNumber} {o : Offer} {h : HostRecord}
  {rest : List HostRecord} {entry : ControlEntry} {before after : List Deferred} {f : Deferred}

/-! ## Blocks equal in their steady part -/

/-- The steady part of a port with a Link Map entry changed. -/
theorem modEntry_steady (x : Port) (n : LinkNumber) (g : MapEntry → MapEntry) :
    (x.modEntry n g).steady = { x.steady with map := x.steady.map.set n (g (x.entry n)).steady } := by
  simp only [Port.steady, Port.modEntry, Vector.map_set]

/-- Changes of an inbound half that agree where they are made, but for the credits in flight. -/
theorem modIn_steady {g k : InHalf → InHalf} (same : e.steady = d.steady)
    (change : { g (e.inHalf p n) with inFlight := 0 } = { k (d.inHalf p n) with inFlight := 0 }) :
    (e.modIn p n g).steady = (d.modIn p n k).steady := by
  have entry : { (e.port p).entry n with inbound := g ((e.port p).entry n).inbound }.steady =
      { (d.port p).entry n with inbound := k ((d.port p).entry n).inbound }.steady := by
    have old : ((e.port p).entry n).steady = ((d.port p).entry n).steady := by
      have := congrArg (fun x : Port => x.entry n) (port_of_steady same p)
      simpa [Port.steady, Port.entry] using this
    have out := congrArg MapEntry.outbound old
    simp only [MapEntry.steady, MapEntry.mk.injEq] at out ⊢
    exact ⟨out, change⟩
  refine steady_ext (e := d.modIn p n k) (d := e.modIn p n g) (cu_of_steady (d := e) (e := d) same) (chan_of_steady (d := e) (e := d) same)
    (fun q => ?_) (ring_of_steady (d := e) (e := d) same) (relay_of_steady (d := e) (e := d) same)
    (lost_of_steady (d := e) (e := d) same) (buffers_of_steady (d := e) (e := d) same)
  rw [Device.modIn, Device.modIn, port_modPort, port_modPort]
  split
  · rw [modEntry_steady, modEntry_steady, port_of_steady same p, entry]
  · exact port_of_steady same q

/-- Blocks equal in their steady part stay so as a context is cleared. -/
theorem contextCleared_steady (same : e.steady = d.steady) : (e.contextCleared c).steady = (d.contextCleared c).steady := by
  have chan := chan_of_steady same
  have kept : (e.chan c).kind = (d.chan c).kind ∧ (e.chan c).port = (d.chan c).port ∧ (e.chan c).number = (d.chan c).number ∧
      (e.chan c).counters = (d.chan c).counters := by
    have kind := congrArg Channel.kind (chan c)
    have port := congrArg Channel.port (chan c)
    have number := congrArg Channel.number (chan c)
    have counters := congrArg Channel.counters (chan c)
    exact ⟨kind, port, number, counters⟩
  exact contextCleared_congr c (cu_of_steady same) (fun k _ => chan k) kept (port_of_steady same) (ring_of_steady same)
    (relay_of_steady same) (lost_of_steady same) (buffers_of_steady same)

/-- A context cleared shows of the changes of its channel before only what they make of its key and counters. -/
theorem contextCleared_modChan {g k : Channel → Channel}
    (alike : (g (d.chan c)).kind = (k (d.chan c)).kind ∧ (g (d.chan c)).port = (k (d.chan c)).port ∧
      (g (d.chan c)).number = (k (d.chan c)).number ∧ (g (d.chan c)).counters = (k (d.chan c)).counters) :
    ((d.modChan c g).contextCleared c).steady = ((d.modChan c k).contextCleared c).steady :=
  contextCleared_congr c rfl (fun j other => by rw [chan_modChan, chan_modChan, if_neg (Ne.symm other), if_neg (Ne.symm other)])
    (by rw [chan_modChan_self, chan_modChan_self]; exact alike) (fun _ => rfl) (fun _ => rfl) rfl rfl rfl

/-! ## A close that waited for nothing else -/

/-- A channel reaches CLOSED and its deferred CLOSE completes (R16). -/
theorem finishChannel_defers (list : d.cu.deferred = before ++ f :: after) (own : isClose c f.work = true)
    (first : ∀ x ∈ before, isClose c x.work = false) (free : ∀ x, (before ++ after).head? = some x → x.work ≠ .barrier) :
    (d.finishChannel c).steady =
      (((d.withDeferred (before ++ after)).noticed (.commandDone f.subject .ok f.tag (d.chan c).retire)).contextCleared c).steady := by
  unfold Device.finishChannel
  rw [clearContext_steady, completeDeferred_eq before after list first own free]

/-! ## A pending control entry accepted -/

/-- The blocks as the command byte of the head entry counts as sent, and the entry leaves the list. -/
def entrySent (d : Device) (p : PortId) (entry : ControlEntry) (control : Bool) : Device :=
  d.modPort p fun x => { x.sent (.entryByte entry) control with control := x.control.tail }

/-- The same as the model has it, with the marks of the pass. -/
def entryPopped (d : Device) (p : PortId) (entry : ControlEntry) : Device :=
  (d.modPort p fun x => x.countAccepted (.entryByte entry)).modPort p Port.popControl

theorem entryPopped_steady :
    (entryPopped d p entry).steady = (entrySent d p entry (Offer.isControl (.entryByte entry))).steady := by
  unfold entryPopped entrySent
  rw [modPort_modPort]
  exact TakenDown.steady_modPort_eq rfl

theorem entryPopped_inHalf : (entryPopped d p entry).inHalf p n = d.inHalf p n := by
  unfold entryPopped
  rw [inHalf_modPort _ _ _ _ rfl, inHalf_modPort _ _ _ _ rfl]

theorem entryPopped_outHalf : (entryPopped d p entry).outHalf p n = d.outHalf p n := by
  unfold entryPopped
  rw [outHalf_modPort _ _ _ _ rfl, outHalf_modPort _ _ _ _ rfl]

theorem entryPopped_tx : ((entryPopped d p entry).port p).tx = .accepted (.entryByte entry) := by
  unfold entryPopped
  rw [port_modPort_self, port_modPort_self]
  rfl

/-! ## A REVOKE accepted (R35) -/

/-- The blocks with the credits of a half taken back and its revoke pending no more. -/
def creditsRevoked (d : Device) (p : PortId) (n : LinkNumber) : Device :=
  (d.releaseCredits (d.inHalf p n).owner (d.inHalf p n).granted).modIn p n fun x => { x with revokePending := false, granted := 0 }

theorem creditsRevoked_steady (same : d.steady = e.steady) :
    (creditsRevoked d p n).steady = (e.modIn p n fun x => { x with revokePending := false, granted := 0 }).steady := by
  have released : (d.releaseCredits (d.inHalf p n).owner (d.inHalf p n).granted).steady = e.steady :=
    (releaseCredits_steady _ _ _).trans same
  have half := Quiesce.inHalf_of_steady released p n
  exact modIn_steady released (congrArg (fun x : InHalf => { x with revokePending := false, granted := 0 }) half)

theorem releaseCredits_beside (owner : Option ChannelId) (k : Nat) : (d.releaseCredits owner k).channels = d.channels ∧
    (d.releaseCredits owner k).ports = d.ports ∧ (d.releaseCredits owner k).cu = d.cu ∧ (d.releaseCredits owner k).serial = d.serial := by
  unfold Device.releaseCredits
  split
  · split <;> exact ⟨rfl, rfl, rfl, rfl⟩
  · exact ⟨rfl, rfl, rfl, rfl⟩

theorem creditsRevoked_beside : (creditsRevoked d p n).channels = d.channels ∧ (creditsRevoked d p n).cu = d.cu ∧
    (creditsRevoked d p n).serial = d.serial := by
  obtain ⟨channels, -, cu, serial⟩ := releaseCredits_beside (d := d) (d.inHalf p n).owner (d.inHalf p n).granted
  exact ⟨channels, cu, serial⟩

theorem creditsRevoked_chan (k : ChannelId) : (creditsRevoked d p n).chan k = d.chan k :=
  congrArg (fun v => Vector.get v k) creditsRevoked_beside.1

theorem creditsRevoked_openMark : ((creditsRevoked d p n).inHalf p n).openMark = (d.inHalf p n).openMark := by
  obtain ⟨-, ports, -, -⟩ := releaseCredits_beside (d := d) (d.inHalf p n).owner (d.inHalf p n).granted
  unfold creditsRevoked
  rw [inHalf_modIn_self]
  exact congrArg (fun v => ((Vector.get v p).entry n).inbound.openMark) ports

theorem revokeEntry_accepted :
    d.offerAccepted p (.entryByte (.revoke n)) =
      (creditsRevoked (entryPopped d p (.revoke n)) p n).ownerRevoked ((entryPopped d p (.revoke n)).inHalf p n).owner := rfl

theorem revokeAccepted_waiting {x : Channel} (state : x.state = .draining ∨ x.state = .aborting ∨ x.state = .faulted) :
    x.revokeAccepted = { x with revoke := .accepted } := by
  unfold Channel.revokeAccepted
  rcases state with h | h | h <;> simp only [h]

theorem revokeAccepted_opened {x : Channel} (state : x.state = .opened) : x.revokeAccepted = x := by
  unfold Channel.revokeAccepted
  rw [state]

/-- The owner of a revoked half, when it does not wait for the revoke to reach CLOSED. -/
theorem ownerRevoked_stays (kind : (d.chan c).kind = .inn) (state : (d.chan c).state = .opened ∨ (d.chan c).state = .faulted) :
    d.ownerRevoked (some c) = d.modChan c Channel.revokeAccepted := by
  have kept : ((d.chan c).revokeAccepted).kind = .inn ∧
      ((d.chan c).revokeAccepted.state = .opened ∨ (d.chan c).revokeAccepted.state = .faulted) := by
    rcases state with h | h
    · rw [revokeAccepted_opened h]
      exact ⟨kind, .inl h⟩
    · rw [revokeAccepted_waiting (.inr (.inr h))]
      exact ⟨kind, .inr h⟩
  refine tryClose_waits ?_
  unfold Device.closeDone
  dsimp only
  rw [chan_modChan_self, kept.1]
  rcases kept.2 with h | h <;> rw [h]

/-- A closing owner with nothing else to wait for reaches CLOSED. -/
theorem ownerRevoked_closes (kind : (d.chan c).kind = .inn)
    (closing : (d.chan c).state = .draining ∧ (d.inHalf (d.chan c).port (d.chan c).number).openMark = false ∨
      (d.chan c).state = .aborting)
    (list : d.cu.deferred = before ++ f :: after) (own : isClose c f.work = true) (first : ∀ x ∈ before, isClose c x.work = false)
    (free : ∀ x, (before ++ after).head? = some x → x.work ≠ .barrier) :
    (d.ownerRevoked (some c)).steady =
      (((d.withDeferred (before ++ after)).noticed (.commandDone f.subject .ok f.tag (d.chan c).retire)).contextCleared c).steady := by
  have accepted : (d.chan c).revokeAccepted = { d.chan c with revoke := .accepted } := by
    rcases closing with ⟨h, -⟩ | h
    · exact revokeAccepted_waiting (.inl h)
    · exact revokeAccepted_waiting (.inr (.inl h))
  have chan : (d.modChan c Channel.revokeAccepted).chan c = { d.chan c with revoke := .accepted } := by
    rw [chan_modChan_self, accepted]
  have done : (d.modChan c Channel.revokeAccepted).closeDone c = true := by
    rcases closing with ⟨state, shut⟩ | state
    · rw [closeDone_inDraining (by rw [chan]; exact kind) (by rw [chan]; exact state), chan]
      exact congrArg (fun b => true && !b) shut
    · rw [closeDone_inAborting (by rw [chan]; exact kind) (by rw [chan]; exact state), chan]
      rfl
  have host : ((d.modChan c Channel.revokeAccepted).chan c).isRelay = false :=
    (EngineWindow.isRelay_false_iff _).mpr (.inr (by rw [chan]; exact kind))
  have finished := finishChannel_defers (d := d.modChan c Channel.revokeAccepted) (c := c) list own first free
  rw [chan] at finished
  rw [show d.ownerRevoked (some c) = (d.modChan c Channel.revokeAccepted).tryClose c from rfl, tryClose_host host done, finished]
  have cleared := contextCleared_modChan (c := c)
    (d := (d.withDeferred (before ++ after)).noticed (.commandDone f.subject .ok f.tag (d.chan c).retire))
    (g := Channel.revokeAccepted) (k := id) (by
      rw [show ((d.withDeferred (before ++ after)).noticed (.commandDone f.subject .ok f.tag (d.chan c).retire)).chan c = d.chan c from rfl,
        accepted]
      exact ⟨rfl, rfl, rfl, rfl⟩)
  rw [modChan_eq_self (f := id) rfl] at cleared
  exact cleared

/-! ## An END ABANDON accepted (R36) -/

/-- The blocks as an END ABANDON counts as sent, with its half open no more. -/
def abandonSent (d : Device) (p : PortId) (n : LinkNumber) : Device :=
  (d.countSent p n).modOut p n fun y => { y with openMark := false }

theorem abandonEntry_accepted :
    d.offerAccepted p (.entryByte (.abandon n)) =
      match ((abandonSent (entryPopped d p (.abandon n)) p n).outHalf p n).owner with
      | some c => ((abandonSent (entryPopped d p (.abandon n)) p n).reportAbandoned c).tryClose c
      | none => abandonSent (entryPopped d p (.abandon n)) p n := rfl

theorem abandonSent_eq (owner : Option ChannelId) (half : (d.outHalf p n).owner = owner) :
    abandonSent d p n = (d.oneWireByte owner).modOut p n fun y => { y with openMark := false } := by
  rw [abandonSent, Device.countSent, countWire_eq, half]

theorem abandonSent_half : (abandonSent d p n).outHalf p n = { d.outHalf p n with openMark := false } := by
  rw [abandonSent_eq _ rfl, outHalf_modOut_self, Device.outHalf, port_oneWireByte]
  rfl

theorem abandonEntry_none (unowned : (d.outHalf p n).owner = none) :
    d.offerAccepted p (.entryByte (.abandon n)) = abandonSent (entryPopped d p (.abandon n)) p n := by
  have half : ((abandonSent (entryPopped d p (.abandon n)) p n).outHalf p n).owner = none := by
    rw [abandonSent_half, entryPopped_outHalf]
    exact unowned
  rw [abandonEntry_accepted, half]

theorem abandonEntry_some (owned : (d.outHalf p n).owner = some c) :
    d.offerAccepted p (.entryByte (.abandon n)) =
      ((abandonSent (entryPopped d p (.abandon n)) p n).reportAbandoned c).tryClose c := by
  have half : ((abandonSent (entryPopped d p (.abandon n)) p n).outHalf p n).owner = some c := by
    rw [abandonSent_half, entryPopped_outHalf]
    exact owned
  rw [abandonEntry_accepted, half]

theorem abandonSent_steady (owner : Option ChannelId) (half : (d.outHalf p n).owner = owner) (same : d.steady = e.steady) :
    (abandonSent d p n).steady = (e.oneWireByte owner).steady := by
  rw [abandonSent_eq owner half, steady_modOut rfl]
  cases owner with
  | none => exact same
  | some c =>
    exact modChan_steady same (congrArg (fun x : Channel => { x with
      counters := { x.counters with wireBytes := satAdd x.counters.wireBytes 1 } }) (chan_of_steady same c))

theorem abandonEntry_openMark : ((d.offerAccepted p (.entryByte (.abandon n))).settle.outHalf p n).openMark = false := by
  have same : senders (d.offerAccepted p (.entryByte (.abandon n))) = senders (abandonSent (entryPopped d p (.abandon n)) p n) := by
    rw [abandonEntry_accepted]
    split
    · rw [senders_tryClose, senders_reportAbandoned]
    · rfl
  have tx : ((abandonSent (entryPopped d p (.abandon n)) p n).port p).tx = .accepted (.entryByte (.abandon n)) := by
    rw [abandonSent_eq _ rfl, Device.modOut, port_modPort_self, port_oneWireByte]
    exact entryPopped_tx
  rw [settle_openMark (by rw [tx_of_senders (congrFun same p), tx]; exact fun idle => by cases idle),
    openMark_of_senders (congrFun same p), abandonSent_half]

theorem reportAbandoned_out (started : (d.chan c).out.phase = .started) (kind : (d.chan c).kind = .out) :
    d.reportAbandoned c = d.completeSend c (d.chan c).cancelStatus (d.chan c).out.offset := by
  unfold Device.reportAbandoned
  dsimp only
  rw [started, kind]
  rfl

/-- The counters of a channel whose message an abortive close has ended (R19). -/
def countsAbandoned (x : Channel) (y : Channel) : Channel :=
  { y with
    counters := { y.counters with abandoned := if x.out.spoiled then y.counters.abandoned else satAdd y.counters.abandoned 1 } }

theorem sendCompleted_cancelStatus (x : Channel) (k : ChannelCounters) :
    k.sendCompleted x.cancelStatus = { k with abandoned := if x.out.spoiled then k.abandoned else satAdd k.abandoned 1 } := by
  unfold Channel.cancelStatus
  cases x.out.spoiled <;> rfl

/-- The record of an ABORTING channel completes as the abandon of its message is accepted, and the channel reaches CLOSED. -/
theorem abandon_closes {m : Device} {y : Channel} (self : d.chan c = wired y) (kind : y.kind = .out) (state : y.state = .aborting)
    (started : y.out.phase = .started) (held : y.held = h :: rest) (shut : (d.outHalf y.port y.number).openMark = false)
    (list : d.cu.deferred = before ++ f :: after) (own : isClose c f.work = true) (first : ∀ x ∈ before, isClose c x.work = false)
    (free : ∀ x, (before ++ after).head? = some x → x.work ≠ .barrier) (same : d.steady = m.steady) (serial : d.serial = m.serial)
    (its : m.chan c = wired y) :
    ((d.reportAbandoned c).tryClose c).steady =
      (((((m.postCompletion (sendCompletion y c (if y.out.spoiled then .fault else .cancelled) h y.out.offset)).modChan c
        (countsAbandoned y)).withDeferred (before ++ after)).noticed
        (.commandDone f.subject .ok f.tag ((y.retire + 1) % y.size))).contextCleared c).steady := by
  have completed := completeSend_shut (d := d) (c := c) (h := h) (rest := rest) (status := y.cancelStatus) (length := y.out.offset)
    (by rw [self]; exact fun opened => by cases state.symm.trans opened) (by rw [self]; exact held)
  have reported : d.reportAbandoned c = d.completeSend c y.cancelStatus y.out.offset := by
    rw [reportAbandoned_out (by rw [self]; exact started) (by rw [self]; exact kind), self]
    rfl
  have left : (d.completeSend c y.cancelStatus y.out.offset).chan c = recordRetired y.cancelStatus rest (wired y) := by
    rw [completed, chan_modChan_self, ← self]
    rfl
  have closed : ((d.completeSend c y.cancelStatus y.out.offset).outHalf y.port y.number).openMark = false := by
    rw [openMark_of_senders (congrFun (senders_completeSend _ _) _)]
    exact shut
  have deferred : (d.completeSend c y.cancelStatus y.out.offset).cu.deferred = before ++ f :: after := by
    rw [completed]
    exact list
  have done : (d.completeSend c y.cancelStatus y.out.offset).closeDone c = true := by
    rw [closeDone_outAborting (by rw [left]; exact kind) (by rw [left]; exact state), left]
    exact congrArg Bool.not closed
  have host : ((d.completeSend c y.cancelStatus y.out.offset).chan c).isRelay = false :=
    (EngineWindow.isRelay_false_iff _).mpr (.inl (by rw [left]; exact kind))
  have completion : sendCompletion (d.chan c) c y.cancelStatus h y.out.offset = sendCompletion y c y.cancelStatus h y.out.offset := by
    rw [self]
    rfl
  have retired : (d.completeSend c y.cancelStatus y.out.offset).steady =
      ((m.postCompletion (sendCompletion y c y.cancelStatus h y.out.offset)).modChan c (recordRetired y.cancelStatus rest)).steady := by
    rw [completed, completion]
    refine modChan_steady ((unstage_steady _ c).trans (postCompletion_congr _ same serial)) ?_
    exact congrArg (fun z => Channel.steady (recordRetired y.cancelStatus rest z)) (self.trans its.symm)
  have counted : (d.completeSend c y.cancelStatus y.out.offset).serial = m.serial + 1 := by
    rw [completed, ← serial]
    rfl
  rw [reported, tryClose_host host done, finishChannel_defers deferred own first free, left]
  refine (contextCleared_steady (noticed_congr (.commandDone f.subject .ok f.tag ((y.retire + 1) % y.size))
    (TakenDown.withDeferred_congr (before ++ after) retired) counted)).trans ?_
  refine contextCleared_modChan (c := c) (g := recordRetired y.cancelStatus rest) (k := countsAbandoned y)
    (d := ((m.postCompletion (sendCompletion y c y.cancelStatus h y.out.offset)).withDeferred (before ++ after)).noticed
      (.commandDone f.subject .ok f.tag ((y.retire + 1) % y.size))) ⟨rfl, rfl, rfl, ?_⟩
  exact sendCompleted_cancelStatus y _

/-- Settles O44: each entry acts on its half, and a close that waited for it is done. -/
theorem acceptedControlEntryActs : Obligations.AcceptedControlEntryActs := by
  intro p entry s offers
  refine ⟨_, byteAccepted_answers offers, ?_, ?_, ?_⟩
  · rintro n k rfl
    refine becomes_settle ((runGenerator_steady _ _ _).trans ?_)
    refine modIn_steady (entryPopped_steady (d := s.dev) (entry := .grant n k)) ?_
    have half := entryPopped_inHalf (d := s.dev) (p := p) (n := n) (entry := .grant n k)
    have sent : (s.dev.modPort p fun x => { x.sent (.entryByte (.grant n k)) true with control := x.control.tail }).inHalf p n =
        s.dev.inHalf p n := inHalf_modPort _ _ _ _ rfl
    rw [sent]
    exact congrArg (fun x : InHalf => { x with inFlight := 0, granted := x.granted + k }) half
  · rintro n rfl
    have same := creditsRevoked_steady (p := p) (n := n) (entryPopped_steady (d := s.dev) (p := p) (entry := .revoke n))
    have chan : ∀ k, (creditsRevoked (entryPopped s.dev p (.revoke n)) p n).chan k = s.dev.chan k := fun k => creditsRevoked_chan k
    have cu : (creditsRevoked (entryPopped s.dev p (.revoke n)) p n).cu = s.dev.cu := creditsRevoked_beside.2.1
    have serial : (creditsRevoked (entryPopped s.dev p (.revoke n)) p n).serial = s.dev.serial := creditsRevoked_beside.2.2
    have mark := (creditsRevoked_openMark (d := entryPopped s.dev p (.revoke n)) (p := p) (n := n)).trans
      (congrArg InHalf.openMark entryPopped_inHalf)
    refine ⟨fun unowned => ?_, fun c owned kind port number => ⟨fun opened => ?_, fun faulted => ?_,
      fun e before after closing list => ?_⟩⟩
    all_goals
      refine becomes_settle ?_
      rw [revokeEntry_accepted, entryPopped_inHalf]
    · rw [unowned]
      exact same
    · rw [owned, ownerRevoked_stays (by rw [chan]; exact kind) (by rw [chan]; exact .inl opened),
        modChan_eq_self (by rw [chan]; exact revokeAccepted_opened opened)]
      exact same
    · rw [owned, ownerRevoked_stays (by rw [chan]; exact kind) (by rw [chan]; exact .inr faulted)]
      refine modChan_steady same ?_
      rw [chan, revokeAccepted_waiting (.inr (.inr faulted))]
      rfl
    · obtain ⟨list, own, first, free⟩ := list
      rw [owned, ownerRevoked_closes (d := creditsRevoked (entryPopped s.dev p (.revoke n)) p n) (c := c) (by rw [chan]; exact kind)
        (by rw [chan, port, number, mark]; exact closing) (by rw [cu]; exact list) own first free, chan]
      exact contextCleared_steady (noticed_congr _ (TakenDown.withDeferred_congr _ same) serial)
  · rintro n rfl
    refine ⟨?_, fun unowned => ?_, ?_⟩
    · dsimp only
      exact abandonEntry_openMark (d := s.dev) (p := p) (n := n)
    · refine becomes_settle ?_
      rw [abandonEntry_none unowned]
      exact abandonSent_steady none (by rw [entryPopped_outHalf]; exact unowned) entryPopped_steady
    · intro c h rest e before after owned kind port number state started held list
      obtain ⟨list, own, first, free⟩ := list
      refine becomes_settle ?_
      have half : ((entryPopped s.dev p (.abandon n)).outHalf p n).owner = some c := by
        rw [entryPopped_outHalf]
        exact owned
      have sent := abandonSent_eq (d := entryPopped s.dev p (.abandon n)) (some c) half
      have chan : (abandonSent (entryPopped s.dev p (.abandon n)) p n).chan c = wired (s.dev.chan c) := by
        rw [sent]
        exact chan_modChan_self (entryPopped s.dev p (.abandon n)) c wired
      have beside : (abandonSent (entryPopped s.dev p (.abandon n)) p n).cu = s.dev.cu ∧
          (abandonSent (entryPopped s.dev p (.abandon n)) p n).serial = s.dev.serial := by
        rw [sent]
        exact ⟨rfl, rfl⟩
      have shut : ((abandonSent (entryPopped s.dev p (.abandon n)) p n).outHalf (s.dev.chan c).port (s.dev.chan c).number).openMark =
          false := by
        rw [port, number, abandonSent_half]
      have same := abandonSent_steady (d := entryPopped s.dev p (.abandon n)) (some c) half
        (entryPopped_steady (d := s.dev) (p := p) (entry := .abandon n))
      rw [abandonEntry_some owned]
      exact abandon_closes (y := s.dev.chan c) chan kind state started held shut (by rw [beside.1]; exact list) own first free same
        beside.2 (chan_modChan_self _ _ _)

end Sys2Proof.Acceptances
end

section
/-! SUPPORT. The issue of inbound writes and moves depends on the steady part, on the next identity and on the writes in flight
(R113, R131). -/

namespace Sys2Proof.PeerEnds

open Sys2Proof.Machine Sys2Proof.LinkBytes Sys2Proof.Closes Sys2Proof.Acceptances

variable {d e f : Device} {c i : ChannelId} {p q : PortId} {n : LinkNumber}

/-- Whether a request is a buffer write of a port. -/
def isWriteOf (p : PortId) (r : Request) : Bool := match r.access with | .bufferWrite q _ => q == p | _ => false

/-- Blocks from which a port issues the same writes and moves. -/
structure Alike (e d : Device) (p : PortId) : Prop where
  steady : e.steady = d.steady
  serial : e.serial = d.serial
  writes : e.requests.countP (isWriteOf p) = d.requests.countP (isWriteOf p)

namespace Alike

theorem refl (d : Device) : Alike d d p := ⟨rfl, rfl, rfl⟩

theorem trans (h : Alike f e p) (g : Alike e d p) : Alike f d p :=
  ⟨h.steady.trans g.steady, h.serial.trans g.serial, h.writes.trans g.writes⟩

theorem inFlight (h : Alike e d p) : e.inboundInFlight p = d.inboundInFlight p := by
  have moves : e.relay = d.relay := relay_of_steady h.steady
  have count : ∀ a : Device, a.inboundInFlight p = a.requests.countP (isWriteOf p) + a.relay.moves.countP fun m => m.port == p :=
    fun _ => rfl
  rw [count, count, h.writes, moves]

theorem staging (h : Alike e d p) : (e.port p).inStaging = (d.port p).inStaging := by
  have := congrArg Port.inStaging (port_of_steady h.steady p)
  exact this

theorem modPort {g : Port → Port} (h : Alike e d p) (change : ∀ x y : Port, x.steady = y.steady → (g x).steady = (g y).steady) :
    Alike (e.modPort p g) (d.modPort p g) p := ⟨steady_modPort_congr _ _ _ h.steady change, h.serial, h.writes⟩

theorem place (h : Alike e d p) (a : Access) (b : Address) (k : Nat) (l : List Byte) : Alike (e.place a b k l) (d.place a b k l) p := by
  have placed : ∀ x : Device, (x.place a b k l).requests.countP (isWriteOf p) =
      x.requests.countP (isWriteOf p) + List.countP (isWriteOf p) [{ id := 0, access := a, address := b, length := k, data := l }] :=
    fun x => by
      refine List.countP_append.trans (congrArg (x.requests.countP (isWriteOf p) + ·) ?_)
      rw [List.countP_singleton, List.countP_singleton]
      rfl
  exact ⟨h.steady, congrArg (· + 1) h.serial, by rw [placed, placed, h.writes]⟩

theorem modBuffer (h : Alike e d p) (k : Nat) (g : Buffer → Buffer) : Alike (e.modBuffer k g) (d.modBuffer k g) p := by
  have changed : ∀ x : Device, (x.modBuffer k g).steady =
      { x.steady with buffers := x.steady.buffers.map fun y => if y.id == k then g y else y } := fun _ => rfl
  exact ⟨by rw [changed, changed, h.steady], h.serial, h.writes⟩

theorem modRelay (h : Alike e d p) (g : RelayUnit → RelayUnit) : Alike (e.modRelay g) (d.modRelay g) p :=
  ⟨modRelay_congr g h.steady, h.serial, h.writes⟩

/-- A move into a cell is issued under the next identity. -/
theorem move (h : Alike e d p) (m : CellMove) :
    Alike { (e.modRelay fun r => { r with moves := r.moves ++ [{ m with id := e.serial }] }) with serial := e.serial + 1 }
      { (d.modRelay fun r => { r with moves := r.moves ++ [{ m with id := d.serial }] }) with serial := d.serial + 1 } p := by
  have same : Alike (e.modRelay fun r => { r with moves := r.moves ++ [{ m with id := d.serial }] })
      (d.modRelay fun r => { r with moves := r.moves ++ [{ m with id := d.serial }] }) p := h.modRelay _
  rw [h.serial]
  exact ⟨same.steady, rfl, same.writes⟩

theorem issueOne (h : Alike e d p) : Alike (e.issueOne p) (d.issueOne p) p := by
  have taken : ∀ l, Alike (e.modPort p fun x => { x with inStaging := l }) (d.modPort p fun x => { x with inStaging := l }) p :=
    fun l => h.modPort fun x y same => congrArg (fun z : Port => { z with inStaging := l }) same
  have buffers : e.buffers = d.buffers := buffers_of_steady h.steady
  unfold Device.issueOne
  rw [h.inFlight, h.staging]
  split
  · exact h
  · split
    · exact h
    · rename_i b rest _
      dsimp only
      split
      · have found : ∀ k, e.buffer? k = d.buffer? k := fun k => by rw [Device.buffer?, Device.buffer?, buffers]
        rw [buffer?_modPort, buffer?_modPort, found]
        cases d.buffer? _ with
        | none => exact taken _
        | some z => exact ((taken _).place _ _ _ _).modBuffer _ _
      · exact (taken _).move ⟨0, p, _, b.offset, _⟩

theorem issueInbound (h : Alike e d p) : Alike (e.issueInbound p) (d.issueInbound p) p := h.issueOne.issueOne.issueOne.issueOne

end Alike

end Sys2Proof.PeerEnds
end

section
/-! SUPPORT. REPEAT and END bytes of the peer on host buffers (R46, R47, R118 to R120). -/

namespace Sys2Proof.PeerEnds

open Sys2Proof.Machine Sys2Proof.Engaging Sys2Proof.LinkBytes Sys2Proof.Closes Sys2Proof.Acceptances

variable {s : State} {d e : Device} {c : ChannelId} {p q : PortId} {n : LinkNumber} {h : HostRecord} {rest : List HostRecord}
  {status : Status} {length : Nat}

/-! ## The owner after the END -/

/-- A grant is no memory access. -/
theorem generate_requests (d : Device) (p : PortId) (n : LinkNumber) : (d.generate p n).1.requests = d.requests := by
  unfold Device.generate
  split
  · rfl
  · simp only
    repeat' split
    all_goals rfl

/-- The grant generator places no memory access. -/
theorem runGenerator_requests (d : Device) (p : PortId) (n : LinkNumber) : (d.runGenerator p n).requests = d.requests := by
  have same := generate_requests d p n
  unfold Device.runGenerator
  split
  · next e made => rw [made] at same; exact same
  · next e made =>
    rw [made] at same
    split
    · exact same
    · exact same
  · next e _ made => rw [made] at same; exact same

/-- Whether the inbound channel of an ended message is OPEN, so that the END closes nothing. -/
def StaysOpen (d : Device) (c : ChannelId) : Prop :=
  (d.chan c).state = .opened ∧
    ((d.chan c).kind = .inn ∨ (d.chan c).kind = .relayIn ∧ ∀ r, d.pair c = some r → r.inbound = c)

theorem StaysOpen.of_steady (h : StaysOpen d c) (same : e.steady = d.steady) : StaysOpen e c := by
  obtain ⟨state, kind, -⟩ := fields_of_steady (chan_of_steady same c)
  have pair : e.pair c = d.pair c := by rw [Device.pair, relay_of_steady same]; rfl
  rw [StaysOpen, state, kind, pair]
  exact h

/-- An OPEN channel is not closed by the end of a message. -/
theorem StaysOpen.tryClose (h : StaysOpen d c) : d.tryClose c = d := by
  obtain ⟨opened, inn | ⟨relay, inbound⟩⟩ := h
  · exact tryClose_waits (by simp [Device.closeDone, inn, opened])
  · refine tryClose_waits ?_
    unfold Device.closeDone
    dsimp only
    rw [relay, opened]
    cases pair : d.pair c with
    | none => rfl
    | some r =>
      have same := inbound r pair
      have waits : d.pairDone r = false := by simp [Device.pairDone, same, opened]
      exact waits

/-- After an END the generator runs and the OPEN owner stays. -/
theorem Alike.ended (h : Alike e d p) (stays : StaysOpen d c) : Alike ((e.runGenerator q n).tryClose c) d p := by
  have same : Alike (e.runGenerator q n) d p :=
    ⟨(runGenerator_steady _ _ _).trans h.steady, (runGenerator_serial _ _ _).trans h.serial,
      (congrArg (List.countP _) (runGenerator_requests _ _ _)).trans h.writes⟩
  rw [(stays.of_steady same.steady).tryClose]
  exact same

/-- Blocks alike before the inbound writes are issued make a state become the same. -/
theorem Alike.becomes (h : Alike e d p) : s.becomes { s with dev := (e.issueInbound p).settle } (d.issueInbound p) :=
  becomes_settle h.issueInbound.steady

/-! ## The end of a host buffer's message -/

/-- A channel's own change that leaves its ring commutes with its completion. -/
theorem postCompletion_modChan {f : Channel → Channel} {x : Completion} (own : x.channel = c)
    (ring : (f (d.chan c)).ring = (d.chan c).ring) : (d.modChan c f).postCompletion x = (d.postCompletion x).modChan c f := by
  unfold Device.postCompletion
  rw [own, chan_modChan_self, ring]
  rfl

theorem modChan_at {f g : Channel → Channel} (h : f (d.chan c) = g (d.chan c)) : d.modChan c f = d.modChan c g := by
  unfold Device.modChan
  rw [h]

/-- The channel of an ended message with its counters changed beside. -/
theorem endInbound_modChan {f : Channel → Channel} (held : (d.chan c).held = h :: rest)
    (kept : (f (d.chan c)).ring = (d.chan c).ring ∧ (f (d.chan c)).held = (d.chan c).held ∧ (f (d.chan c)).inm = (d.chan c).inm) :
    (d.modChan c f).endInbound c status length =
      ((d.postCompletion (bufferCompletion (d.chan c) c status h length)).modChan c fun x =>
        messageEnded status rest (f x)).fetchRecords c := by
  obtain ⟨ring, records, inm⟩ := kept
  rw [endInbound_eq (h := h) (rest := rest) (by rw [chan_modChan_self, records]; exact held), postCompletion_modChan (c := c) rfl ring,
    modChan_modChan]
  unfold bufferCompletion
  rw [chan_modChan_self, inm]

/-- The blocks as a byte of the peer that ends the message of a number has been accepted. -/
def ending (s : State) (p : PortId) (n : LinkNumber) (w : WireByte) : Device :=
  (s.dev.modPort p fun y => (y.under (y.lines.offering w)).received false).modIn p n fun y =>
    { y with openMark := false, discard := false }

/-- The counts of a peer's message that has ended, at its owner (R19). -/
def countsEnd (complete : Bool) (x : Channel) : Channel :=
  { x with
    counters :=
      { x.counters with
        wireBytes := satAdd x.counters.wireBytes 1
        messages := if complete then satAdd x.counters.messages 1 else x.counters.messages
        payloadBytes := if complete then satAdd x.counters.payloadBytes x.inm.total else x.counters.payloadBytes } }

theorem heard_offering (w : WireByte) : heard s.dev p ((s.dev.port p).lines.offering w) =
    s.dev.modPort p fun y => (y.under (y.lines.offering w)).received false := modPort_congr _ _ rfl

/-- An END on a number with a message open is accepted and ends it. -/
theorem exec_end (listens : s.listens p) (norun : (s.dev.port p).repeatPending = none) (sel : (s.dev.port p).selection = some n)
    (busy : (s.dev.inHalf p n).busy = true) {v : Nat} (legal : v < 2) :
    exec (.peerByteOffered p (commandByte 128 v)) s =
      .next
        { s with
          dev := (((heard s.dev p ((s.dev.port p).lines.offering (commandByte 128 v))).endPeerMessage p n (v == 0)).issueInbound
            p).settle } := by
  rw [exec_command listens, decode_command (by rw [heard_port]; exact norun) (by rw [heard_port]; exact sel)
    (linkCommand_finish (by omega)) (by simp)]
  simp only [Device.decodeSelected, if_neg (show ¬ 2 ≤ v by omega), Device.decodeEnd, Device.startIfNone, heard_inHalf, busy, if_true]
  simp

/-- The end of a message on a number whose owner stands, by its kind of END. -/
theorem endPeerMessage_open (opened : (d.inHalf p n).openMark = true) (owner : (d.inHalf p n).owner = some c) (complete : Bool) :
    d.endPeerMessage p n complete =
      (((if complete then
          (((d.modIn p n fun x => { x with openMark := false, discard := false }).modChan c wired).ownerComplete c)
        else ((d.modIn p n fun x => { x with openMark := false, discard := false }).modChan c wired).ownerAbandon c).runGenerator p
          n).tryClose c) := by
  unfold Device.endPeerMessage
  dsimp only
  rw [if_pos opened, owner]
  rfl

/-- The status of an IN channel's buffer at an END, by the END and by the mode (R119, R120). -/
def endStatus (complete : Bool) (x : Channel) : Status := if complete then x.inm.mode.status else .abandoned

/-- The blocks as an END has completed a host buffer: its completion carries the END and the mode (R118 to R120). -/
def bufferEnded (d : Device) (c : ChannelId) (complete : Bool) (h : HostRecord) (rest : List HostRecord) : Device :=
  ((d.postCompletion (bufferCompletion (d.chan c) c (endStatus complete (d.chan c)) h (d.chan c).endLength)).modChan c fun x =>
    messageEnded (endStatus complete (d.chan c)) rest (countsEnd complete x)).fetchRecords c

theorem ownerComplete_inn (kind : (d.chan c).kind = .inn) (held : (d.chan c).held = h :: rest) :
    (d.modChan c wired).ownerComplete c = bufferEnded d c true h rest := by
  have host : ((wired (d.chan c)).kind == .relayIn) = false := by
    show ((d.chan c).kind == .relayIn) = false
    rw [kind]
    rfl
  have counted : (d.modChan c wired).countChan c (fun k =>
      { k with messages := satAdd k.messages 1, payloadBytes := satAdd k.payloadBytes (wired (d.chan c)).inm.total }) =
      d.modChan c fun x => { countsEnd true x with
        counters := { (countsEnd true x).counters with payloadBytes := satAdd x.counters.payloadBytes (d.chan c).inm.total } } :=
    modChan_modChan ..
  unfold Device.ownerComplete
  dsimp only
  rw [chan_modChan_self, host, counted, Device.inEndComplete, chan_modChan_self]
  refine (endInbound_modChan held ⟨rfl, rfl, rfl⟩).trans ?_
  exact congrArg (Device.fetchRecords · c) (modChan_at rfl)

theorem ownerAbandon_inn (kind : (d.chan c).kind = .inn) (held : (d.chan c).held = h :: rest) :
    (d.modChan c wired).ownerAbandon c = bufferEnded d c false h rest := by
  have host : ((wired (d.chan c)).kind == .relayIn) = false := by
    show ((d.chan c).kind == .relayIn) = false
    rw [kind]
    rfl
  unfold Device.ownerAbandon
  rw [chan_modChan_self, host, Device.inEndAbandon, chan_modChan_self]
  exact endInbound_modChan held ⟨rfl, rfl, rfl⟩

/-- The value of an END byte. -/
def endValue (complete : Bool) : Nat := if complete then 0 else 1

/-- A message open on a number, whose END is the next byte of the peer. -/
structure Ends (s : State) (p : PortId) (n : LinkNumber) (c : ChannelId) : Prop where
  listens : s.listens p
  norun : (s.dev.port p).repeatPending = none
  sel : (s.dev.port p).selection = some n
  opened : (s.dev.inHalf p n).openMark = true
  owner : (s.dev.inHalf p n).owner = some c
  state : (s.dev.chan c).state = .opened

/-- An END acts as its owner's report does, once that leaves blocks alike to those named and the owner OPEN. -/
theorem Ends.becomes (g : Ends s p n c) (complete : Bool)
    (report : Alike
      (if complete then ((ending s p n (commandByte 128 (endValue complete))).modChan c wired).ownerComplete c
        else ((ending s p n (commandByte 128 (endValue complete))).modChan c wired).ownerAbandon c) d p)
    (stays : StaysOpen d c) :
    ∃ t, exec (.peerByteOffered p (commandByte 128 (endValue complete))) s = .next t ∧ s.becomes t (d.issueInbound p) := by
  have value : (endValue complete == 0) = complete := by cases complete <;> rfl
  refine ⟨_, exec_end g.listens g.norun g.sel (by simp [InHalf.busy, g.opened]) (v := endValue complete)
    (by cases complete <;> decide), ?_⟩
  rw [value, endPeerMessage_open (by rw [heard_inHalf]; exact g.opened) (by rw [heard_inHalf]; exact g.owner), heard_offering]
  exact (report.ended stays).becomes

theorem Ends.inn (g : Ends s p n c) (kind : (s.dev.chan c).kind = .inn) (held : (s.dev.chan c).held = h :: rest) (complete : Bool) :
    ∃ t, exec (.peerByteOffered p (commandByte 128 (endValue complete))) s = .next t ∧
      s.becomes t ((bufferEnded (ending s p n (commandByte 128 (endValue complete))) c complete h rest).issueInbound p) := by
  refine g.becomes complete ?_ ?_
  · cases complete with
    | true => rw [if_pos rfl, ownerComplete_inn (d := ending s p n _) kind held]; exact .refl _
    | false => rw [if_neg Bool.false_ne_true, ownerAbandon_inn (d := ending s p n _) kind held]; exact .refl _
  · refine StaysOpen.of_steady ?_ (EngineWindow.fetchRecords_steady _ c)
    refine ⟨?_, .inl ?_⟩
    all_goals rw [chan_modChan_self]
    · exact g.state
    · exact kind

end Sys2Proof.PeerEnds
end

section
/-! SUPPORT. END bytes of the peer on relay cells, and REPEAT and END bytes on every open message (R46, R47, R131 to R133). -/

namespace Sys2Proof.PeerEnds

open Sys2Proof.Machine Sys2Proof.Engaging Sys2Proof.LinkBytes Sys2Proof.Closes Sys2Proof.Acceptances

variable {s : State} {d e : Device} {c : ChannelId} {p q : PortId} {n : LinkNumber} {y : RelayPair} {k : CellId} {length : Nat}

/-- A RELAY_IN half whose message has ended, in its counters. -/
def cellEnded (complete : Bool) (total : Nat) (z : Channel) : Channel :=
  { z with
    inm := InMessage.cleared
    counters :=
      { z.counters with
        wireBytes := satAdd z.counters.wireBytes 1
        messages := if complete then satAdd z.counters.messages 1 else z.counters.messages
        payloadBytes := if complete then satAdd z.counters.payloadBytes total else z.counters.payloadBytes } }

/-- The blocks with a RELAY_IN half's message ended, before its cell moves. -/
def halfEnded (d : Device) (c : ChannelId) (complete : Bool) : Device :=
  d.modChan c (cellEnded complete (d.chan c).inm.total)

/-- What becomes of the cell of a completed message, by its mode (R132). -/
def cellComplete (d : Device) (c : ChannelId) (m : InMessage) : Device :=
  match m.mode with
  | .writing => d.queueFilling c m.fill
  | .truncating => (d.countRelay c fun g => { g with truncated := satAdd g.truncated 1 }).queueFilling c Config.cellBytes
  | .dropping => d.countRelay c fun g => { g with droppedOversize := satAdd g.droppedOversize 1 }

theorem wired_relay (kind : (d.chan c).kind = .relayIn) : (((d.modChan c wired).chan c).kind == .relayIn) = true := by
  rw [chan_modChan_self]
  show ((d.chan c).kind == .relayIn) = true
  rw [kind]
  rfl

theorem ownerComplete_relay (kind : (d.chan c).kind = .relayIn) :
    (d.modChan c wired).ownerComplete c = cellComplete (halfEnded d c true) c (d.chan c).inm := by
  have counted : (d.modChan c wired).countChan c (fun k =>
      { k with messages := satAdd k.messages 1, payloadBytes := satAdd k.payloadBytes (wired (d.chan c)).inm.total }) =
      d.modChan c fun z => { cellEnded true (d.chan c).inm.total z with inm := z.inm } := modChan_modChan ..
  have cleared : (d.modChan c fun z => { cellEnded true (d.chan c).inm.total z with inm := z.inm }).modInMsg c
      (fun _ => InMessage.cleared) = halfEnded d c true := modChan_modChan ..
  unfold Device.ownerComplete
  dsimp only
  rw [wired_relay kind, chan_modChan_self, counted, if_pos rfl]
  unfold Device.relayEndComplete
  dsimp only
  rw [cleared, chan_modChan_self]
  rfl

theorem ownerAbandon_relay (kind : (d.chan c).kind = .relayIn) :
    (d.modChan c wired).ownerAbandon c =
      ((halfEnded d c false).giveUpFilling c).countRelay c fun g => { g with abandoned := satAdd g.abandoned 1 } := by
  have cleared : (d.modChan c wired).modInMsg c (fun _ => InMessage.cleared) = halfEnded d c false := modChan_modChan ..
  unfold Device.ownerAbandon
  rw [wired_relay kind, if_pos rfl, Device.relayEndAbandon, cleared]

/-! ## The filling cell -/

/-- The blocks with the filling cell of a pair queued, and the outbound half ready to send. -/
def queued (d : Device) (c : ChannelId) (y : RelayPair) (k : CellId) (length : Nat) : Device :=
  (d.setPair c (some { y with filling := none, queue := y.queue ++ [{ cell := k, length := length }] })).modChan y.outbound fun z =>
    { z with out := { z.out with phase := .ready } }

theorem queueFilling_alike (pair : d.pair c = some y) (filling : y.filling = some k) (uncut : y.cut = false) :
    Alike (d.queueFilling c length) (queued d c y k length) p := by
  have refreshed : d.queueFilling c length =
      (d.setPair c (some { y with filling := none, queue := y.queue ++ [{ cell := k, length := length }] })).refreshPhase c := by
    unfold Device.queueFilling
    rw [pair]
    dsimp only
    rw [filling]
    dsimp only
    rw [if_neg (by rw [uncut]; exact Bool.false_ne_true), modPair_eq _ pair]
  rw [refreshed, queued]
  generalize paired : d.setPair c _ = e
  have stored : e.pair c = some { y with filling := none, queue := y.queue ++ [{ cell := k, length := length }] } := by
    rw [← paired]
    exact get_set_self _ _ _
  have nonempty : (y.queue ++ [({ cell := k, length := length } : RelayEntry)]).isEmpty = false := by simp
  unfold Device.refreshPhase
  rw [stored]
  dsimp only
  rw [nonempty]
  refine ⟨modChan_steady rfl ?_, rfl, rfl⟩
  cases phase : (e.chan y.outbound).out.phase <;> simp [Channel.steady, OutMessage.steady, phase, Phase.steady]

theorem giveUpFilling_alike (pair : d.pair c = some y) (filling : y.filling = some k) :
    Alike (d.giveUpFilling c) (Placing.cellGone d c k) p := by
  have cell : (d.pair c).bind RelayPair.filling = some k := by rw [pair]; exact filling
  have given : d.giveUpFilling c = (Placing.cellGone d c k).runPairGenerator c := by
    unfold Device.giveUpFilling
    rw [cell]
    rfl
  rw [given]
  exact ⟨runGenerator_steady _ _ _, runGenerator_serial _ _ _, congrArg _ (runGenerator_requests _ _ _)⟩

/-- The blocks with the filling cell of a pair given up, its staged bytes and its moves with it. -/
def cellDropped (d : Device) (p : PortId) (c : ChannelId) (y : RelayPair) (k : CellId) : Device :=
  (d.modPort p fun z => { z with inStaging := z.inStaging.filter fun g => !(g.dest == .cell c k) }).modRelay fun u =>
    { u with
      moves := u.moves.filter fun m => !(m.cell == k)
      pairs := u.pairs.set c (some { y with filling := none, spare := y.spare ++ [k] }) }

theorem cellGone_eq (pair : d.pair c = some y) (port : (d.chan c).port = p) : Placing.cellGone d c k = cellDropped d p c y k := by
  subst port
  unfold Placing.cellGone
  rw [modPair_eq _ (show (d.cancelCell c k).pair c = some y from pair), setPair_modPair]
  rfl

/-! ## The ends of relay messages -/

/-- An OPEN RELAY_IN half whose message an END ends, under the record of its pair. -/
structure CellEnds (s : State) (p : PortId) (n : LinkNumber) (c : ChannelId) (y : RelayPair) : Prop extends Ends s p n c where
  kind : (s.dev.chan c).kind = .relayIn
  port : (s.dev.chan c).port = p
  pair : s.dev.pair c = some y
  inbound : y.inbound = c

/-- The blocks as the END of a relay message has been counted for its half. -/
def relayEnded (s : State) (p : PortId) (n : LinkNumber) (c : ChannelId) (complete : Bool) : Device :=
  (ending s p n (commandByte 128 (endValue complete))).modChan c (cellEnded complete (s.dev.chan c).inm.total)

theorem relayEnded_chan (complete : Bool) :
    (relayEnded s p n c complete).chan c = cellEnded complete (s.dev.chan c).inm.total (s.dev.chan c) := chan_modChan_self ..

theorem CellEnds.stays (g : CellEnds s p n c y) (complete : Bool) : StaysOpen (relayEnded s p n c complete) c := by
  rw [StaysOpen, relayEnded_chan]
  refine ⟨g.state, .inr ⟨g.kind, fun r found => ?_⟩⟩
  cases g.pair.symm.trans found
  exact g.inbound

theorem queued_stays (stays : StaysOpen d c) (kind : (d.chan c).kind = .relayIn) (inbound : y.inbound = c) :
    StaysOpen (queued d c y k length) c := by
  have chan : ((queued d c y k length).chan c).state = (d.chan c).state ∧ ((queued d c y k length).chan c).kind = (d.chan c).kind := by
    unfold queued
    rw [chan_modChan]
    split
    · next same => rw [same]; exact ⟨rfl, rfl⟩
    · exact ⟨rfl, rfl⟩
  refine ⟨chan.1.trans stays.1, .inr ⟨chan.2.trans kind, fun r found => ?_⟩⟩
  have stored : (queued d c y k length).pair c = some { y with
      filling := none, queue := y.queue ++ [{ cell := k, length := length }] } := get_set_self _ _ _
  cases stored.symm.trans found
  exact inbound

theorem cellDropped_stays (stays : StaysOpen d c) (kind : (d.chan c).kind = .relayIn) (inbound : y.inbound = c) :
    StaysOpen (cellDropped d p c y k) c := by
  refine ⟨stays.1, .inr ⟨kind, fun r found => ?_⟩⟩
  have stored : (cellDropped d p c y k).pair c = some { y with filling := none, spare := y.spare ++ [k] } := get_set_self _ _ _
  cases stored.symm.trans found
  exact inbound

/-- An END COMPLETE on a cell acts by the mode of its message (R132). -/
theorem CellEnds.complete (g : CellEnds s p n c y)
    (report : Alike (cellComplete (relayEnded s p n c true) c (s.dev.chan c).inm) d p) (stays : StaysOpen d c) :
    ∃ t, exec (.peerByteOffered p (commandByte 128 (endValue true))) s = .next t ∧ s.becomes t (d.issueInbound p) := by
  refine g.toEnds.becomes true ?_ stays
  rw [if_pos rfl, ownerComplete_relay (d := ending s p n _) g.kind]
  exact report

theorem CellEnds.queues (g : CellEnds s p n c y) (uncut : y.cut = false) (filling : y.filling = some k)
    (report : cellComplete (relayEnded s p n c true) c (s.dev.chan c).inm = d.queueFilling c length)
    (pair : d.pair c = some y) (chan : d.chan c = (relayEnded s p n c true).chan c) :
    ∃ t, exec (.peerByteOffered p (commandByte 128 (endValue true))) s = .next t ∧
      s.becomes t ((queued d c y k length).issueInbound p) := by
  obtain ⟨opened, -⟩ := g.stays true
  have kind : (d.chan c).kind = .relayIn := by rw [chan, relayEnded_chan]; exact g.kind
  refine g.complete (by rw [report]; exact queueFilling_alike pair filling uncut) (queued_stays ?_ kind g.inbound)
  refine ⟨(congrArg Channel.state chan).trans opened, .inr ⟨kind, fun r found => ?_⟩⟩
  cases pair.symm.trans found
  exact g.inbound

/-- An END ABANDON on a cell gives it up (R133). -/
theorem CellEnds.abandons (g : CellEnds s p n c y)
    (report : Alike (((relayEnded s p n c false).giveUpFilling c).countRelay c fun k => { k with abandoned := satAdd k.abandoned 1 }) d p)
    (stays : StaysOpen d c) :
    ∃ t, exec (.peerByteOffered p (commandByte 128 (endValue false))) s = .next t ∧ s.becomes t (d.issueInbound p) := by
  refine g.toEnds.becomes false ?_ stays
  rw [if_neg Bool.false_ne_true, ownerAbandon_relay (d := ending s p n _) g.kind]
  exact report

/-- A count of relay messages under an inbound index. -/
def counted (d : Device) (c : ChannelId) (f : RelayCounters → RelayCounters) : Device :=
  d.modRelay fun u => { u with counters := u.counters.set c (f (u.counters.get c)) }

theorem CellEnds.written (g : CellEnds s p n c y) (uncut : y.cut = false) (filling : y.filling = some k)
    (mode : (s.dev.chan c).inm.mode = .writing) :
    ∃ t, exec (.peerByteOffered p (commandByte 128 (endValue true))) s = .next t ∧
      s.becomes t ((queued (relayEnded s p n c true) c y k (s.dev.chan c).inm.fill).issueInbound p) :=
  g.queues uncut filling (by unfold cellComplete; rw [mode]) g.pair rfl

theorem CellEnds.truncated (g : CellEnds s p n c y) (uncut : y.cut = false) (filling : y.filling = some k)
    (mode : (s.dev.chan c).inm.mode = .truncating) :
    ∃ t, exec (.peerByteOffered p (commandByte 128 (endValue true))) s = .next t ∧
      s.becomes t
        ((queued (counted (relayEnded s p n c true) c fun g => { g with truncated := satAdd g.truncated 1 }) c y k
          1024).issueInbound p) :=
  g.queues uncut filling (d := counted (relayEnded s p n c true) c fun g => { g with truncated := satAdd g.truncated 1 })
    (by unfold cellComplete; rw [mode]; rfl) g.pair rfl

theorem CellEnds.dropped (g : CellEnds s p n c y) (mode : (s.dev.chan c).inm.mode = .dropping) :
    ∃ t, exec (.peerByteOffered p (commandByte 128 (endValue true))) s = .next t ∧
      s.becomes t
        ((counted (relayEnded s p n c true) c fun g => { g with droppedOversize := satAdd g.droppedOversize 1 }).issueInbound p) := by
  refine g.complete ?_ (g.stays true)
  unfold cellComplete
  rw [mode]
  exact .refl _

theorem CellEnds.abandonedEmpty (g : CellEnds s p n c y) (filling : y.filling = none) :
    ∃ t, exec (.peerByteOffered p (commandByte 128 (endValue false))) s = .next t ∧
      s.becomes t ((counted (relayEnded s p n c false) c fun g => { g with abandoned := satAdd g.abandoned 1 }).issueInbound p) := by
  refine g.abandons ?_ (g.stays false)
  have cell : ((relayEnded s p n c false).pair c).bind RelayPair.filling = none := by
    rw [show (relayEnded s p n c false).pair c = some y from g.pair]
    exact filling
  have stands : (relayEnded s p n c false).giveUpFilling c = relayEnded s p n c false := by
    unfold Device.giveUpFilling
    rw [cell]
  rw [stands]
  exact .refl _

theorem CellEnds.abandonedFilling (g : CellEnds s p n c y) (filling : y.filling = some k) :
    ∃ t, exec (.peerByteOffered p (commandByte 128 (endValue false))) s = .next t ∧
      s.becomes t
        ((cellDropped (counted (relayEnded s p n c false) c fun g => { g with abandoned := satAdd g.abandoned 1 }) p c y k).issueInbound
          p) := by
  have chan := relayEnded_chan (s := s) (p := p) (n := n) (c := c) false
  refine g.abandons ?_ (cellDropped_stays (d := counted (relayEnded s p n c false) c _) (g.stays false)
    ((congrArg Channel.kind chan).trans g.kind) g.inbound)
  have gone := giveUpFilling_alike (d := relayEnded s p n c false) (p := p) g.pair filling
  rw [cellGone_eq (d := relayEnded s p n c false) g.pair ((congrArg Channel.port chan).trans g.port)] at gone
  exact gone.modRelay _

/-- An event that has one outcome makes it whatever is proved of that outcome. -/
theorem of_outcome {i : Instr} {t : State} {P : State → Prop} (ran : exec i s = .next t)
    (h : ∃ u, exec i s = .next u ∧ P u) : P t := by
  obtain ⟨u, same, holds⟩ := h
  cases ran.symm.trans same
  exact holds

/-! ## REPEAT, and the discard mark -/

theorem repeat_counts (listens : s.listens p) (norun : (s.dev.port p).repeatPending = none) (sel : (s.dev.port p).selection = some n)
    (opened : (s.dev.inHalf p n).openMark = true) (owner : (s.dev.inHalf p n).owner = some c) {r : Nat} (least : 2 ≤ r) (most : r < 64) :
    exec (.peerByteOffered p (commandByte 64 r)) s =
      .next
        { s with
          dev :=
            (((((heard s.dev p ((s.dev.port p).lines.offering (commandByte 64 r))).modPort p fun y =>
              { y with repeatPending := some (r, n) }).oneWireByte (some c))).issueInbound p).settle } := by
  rw [exec_command listens, decode_command (by rw [heard_port]; exact norun) (by rw [heard_port]; exact sel)
    (linkCommand_rep most) (by simp)]
  simp only [Device.decodeSelected, if_neg (show ¬ r < 2 by omega), Device.decodeRepeat, Device.startIfNone, heard_inHalf,
    InHalf.busy, opened, Bool.true_or, if_true, owner, countWire_eq, oneWireByte_modPort]

theorem end_discarded (listens : s.listens p) (norun : (s.dev.port p).repeatPending = none) (sel : (s.dev.port p).selection = some n)
    (shut : (s.dev.inHalf p n).openMark = false) (discard : (s.dev.inHalf p n).discard = true) {v : Nat} (legal : v < 2) :
    ∃ t, exec (.peerByteOffered p (commandByte 128 v)) s = .next t ∧
      s.becomes t (((ending s p n (commandByte 128 v)).countDiscarded p).issueInbound p) := by
  refine ⟨_, exec_end listens norun sel (by simp [InHalf.busy, discard]) legal, ?_⟩
  have dropped : (heard s.dev p ((s.dev.port p).lines.offering (commandByte 128 v))).endPeerMessage p n (v == 0) =
      (ending s p n (commandByte 128 v)).countDiscarded p := by
    unfold Device.endPeerMessage
    dsimp only
    rw [heard_inHalf, shut, heard_offering, if_neg Bool.false_ne_true]
    rfl
  rw [dropped]
  exact becomes_settle rfl

theorem Ends.runs (g : Ends s p n c) (complete : Bool) :
    ∃ t, exec (.peerByteOffered p (commandByte 128 (endValue complete))) s = .next t :=
  ⟨_, exec_end g.listens g.norun g.sel (by simp [InHalf.busy, g.opened]) (by cases complete <;> decide)⟩

/-- The counter of a buffer's status, unless the link was lost (R119, R120). -/
theorem receiveCompleted_eq (k : ChannelCounters) {status : Status} (linked : status ≠ .linkLost) :
    k.receiveCompleted status =
      { k with
        truncated := if status = .truncated then satAdd k.truncated 1 else k.truncated
        oversize := if status = .oversize then satAdd k.oversize 1 else k.oversize
        abandoned := if status = .abandoned then satAdd k.abandoned 1 else k.abandoned } := by
  cases status <;> first | rfl | exact absurd rfl linked


end Sys2Proof.PeerEnds
end

section
/-! SUPPORT. REPEAT and END bytes of the peer on an open message (R46, R47). -/

namespace Sys2Proof.PeerEnds

open Sys2Proof.Machine Sys2Proof.Engaging Sys2Proof.LinkBytes Sys2Proof.Closes Sys2Proof.Acceptances

variable {s : State} {d e : Device} {c : ChannelId} {p q : PortId} {n : LinkNumber} {y : RelayPair} {k : CellId} {length : Nat}

/-- An IN channel whose buffer an END has completed, in its counters (R8, R19). -/
def bufferRetired (status : Status) (rest : List HostRecord) (complete : Bool) (total : Nat) (y : Channel) : Channel :=
  { y with
    held := rest, retire := (y.retire + 1) % y.size, inm := InMessage.cleared
    counters :=
      { y.counters with
        wireBytes := satAdd y.counters.wireBytes 1
        messages := if complete then satAdd y.counters.messages 1 else y.counters.messages
        payloadBytes := if complete then satAdd y.counters.payloadBytes total else y.counters.payloadBytes
        truncated := if status = .truncated then satAdd y.counters.truncated 1 else y.counters.truncated
        oversize := if status = .oversize then satAdd y.counters.oversize 1 else y.counters.oversize
        abandoned := if status = .abandoned then satAdd y.counters.abandoned 1 else y.counters.abandoned } }

theorem messageEnded_countsEnd {status : Status} {rest : List HostRecord} {complete : Bool} {x : Channel} (linked : status ≠ .linkLost) :
    messageEnded status rest (countsEnd complete x) = bufferRetired status rest complete x.inm.total x := by
  unfold messageEnded
  rw [receiveCompleted_eq _ linked]
  rfl

/-- Settles O50: by what the byte does to the half it meets, a REPEAT or an END, under the open mark or the discard mark, and by the
owner of the half. -/
theorem peerEndCompletesBuffer : Obligations.PeerEndCompletesBuffer := by
  intro p n c s listens norun sel half x accepted closed
  refine ⟨?_, ?_, ?_, ?_⟩
  · intro r least most opened owner
    refine ⟨_, repeat_counts listens norun sel opened owner least most, ?_⟩
    rw [heard_offering]
    exact becomes_settle rfl
  · intro h rest complete opened owner kind state held w status one
    have ends : Ends s p n c := ⟨listens, norun, sel, opened, owner, state⟩
    obtain ⟨t, ran, became⟩ := ends.inn (h := h) kind held complete
    refine ⟨t, ran, ?_⟩
    have told : endStatus complete (s.dev.chan c) = status := by
      cases complete with
      | false => rfl
      | true => cases mode : (s.dev.chan c).inm.mode <;> simp [endStatus, status, x, mode, InMode.status]
    have length : (s.dev.chan c).endLength = if x.inm.mode = .writing then x.inm.fill else h.size := by
      rw [Channel.endLength, Placing.capacity_inn kind held]
      simp only [beq_iff_eq]
      rfl
    have linked : status ≠ .linkLost := by
      rw [← told]
      cases complete <;> cases mode : (s.dev.chan c).inm.mode <;> simp [endStatus, mode, InMode.status]
    have final : bufferEnded (ending s p n (commandByte 128 (endValue complete))) c complete h rest =
        (((ending s p n (commandByte 128 (endValue complete))).postCompletion (bufferCompletion x c status h
          (if x.inm.mode = .writing then x.inm.fill else h.size))).modChan c fun y => bufferRetired status rest complete x.inm.total
            y).fetchRecords c := by
      have chan : (ending s p n (commandByte 128 (endValue complete))).chan c = s.dev.chan c := rfl
      unfold bufferEnded
      rw [chan, told, length]
      exact congrArg (Device.fetchRecords · c) (modChan_at (messageEnded_countsEnd linked))
    rw [final] at became
    exact became
  · intro y complete opened owner kind state port pair inbound uncut w ended counted queued
    have ends : CellEnds s p n c y := ⟨⟨listens, norun, sel, opened, owner, state⟩, kind, port, pair, inbound⟩
    cases complete with
    | true =>
      obtain ⟨t, ran⟩ := ends.runs true
      refine ⟨t, ran, fun k _ filling => ⟨fun mode => ?_, fun mode => ?_⟩, fun _ mode => ?_,
        fun differs => absurd differs (by decide), fun _ differs => absurd differs (by decide)⟩
      · have became := of_outcome ran (ends.written uncut filling mode)
        exact became
      · have became := of_outcome ran (ends.truncated uncut filling mode)
        exact became
      · have became := of_outcome ran (ends.dropped mode)
        exact became
    | false =>
      obtain ⟨t, ran⟩ := ends.runs false
      refine ⟨t, ran, fun _ differs => absurd differs (by decide), fun differs => absurd differs (by decide),
        fun _ filling => ?_, fun k _ filling => ?_⟩
      · have became := of_outcome ran (ends.abandonedEmpty filling)
        exact became
      · have became := of_outcome ran (ends.abandonedFilling filling)
        exact became
  · intro v legal shut discard
    exact end_discarded listens norun sel shut discard legal

end Sys2Proof.PeerEnds
end

section
/-! SUPPORT. What a channel fault leaves alone: the state and cause the channel has taken, the buffers' counts, and the staged bytes. -/

namespace Sys2Proof.MemoryReturns

open Sys2Proof.Machine Sys2Proof.LinkBytes Sys2Proof.Closes Sys2Proof.Acceptances

/-- Every channel keeps its state and its cause, no byte is newly staged on a port, and a buffer keeps its place, its accepted bytes, a
failure, and, with none of its bytes staged on the port, its counts of writes. -/
structure Spares (e d : Device) (p : PortId) (b : Nat) : Prop where
  fates : ∀ k, (e.chan k).state = (d.chan k).state ∧ (e.chan k).cause = (d.chan k).cause
  buffer : ∀ z, d.buffer? b = some z → ∃ y, e.buffer? b = some y ∧ (z.failed = true → y.failed = true) ∧
    y.acceptedBytes = z.acceptedBytes ∧ y.address = z.address ∧ y.channel = z.channel ∧
    ((∀ g ∈ (d.port p).inStaging, g.dest ≠ .buffer b) → y.outstanding = z.outstanding ∧ y.issued = z.issued)
  staged : ∀ g ∈ (e.port p).inStaging, g ∈ (d.port p).inStaging

namespace Spares

variable {a d e : Device} {c i : ChannelId} {p q : PortId} {n : LinkNumber} {b k : Nat} {r : RingId}

theorem self (d : Device) : Spares d d p b :=
  ⟨fun _ => ⟨rfl, rfl⟩, fun z found => ⟨z, found, id, rfl, rfl, rfl, fun _ => ⟨rfl, rfl⟩⟩, fun _ h => h⟩

theorem trans (h : Spares e d p b) (g : Spares d a p b) : Spares e a p b := by
  refine ⟨fun k => ?_, fun z found => ?_, fun x hx => g.staged x (h.staged x hx)⟩
  · obtain ⟨state, cause⟩ := h.fates k
    obtain ⟨state', cause'⟩ := g.fates k
    exact ⟨state.trans state', cause.trans cause'⟩
  · obtain ⟨y, found', failed, accepted, address, channel, counts⟩ := g.buffer z found
    obtain ⟨x, found'', failed', accepted', address', channel', counts'⟩ := h.buffer y found'
    refine ⟨x, found'', fun hz => failed' (failed hz), accepted'.trans accepted, address'.trans address, channel'.trans channel,
      fun none => ?_⟩
    obtain ⟨out, issued⟩ := counts none
    obtain ⟨out', issued'⟩ := counts' fun x hx => none x (g.staged x hx)
    exact ⟨out'.trans out, issued'.trans issued⟩

/-- A change with the same channels' fates and the same buffers that stages nothing. -/
theorem after (h : Spares d a p b) (fates : ∀ k, (e.chan k).state = (d.chan k).state ∧ (e.chan k).cause = (d.chan k).cause)
    (buffers : e.buffers = d.buffers) (staged : ∀ g ∈ (e.port p).inStaging, g ∈ (d.port p).inStaging) : Spares e a p b := by
  have same : e.buffer? b = d.buffer? b := by rw [Device.buffer?, Device.buffer?, buffers]
  refine trans ⟨fates, fun z found => ⟨z, by rw [same]; exact found, id, rfl, rfl, rfl, fun _ => ⟨rfl, rfl⟩⟩, staged⟩ h

/-- A change beside the channels, the buffers and the ports. -/
theorem beside (h : Spares d a p b) (channels : e.channels = d.channels) (buffers : e.buffers = d.buffers)
    (ports : e.ports = d.ports) : Spares e a p b :=
  after h (fun k => by rw [Device.chan, Device.chan, channels]; exact ⟨rfl, rfl⟩) buffers
    (fun g hg => by rw [Device.port, ports] at hg; exact hg)

/-- The steady part holds the fates, the buffers and the staged bytes. -/
theorem of_steady (same : e.steady = d.steady) (h : Spares d a p b) : Spares e a p b := by
  refine after h (fun k => ?_) (buffers_of_steady same) (fun g hg => ?_)
  · have state := congrArg Channel.state (chan_of_steady same k)
    have cause := congrArg Channel.cause (chan_of_steady same k)
    exact ⟨state, cause⟩
  · have staging := congrArg Port.inStaging (port_of_steady same p)
    have eq : (e.port p).inStaging = (d.port p).inStaging := staging
    rw [← eq]
    exact hg

theorem modChan {f : Channel → Channel} (fate : (f (d.chan c)).state = (d.chan c).state ∧ (f (d.chan c)).cause = (d.chan c).cause)
    (h : Spares d a p b) : Spares (d.modChan c f) a p b := by
  refine after h (fun k => ?_) rfl (fun _ hg => hg)
  rw [chan_modChan]
  split
  · next same => subst same; exact fate
  · exact ⟨rfl, rfl⟩

theorem modPort {f : Port → Port} (staged : ∀ g ∈ (f (d.port q)).inStaging, g ∈ (d.port q).inStaging) (h : Spares d a p b) :
    Spares (d.modPort q f) a p b := by
  refine after h (fun _ => ⟨rfl, rfl⟩) rfl (fun g hg => ?_)
  rw [port_modPort] at hg
  split at hg
  · next same => subst same; exact staged g hg
  · exact hg

theorem modIn {f : InHalf → InHalf} (h : Spares d a p b) : Spares (d.modIn q n f) a p b := modPort (fun _ hg => hg) h

/-- A buffer's change that keeps its place and counts and any failure. -/
theorem mapBuffers {f : Buffer → Buffer} (h : Spares d a p b) (ports : e.ports = d.ports) (channels : e.channels = d.channels)
    (buffers : e.buffers = d.buffers.map f) (keeps : ∀ z, (f z).id = z.id ∧ (z.failed = true → (f z).failed = true) ∧
      (f z).acceptedBytes = z.acceptedBytes ∧ (f z).address = z.address ∧ (f z).channel = z.channel ∧
      ((∀ g ∈ (d.port p).inStaging, g.dest ≠ .buffer b) → z.id = b →
        (f z).outstanding = z.outstanding ∧ (f z).issued = z.issued)) :
    Spares e a p b := by
  refine trans ⟨fun k => ?_, fun z found => ?_, fun g hg => ?_⟩ h
  · rw [Device.chan, Device.chan, channels]
    exact ⟨rfl, rfl⟩
  · have mapped : e.buffer? b = (d.buffer? b).map f := by
      have same : (fun x : Buffer => x.id == b) ∘ f = fun x => x.id == b := funext fun x => by simp [(keeps x).1]
      rw [Device.buffer?, buffers, List.find?_map, same]
      rfl
    obtain ⟨-, failed, accepted, address, channel, counts⟩ := keeps z
    have own : z.id = b := by simpa using List.find?_some found
    exact ⟨f z, by rw [mapped, found]; rfl, failed, accepted, address, channel, fun none => counts none own⟩
  · rw [Device.port, ports] at hg
    exact hg

theorem modBuffer {f : Buffer → Buffer} (keeps : ∀ z, (f z).id = z.id ∧ (z.failed = true → (f z).failed = true) ∧
      (f z).acceptedBytes = z.acceptedBytes ∧ (f z).address = z.address ∧ (f z).channel = z.channel ∧
      ((∀ g ∈ (d.port p).inStaging, g.dest ≠ .buffer b) → k = b → (f z).outstanding = z.outstanding ∧ (f z).issued = z.issued))
    (h : Spares d a p b) : Spares (d.modBuffer k f) a p b := by
  refine mapBuffers h rfl rfl rfl (fun z => ?_)
  by_cases same : z.id = k
  · obtain ⟨ident, failed, accepted, address, channel, counts⟩ := keeps z
    rw [if_pos (by simpa using same)]
    exact ⟨ident, failed, accepted, address, channel, fun none own => counts none (same.symm.trans own)⟩
  · rw [if_neg (by simpa using same)]
    exact ⟨rfl, id, rfl, rfl, rfl, fun _ _ => ⟨rfl, rfl⟩⟩

/-! ## The parts of a fault -/

theorem asyncNotice {x : NoticeBody} (h : Spares d a p b) : Spares (d.asyncNotice x) a p b := by
  unfold Device.asyncNotice
  split
  · exact beside h rfl rfl rfl
  · exact beside h rfl rfl rfl

theorem faultNotices {w : FaultCause} {x : Option Address} (h : Spares d a p b) : Spares (d.faultNotices c w x) a p b := by
  unfold Device.faultNotices
  dsimp only
  split
  · exact asyncNotice (asyncNotice h)
  · exact asyncNotice h

theorem completeDeferred {s : DeferredWork → Bool} {w : Result} {m : Nat} (h : Spares d a p b) :
    Spares (d.completeDeferred s w m) a p b := by
  have done : ∀ (l : List Deferred) (x : Device), Spares x a p b →
      Spares (l.foldl (fun e y => e.commandDone y.subject y.tag .ok 0) x) a p b := by
    intro l
    induction l with
    | nil => exact fun _ hx => hx
    | cons y l ih => exact fun x hx => ih _ (beside hx rfl rfl rfl)
  unfold Device.completeDeferred
  split
  · exact h
  · exact done _ _ (beside h rfl rfl rfl)

theorem releaseCredits {o : Option ChannelId} {m : Nat} (h : Spares d a p b) : Spares (d.releaseCredits o m) a p b := by
  unfold Device.releaseCredits
  split
  · split
    · exact beside h rfl rfl rfl
    · exact h
  · exact h

theorem modUnoffered {f : List ControlEntry → List ControlEntry} (h : Spares d a p b) :
    Spares (d.modPort q fun x => x.modUnoffered f) a p b := by
  refine modPort (fun g hg => ?_) h
  unfold Port.modUnoffered at hg
  split at hg <;> exact hg

theorem requestRevoke (h : Spares d a p b) : Spares (d.requestRevoke q n) a p b := by
  have waitless : Spares (match (d.inHalf q n).owner with
      | some c => d.unwait (cqRing (d.chan c).ring) (.inHalf q n)
      | none => d) a p b := by
    split
    · exact beside h rfl rfl rfl
    · exact h
  unfold Device.requestRevoke
  dsimp only
  split
  · split
    · exact releaseCredits (modIn (modUnoffered waitless))
    · exact modPort (fun _ hg => hg) (modIn (releaseCredits (modIn (modUnoffered waitless))))
  · exact waitless

theorem askRevoke (h : Spares d a p b) : Spares (d.askRevoke c) a p b := modChan ⟨rfl, rfl⟩ (requestRevoke h)

theorem postInbound {w : Status} {m : Nat} {t : Bool} (h : Spares d a p b) : Spares (d.postInbound c w m t) a p b := by
  unfold Device.postInbound
  dsimp only
  split
  · exact h
  · exact of_steady (EngineWindow.fetchRecords_steady _ _) (modChan ⟨rfl, rfl⟩ (beside h rfl rfl rfl))

theorem modInMsg {f : InMessage → InMessage} (h : Spares d a p b) : Spares (d.modInMsg c f) a p b := modChan ⟨rfl, rfl⟩ h

theorem countChan {f : ChannelCounters → ChannelCounters} (h : Spares d a p b) : Spares (d.countChan c f) a p b :=
  modChan ⟨rfl, rfl⟩ h

theorem endInbound {w : Status} {m : Nat} (h : Spares d a p b) : Spares (d.endInbound c w m) a p b :=
  countChan (modInMsg (postInbound h))

theorem dropMessage (h : Spares d a p b) : Spares (d.dropMessage c) a p b := by
  unfold Device.dropMessage Device.dropStaged
  dsimp only
  refine mapBuffers (modPort (q := (d.chan c).port) (fun g hg => List.mem_of_mem_filter hg) h) rfl rfl rfl (fun z => ?_)
  split <;> exact ⟨rfl, id, rfl, rfl, rfl, fun _ _ => ⟨rfl, rfl⟩⟩

theorem faultInbound (h : Spares d a p b) : Spares (d.faultInbound c) a p b := by
  unfold Device.faultInbound
  dsimp only
  split
  · exact endInbound (modBuffer (fun z => ⟨rfl, fun _ => rfl, rfl, rfl, rfl, fun _ _ => ⟨rfl, rfl⟩⟩) (dropMessage h))
  · exact endInbound (dropMessage h)

theorem faultIn (h : Spares d a p b) : Spares (d.faultIn c) a p b := by
  unfold Device.faultIn
  dsimp only
  split
  · exact askRevoke (modIn (faultInbound h))
  · exact askRevoke h

theorem withdrawRequest (h : Spares d a p b) : Spares (d.withdrawRequest c) a p b := by
  unfold Device.withdrawRequest
  split
  · exact modChan ⟨rfl, rfl⟩ (beside h rfl rfl rfl)
  · exact h

theorem startNext (h : Spares d a p b) : Spares (d.startNext c) a p b := by
  unfold Device.startNext
  dsimp only
  repeat' split
  · exact modChan ⟨rfl, rfl⟩ (beside h rfl rfl rfl)
  · exact modChan ⟨rfl, rfl⟩ (beside h rfl rfl rfl)
  · exact h

theorem completeSend {w : Status} {m : Nat} (h : Spares d a p b) : Spares (d.completeSend c w m) a p b := by
  unfold Device.completeSend
  dsimp only
  split
  · exact h
  · exact of_steady (EngineWindow.fetchRecords_steady _ _) (startNext (modChan ⟨rfl, rfl⟩ (of_steady (unstage_steady _ _)
      (beside h rfl rfl rfl))))

theorem requestAbandon (h : Spares d a p b) : Spares (d.requestAbandon q n) a p b := by
  unfold Device.requestAbandon
  split
  · exact modPort (fun _ hg => hg) h
  · exact h

theorem faultOut {w : FaultCause} (h : Spares d a p b) : Spares (d.faultOut c w) a p b := by
  have staging : ∀ x : Port, (x.delist c).inStaging = x.inStaging := fun x => by
    have same := congrArg Port.inStaging (delist_steady x c)
    exact same
  have delisted : Spares ((d.withdrawRequest c).delist c) a p b :=
    modPort (fun g hg => by rw [staging] at hg; exact hg) (withdrawRequest h)
  unfold Device.faultOut
  dsimp only
  split
  · exact requestAbandon (completeSend delisted)
  · split
    · exact completeSend delisted
    · exact delisted

/-- What a fault does once the channel has taken it. -/
theorem channelFault {w : FaultCause} {x : Option Address} :
    Spares (d.channelFault c w x) (d.modChan c fun y => { y with state := .faulted, cause := w }) p b := by
  unfold Device.channelFault
  dsimp only
  split
  all_goals split
  · exact modChan ⟨rfl, rfl⟩ (completeDeferred (faultNotices (faultIn (self _))))
  · exact modChan ⟨rfl, rfl⟩ (completeDeferred (faultNotices (faultOut (self _))))
  · exact faultNotices (faultIn (self _))
  · exact faultNotices (faultOut (self _))

theorem place {x : Access} {y : Address} {l : List Byte} (h : Spares d a p b) : Spares (d.place x y k l) a p b := beside h rfl rfl rfl

theorem issueOne (h : Spares d a p b) : Spares (d.issueOne p) a p b := by
  unfold Device.issueOne
  split
  · exact h
  · split
    · exact h
    · next g rest staged =>
      have took : ∀ l, (∀ x ∈ l, x ∈ (d.port p).inStaging) → Spares (d.modPort p fun x => { x with inStaging := l }) a p b :=
        fun l sub => modPort sub h
      have left : ∀ x ∈ (gather g.dest Config.transferBytes g.offset (g :: rest)).2, x ∈ (d.port p).inStaging := by
        rw [staged]
        exact gather_left_mem _ _ _ _
      dsimp only
      split
      · next k dest =>
        split
        · exact took _ left
        · next z _ =>
          have opens : ∀ f : Buffer → Buffer, (∀ y, (f y).id = y.id ∧ (y.failed = true → (f y).failed = true) ∧
              (f y).acceptedBytes = y.acceptedBytes ∧ (f y).address = y.address ∧ (f y).channel = y.channel) →
              Spares (d.modBuffer k f) a p b := fun f keeps => by
            refine modBuffer (fun y => ?_) h
            obtain ⟨ident, failed, accepted, address, channel⟩ := keeps y
            refine ⟨ident, failed, accepted, address, channel, fun none own => ?_⟩
            exact absurd (by rw [dest, own]) (none g (by rw [staged]; exact List.mem_cons_self))
          have opened := opens (fun y => { y with
            issued := y.issued + (gather g.dest Config.transferBytes g.offset (g :: rest)).1.length, outstanding := y.outstanding + 1 })
            fun y => ⟨rfl, id, rfl, rfl, rfl⟩
          have taken := modPort (q := p) (f := fun x => { x with
            inStaging := (gather g.dest Config.transferBytes g.offset (g :: rest)).2 }) (by exact left) opened
          exact place taken
      · exact beside (took _ left) rfl rfl rfl

theorem issueInbound (h : Spares d a p b) : Spares (d.issueInbound p) a p b := issueOne (issueOne (issueOne (issueOne h)))

end Spares

end Sys2Proof.MemoryReturns
end

section
/-! SUPPORT. The returns of payload reads and of buffer writes (R17, R99, R101, R113, R122). -/

namespace Sys2Proof.MemoryReturns

open Sys2Proof.Machine Sys2Proof.Engaging Sys2Proof.LinkBytes Sys2Proof.Closes Sys2Proof.Acceptances

variable {s : State} {d e : Device} {c : ChannelId} {p : PortId} {id b k : Nat} {r : Request} {opening : Nat} {a : Address}

/-! ## Payload reads -/

theorem exec_payloadReadDone (running : s.engine = .running) (found : s.dev.request? id = some r) {bytes : List Byte}
    (access : r.access = .payloadRead p c opening) (whole : bytes.length = r.length) :
    exec (.payloadReadDone id (.data bytes)) s =
      .next { s with dev := ((s.dev.returned id).modPort p fun x => x.payloadReturned id bytes).settle } := by
  change execPayloadReadDone id (.data bytes) s = _
  simp only [execPayloadReadDone, State.whenRunning, running, if_true, found, access, Request.answeredBy, Request.whole,
    beq_iff_eq.mpr whole]

theorem exec_payloadReadDone_busError (running : s.engine = .running) (found : s.dev.request? id = some r)
    (access : r.access = .payloadRead p c opening) :
    exec (.payloadReadDone id (.busError a)) s = .next { s with dev := ((s.dev.returned id).payloadFailed c opening a).settle } := by
  change execPayloadReadDone id (.busError a) s = _
  simp only [execPayloadReadDone, State.whenRunning, running, if_true, found, access, Request.answeredBy]

/-- The reply to a read whose bytes are no longer wanted is dropped (R106). -/
theorem exec_payloadReadDone_discarded (running : s.engine = .running) (found : s.dev.request? id = some r) {reply : ReadReply}
    (access : r.access = .discarded) (whole : ∀ bytes, reply = .data bytes → bytes.length = r.length) :
    exec (.payloadReadDone id reply) s = .next { s with dev := (s.dev.returned id).settle } := by
  have answered : r.answeredBy reply = true := by
    cases reply with
    | data bytes => exact beq_iff_eq.mpr (whole bytes rfl)
    | busError a => rfl
  change execPayloadReadDone id reply s = _
  simp only [execPayloadReadDone, State.whenRunning, running, if_true, found, access, answered]

/-- A fault taken by an OPEN or DRAINING channel stands at the end of its event. -/
theorem channelFault_takes {w : FaultCause} {x : Option Address} {t : Device} (same : Spares t (d.channelFault c w x) p b) :
    (t.chan c).state = .faulted ∧ (t.chan c).cause = w := by
  obtain ⟨state, cause⟩ := (same.trans Spares.channelFault).fates c
  rw [chan_modChan_self] at state cause
  exact ⟨state, cause⟩

theorem settle_spares (d : Device) : Spares d.settle d p b := .of_steady (settle_steady d) (.self d)

theorem settle_faulted {w : FaultCause} {x : Option Address} (taken : e = d.channelFault c w x) :
    (e.settle.chan c).state = .faulted ∧ (e.settle.chan c).cause = w := by
  rw [taken]
  exact channelFault_takes (p := (d.chan c).port) (b := 0) (settle_spares _)

theorem payloadFailed_faults (same : (d.chan c).opening = opening) (live : (d.chan c).state = .opened ∨ (d.chan c).state = .draining) :
    d.payloadFailed c opening a = d.channelFault c .payloadRead (some a) := by
  unfold Device.payloadFailed
  dsimp only
  rw [if_pos same]
  rcases live with state | state <;> rw [state]

theorem payloadFailed_spent
    (spent : (d.chan c).opening ≠ opening ∨ (d.chan c).state = .closed ∨ (d.chan c).state = .faulted) :
    d.payloadFailed c opening a = d := by
  unfold Device.payloadFailed
  dsimp only
  split
  · next same =>
    rcases spent with other | state | state
    · exact absurd same other
    · rw [state]
    · rw [state]
  · rfl

/-- Settles O39: by the staging that expects the read, and, for a bus error, by the opening and the state of the channel. -/
theorem payloadReadReturnStagesOrFaults : Obligations.PayloadReadReturnStagesOrFaults := by
  intro id r s running found returned
  refine ⟨?_, ?_, ?_⟩
  · intro p c opening bytes access whole
    refine ⟨fun q expected => ?_, fun unexpected => ?_⟩
    all_goals
      rw [exec_payloadReadDone running found access whole]
      have port : (s.dev.returned id).port p = s.dev.port p := rfl
    · have staged : (s.dev.returned id).modPort p (fun x => x.payloadReturned id bytes) = _ :=
        modPort_congr (g := fun x => { x with
          outStaging :=
            { x.outStaging with
              reads := x.outStaging.reads.filter fun y => !(y.id == id)
              segments := x.outStaging.segments ++ [{ offset := q.offset, bytes := bytes }] } }) _ _
          (by rw [port, Port.payloadReturned, expected])
      rw [staged]
      rfl
    · rw [modPort_eq_self _ _ (by rw [port, Port.payloadReturned, unexpected])]
      rfl
  · intro reply access whole
    exact exec_payloadReadDone_discarded running found access whole
  · intro p c opening a access
    refine ⟨_, exec_payloadReadDone_busError running found access, fun same live => ?_, fun spent => ?_⟩
    · dsimp only
      exact settle_faulted (payloadFailed_faults (d := s.dev.returned id) same live)
    · rw [payloadFailed_spent (d := s.dev.returned id) spent]
      exact becomes_settle rfl

end Sys2Proof.MemoryReturns
end

section
/-! SUPPORT. The return of a buffer write (R113, R122). -/

namespace Sys2Proof.MemoryReturns

open Sys2Proof.Machine Sys2Proof.Engaging Sys2Proof.LinkBytes Sys2Proof.Closes Sys2Proof.Acceptances

variable {s : State} {d e : Device} {c : ChannelId} {p : PortId} {id b k : Nat} {r : Request} {opening : Nat} {a : Address} {z : Buffer}

theorem exec_bufferWriteDone (running : s.engine = .running) (found : s.dev.request? id = some r) (access : r.access = .bufferWrite p b)
    (reply : WriteReply) :
    exec (.bufferWriteDone id reply) s =
      .next { s with dev := (((s.dev.returned id).bufferWriteReturned b r.length reply).issueInbound p).settle } := by
  change execBufferWriteDone id reply s = _
  simp only [execBufferWriteDone, State.whenRunning, running, if_true, found, access]

theorem modBuffer_eq (d : Device) (b : Nat) (f : Buffer → Buffer) :
    d.modBuffer b f = { d with buffers := d.buffers.map fun z => if z.id = b then f z else z } := by
  unfold Device.modBuffer
  simp only [beq_iff_eq]

/-- The blocks as a write of a buffer has failed, before its channel acts on it. -/
def writeFailed (d : Device) (id b : Nat) : Device :=
  { d with
    requests := d.requests.filter fun y => !(y.id == id)
    buffers := d.buffers.map fun y => if y.id = b then { y with outstanding := y.outstanding - 1, failed := true } else y }

theorem bufferWriteReturned_failed (found : d.buffer? b = some z) :
    (d.returned id).bufferWriteReturned b k (.busError a) = (writeFailed d id b).bufferFailed z a := by
  unfold Device.bufferWriteReturned
  dsimp only
  rw [modBuffer_eq, show (d.returned id).buffer? b = some z from found]
  rfl

/-- The failed buffer itself. -/
theorem buffer_writeFailed (found : d.buffer? b = some z) :
    (writeFailed d id b).buffer? b = some { z with outstanding := z.outstanding - 1, failed := true } := by
  have own : z.id = b := by simpa using List.find?_some found
  have same : (fun x : Buffer => x.id == b) ∘ (fun y : Buffer =>
      if y.id = b then { y with outstanding := y.outstanding - 1, failed := true } else y) = fun x => x.id == b := by
    funext y
    dsimp only [Function.comp]
    split <;> rfl
  rw [Device.buffer?, writeFailed, List.find?_map, same, show d.buffers.find? (fun x => x.id == b) = some z from found]
  exact congrArg some (if_pos own)

/-! ## What a failed write does to its channel (R17, R122) -/

theorem bufferFailed_faults (same : (d.chan z.channel).opening = z.opening)
    (live : (d.chan z.channel).state = .opened ∨ (d.chan z.channel).state = .draining) :
    d.bufferFailed z a = d.channelFault z.channel .bufferWrite (some a) := by
  unfold Device.bufferFailed
  dsimp only
  rw [if_pos same]
  rcases live with state | state <;> rw [state]

theorem bufferFailed_aborting (same : (d.chan z.channel).opening = z.opening) (state : (d.chan z.channel).state = .aborting)
    (first : z.failed = false) : d.bufferFailed z a = d.abortingFault z.channel .bufferWrite a := by
  unfold Device.bufferFailed
  dsimp only
  rw [if_pos same, state]
  dsimp only
  rw [first]
  rfl

theorem bufferFailed_spent
    (spent : (d.chan z.channel).opening ≠ z.opening ∨ (d.chan z.channel).state = .closed ∨ (d.chan z.channel).state = .faulted ∨
      ((d.chan z.channel).state = .aborting ∧ z.failed = true)) : d.bufferFailed z a = d := by
  unfold Device.bufferFailed
  dsimp only
  split
  · next same =>
    rcases spent with other | state | state | ⟨state, again⟩
    · exact absurd same other
    · rw [state]
    · rw [state]
    · rw [state]
      exact if_pos again
  · rfl

/-- A failed write spares the buffers, whatever its channel does. -/
theorem bufferFailed_spares (d : Device) (z : Buffer) (a : Address) :
    ∃ f : Channel → Channel, Spares (d.bufferFailed z a) (d.modChan z.channel f) p b := by
  have none : ∃ f : Channel → Channel, Spares d (d.modChan z.channel f) p b :=
    ⟨id, .of_steady (by rw [modChan_eq_self rfl]) (.self _)⟩
  unfold Device.bufferFailed
  dsimp only
  split
  · split
    · exact ⟨_, .channelFault⟩
    · exact ⟨_, .channelFault⟩
    · split
      · exact none
      · exact ⟨_, .faultNotices (.self _)⟩
    · exact none
  · exact none

/-- The notices of a failed write of an ABORTING channel (R177). -/
theorem faultNotices_told (d : Device) (c : ChannelId) (a : Address) : ∃ e f, d.told (.channelFaulted c .bufferWrite) e ∧
    e.told (.hostError (BitVec.ofNat 8 c.val) .bufferWrite (a.extractLsb 31 0)) f ∧ d.faultNotices c .bufferWrite (some a) = f := by
  refine ⟨_, _, asyncNotice_told _ _, asyncNotice_told _ _, ?_⟩
  rw [← Statistics.low_word_eq]
  rfl

/-- Settles O40: an accepted write is counted; a failed one marks its buffer, and then acts by the opening and the state of the channel. -/
theorem bufferWriteReturnCounts : Obligations.BufferWriteReturnCounts := by
  intro id r p b s running found access
  refine ⟨?_, fun a => ⟨_, exec_bufferWriteDone running found access (.busError a), fun z held => ?_⟩⟩
  · rw [exec_bufferWriteDone running found access, Device.bufferWriteReturned, modBuffer_eq]
    rfl
  · intro x failed
    have mark : (s.dev.returned id).bufferWriteReturned b r.length (.busError a) = failed.bufferFailed z a :=
      bufferWriteReturned_failed held
    rw [mark]
    dsimp only
    refine ⟨?_, fun same live => ?_, fun same aborting first => ?_, fun spent => ?_⟩
    · obtain ⟨f, spares⟩ := bufferFailed_spares (p := p) (b := b) failed z a
      have all := (settle_spares (p := p) (b := b) _).trans spares.issueInbound
      obtain ⟨y, at_, fails, accepted, address, channel, counts⟩ := all.buffer _ (buffer_writeFailed (id := id) held)
      exact ⟨y, at_, fails rfl, accepted, address, channel, counts⟩
    · rw [bufferFailed_faults (d := failed) same live]
      exact channelFault_takes (p := p) (b := b) ((settle_spares _).trans (.issueInbound (.self _)))
    · rw [bufferFailed_aborting (d := failed) same aborting first, Device.abortingFault]
      obtain ⟨e, f, told, told', same⟩ := faultNotices_told
        (failed.modChan z.channel fun y => { y with cause := if y.cause = .clear then .bufferWrite else y.cause }) z.channel a
      refine ⟨e, f, told, told', ?_⟩
      rw [same]
      exact becomes_settle rfl
    · rw [bufferFailed_spent (d := failed) spent]
      exact becomes_settle rfl

end Sys2Proof.MemoryReturns
end

section
/-! SUPPORT. The notices of a channel fault, and the blocks it leaves for them (R17, R177). -/

namespace Sys2Proof.MemoryReturns

open Sys2Proof.Machine Sys2Proof.Engaging Sys2Proof.LinkBytes Sys2Proof.Closes Sys2Proof.Acceptances

variable {s : State} {d e f : Device} {c : ChannelId} {p : PortId} {n : LinkNumber} {a : Address} {h : HostRecord} {rest : List HostRecord}
  {w : FaultCause}

/-- Blocks that post the same notices: the same steady part, next identity and reservations on NQ. -/
structure Agrees (e d : Device) : Prop where
  steady : e.steady = d.steady
  serial : e.serial = d.serial
  slots : (e.ring 4).reserved = (d.ring 4).reserved

namespace Agrees

theorem refl (d : Device) : Agrees d d := ⟨rfl, rfl, rfl⟩

theorem trans (h : Agrees f e) (g : Agrees e d) : Agrees f d :=
  ⟨h.steady.trans g.steady, h.serial.trans g.serial, h.slots.trans g.slots⟩

theorem modChan {f g : Channel → Channel} (h : Agrees e d) (change : (f (e.chan c)).steady = (g (d.chan c)).steady) :
    Agrees (e.modChan c f) (d.modChan c g) := ⟨modChan_steady h.steady change, h.serial, h.slots⟩

theorem modPort {f g : Port → Port} (h : Agrees e d) (change : ∀ x y : Port, x.steady = y.steady → (f x).steady = (g y).steady) :
    Agrees (e.modPort p f) (d.modPort p g) := ⟨steady_modPort_congr _ _ _ h.steady change, h.serial, h.slots⟩

theorem room (h : Agrees e d) : (e.ring nqRing).room = (d.ring nqRing).room := by
  have ring := ring_of_steady h.steady nqRing
  have isSet : (e.ring nqRing).isSet = (d.ring nqRing).isSet := (congrArg Ring.isSet ring :)
  have size : (e.ring nqRing).size = (d.ring nqRing).size := (congrArg Ring.size ring :)
  have unconsumed : (e.ring nqRing).unconsumed = (d.ring nqRing).unconsumed := (congrArg Ring.unconsumed ring :)
  have slots : (e.ring nqRing).reserved = (d.ring nqRing).reserved := h.slots
  unfold Ring.room
  rw [isSet, size, unconsumed, slots]

/-- A notice posted, or lost, in blocks that agree. -/
theorem asyncNotice (h : Agrees e d) (b : NoticeBody) : Agrees (e.asyncNotice b) (d.asyncNotice b) := by
  have lost : e.lost = d.lost := lost_of_steady h.steady
  unfold Device.asyncNotice
  rw [h.room]
  split
  · refine ⟨?_, h.serial, h.slots⟩
    have counted : ∀ x : Device, ({ x with lost := sat16 (x.lost + 1) } : Device).steady =
        { x.steady with lost := sat16 (x.steady.lost + 1) } := fun _ => rfl
    rw [counted, counted, h.steady]
  · have posted := post_congr (r := nqRing) (.notice b d.lost) (e := e.reserve nqRing 1) (d := d.reserve nqRing 1)
      ((reserve_steady ..).trans (h.steady.trans (reserve_steady ..).symm)) h.serial
    have cleared : ∀ x : Device, ({ x with lost := 0 } : Device).steady = { x.steady with lost := 0 } := fun _ => rfl
    have slots : ∀ (x : Device) (y : RecordBody), (((x.reserve nqRing 1).post nqRing y).ring 4).reserved = (x.ring 4).reserved + 1 := by
      intro x y
      have ring : ((x.reserve nqRing 1).post nqRing y).ring 4 =
          { (x.reserve nqRing 1).ring 4 with queue := ((x.reserve nqRing 1).ring 4).queue ++ [{ order := x.serial, body := y }] } :=
        ring_modRing_self (x.reserve nqRing 1) 4 fun z => { z with queue := z.queue ++ [{ order := x.serial, body := y }] }
      have reserved : (x.reserve nqRing 1).ring 4 = { x.ring 4 with reserved := (x.ring 4).reserved + 1 } :=
        ring_modRing_self x 4 fun z => { z with reserved := z.reserved + 1 }
      rw [ring, reserved]
    refine ⟨?_, congrArg (· + 1) h.serial, ?_⟩
    · unfold Device.postNotice
      rw [cleared, cleared, show (e.reserve nqRing 1).lost = d.lost from lost]
      exact congrArg (fun x : Device => ({ x with lost := 0 } : Device)) posted
    · exact (slots e _).trans ((congrArg (· + 1) h.slots).trans (slots d _).symm)

end Agrees

/-! ## The notices (R17, R177) -/

/-- A fault with no bus error posts CHANNEL_EVENT. -/
theorem faultNotices_one (h : Agrees e d) (c : ChannelId) (w : FaultCause) :
    ∃ f, d.told (.channelFaulted c w) f ∧ (e.faultNotices c w none).steady = f.steady :=
  ⟨_, asyncNotice_told d _, (h.asyncNotice _).steady⟩

/-- A failed bus access posts HOST_ERROR after it. -/
theorem faultNotices_two (h : Agrees e d) (c : ChannelId) (w : FaultCause) (a : Address) :
    ∃ f g, d.told (.channelFaulted c w) f ∧ f.told (.hostError (BitVec.ofNat 8 c.val) w.hostError (a.extractLsb 31 0)) g ∧
      (e.faultNotices c w (some a)).steady = g.steady := by
  refine ⟨_, _, asyncNotice_told d _, asyncNotice_told _ _, ?_⟩
  rw [← Statistics.low_word_eq]
  exact ((h.asyncNotice _).asyncNotice _).steady

/-! ## The fault of an IN channel with no message open (R17, R34) -/

theorem completionRing_ne (r : Fin 4) : cqRing r ≠ 4 := by revert r; decide

theorem slots_modRing {g : Ring → Ring} (d : Device) (r : Fin 4) : ((d.modRing (cqRing r) g).ring 4) = d.ring 4 := by
  rw [ring_modRing, if_neg (completionRing_ne r)]

theorem releaseCredits_slots (d : Device) (o : Option ChannelId) (k : Nat) :
    (d.releaseCredits o k).serial = d.serial ∧ (d.releaseCredits o k).ring 4 = d.ring 4 := by
  unfold Device.releaseCredits
  split
  · split
    · exact ⟨rfl, slots_modRing _ _⟩
    · exact ⟨rfl, rfl⟩
  · exact ⟨rfl, rfl⟩

theorem requestRevoke_slots (d : Device) (p : PortId) (n : LinkNumber) :
    (d.requestRevoke p n).serial = d.serial ∧ (d.requestRevoke p n).ring 4 = d.ring 4 := by
  have waitless : ∀ o : Option ChannelId, (match o with | some c => d.unwait (cqRing (d.chan c).ring) (.inHalf p n) | none => d).serial =
      d.serial ∧ (match o with | some c => d.unwait (cqRing (d.chan c).ring) (.inHalf p n) | none => d).ring 4 = d.ring 4 := by
    intro o
    cases o with
    | none => exact ⟨rfl, rfl⟩
    | some c => exact ⟨rfl, slots_modRing _ _⟩
  unfold Device.requestRevoke
  dsimp only
  split
  · obtain ⟨serial, ring⟩ := waitless (d.inHalf p n).owner
    split
    · exact ⟨(releaseCredits_slots ..).1.trans serial, (releaseCredits_slots ..).2.trans ring⟩
    · exact ⟨(releaseCredits_slots ..).1.trans serial, (releaseCredits_slots ..).2.trans ring⟩
  · exact waitless (d.inHalf p n).owner

theorem askRevoke_agrees (same : Agrees e d) (port : (e.chan c).port = p) (number : (e.chan c).number = n)
    (up : (e.port p).up = true) : Agrees (e.askRevoke c) (asksRevoke d c p n) := by
  obtain ⟨serial, ring⟩ := requestRevoke_slots e (e.chan c).port (e.chan c).number
  exact ⟨(askRevoke_steady port number up).trans (asksRevoke_congr same.steady), serial.trans same.serial,
    (congrArg Ring.reserved ring).trans same.slots⟩

end Sys2Proof.MemoryReturns
end

section
/-! SUPPORT. The fault of an OPEN channel, by its kind and its message (R17, R101). -/

namespace Sys2Proof.MemoryReturns

open Sys2Proof.Machine Sys2Proof.Engaging Sys2Proof.LinkBytes Sys2Proof.Closes Sys2Proof.Acceptances

variable {s : State} {d e f : Device} {c : ChannelId} {p : PortId} {n : LinkNumber} {a : Option Address} {h : HostRecord}
  {rest : List HostRecord} {w : FaultCause}

/-- A channel that has taken a fault. -/
def faults (w : FaultCause) (y : Channel) : Channel := { y with state := .faulted, cause := w }

theorem channelFault_inn (opened : (d.chan c).state = .opened) (kind : (d.chan c).kind = .inn) :
    d.channelFault c w a = ((d.modChan c (faults w)).faultIn c).faultNotices c w a := by
  unfold Device.channelFault
  rw [opened, kind]
  rfl

theorem channelFault_out (opened : (d.chan c).state = .opened) (kind : (d.chan c).kind = .out) :
    d.channelFault c w a = ((d.modChan c (faults w)).faultOut c w).faultNotices c w a := by
  unfold Device.channelFault
  rw [opened, kind]
  rfl

/-! ## An IN channel (R17, R34) -/

theorem faultIn_agrees (same : Agrees e d) (port : (e.chan c).port = p) (number : (e.chan c).number = n) (up : (e.port p).up = true)
    (shut : (e.inHalf p n).openMark = false) :
    Agrees ((e.modChan c (faults w)).faultIn c) (asksRevoke (d.modChan c (faults w)) c p n) := by
  have chan : (e.modChan c (faults w)).chan c = faults w (e.chan c) := chan_modChan_self ..
  have unasked : (e.modChan c (faults w)).faultIn c = (e.modChan c (faults w)).askRevoke c := by
    unfold Device.faultIn
    dsimp only
    rw [chan]
    refine congrArg (Device.askRevoke · c) (if_neg ?_)
    show ¬ (e.inHalf (e.chan c).port (e.chan c).number).openMark = true
    rw [port, number, shut]
    decide
  have taken : Agrees (e.modChan c (faults w)) (d.modChan c (faults w)) :=
    same.modChan (congrArg (faults w) (chan_of_steady same.steady c))
  rw [unasked]
  exact askRevoke_agrees taken (by rw [chan]; exact port) (by rw [chan]; exact number) up

/-! ## An OUT channel (R17, R101) -/

/-- An OUT channel whose wait for a slot is given up. -/
def unwaiting (y : Channel) : Channel := { y with out := { y.out with phase := if y.out.phase = .waiting then .idle else y.out.phase } }

theorem withdrawn_agrees (same : Agrees e d) (out : (e.chan c).out = (d.chan c).out) :
    Agrees ((e.withdrawRequest c).delist c) (d.modChan c unwaiting) := by
  have delisted : ∀ x : Device, Agrees (x.delist c) x := fun x =>
    ⟨steady_modPort (delist_steady _ c), rfl, rfl⟩
  refine (delisted _).trans (Agrees.trans ?_ (same.modChan (f := unwaiting) (g := unwaiting) ?_))
  · unfold Device.withdrawRequest
    split
    · next waits =>
      have withdrawn : unwaiting (e.chan c) = { e.chan c with out := { (e.chan c).out with phase := .idle } } := by
        unfold unwaiting
        rw [if_pos (by simpa using waits)]
      refine ⟨modChan_steady (unwait_steady ..) (congrArg Channel.steady withdrawn.symm), rfl, ?_⟩
      exact congrArg Ring.reserved (slots_modRing (g := fun x => { x with waiting := x.waiting.filter fun y => !(y == .outRecord c) }) e
        (e.chan c).ring)
    · next ready =>
      have still : unwaiting (e.chan c) = e.chan c := by
        unfold unwaiting
        rw [if_neg (by simpa using ready)]
      rw [modChan_eq_self still]
      exact .refl e
  · have kept := chan_of_steady same.steady c
    have unwaited : ∀ x : Channel, (unwaiting x).steady =
        { x.steady with out := OutMessage.steady { x.out with phase := if x.out.phase = .waiting then .idle else x.out.phase } } :=
      fun _ => rfl
    rw [unwaited, unwaited, kept, out]

theorem faultOut_unstarted (same : Agrees e d) (out : (e.chan c).out = (d.chan c).out) (kept : (e.chan c).out.phase ≠ .started) :
    Agrees (e.faultOut c .ringRead) (d.modChan c unwaiting) := by
  have phase : (((e.withdrawRequest c).delist c).chan c).out.phase ≠ .started := by
    rw [show ((e.withdrawRequest c).delist c).chan c = (e.withdrawRequest c).chan c from rfl, (withdrawRequest_spec e c).2]
    dsimp only
    split
    · exact fun started => nomatch started
    · exact kept
  unfold Device.faultOut
  dsimp only
  rw [if_neg (by simpa using phase), if_neg (by simp)]
  exact withdrawn_agrees same out

/-- The blocks as the record of a faulted channel's started message has completed FAULT, its message abandoned on the link. -/
def startedFaults (d : Device) (c : ChannelId) (p : PortId) (n : LinkNumber) (h : HostRecord) (rest : List HostRecord) : Device :=
  ((d.postCompletion (sendCompletion (d.chan c) c .fault h (d.chan c).out.offset)).modChan c (recordRetired .fault rest)).modPort p
    (asksAbandon n)

theorem faultOut_started (same : Agrees e d) (state : (e.chan c).state ≠ .opened) (started : (e.chan c).out.phase = .started)
    (port : (e.chan c).port = p) (number : (e.chan c).number = n) (marked : (e.outHalf p n).openMark = true)
    (held : (e.chan c).held = h :: rest) (out : (e.chan c).out = (d.chan c).out) :
    Agrees (e.faultOut c w) (startedFaults d c p n h rest) := by
  have unwithdrawn : e.withdrawRequest c = e := withdrawRequest_idle (by rw [started]; exact fun no => nomatch no)
  have self : (e.delist c).chan c = e.chan c := rfl
  have senders : senders ((e.delist c).completeSend c .fault (e.chan c).out.offset) = senders e := by
    rw [senders_completeSend, senders_delist]
  have shut := completeSend_shut (d := e.delist c) (status := .fault) (length := (e.chan c).out.offset) state held
  have posts : ∀ (x : Device) (b : Completion), ((x.postCompletion b).ring 4).reserved = (x.ring 4).reserved := fun x b =>
    congrArg Ring.reserved (slots_modRing (g := fun y => { y with queue := y.queue ++ [{ order := x.serial, body := .completion b }] }) x
      (x.chan b.channel).ring)
  have retires : ∀ x y : Channel, x.steady = y.steady → (recordRetired .fault rest x).steady = (recordRetired .fault rest y).steady :=
    fun x y alike => by
      have retired := congrArg (fun z : Channel => (recordRetired .fault rest z).steady) alike
      exact retired
  have completion : sendCompletion (e.chan c) c .fault h (e.chan c).out.offset =
      sendCompletion (d.chan c) c .fault h (d.chan c).out.offset := by
    unfold sendCompletion
    rw [out]
  have posted := postCompletion_congr (sendCompletion (d.chan c) c .fault h (d.chan c).out.offset)
    ((steady_modPort (delist_steady _ c)).trans same.steady : (e.delist c).steady = d.steady) same.serial
  unfold Device.faultOut
  dsimp only
  rw [unwithdrawn, self, if_pos (by rw [started]; rfl), port, number,
    requestAbandon_open ((openMark_of_senders (congrFun senders p)).trans marked), shut, self, completion]
  refine Agrees.modPort ⟨?_, ?_, ?_⟩ fun x y => asksAbandon_congr
  · have unstaged := (unstage_steady ((e.delist c).postCompletion (sendCompletion (d.chan c) c .fault h (d.chan c).out.offset)) c).trans
      posted
    exact modChan_steady unstaged (retires _ _ (chan_of_steady unstaged c))
  · exact congrArg (· + 1) same.serial
  · exact (posts (e.delist c) _).trans (same.slots.trans (posts d _).symm)

end Sys2Proof.MemoryReturns
end

section
/-! SUPPORT. The grant entries, credits and reservations that the generator has made stand at the end of the event (R28 to R30). -/

namespace Sys2Proof.MemoryReturns

open Sys2Proof.Machine Sys2Proof.Engaging Sys2Proof.LinkBytes Sys2Proof.Closes Sys2Proof.Acceptances

variable {d e : Device} {c : ChannelId} {p q : PortId} {n : LinkNumber} {r : RingId}

/-- A port's pending control list and inbound halves. -/
def promises (x : Port) : List ControlEntry × (LinkNumber → InHalf) := (x.control, fun n => (x.entry n).inbound)

/-- The control lists and inbound halves of every port, and the reservations and waiting list of every completion ring. -/
def pledges (d : Device) : (PortId → List ControlEntry × (LinkNumber → InHalf)) × (Fin 4 → Nat × List Requester) :=
  (fun p => promises (d.port p), fun k => ((d.ring (cqRing k)).reserved, (d.ring (cqRing k)).waiting))

theorem control_of_pledges (h : pledges e = pledges d) (p : PortId) : (e.port p).control = (d.port p).control :=
  congrArg Prod.fst (congrFun (congrArg Prod.fst h) p)

theorem inHalf_of_pledges (h : pledges e = pledges d) (p : PortId) (n : LinkNumber) : e.inHalf p n = d.inHalf p n :=
  congrFun (congrArg Prod.snd (congrFun (congrArg Prod.fst h) p)) n

theorem ring_of_pledges (h : pledges e = pledges d) (k : Fin 4) : (e.ring (cqRing k)).reserved = (d.ring (cqRing k)).reserved ∧
    (e.ring (cqRing k)).waiting = (d.ring (cqRing k)).waiting :=
  ⟨congrArg Prod.fst (congrFun (congrArg Prod.snd h) k), congrArg Prod.snd (congrFun (congrArg Prod.snd h) k)⟩

theorem pledges_of_frame (ports : e.ports = d.ports) (rings : e.rings = d.rings) : pledges e = pledges d := by
  simp only [pledges, Device.port, Device.ring, ports, rings]

theorem pledges_modPort {f : Port → Port} (h : promises (f (d.port p)) = promises (d.port p)) :
    pledges (d.modPort p f) = pledges d := by
  refine Prod.ext (funext fun q => ?_) rfl
  show promises ((d.modPort p f).port q) = promises (d.port q)
  rw [port_modPort]
  split
  · next same => subst same; exact h
  · rfl

theorem pledges_modRing {g : Ring → Ring} (h : ∀ x, (g x).reserved = x.reserved ∧ (g x).waiting = x.waiting) :
    pledges (d.modRing r g) = pledges d := by
  refine Prod.ext rfl (funext fun k => ?_)
  show (((d.modRing r g).ring (cqRing k)).reserved, ((d.modRing r g).ring (cqRing k)).waiting) = _
  rw [ring_modRing]
  split
  · next same =>
    rw [(h _).1, (h _).2, same]
    rfl
  · rfl

/-- NQ holds nothing of a completion ring. -/
theorem pledges_nq {g : Ring → Ring} : pledges (d.modRing nqRing g) = pledges d := by
  refine Prod.ext rfl (funext fun k => ?_)
  show (((d.modRing nqRing g).ring (cqRing k)).reserved, ((d.modRing nqRing g).ring (cqRing k)).waiting) = _
  rw [ring_modRing, if_neg (show nqRing ≠ cqRing k from (completionRing_ne k).symm)]
  rfl

theorem pledges_foldl {β : Type} {g : Device → β → Device} (h : ∀ d b, pledges (g d b) = pledges d) (l : List β) (d : Device) :
    pledges (l.foldl g d) = pledges d := foldl_keeps pledges g h l d

theorem pledges_modOut {g : OutHalf → OutHalf} : pledges (d.modOut p n g) = pledges d := by
  refine pledges_modPort (Prod.ext rfl (funext fun m => ?_))
  show (((d.port p).modEntry n fun x => { x with outbound := g x.outbound }).entry m).inbound = _
  rw [entry_modEntry]
  split
  · next same => rw [same]; rfl
  · rfl

/-! ## The work at the end of an event -/

theorem pledges_offer (o : Offer) : pledges (d.offer p o) = pledges d := pledges_modPort rfl

theorem pledges_offerUnit : pledges (d.offerUnit p c) = pledges d := by
  have started : pledges (d.startMessage p c) = pledges d := by
    unfold Device.startMessage
    dsimp only
    split
    · exact (pledges_of_frame (d := d.modOut p (d.chan c).number fun h => { h with credits := h.credits - 1, openMark := true }) rfl
        rfl).trans pledges_modOut
    · rfl
  unfold Device.offerUnit
  split
  · rfl
  · rw [pledges_offer, pledges_modPort rfl, started]

theorem pledges_sendMessage : pledges (d.sendMessage p c) = pledges d := by
  unfold Device.sendMessage
  dsimp only
  repeat' split
  · rfl
  · exact pledges_offerUnit
  · exact pledges_offer _

theorem pledges_offerHead : pledges (d.offerHead p) = pledges d := by
  unfold Device.offerHead
  split
  · rfl
  · dsimp only
    split
    · rw [pledges_offer, pledges_modPort rfl]
    · rw [pledges_offer, pledges_modPort rfl]

theorem promises_releaseTurn (x : Port) : promises x.releaseTurn = promises x := by
  unfold Port.releaseTurn Port.cutSlice
  split
  · split <;> rfl
  · rfl

theorem pledges_transmit : pledges (d.transmit p) = pledges d := by
  unfold Device.transmit
  split
  · unfold Device.proceed
    dsimp only
    repeat' split
    · exact pledges_offer _
    · exact pledges_offer _
    · exact pledges_offerUnit
    · exact pledges_modPort (promises_releaseTurn _)
    · exact pledges_sendMessage
    · exact pledges_offerHead
    · rfl
  · rfl

theorem pledges_issueOutbound : pledges (d.issueOutbound p) = pledges d := by
  have read : pledges (d.issueRead p) = pledges d := by
    unfold Device.issueRead
    dsimp only
    repeat' split
    · rfl
    · rfl
    · rfl
    · exact (pledges_modPort (d := d.place _ _ _ _) rfl).trans (pledges_of_frame rfl rfl)
  have copy : ∀ e : Device, pledges (e.issueCopy p) = pledges e := fun e => by
    unfold Device.issueCopy
    dsimp only
    repeat' split
    · rfl
    · rfl
    · exact (pledges_of_frame (d := e.modPort p fun x => { x with outStaging := _ }) rfl rfl).trans (pledges_modPort rfl)
  rw [Device.issueOutbound, copy, read]

theorem pledges_service : pledges (d.service p) = pledges d := by
  have picked : ∀ e : Device, pledges (e.pickChannel p) = pledges e := fun e => by
    unfold Device.pickChannel
    dsimp only
    repeat' split
    · exact pledges_modPort rfl
    · rfl
    · rfl
  have asked : ∀ e : Device, pledges (e.askForTurn p) = pledges e := fun e => by
    unfold Device.askForTurn
    dsimp only
    split
    · exact pledges_modPort rfl
    · rfl
  have staged : ∀ e : Device, pledges (e.restage p) = pledges e := fun e => by
    unfold Device.restage
    dsimp only
    split
    · rfl
    · exact pledges_modPort rfl
  unfold Device.service
  split
  · dsimp only
    rw [pledges_issueOutbound, pledges_issueOutbound, pledges_issueOutbound, pledges_issueOutbound, staged, asked, pledges_transmit,
      picked, pledges_modPort rfl]
  · rfl

/-- With no ring marked as having gained room, the waiting lists rest. -/
theorem walkRings_still (still : ∀ k, (d.ring k).gained = false) : pledges d.walkRings = pledges d := by
  have walks : ∀ (l : List RingId) (e : Device), (∀ k, (e.ring k).gained = false) →
      pledges (l.foldl Device.walkRing e) = pledges e := by
    intro l
    induction l with
    | nil => exact fun _ _ => rfl
    | cons r l ih =>
      intro e none
      have rests : e.walkRing r = e.modRing r fun y => { y with gained := false } :=
        WaitingLists.walkRing_still fun gained => by rw [none r] at gained; cases gained
      rw [List.foldl_cons, rests]
      refine (ih _ fun k => ?_).trans (pledges_modRing (by exact fun _ => ⟨rfl, rfl⟩))
      rw [ring_modRing]
      split
      · rfl
      · exact none k
  exact walks allRings d still

theorem pledges_settle (still : ∀ k, (d.ring k).gained = false) : pledges d.settle = pledges d := by
  have record : ∀ (e : Device) r, pledges (e.issueRecord r) = pledges e := fun e r => by
    unfold Device.issueRecord
    dsimp only
    split
    · exact (pledges_modRing (d := e.place _ _ _ _) (by exact fun _ => ⟨rfl, rfl⟩)).trans (pledges_of_frame rfl rfl)
    · rfl
  have slot : ∀ e : Device, pledges e.requestSlot = pledges e := fun e => by
    unfold Device.requestSlot
    repeat' split
    · rfl
    · exact pledges_nq
    · exact (pledges_of_frame (d := e.reserve nqRing 1) rfl rfl).trans (pledges_nq (d := e))
  have fetch : ∀ e : Device, pledges e.fetchCommands = pledges e := fun e => by
    unfold Device.fetchCommands
    dsimp only
    split <;> rfl
  unfold Device.settle Device.issueRecords
  rw [fetch, slot, pledges_foldl (fun e r => record e r), pledges_foldl (fun e q => pledges_service), walkRings_still still]

end Sys2Proof.MemoryReturns
end

section
/-! SUPPORT. What the generator queues for an IN channel: the reservations, the credits in flight, the waiting half and the one GRANT
entry (R28 to R30). -/

namespace Sys2Proof.MemoryReturns

open Sys2Proof.Machine Sys2Proof.Engaging Sys2Proof.LinkBytes Sys2Proof.Closes Sys2Proof.Acceptances

variable {d e : Device} {c : ChannelId} {p q : PortId} {n : LinkNumber} {r : RingId} {x : Port} {k v : Nat}
  {before after l : List ControlEntry}

/-! ## The GRANT entry (R30) -/

/-- Whether an entry is the GRANT of a number. -/
def isGrantOf (n : LinkNumber) : ControlEntry → Bool
  | .grant m _ => m == n
  | _ => false

theorem isGrantOf_false (none : ∀ v, .grant n v ∉ l) : ∀ e ∈ l, isGrantOf n e = false := by
  intro e he
  cases e with
  | grant m v =>
    by_cases same : m = n
    · subst same; exact absurd he (none v)
    · simp [isGrantOf, same]
  | _ => rfl

/-- `k` more credits on the GRANT of a number. -/
def moreGrant (n : LinkNumber) (k : Nat) : ControlEntry → ControlEntry
  | .grant m v => if m = n then .grant m (v + k) else .grant m v
  | e => e

theorem moreGrant_other {e : ControlEntry} (other : isGrantOf n e = false) : moreGrant n k e = e := by
  cases e with
  | grant m v => exact if_neg (by simpa [isGrantOf] using other)
  | _ => rfl

theorem addGrant_eq (l : List ControlEntry) :
    addGrant n k l = if l.any (isGrantOf n) then l.map (moreGrant n k) else l ++ [.grant n k] := rfl

theorem addGrant_none (none : ∀ v, .grant n v ∉ l) : addGrant n k l = l ++ [.grant n k] := by
  rw [addGrant_eq, if_neg]
  simp only [List.any_eq_true, not_exists, not_and]
  intro e he
  rw [isGrantOf_false none e he]
  decide

theorem addGrant_one (earlier : ∀ u, .grant n u ∉ before) (later : ∀ u, .grant n u ∉ after) :
    addGrant n k (before ++ .grant n v :: after) = before ++ .grant n (v + k) :: after := by
  have kept : ∀ l : List ControlEntry, (∀ u, .grant n u ∉ l) → l.map (moreGrant n k) = l := fun l none =>
    (List.map_congr_left fun e he => moreGrant_other (isGrantOf_false none e he)).trans (List.map_id l)
  rw [addGrant_eq, if_pos (by simp [isGrantOf]), List.map_append, List.map_cons, kept _ earlier, kept _ later]
  simp [moreGrant]

theorem control_modUnoffered (x : Port) (f : List ControlEntry → List ControlEntry) : (x.modUnoffered f).control =
    if x.headOffered then x.control.take 1 ++ f (x.control.drop 1) else f x.control := by
  unfold Port.modUnoffered
  split <;> rfl

/-- A GRANT of a number that is not offered joins the list at its tail. -/
theorem control_grant_none (none : ∀ v, .grant n v ∉ x.control) :
    (x.modUnoffered (addGrant n k)).control = x.control ++ [.grant n k] := by
  rw [control_modUnoffered]
  split
  · rw [addGrant_none fun v held => none v (List.mem_of_mem_drop held), ← List.append_assoc, List.take_append_drop]
  · exact addGrant_none none

/-- The GRANT of a number that stands in the list and is not offered grows. -/
theorem control_grant_one (free : x.grantOffered n = false) (list : x.control = before ++ .grant n v :: after)
    (earlier : ∀ u, .grant n u ∉ before) (later : ∀ u, .grant n u ∉ after) :
    (x.modUnoffered (addGrant n k)).control = before ++ .grant n (v + k) :: after := by
  rw [control_modUnoffered]
  split
  · next offered =>
    cases before with
    | nil => simp [Port.grantOffered, offered, list] at free
    | cons e before =>
      rw [list]
      show e :: addGrant n k (before ++ .grant n v :: after) = _
      rw [addGrant_one (fun u held => earlier u (List.mem_cons_of_mem _ held)) later]
      rfl
  · rw [list, addGrant_one earlier later]

/-! ## The generator's run (R28, R29) -/

/-- What a run of the generator leaves that gives a half `k` of the credits it wants. -/
structure Pledged (e d : Device) (p : PortId) (n : LinkNumber) (r : RingId) (want k : Nat) : Prop where
  reserved : (e.ring r).reserved = (d.ring r).reserved + k
  inFlight : (e.inHalf p n).inFlight = (d.inHalf p n).inFlight + k
  waits : k < want → .inHalf p n ∈ (e.ring r).waiting
  control : (e.port p).control = if k = 0 then (d.port p).control else ((d.port p).modUnoffered (addGrant n k)).control

/-- A ring's change that gains it no room. -/
theorem gained_modRing {g : Ring → Ring} (h : ∀ x, (g x).gained = x.gained) (j : RingId) :
    ((d.modRing r g).ring j).gained = (d.ring j).gained := by
  rw [ring_modRing]
  split
  · next same => rw [h, same]
  · rfl

theorem waitFor_waiting (d : Device) (r : RingId) (w : Requester) : w ∈ ((d.waitFor r w).ring r).waiting := by
  rw [Device.waitFor, ring_modRing_self]
  split
  · next listed => simpa using listed
  · exact List.mem_append_right _ List.mem_cons_self

theorem given_pledged (d : Device) (p : PortId) (n : LinkNumber) (r : RingId) (k : Nat) :
    Pledged (if k = 0 then d else (d.reserve r k).queueGrant p n k) d p n r k k ∧
      ∀ j, ((if k = 0 then d else (d.reserve r k).queueGrant p n k).ring j).gained = (d.ring j).gained := by
  split
  · next none =>
    subst none
    exact ⟨⟨rfl, rfl, fun less => absurd less (Nat.lt_irrefl _), rfl⟩, fun _ => rfl⟩
  · next some =>
    have ring : ∀ j, (((d.reserve r k).queueGrant p n k).ring j) = (d.reserve r k).ring j := fun _ => rfl
    refine ⟨⟨?_, ?_, fun less => absurd less (Nat.lt_irrefl _), ?_⟩, fun j => ?_⟩
    · rw [ring, Device.reserve, ring_modRing_self]
    · rw [WaitingLists.queueGrant_inHalf, if_pos ⟨rfl, rfl⟩]
      rfl
    · rw [if_neg some, Device.queueGrant, port_modPort_self, Device.modIn, port_modPort_self, control_modUnoffered, control_modUnoffered]
      rfl
    · rw [ring]
      exact gained_modRing (by exact fun _ => rfl) j

theorem runGenerator_pledged (acts : d.generatorOwner p n = some c) (kind : (d.chan c).kind = .inn) (ring : cqRing (d.chan c).ring = r) :
    Pledged (d.runGenerator p n) d p n r (d.available p n c) (min (d.available p n c) (d.ring r).room) ∧
      ∀ j, ((d.runGenerator p n).ring j).gained = (d.ring j).gained := by
  obtain ⟨owner, free⟩ := WaitingLists.generatorOwner_some acts
  have asks := WaitingLists.generate_inn acts kind ring
  obtain ⟨⟨reserved, inFlight, -, control⟩, gained⟩ := given_pledged d p n r (min (d.available p n c) (d.ring r).room)
  generalize hE : (if min (d.available p n c) (d.ring r).room = 0 then d else _) = E at asks reserved inFlight control gained
  unfold Device.runGenerator
  rw [owner, asks]
  by_cases short : (d.ring r).room < d.available p n c
  · rw [decide_eq_true short]
    dsimp only
    rw [ring]
    refine ⟨⟨?_, inFlight, fun _ => waitFor_waiting E r _, control⟩, fun j => ?_⟩
    · rw [← reserved, Device.waitFor, ring_modRing_self]
      split <;> rfl
    · exact (gained_modRing (by intro x; split <;> rfl) j).trans (gained j)
  · rw [decide_eq_false short]
    dsimp only
    rw [free, ring, if_neg Bool.false_ne_true]
    refine ⟨⟨?_, inFlight, fun less => absurd less (by omega), control⟩, fun j => ?_⟩
    · rw [← reserved, Device.unwait, ring_modRing_self]
    · exact (gained_modRing (by exact fun _ => rfl) j).trans (gained j)

end Sys2Proof.MemoryReturns
end

section
/-! SUPPORT. The return of a record fetch (R7, R17, R28, R89, R109). -/

namespace Sys2Proof.MemoryReturns

open Sys2Proof.Machine Sys2Proof.Engaging Sys2Proof.LinkBytes Sys2Proof.Closes Sys2Proof.Acceptances

variable {s t : State} {d e : Device} {c : ChannelId} {p : PortId} {n : LinkNumber} {id opening : Nat} {r : Request} {bytes : List Byte}
  {a : Address}

theorem exec_recordFetchDone (running : s.engine = .running) (found : s.dev.request? id = some r)
    (access : r.access = .recordFetch c opening) {reply : ReadReply} (answered : r.answeredBy reply = true) :
    exec (.recordFetchDone id reply) s =
      .next { s with dev := ((s.dev.returned id).recordFetchReturned c opening reply).settle } := by
  change execRecordFetchDone id reply s = _
  simp only [execRecordFetchDone, State.whenRunning, running, if_true, found, access, answered]

/-- The blocks as a record fetch has returned, before its result counts. -/
def fetchReturned (d : Device) (id : Nat) (c : ChannelId) : Device := (d.returned id).modChan c fun y => { y with fetchBusy := false }

theorem fetchReturned_agrees (d : Device) (id : Nat) (c : ChannelId) : Agrees (fetchReturned d id c) d :=
  ⟨steady_modChan rfl, rfl, rfl⟩

theorem fetchReturned_chan : (fetchReturned d id c).chan c = { d.chan c with fetchBusy := false } := chan_modChan_self ..

theorem recordFetchReturned_spent {reply : ReadReply} (spent : (d.chan c).opening ≠ opening ∨ (d.chan c).state ≠ .opened) :
    ((d.returned id).recordFetchReturned c opening reply).steady = d.steady := by
  unfold Device.recordFetchReturned
  split
  · next same =>
    have shut : (d.chan c).state ≠ .opened := spent.resolve_left (not_not.mpr same)
    dsimp only
    rw [if_neg (show ¬ (((d.returned id).chan c).state == .opened) = true from fun on => shut (beq_iff_eq.mp on))]
    exact (fetchReturned_agrees d id c).steady
  · rfl

theorem recordFetchReturned_data (same : (d.chan c).opening = opening) (opened : (d.chan c).state = .opened) :
    (d.returned id).recordFetchReturned c opening (.data bytes) = (fetchReturned d id c).addRecords c bytes := by
  unfold Device.recordFetchReturned
  rw [if_pos (show ((d.returned id).chan c).opening = opening from same)]
  exact if_pos (show (((d.returned id).chan c).state == .opened) = true from beq_iff_eq.mpr opened)

theorem recordFetchReturned_busError (same : (d.chan c).opening = opening) (opened : (d.chan c).state = .opened) :
    (d.returned id).recordFetchReturned c opening (.busError a) = (fetchReturned d id c).channelFault c .ringRead (some a) := by
  unfold Device.recordFetchReturned
  rw [if_pos (show ((d.returned id).chan c).opening = opening from same)]
  exact if_pos (show (((d.returned id).chan c).state == .opened) = true from beq_iff_eq.mpr opened)

/-! ## Records that join the list (R89, R109) -/

/-- A channel with records fetched. -/
def fetched (l : List HostRecord) (y : Channel) : Channel :=
  { y with held := y.held ++ l, fetch := (y.fetch + l.length) % y.size }

/-- The blocks as supply records have joined, with the generator run. -/
def supplied (d : Device) (c : ChannelId) (l : List HostRecord) : Device :=
  ((d.modChan c (fetched l)).runGenerator (d.chan c).port (d.chan c).number).fetchRecords c

theorem addRecords_out (kind : (d.chan c).kind = .out) (opened : (d.chan c).state = .opened) :
    (d.addRecords c bytes).steady = (d.modChan c fun y => nextPhase (fetched (parseHostRecords true bytes) y)).steady := by
  have added : d.addRecords c bytes = ((d.modChan c (fetched (parseHostRecords true bytes))).startNext c).fetchRecords c := by
    unfold Device.addRecords
    dsimp only
    rw [kind]
    rfl
  have chan : (d.modChan c (fetched (parseHostRecords true bytes))).chan c = fetched (parseHostRecords true bytes) (d.chan c) :=
    chan_modChan_self ..
  rw [added, EngineWindow.fetchRecords_steady, startNext_steady (by rw [chan]; exact opened) (by rw [chan]; exact kind), modChan_modChan]

theorem addRecords_inn (kind : (d.chan c).kind = .inn) (sized : ∀ q ∈ parseHostRecords false bytes, q.size ≠ 0) :
    d.addRecords c bytes = supplied d c (parseHostRecords false bytes) := by
  have none : ((parseHostRecords false bytes).any fun q => q.size == 0) = false := by
    rw [Bool.eq_false_iff]
    simp only [ne_eq, List.any_eq_true, beq_iff_eq, not_exists, not_and]
    exact sized
  unfold Device.addRecords
  dsimp only
  rw [kind, show (Kind.inn == Kind.out) = false from rfl, none]
  rfl

theorem addRecords_unsized (kind : (d.chan c).kind = .inn) (unsized : ∃ q ∈ parseHostRecords false bytes, q.size = 0) :
    d.addRecords c bytes = d.channelFault c .ringRead none := by
  have some : ((parseHostRecords false bytes).any fun q => q.size == 0) = true := by
    simp only [List.any_eq_true, beq_iff_eq]
    exact unsized
  unfold Device.addRecords
  dsimp only
  rw [kind, show (Kind.inn == Kind.out) = false from rfl, some]
  rfl

end Sys2Proof.MemoryReturns
end

section
/-! SUPPORT. The return of a record fetch, by the kind of its channel and by its reply (R7, R17, R28 to R30, R109). -/

namespace Sys2Proof.MemoryReturns

open Sys2Proof.Machine Sys2Proof.Engaging Sys2Proof.LinkBytes Sys2Proof.Closes Sys2Proof.Acceptances

variable {s t : State} {d e : Device} {c : ChannelId} {p : PortId} {n : LinkNumber} {id opening : Nat} {bytes : List Byte} {a : Address}
  {l : List HostRecord} {h : HostRecord} {rest : List HostRecord}

/-! ## What the generator does with the records (R28 to R30) -/

theorem supplied_steady (same : Agrees e d) : (supplied e c l).steady = (d.modChan c (fetched l)).steady := by
  have joins : (fetched l (e.chan c)).steady = (fetched l (d.chan c)).steady := by
    have joined := congrArg (fetched l) (chan_of_steady same.steady c)
    exact joined
  rw [supplied, EngineWindow.fetchRecords_steady, runGenerator_steady]
  exact modChan_steady same.steady joins

theorem pledges_fetchRecords (d : Device) (c : ChannelId) :
    pledges (d.fetchRecords c) = pledges d ∧ (d.fetchRecords c).rings = d.rings := by
  unfold Device.fetchRecords
  dsimp only
  split
  · exact ⟨pledges_of_frame rfl rfl, rfl⟩
  · exact ⟨rfl, rfl⟩

/-- The wants of an IN channel: the buffers held that no credit and no open message stands behind (R28). -/
def wants (d : Device) (c : ChannelId) (p : PortId) (n : LinkNumber) : Nat :=
  (d.chan c).held.length - ((d.inHalf p n).granted + (d.inHalf p n).inFlight + if (d.inHalf p n).openMark then 1 else 0)

theorem available_wants (kind : (d.chan c).kind = .inn) : d.available p n c = wants d c p n := by
  have held : d.buffersHeld c = (d.chan c).held.length := by unfold Device.buffersHeld; rw [kind]
  unfold Device.available wants bit
  rw [held]
  omega

/-- The generator acts on the half of an OPEN IN channel whose port is ACTIVE, with no revoke pending and no GRANT of it offered. -/
theorem generatorOwner_acts (kind : (d.chan c).kind = .inn) (opened : (d.chan c).state = .opened) (active : (d.port p).state = .active)
    (owner : (d.inHalf p n).owner = some c) (unrevoked : (d.inHalf p n).revokePending = false)
    (free : (d.port p).grantOffered n = false) : d.generatorOwner p n = some c := by
  unfold Device.generatorOwner
  rw [owner]
  simp [Channel.isOutbound, kind, opened, active, unrevoked, free]

/-- What the generator has given stands at the end of the event. -/
theorem supplied_pledged (kind : (d.chan c).kind = .inn) (opened : (d.chan c).state = .opened) (port : (d.chan c).port = p)
    (number : (d.chan c).number = n) (active : (d.port p).state = .active) (owner : (d.inHalf p n).owner = some c)
    (unrevoked : (d.inHalf p n).revokePending = false) (free : (d.port p).grantOffered n = false)
    (still : ∀ k, (d.ring k).gained = false) :
    Pledged (supplied d c l).settle d p n (cqRing (d.chan c).ring) (wants (d.modChan c (fetched l)) c p n)
      (min (wants (d.modChan c (fetched l)) c p n) (d.ring (cqRing (d.chan c).ring)).room) := by
  have chan : (d.modChan c (fetched l)).chan c = fetched l (d.chan c) := chan_modChan_self ..
  have acts : (d.modChan c (fetched l)).generatorOwner p n = some c :=
    generatorOwner_acts (by rw [chan]; exact kind) (by rw [chan]; exact opened) active owner unrevoked free
  have given := runGenerator_pledged acts (by rw [chan]; exact kind) (r := cqRing (d.chan c).ring) (by rw [chan]; rfl)
  rw [available_wants (by rw [chan]; exact kind)] at given
  obtain ⟨⟨reserved, inFlight, waits, control⟩, gained⟩ := given
  obtain ⟨fetches, rings⟩ := pledges_fetchRecords ((d.modChan c (fetched l)).runGenerator p n) c
  have quiet : ∀ k, ((((d.modChan c (fetched l)).runGenerator p n).fetchRecords c).ring k).gained = false := fun k => by
    rw [Device.ring, rings]
    exact (gained k).trans (still k)
  have stands := (pledges_settle quiet).trans fetches
  obtain ⟨slots, list⟩ := ring_of_pledges stands (d.chan c).ring
  rw [supplied, port, number]
  refine ⟨slots.trans reserved, ?_, fun short => by rw [list]; exact waits short, (control_of_pledges stands p).trans control⟩
  rw [inHalf_of_pledges stands]
  exact inFlight

theorem Pledged.control_none {r : RingId} {want k : Nat} (g : Pledged e d p n r want k) (some : 1 ≤ k)
    (none : ∀ v, .grant n v ∉ (d.port p).control) : (e.port p).control = (d.port p).control ++ [.grant n k] := by
  rw [g.control, if_neg (by omega)]
  exact control_grant_none none

theorem Pledged.control_one {r : RingId} {want k v : Nat} {before after : List ControlEntry} (g : Pledged e d p n r want k)
    (free : (d.port p).grantOffered n = false) (list : (d.port p).control = before ++ .grant n v :: after)
    (earlier : ∀ u, .grant n u ∉ before) (later : ∀ u, .grant n u ∉ after) :
    (e.port p).control = before ++ .grant n (v + k) :: after := by
  rw [g.control]
  split
  · next none => rw [none, list]; rfl
  · exact control_grant_one free list earlier later

/-! ## The faults of a record fetch (R17, R109) -/

theorem fault_inn (same : Agrees e d) (kind : (e.chan c).kind = .inn) (opened : (e.chan c).state = .opened) (port : (e.chan c).port = p)
    (number : (e.chan c).number = n) (up : (e.port p).up = true) (shut : (e.inHalf p n).openMark = false) (x : Option Address) :
    ∃ f, Agrees f (asksRevoke (d.modChan c (faults .ringRead)) c p n) ∧
      e.channelFault c .ringRead x = f.faultNotices c .ringRead x :=
  ⟨_, faultIn_agrees same port number up shut, channelFault_inn opened kind⟩

theorem fault_unstarted (same : Agrees e d) (kind : (e.chan c).kind = .out) (opened : (e.chan c).state = .opened)
    (out : (e.chan c).out = (d.chan c).out) (unstarted : (e.chan c).out.phase ≠ .started) (x : Option Address) :
    ∃ f, Agrees f ((d.modChan c (faults .ringRead)).modChan c unwaiting) ∧
      e.channelFault c .ringRead x = f.faultNotices c .ringRead x := by
  have taken : Agrees (e.modChan c (faults .ringRead)) (d.modChan c (faults .ringRead)) :=
    same.modChan (congrArg (faults .ringRead) (chan_of_steady same.steady c))
  refine ⟨_, faultOut_unstarted taken ?_ ?_, channelFault_out opened kind⟩
  · rw [chan_modChan_self, chan_modChan_self]
    exact out
  · rw [chan_modChan_self]
    exact unstarted

theorem fault_started (same : Agrees e d) (kind : (e.chan c).kind = .out) (opened : (e.chan c).state = .opened)
    (out : (e.chan c).out = (d.chan c).out) (started : (e.chan c).out.phase = .started) (port : (e.chan c).port = p)
    (number : (e.chan c).number = n) (marked : (e.outHalf p n).openMark = true) (held : (e.chan c).held = h :: rest)
    (x : Option Address) :
    ∃ f, Agrees f (startedFaults (d.modChan c (faults .ringRead)) c p n h rest) ∧
      e.channelFault c .ringRead x = f.faultNotices c .ringRead x := by
  have taken : Agrees (e.modChan c (faults .ringRead)) (d.modChan c (faults .ringRead)) :=
    same.modChan (congrArg (faults .ringRead) (chan_of_steady same.steady c))
  have chan : (e.modChan c (faults .ringRead)).chan c = faults .ringRead (e.chan c) := chan_modChan_self ..
  refine ⟨_, faultOut_started taken ?_ ?_ ?_ ?_ ?_ ?_ ?_, channelFault_out opened kind⟩
  · rw [chan]; exact fun state => nomatch state
  · rw [chan]; exact started
  · rw [chan]; exact port
  · rw [chan]; exact number
  · exact marked
  · rw [chan]; exact held
  · rw [chan, chan_modChan_self]; exact out

end Sys2Proof.MemoryReturns
end

section
/-! SUPPORT. The return of a record fetch, case by case (R7, R17, R28 to R30, R89, R109). -/

namespace Sys2Proof.MemoryReturns

open Sys2Proof.Machine Sys2Proof.Engaging Sys2Proof.LinkBytes Sys2Proof.Closes Sys2Proof.Acceptances

variable {s t : State} {d e : Device} {c : ChannelId} {p : PortId} {n : LinkNumber} {id opening : Nat} {bytes : List Byte} {a : Address}
  {l : List HostRecord} {h : HostRecord} {rest : List HostRecord}

/-- A fault's notices, and the blocks at the end of its event. -/
theorem fault_told {f m : Device} (same : Agrees f m) (c : ChannelId) (a : Address) :
    ∃ e g, m.told (.channelFaulted c .ringRead) e ∧
      e.told (.hostError (BitVec.ofNat 8 c.val) .ringRead (a.extractLsb 31 0)) g ∧
      s.becomes { s with dev := (f.faultNotices c .ringRead (some a)).settle } g := by
  obtain ⟨e, g, told, told', steady⟩ := faultNotices_two same c .ringRead a
  exact ⟨e, g, told, told', becomes_settle steady⟩

/-- Settles O38: by the opening and state of the channel, its kind, and the reply; a fault by the message, and supply records by what the
generator makes of them. -/
theorem recordFetchReturnJoinsOrFaults : Obligations.RecordFetchReturnJoinsOrFaults := by
  intro id r c opening s running found access x p n half live faulted revoked
  have chan : (fetchReturned s.dev id c).chan c = { x with fetchBusy := false } := fetchReturned_chan
  have same := fetchReturned_agrees s.dev id c
  have asked : asksRevoke (s.dev.modChan c (faults .ringRead)) c p n = revoked := by
    unfold asksRevoke
    rw [modChan_modChan]
    rfl
  refine ⟨fun bytes whole => ?_, fun a => ?_⟩
  · refine ⟨_, exec_recordFetchDone running found access (beq_iff_eq.mpr whole), fun spent => ?_, fun alive kind => ?_,
      fun alive kind sized => ⟨?_, fun active owner unrevoked free still => ?_⟩, fun alive kind unsized up shut => ?_⟩
    · exact becomes_settle (recordFetchReturned_spent spent)
    · rw [recordFetchReturned_data alive.1 alive.2]
      refine becomes_settle ((addRecords_out (by rw [chan]; exact kind) (by rw [chan]; exact alive.2)).trans ?_)
      refine modChan_steady same.steady ?_
      rw [chan]
      rfl
    · rw [recordFetchReturned_data alive.1 alive.2, addRecords_inn (by rw [chan]; exact kind) sized]
      exact becomes_settle (supplied_steady same)
    · rw [recordFetchReturned_data alive.1 alive.2, addRecords_inn (by rw [chan]; exact kind) sized]
      have given := supplied_pledged (d := fetchReturned s.dev id c) (p := p) (n := n) (l := parseHostRecords false bytes)
        (by rw [chan]; exact kind) (by rw [chan]; exact alive.2) (by rw [chan]) (by rw [chan]) active owner unrevoked free still
      have wanted : wants ((fetchReturned s.dev id c).modChan c (fetched (parseHostRecords false bytes))) c p n =
          x.held.length + (parseHostRecords false bytes).length - (half.granted + half.inFlight + if half.openMark then 1 else 0) := by
        unfold wants
        rw [chan_modChan_self, chan, ← List.length_append]
        rfl
      rw [chan, wanted] at given
      dsimp only
      exact ⟨given.reserved, given.inFlight, given.waits, given.control_none, fun before v after => given.control_one free⟩
    · rw [recordFetchReturned_data alive.1 alive.2, addRecords_unsized (by rw [chan]; exact kind) unsized]
      obtain ⟨f, agrees, fault⟩ := fault_inn (p := p) (n := n) same (by rw [chan]; exact kind) (by rw [chan]; exact alive.2)
        (by rw [chan]) (by rw [chan]) up shut none
      rw [asked] at agrees
      obtain ⟨g, told, steady⟩ := faultNotices_one agrees c .ringRead
      rw [fault]
      exact ⟨g, told, becomes_settle steady⟩
  · refine ⟨_, exec_recordFetchDone running found access rfl, fun spent => ?_, fun alive kind unstarted => ?_,
      fun q rest alive kind started marked held => ?_, fun alive kind up shut => ?_⟩
    · exact becomes_settle (recordFetchReturned_spent spent)
    all_goals rw [recordFetchReturned_busError alive.1 alive.2]
    · obtain ⟨f, agrees, fault⟩ := fault_unstarted same (by rw [chan]; exact kind) (by rw [chan]; exact alive.2) (by rw [chan])
        (by rw [chan]; exact unstarted) (some a)
      rw [fault]
      rw [modChan_modChan] at agrees ⊢
      exact fault_told agrees c a
    · obtain ⟨f, agrees, fault⟩ := fault_started (p := p) (n := n) same (by rw [chan]; exact kind) (by rw [chan]; exact alive.2)
        (by rw [chan]) (by rw [chan]; exact started) (by rw [chan]) (by rw [chan]) marked (by rw [chan]; exact held) (some a)
      have taken : s.dev.modChan c (faults .ringRead) = faulted x.revoke := PeerEnds.modChan_at rfl
      have self : (faulted x.revoke).chan c = faults .ringRead x := chan_modChan_self ..
      rw [taken, startedFaults, self] at agrees
      rw [fault]
      exact fault_told agrees c a
    · obtain ⟨f, agrees, fault⟩ := fault_inn (p := p) (n := n) same (by rw [chan]; exact kind) (by rw [chan]; exact alive.2)
        (by rw [chan]) (by rw [chan]) up shut (some a)
      rw [asked] at agrees
      rw [fault]
      exact fault_told agrees c a

end Sys2Proof.MemoryReturns
end
